-- ==== Sys2Proof/Word.lean ====
section
/-! DEFINITION. The words of the part, the two fixed-size containers its blocks are built of, and their plainest
operations. A container is data: a list with its length, or four named places. -/
namespace Sys2Proof

/-- One byte of a control port. -/
abbrev Byte := BitVec 8

/-- A quantity of two bytes, for example a character code or a generation (00, Numbers). -/
abbrev Half := BitVec 16

/-- A control port P0–P3. -/
abbrev Port := Fin 4

/-- A video channel C0–C3. -/
abbrev Chan := Fin 4

/-- A row number 0–47 (R1). -/
abbrev RowNo := Fin 48

/-- The number of a leased row, 0–43 (R1). -/
abbrev LeasedNo := Fin 44

/-- A glyph cell number 0–255 (R31). -/
abbrev CellNo := Fin 256

/-- The four like things the part has of each port or channel. -/
structure Four (α : Type) where
  at0 : α
  at1 : α
  at2 : α
  at3 : α
  deriving DecidableEq, Repr

def Four.get {α : Type} (t : Four α) : Fin 4 → α
  | ⟨0, _⟩ => t.at0
  | ⟨1, _⟩ => t.at1
  | ⟨2, _⟩ => t.at2
  | ⟨3, _⟩ => t.at3

def Four.set {α : Type} (t : Four α) (i : Fin 4) (a : α) : Four α :=
  match i with
  | ⟨0, _⟩ => { t with at0 := a }
  | ⟨1, _⟩ => { t with at1 := a }
  | ⟨2, _⟩ => { t with at2 := a }
  | ⟨3, _⟩ => { t with at3 := a }

def Four.modify {α : Type} (t : Four α) (i : Fin 4) (f : α → α) : Four α := t.set i (f (t.get i))

def Four.map {α β : Type} (f : α → β) (t : Four α) : Four β := ⟨f t.at0, f t.at1, f t.at2, f t.at3⟩

def Four.fill {α : Type} (a : α) : Four α := ⟨a, a, a, a⟩

/-- A set of channels (or of ports): one flag for each member. -/
abbrev ChanSet := Four Bool

def ChanSet.isEmpty (t : ChanSet) : Bool := !(t.at0 || t.at1 || t.at2 || t.at3)

/-- The part's tables of 24, 44, 48 and 256 like things. -/
structure Table (α : Type) (n : Nat) where
  cells : List α
  size : cells.length = n
  deriving DecidableEq, Repr

def Table.get {α : Type} {n : Nat} (t : Table α n) (i : Fin n) : α :=
  t.cells[i.val]'(by rw [t.size]; exact i.isLt)

def Table.set {α : Type} {n : Nat} (t : Table α n) (i : Fin n) (a : α) : Table α n :=
  ⟨t.cells.set i.val a, by rw [List.length_set, t.size]⟩

def Table.modify {α : Type} {n : Nat} (t : Table α n) (i : Fin n) (f : α → α) : Table α n :=
  t.set i (f (t.get i))

def Table.fill {α : Type} (n : Nat) (a : α) : Table α n := ⟨List.replicate n a, List.length_replicate⟩

def Table.map {α β : Type} {n : Nat} (f : α → β) (t : Table α n) : Table β n :=
  ⟨t.cells.map f, by rw [List.length_map, t.size]⟩

/-- The numbers 0 to n − 1 in ascending order. -/
def ascending (n : Nat) : List (Fin n) := List.ofFn fun i => i

end Sys2Proof
end

