-- ==== Sys2Proof/Config.lean ====
section
/-! DEFINITION. What the manual fixes for the part as a whole, and the one free value of the model. -/
namespace Sys2Proof

/-- Every queue holds up to 24 events (R153). -/
def Config.queueCapacity : Nat := 24

/-- A channel draws at most 32 row placements in a frame (R106). -/
def Config.drawBudget : Nat := 32

/-- No session is in more than 8 waiter lists (R58, R61). -/
def Config.waitLimit : Nat := 8

/-- The part revision byte that ATTACH answers (R132). -/
def Config.revision : Byte := 0x01#8

/-- The assembly buffer holds 206 bytes (R168). -/
def Config.bufferBytes : Nat := 206

/-- The largest payload of a command frame (R168). -/
def Config.payloadBytes : Nat := 200

/-- FREE VALUE (log 10). The n-th choice, used where the manual says that several orders can occur and gives no rule
for which: among timer events that fall at one moment, and among the events in flight that may be filed next. Nothing
constrains it. -/
opaque Config.freeChoice : Nat → Nat

end Sys2Proof
end

