-- ==== Sys2Proof/Syntax.lean ====
section
/-! DEFINITION. The steps of the part: one constructor for each row of spec/opcode_table.json. A command is a good
command frame on a port (R168), so it carries the session id byte and the payload bytes as they stand on the wire. -/
namespace Sys2Proof

/-- What one chip-select window carried: its whole bytes and the 0–7 bits of a partial last byte (R166). -/
structure RawFrame where
  bytes : List Byte
  bits : Nat
  deriving DecidableEq, Repr

/-- The chip-select window of a port at the moment a reset is asserted (R167): no window, or a window that has carried
so much so far. -/
inductive Window where
  | closed
  | opened (soFar : RawFrame)
  deriving DecidableEq, Repr

/-- The block that posts an event (R150, R156). Each channel engine is a block of its own. -/
inductive Source where
  | rowTable
  | claimTable
  | glyphStore
  | sessionBlock
  | channelEngine (c : Chan)
  deriving DecidableEq, Repr

/-- The steps of the part. -/
inductive Instr where
  /-- ATTACH (R131, R132), code 0x01. -/
  | attach (p : Port) (sid : Byte) (payload : List Byte)
  /-- DETACH (R141), code 0x02. -/
  | detach (p : Port) (sid : Byte) (payload : List Byte)
  /-- RENEW (R135), code 0x03. -/
  | renew (p : Port) (sid : Byte) (payload : List Byte)
  /-- SET_EVENT_MASK (R136), code 0x04. -/
  | setEventMask (p : Port) (sid : Byte) (payload : List Byte)
  /-- READ_EVENTS (R157), code 0x05. -/
  | readEvents (p : Port) (sid : Byte) (payload : List Byte)
  /-- CLAIM (R61), code 0x10. -/
  | claim (p : Port) (sid : Byte) (payload : List Byte)
  /-- RELEASE (R65), code 0x11. -/
  | release (p : Port) (sid : Byte) (payload : List Byte)
  /-- CANCEL_WAIT (R70), code 0x12. -/
  | cancelWait (p : Port) (sid : Byte) (payload : List Byte)
  /-- READ_CLAIM (R75), code 0x13. -/
  | readClaim (p : Port) (sid : Byte) (payload : List Byte)
  /-- EDIT_TEXT (R9), code 0x20. -/
  | editText (p : Port) (sid : Byte) (payload : List Byte)
  /-- SET_STYLE (R10), code 0x21. -/
  | setStyle (p : Port) (sid : Byte) (payload : List Byte)
  /-- SET_PLACEMENTS (R11), code 0x22. -/
  | setPlacements (p : Port) (sid : Byte) (payload : List Byte)
  /-- COMMIT (R13–R17), code 0x23. -/
  | commit (p : Port) (sid : Byte) (payload : List Byte)
  /-- READ_ROW (R30), code 0x24. -/
  | readRow (p : Port) (sid : Byte) (payload : List Byte)
  /-- WRITE_COMMON (R79–R83), code 0x28. -/
  | writeCommon (p : Port) (sid : Byte) (payload : List Byte)
  /-- GLYPH_BEGIN (R42), code 0x30. -/
  | glyphBegin (p : Port) (sid : Byte) (payload : List Byte)
  /-- GLYPH_LINES (R43–R46), code 0x31. -/
  | glyphLines (p : Port) (sid : Byte) (payload : List Byte)
  /-- GLYPH_ABORT (R48), code 0x32. -/
  | glyphAbort (p : Port) (sid : Byte) (payload : List Byte)
  /-- GLYPH_DELETE (R51), code 0x33. -/
  | glyphDelete (p : Port) (sid : Byte) (payload : List Byte)
  /-- READ_GLYPH (R55), code 0x34. -/
  | readGlyph (p : Port) (sid : Byte) (payload : List Byte)
  /-- READ_STORE (R56), code 0x35. -/
  | readStore (p : Port) (sid : Byte) (payload : List Byte)
  /-- CHANNEL_SET (R100), code 0x40. -/
  | channelSet (p : Port) (sid : Byte) (payload : List Byte)
  /-- CHANNEL_APPLY (R101, R102), code 0x41. -/
  | channelApply (p : Port) (sid : Byte) (payload : List Byte)
  /-- READ_CHANNEL (R108), code 0x42. -/
  | readChannel (p : Port) (sid : Byte) (payload : List Byte)
  /-- UNKNOWN_COMMAND (R172): a good frame whose code names no command. -/
  | unknownCommand (p : Port) (code : Byte) (sid : Byte) (payload : List Byte)
  /-- BAD_FRAME (R169): the window of a frame that is not good. -/
  | badFrame (p : Port) (f : RawFrame)
  /-- FETCH_FRAME (R176, R177): the marker 0x5D and then `clocked` further bits in the same window. -/
  | fetchFrame (p : Port) (clocked : Nat)
  /-- FRAME_IGNORED (R167): CSn is deasserted at the end of a window that a reset made the port ignore. -/
  | frameIgnored (p : Port)
  /-- POWER_ON (R148, R182), with the ports whose CSn is asserted at that moment. -/
  | powerOn (csn : Four Bool)
  /-- CRST_ASSERTED (R182), with the window it meets on each port. -/
  | crstAsserted (windows : Four Window)
  /-- CRST_DEASSERTED (R182), with the ports whose CSn is asserted at that moment. -/
  | crstDeasserted (csn : Four Bool)
  /-- PRST_ASSERTED (R147, R181), with the window it meets on its port. -/
  | prstAsserted (p : Port) (window : Window)
  /-- PRST_DEASSERTED (R181), with whether CSn is asserted at that moment. -/
  | prstDeasserted (p : Port) (csn : Bool)
  /-- INPUT_FRAME_START (R92). -/
  | inputFrameStart (c : Chan)
  /-- LOSS_TIMER_EXPIRY (R93). -/
  | lossTimerExpiry (c : Chan)
  /-- FREE_RUN_TIMER_EXPIRY (R94). -/
  | freeRunTimerExpiry (c : Chan)
  /-- LEASE_LOW (R138): the remaining lease of port p falls to a quarter of its term. -/
  | leaseLow (p : Port)
  /-- LEASE_EXPIRY (R139): the remaining lease of port p reaches 0. -/
  | leaseExpiry (p : Port)
  /-- EVENT_FILING (R152): the oldest event that `source` posted for a session of port p is filed. -/
  | eventFiling (source : Source) (p : Port)
  deriving DecidableEq, Repr

end Sys2Proof
end

