-- ==== Sys2Proof/Decode.lean ====
section
/-! DEFINITION. Reading the wire: the check byte (R170), the judgement of a closed frame (R169), the frame of a command
(R168, R185) and the step that a closed frame is. -/
namespace Sys2Proof

/-- A command frame opens with this marker (R168). -/
def commandMarker : Byte := 0x5C#8

/-- A fetch frame opens with this marker (R176). -/
def fetchMarker : Byte := 0x5D#8

/-- One of the eight shifts of R170, step 3. -/
def crcShift (r : Byte) : Byte := if r.msb then (r <<< 1) ^^^ 0x07#8 else r <<< 1

/-- R170, steps 2 and 3 for one byte. -/
def crcByte (r b : Byte) : Byte :=
  crcShift (crcShift (crcShift (crcShift (crcShift (crcShift (crcShift (crcShift (r ^^^ b))))))))

/-- The check byte of a list of bytes (R170). -/
def crc8 (bs : List Byte) : Byte := bs.foldl crcByte 0#8

/-- Why a frame is bad (R169). -/
inductive BadReason where
  | marker
  | bits
  | length
  | short
  | long
  | check
  deriving DecidableEq, Repr

/-- The reason byte of a BAD_FRAME response (R169). -/
def BadReason.byte : BadReason → Byte
  | .marker => 0x01#8
  | .bits => 0x02#8
  | .length => 0x03#8
  | .short => 0x04#8
  | .long => 0x05#8
  | .check => 0x06#8

/-- The frame opens with a byte other than the marker (R169, first test). -/
def wrongMarker : List Byte → Bool
  | [] => false
  | b :: _ => b != commandMarker

/-- The judgement of a frame at its close, from the assembly buffer and the count of bits of a partial byte (R169):
the first test that fails, or none for a good frame. -/
def judge (bytes : List Byte) (bits : Nat) : Option BadReason :=
  if wrongMarker bytes then some .marker
  else if bits ≠ 0 then some .bits
  else if bytes.length < 4 then some .short
  else if (bytes.getD 3 0#8).toNat > Config.payloadBytes then some .length
  else if bytes.length < (bytes.getD 3 0#8).toNat + 5 then some .short
  else if bytes.length > (bytes.getD 3 0#8).toNat + 5 then some .long
  else if crc8 ((bytes.drop 1).dropLast) ≠ bytes.getLastD 0#8 then some .check
  else none

/-- The bytes of a command frame (R168, R185): marker, code, session id, length, payload, check byte. -/
def wireFrame (code sid : Byte) (payload : List Byte) : RawFrame :=
  let covered := code :: sid :: BitVec.ofNat 8 payload.length :: payload
  ⟨commandMarker :: (covered ++ [crc8 covered]), 0⟩

/-- The step that a command code names on a port (R172). -/
def Instr.ofCode (p : Port) (code sid : Byte) (payload : List Byte) : Instr :=
  match code.toNat with
  | 0x01 => .attach p sid payload
  | 0x02 => .detach p sid payload
  | 0x03 => .renew p sid payload
  | 0x04 => .setEventMask p sid payload
  | 0x05 => .readEvents p sid payload
  | 0x10 => .claim p sid payload
  | 0x11 => .release p sid payload
  | 0x12 => .cancelWait p sid payload
  | 0x13 => .readClaim p sid payload
  | 0x20 => .editText p sid payload
  | 0x21 => .setStyle p sid payload
  | 0x22 => .setPlacements p sid payload
  | 0x23 => .commit p sid payload
  | 0x24 => .readRow p sid payload
  | 0x28 => .writeCommon p sid payload
  | 0x30 => .glyphBegin p sid payload
  | 0x31 => .glyphLines p sid payload
  | 0x32 => .glyphAbort p sid payload
  | 0x33 => .glyphDelete p sid payload
  | 0x34 => .readGlyph p sid payload
  | 0x35 => .readStore p sid payload
  | 0x40 => .channelSet p sid payload
  | 0x41 => .channelApply p sid payload
  | 0x42 => .readChannel p sid payload
  | _ => .unknownCommand p code sid payload

/-- The step that a closed window is, on a port that is not in reset (R167, R169, R171, R172, R176); none for an empty
window, which has no effect (R167). -/
def Instr.ofFrame (p : Port) (f : RawFrame) : Option Instr :=
  match f.bytes with
  | [] => if f.bits = 0 then none else some (.badFrame p f)
  | first :: rest =>
    if first = fetchMarker then some (.fetchFrame p (8 * rest.length + f.bits))
    else
      match judge (f.bytes.take Config.bufferBytes) f.bits with
      | some _ => some (.badFrame p f)
      | none =>
        match rest with
        | code :: sid :: _ :: tail => some (Instr.ofCode p code sid tail.dropLast)
        | _ => some (.badFrame p f)

/-- The code of a command frame's row, with the session id and payload it carries. -/
def Instr.commandParts : Instr → Option (Port × Byte × Byte × List Byte)
  | .attach p sid pl => some (p, 0x01#8, sid, pl)
  | .detach p sid pl => some (p, 0x02#8, sid, pl)
  | .renew p sid pl => some (p, 0x03#8, sid, pl)
  | .setEventMask p sid pl => some (p, 0x04#8, sid, pl)
  | .readEvents p sid pl => some (p, 0x05#8, sid, pl)
  | .claim p sid pl => some (p, 0x10#8, sid, pl)
  | .release p sid pl => some (p, 0x11#8, sid, pl)
  | .cancelWait p sid pl => some (p, 0x12#8, sid, pl)
  | .readClaim p sid pl => some (p, 0x13#8, sid, pl)
  | .editText p sid pl => some (p, 0x20#8, sid, pl)
  | .setStyle p sid pl => some (p, 0x21#8, sid, pl)
  | .setPlacements p sid pl => some (p, 0x22#8, sid, pl)
  | .commit p sid pl => some (p, 0x23#8, sid, pl)
  | .readRow p sid pl => some (p, 0x24#8, sid, pl)
  | .writeCommon p sid pl => some (p, 0x28#8, sid, pl)
  | .glyphBegin p sid pl => some (p, 0x30#8, sid, pl)
  | .glyphLines p sid pl => some (p, 0x31#8, sid, pl)
  | .glyphAbort p sid pl => some (p, 0x32#8, sid, pl)
  | .glyphDelete p sid pl => some (p, 0x33#8, sid, pl)
  | .readGlyph p sid pl => some (p, 0x34#8, sid, pl)
  | .readStore p sid pl => some (p, 0x35#8, sid, pl)
  | .channelSet p sid pl => some (p, 0x40#8, sid, pl)
  | .channelApply p sid pl => some (p, 0x41#8, sid, pl)
  | .readChannel p sid pl => some (p, 0x42#8, sid, pl)
  | .unknownCommand p code sid pl => some (p, code, sid, pl)
  | .badFrame _ _ => none
  | .fetchFrame _ _ => none
  | .frameIgnored _ => none
  | .powerOn _ => none
  | .crstAsserted _ => none
  | .crstDeasserted _ => none
  | .prstAsserted _ _ => none
  | .prstDeasserted _ _ => none
  | .inputFrameStart _ => none
  | .lossTimerExpiry _ => none
  | .freeRunTimerExpiry _ => none
  | .leaseLow _ => none
  | .leaseExpiry _ => none
  | .eventFiling _ _ => none

/-- The command that a word spells by the table's bits. spec/opcode_table.json gives no row any bits, so no word spells
one (log 13). -/
def decodeTableWord (_nbits _w : Nat) : Option Instr := none

end Sys2Proof
end

