-- ==== Sys2Proof/Machine/State.lean ====
section
/-! DEFINITION. The state of the HC630, block by block, as plain data, and the state after power-on. -/
namespace Sys2Proof.Machine

/-! ### Port interface -/

/-- What a port is doing with the present chip-select window (R165, R167). -/
inductive RecvState where
  | idle
  | opening
  | command
  | fetch
  | ignore
  deriving DecidableEq, Repr

/-- The statuses of a response (R179). -/
inductive Status where
  | ok
  | queued
  | badFrame
  | stale
  | badArg
  | notHolder
  | held
  | conflict
  | noCell
  | uploadOpen
  | noUpload
  | sequence
  | waitLimit
  | empty
  deriving DecidableEq, Repr

/-- A response in the slot (R174). Its flags, length and check byte are computed from these. -/
structure Response where
  status : Status
  discarded : Bool
  payload : List Byte
  deriving DecidableEq, Repr

/-- The port interface (R165), its two input pins, and what it drove on SDOn in the latest window (log 11). -/
structure PortIf where
  recv : RecvState
  buffer : List Byte
  bits : Nat
  slot : Option Response
  delivered : Nat
  /-- The bytes the fetch in progress has still to shift out, chosen when byte 0 was complete (R176). -/
  shifting : List Byte
  /-- CSn is asserted. -/
  csn : Bool
  /-- PRSTn is asserted. -/
  prst : Bool
  sdo : List Byte
  sdoTail : List Bool
  deriving DecidableEq, Repr

/-! ### Sessions and events -/

/-- A session, identified by its port and epoch together (R130). -/
structure Sid where
  port : Port
  epoch : BitVec 6
  deriving DecidableEq, Repr

/-- The session id byte: the port in bits 7–6, the epoch in bits 5–0 (R130). -/
def Sid.byte (i : Sid) : Byte := BitVec.ofNat 2 i.port.val ++ i.epoch

/-- The event classes (R149), in the order of their bits (R185). -/
inductive EventClass where
  | commit
  | claim
  | common
  | glyph
  | channel
  | lease
  deriving DecidableEq, Repr

/-- The event kinds (R150). -/
inductive EventKind where
  | commitLanded
  | claimGranted
  | commonChanged
  | glyphChanged
  | channelSignal
  | channelApplied
  | overbooked
  | leaseLow
  deriving DecidableEq, Repr

/-- An event as its block posts it: all fields but seq (R149). -/
structure Event where
  kind : EventKind
  subject : Half
  value : Half
  port : Option Port
  deriving DecidableEq, Repr

/-- An event as it stands in a queue (R149). -/
structure EventRecord where
  seq : Byte
  event : Event
  deriving DecidableEq, Repr

/-- Whom an event in flight is addressed to: a session, or one that has ended since on that port (log 7). -/
inductive Addressee where
  | session (i : Sid)
  | ended (p : Port)
  deriving DecidableEq, Repr

/-- An event posted and not yet filed (R151). -/
structure Posted where
  source : Source
  addressee : Addressee
  event : Event
  deriving DecidableEq, Repr

/-- The ways a session ends, and the resets a port sees (R146), in the order of their bits (R185). -/
inductive EndCause where
  | power
  | chipReset
  | portReset
  | lease
  | detach
  | reattach
  deriving DecidableEq, Repr

/-- The session record of a port (R129, R154). `active` is the state ACTIVE; sets are held as the bits of R185. -/
structure Session where
  active : Bool
  epoch : BitVec 6
  term : Byte
  /-- Remaining lease in ms. -/
  remaining : Nat
  /-- Units of 10 µs of the present ms that have passed (log 9). -/
  fraction : Nat
  armed : Bool
  mask : BitVec 6
  queue : List EventRecord
  nextSeq : Byte
  lost : Byte
  causes : BitVec 6
  deriving DecidableEq, Repr

/-! ### Claims -/

/-- A claimable resource (R57): 0–43 are the leased rows, 44–47 the channels, so the order of resource ids. -/
abbrev Resource := Fin 48

/-- A claim record (R58). -/
structure Claim where
  holder : Option Sid
  waiters : List Sid
  deriving DecidableEq, Repr

/-! ### Rows -/

/-- A colour: three components (R4). -/
structure Colour where
  y : Byte
  cb : Byte
  cr : Byte
  deriving DecidableEq, Repr

/-- How a row's pixels combine with what lies beneath: OPAQUE or HALF (R4, R126). -/
inductive Blend where
  | opaqueInk
  | halfInk
  deriving DecidableEq, Repr

/-- A style record (R4). -/
structure Style where
  ink : Colour
  edge : Colour
  shade : Colour
  blend : Blend
  box : Bool
  priority : Fin 8
  deriving DecidableEq, Repr

/-- A placement (R5). The anchor counts TOP, MIDDLE, BOTTOM and within each LEFT, CENTRE, RIGHT. -/
structure Placement where
  chan : Chan
  tile : Fin 6
  anchor : Fin 9
  x : Int
  y : Int
  deriving DecidableEq, Repr

/-- A position of a version's text: the code and the cell it resolved to (R3). -/
structure Position where
  code : Half
  cell : CellNo
  deriving DecidableEq, Repr

/-- Who committed a version (R2). -/
inductive Origin where
  | session (i : Sid)
  | part
  | ended
  deriving DecidableEq, Repr

/-- A committed version of a row (R2). -/
structure Version where
  text : List Position
  style : Style
  placements : List Placement
  generation : Half
  origin : Origin
  deriving DecidableEq, Repr

/-- A held version with its holding set (R2). -/
structure Held where
  version : Version
  holding : ChanSet
  deriving DecidableEq, Repr

/-- The part of the record that all 48 rows have (R2). The row is SWAPPING exactly when `held` is present. -/
structure Row where
  live : Version
  held : Option Held
  deriving DecidableEq, Repr

/-- The working copy of a leased row (R2, R3). -/
structure EditBuffer where
  text : List Half
  style : Style
  placements : List Placement
  deriving DecidableEq, Repr

/-- The part of the record that only rows 0–43 have (R2). -/
structure Leased where
  edit : EditBuffer
  blankPending : Bool
  deriving DecidableEq, Repr

/-! ### Glyph store -/

/-- The cell states (R31), in the order of their spelling (R185). -/
inductive CellState where
  | free
  | loading
  | ready
  | retiring
  deriving DecidableEq, Repr

/-- A bitmap line: 16 two-bit pixel codes, column 0 in the top bits (R188). -/
abbrev Line := BitVec 32

/-- A glyph cell (R31). -/
structure Cell where
  state : CellState
  bitmap : Table Line 24
  advance : Nat
  refs : Nat
  deriving DecidableEq, Repr

/-- An entry of the glyph map (R35). -/
structure MapEntry where
  code : Half
  cell : CellNo
  holder : Option Sid
  isVolatile : Bool
  deriving DecidableEq, Repr

/-- An open upload (R41). -/
structure Upload where
  session : Sid
  code : Half
  cell : CellNo
  next : Fin 6
  isVolatile : Bool
  deriving DecidableEq, Repr

/-! ### Channels -/

/-- The signal states (R91), in the order of their spelling (R185). -/
inductive SignalState where
  | off
  | seeking
  | locked
  | freeRun
  deriving DecidableEq, Repr

inductive Raster where
  | r720x480
  | r720x576
  | r1280x720
  | r1920x1080
  deriving DecidableEq, Repr

inductive Layout where
  | single
  | pair
  | quad
  | six
  deriving DecidableEq, Repr

inductive Scale where
  | one
  | two
  deriving DecidableEq, Repr

/-- A channel configuration (R99). `on` is mode ON; `period` is in units of 10 µs. -/
structure ChanConfig where
  on : Bool
  freeRunPermitted : Bool
  raster : Raster
  period : Nat
  layout : Layout
  scale : Scale
  border : Fin 16
  borderColour : Colour
  background : Colour
  videoMask : BitVec 6
  deriving DecidableEq, Repr

/-- A timer of a channel engine, in units of 10 µs (R89). -/
inductive Timer where
  | stopped
  | running (duration remaining : Nat)
  deriving DecidableEq, Repr

/-- A pending configuration with its applier, none once the applier has ENDED (R89, R103). -/
structure Pending where
  config : ChanConfig
  applier : Option Sid
  deriving DecidableEq, Repr

/-- A channel engine (R89). -/
structure Channel where
  state : SignalState
  active : ChanConfig
  staged : ChanConfig
  pending : Option Pending
  loss : Timer
  freeRun : Timer
  overbooked : Bool
  dropped : Nat
  deriving DecidableEq, Repr

/-- A placement of the draw list, with the row it belongs to (R106). -/
structure DrawItem where
  row : RowNo
  placement : Placement
  deriving DecidableEq, Repr

/-- What a compositor holds for the frame in progress (R113). -/
structure FrameLatch where
  latched : Table Version 48
  drawList : List DrawItem
  config : ChanConfig
  deriving DecidableEq, Repr

/-! ### The part -/

/-- The state of the part, with the queue of steps that wait (log 20). -/
structure State where
  /-- CRST is asserted. -/
  crst : Bool
  ports : Four PortIf
  sessions : Four Session
  posted : List Posted
  claims : Table Claim 48
  waits : Four Nat
  rows : Table Row 48
  leased : Table Leased 44
  cells : Table Cell 256
  map : List MapEntry
  uploads : Four (Option Upload)
  channels : Four Channel
  compositors : Four (Option FrameLatch)
  pending : List Instr
  /-- The index of the next free choice (log 10). -/
  freeIndex : Nat
  deriving DecidableEq, Repr

/-- Why the machine stops with a fault. No constructor: the spec names no condition that stops the part, every refused
command answers with a status and the part goes on (R174, R179). -/
inductive Fault where
  deriving DecidableEq, Repr

/-- Why a step has no meaning in the model. -/
inductive Refusal where
  /-- Raised by an arm of `exec` whose step has no meaning yet; safe, the machine stops. No arm raises it. -/
  | notModelled (mnemonic : String)
  deriving DecidableEq, Repr

/-! ### Values after power-on -/

/-- The default style (R4). -/
def Style.default : Style :=
  { ink := ⟨235#8, 128#8, 128#8⟩, edge := ⟨16#8, 128#8, 128#8⟩, shade := ⟨16#8, 128#8, 128#8⟩,
    blend := .opaqueInk, box := false, priority := 0 }

/-- The empty version (R7). -/
def Version.empty : Version :=
  { text := [], style := Style.default, placements := [], generation := 0#16, origin := .part }

/-- The empty edit buffer (R7, R24). -/
def EditBuffer.empty : EditBuffer := { text := [], style := Style.default, placements := [] }

/-- The default configuration (R99). -/
def ChanConfig.default : ChanConfig :=
  { on := false, freeRunPermitted := true, raster := .r720x576, period := 2000, layout := .single, scale := .one,
    border := 2, borderColour := ⟨16#8, 128#8, 128#8⟩, background := ⟨16#8, 128#8, 128#8⟩, videoMask := 0x3F#6 }

/-- Lines 4 and 19 of cell 0: code 1 in columns 1–8 (R32, R188). -/
def boxEdgeLine : Line := 0x15554000#32

/-- Lines 5–18 of cell 0: code 1 in columns 1 and 8 (R32). -/
def boxSideLine : Line := 0x10004000#32

/-- The hollow box of cell 0: the outline of columns 1–8, lines 4–19 (R32). -/
def boxBitmap : Table Line 24 :=
  ⟨List.replicate 4 0#32 ++ boxEdgeLine :: (List.replicate 14 boxSideLine ++ boxEdgeLine :: List.replicate 4 0#32), rfl⟩

/-- Cell 0, the replacement glyph, with reference count 0 (R32, R34). -/
def Cell.replacement : Cell := { state := .ready, bitmap := boxBitmap, advance := 10, refs := 0 }

/-- A cell as power-on leaves cells 1–255 (R34); its bitmap and advance are a DESIGN CHOICE (log 2, unsafe). -/
def Cell.unused : Cell := { state := .free, bitmap := Table.fill 24 0#32, advance := 1, refs := 0 }

/-- A port after power-on with its CSn deasserted (R165). -/
def PortIf.reset : PortIf :=
  { recv := .idle, buffer := [], bits := 0, slot := none, delivered := 0, shifting := [], csn := false, prst := false,
    sdo := [], sdoTail := [] }

/-- A session record after power-on (R148); the lease term is a DESIGN CHOICE (log 1, unsafe). -/
def Session.reset : Session :=
  { active := false, epoch := 0#6, term := 0#8, remaining := 0, fraction := 0, armed := false, mask := 0#6,
    queue := [], nextSeq := 0#8, lost := 0#8, causes := 0b000001#6 }

/-- A channel engine after power-on (R90). -/
def Channel.reset : Channel :=
  { state := .off, active := ChanConfig.default, staged := ChanConfig.default, pending := none, loss := .stopped,
    freeRun := .stopped, overbooked := false, dropped := 0 }

/-- The part after power-on with every CSn, PRSTn and CRST deasserted (R7, R34, R60, R90, R148, R165; log 3). -/
def State.reset : State :=
  { crst := false
    ports := Four.fill PortIf.reset
    sessions := Four.fill Session.reset
    posted := []
    claims := Table.fill 48 { holder := none, waiters := [] }
    waits := Four.fill 0
    rows := Table.fill 48 { live := Version.empty, held := none }
    leased := Table.fill 44 { edit := EditBuffer.empty, blankPending := false }
    cells := (Table.fill 256 Cell.unused).set 0 Cell.replacement
    map := []
    uploads := Four.fill none
    channels := Four.fill Channel.reset
    compositors := Four.fill none
    pending := []
    freeIndex := 0 }

end Sys2Proof.Machine
end

