-- ==== Sys2Proof/Machine/Flags.lean ====
section
/-! DEFINITION. Flags, sets and enumerated values: their tests and their spelling in bytes (R179, R185, R192). -/
namespace Sys2Proof.Machine

/-! ### Spellings (R185) -/

def flagByte (b : Bool) : Byte := if b then 0x01#8 else 0x00#8

/-- A port, or none. -/
def portByte : Option Port → Byte
  | some p => BitVec.ofNat 8 p.val
  | none => 0xFF#8

/-- A field of two bytes, most significant byte first. -/
def halfBytes (h : Half) : List Byte := [h.extractLsb' 8 8, h.extractLsb' 0 8]

/-- A channel set: bit c for channel Cc. -/
def ChanSet.byte (t : ChanSet) : Byte :=
  (if t.at0 then 1#8 else 0#8) ||| (if t.at1 then 2#8 else 0#8) ||| (if t.at2 then 4#8 else 0#8)
    ||| (if t.at3 then 8#8 else 0#8)

/-- A set of event classes, or of end causes. -/
def setByte (m : BitVec 6) : Byte := m.setWidth 8

def Status.byte : Status → Byte
  | .ok => 0x00#8
  | .queued => 0x01#8
  | .badFrame => 0x10#8
  | .stale => 0x11#8
  | .badArg => 0x12#8
  | .notHolder => 0x13#8
  | .held => 0x14#8
  | .conflict => 0x15#8
  | .noCell => 0x16#8
  | .uploadOpen => 0x17#8
  | .noUpload => 0x18#8
  | .sequence => 0x19#8
  | .waitLimit => 0x1A#8
  | .empty => 0x1F#8

def CellState.byte : CellState → Byte
  | .free => 0x00#8
  | .loading => 0x01#8
  | .ready => 0x02#8
  | .retiring => 0x03#8

def SignalState.byte : SignalState → Byte
  | .off => 0x00#8
  | .seeking => 0x01#8
  | .locked => 0x02#8
  | .freeRun => 0x03#8

def EventKind.byte : EventKind → Byte
  | .commitLanded => 0x01#8
  | .claimGranted => 0x02#8
  | .commonChanged => 0x03#8
  | .glyphChanged => 0x04#8
  | .channelSignal => 0x05#8
  | .channelApplied => 0x06#8
  | .overbooked => 0x07#8
  | .leaseLow => 0x08#8

/-- The GLYPH_CHANGED values. -/
def glyphReplaced : Half := 0x0001#16

def glyphRemoved : Half := 0x0002#16

/-! ### Event classes and the mask -/

/-- The class of a kind (R150). -/
def EventKind.cls : EventKind → EventClass
  | .commitLanded => .commit
  | .claimGranted => .claim
  | .commonChanged => .common
  | .glyphChanged => .glyph
  | .channelSignal => .channel
  | .channelApplied => .channel
  | .overbooked => .channel
  | .leaseLow => .lease

/-- The one bit that stands for a class in an event-class set. -/
def EventClass.bit : EventClass → BitVec 6
  | .commit => 0b000001#6
  | .claim => 0b000010#6
  | .common => 0b000100#6
  | .glyph => 0b001000#6
  | .channel => 0b010000#6
  | .lease => 0b100000#6

/-- The class is in the mask (R152, step 2). -/
def maskHas (m : BitVec 6) (c : EventClass) : Bool := m &&& c.bit != 0#6

/-- The record of 8 bytes that READ_EVENTS answers (R192). -/
def EventRecord.bytes (r : EventRecord) : List Byte :=
  r.seq :: r.event.kind.byte :: (halfBytes r.event.subject ++ halfBytes r.event.value
    ++ [portByte r.event.port, setByte r.event.kind.cls.bit])

/-! ### End causes -/

def EndCause.bit : EndCause → BitVec 6
  | .power => 0b000001#6
  | .chipReset => 0b000010#6
  | .portReset => 0b000100#6
  | .lease => 0b001000#6
  | .detach => 0b010000#6
  | .reattach => 0b100000#6

/-! ### Row, channel and attention flags -/

/-- The row is SWAPPING (R2). -/
def Row.swapping (r : Row) : Bool := r.held.isSome

/-- The row's generation (R2). -/
def Row.generation (r : Row) : Half := r.live.generation

/-- The holding set, empty when SETTLED (R30). -/
def Row.holding (r : Row) : ChanSet :=
  match r.held with
  | some h => h.holding
  | none => Four.fill false

/-- The next generation (R6). -/
def nextGeneration (g : Half) : Half := if g = 0xFFFF#16 then 1#16 else g + 1#16

/-- LOCKED or FREERUN (R16). -/
def SignalState.running : SignalState → Bool
  | .off => false
  | .seeking => false
  | .locked => true
  | .freeRun => true

/-- Port n is held in reset by CRST or by its own PRSTn (R167). -/
def State.inReset (s : State) (p : Port) : Bool := s.crst || (s.ports.get p).prst

/-- ATTNn is asserted (R160, R161). -/
def State.attn (s : State) (p : Port) : Bool := !(s.inReset p) && !(s.sessions.get p).queue.isEmpty

/-- The level of the ATTNn pin, which is active low (R184): true is high. -/
def State.attnLevel (s : State) (p : Port) : Bool := !(s.attn p)

/-- SDOn is driven: CSn is asserted and the port reads the window (R166, R167). -/
def State.sdoDriven (s : State) (p : Port) : Bool :=
  (s.ports.get p).csn && !(s.inReset p) && (s.ports.get p).recv != .ignore

/-! ### Responses on the wire -/

/-- The bytes a fetch shifts out from byte 1 on (R174, R176). -/
def Response.bytes (r : Response) : List Byte :=
  let covered := r.status.byte :: flagByte r.discarded :: BitVec.ofNat 8 r.payload.length :: r.payload
  covered ++ [crc8 covered]

/-- The EMPTY response (R176). -/
def Response.empty : Response := { status := .empty, discarded := false, payload := [] }

end Sys2Proof.Machine
end

