-- ==== Sys2Proof/Machine/Composition.lean ====
section
/-! DEFINITION. Composition (06): tile geometry, row boxes, the clipped test, and the pixels of a frame. Positions are
whole numbers in the coordinates of R109. -/
namespace Sys2Proof.Machine

/-! ### Tiles (R109, R111, R112) -/

/-- The width of a raster (R109). -/
def Raster.width : Raster → Nat
  | .r720x480 => 720
  | .r720x576 => 720
  | .r1280x720 => 1280
  | .r1920x1080 => 1920

/-- The height of a raster (R109). -/
def Raster.height : Raster → Nat
  | .r720x480 => 480
  | .r720x576 => 576
  | .r1280x720 => 720
  | .r1920x1080 => 1080

/-- Columns of tiles (R111). -/
def Layout.columns : Layout → Nat
  | .single => 1
  | .pair => 2
  | .quad => 2
  | .six => 3

/-- Rows of tiles (R111). -/
def Layout.tileRows : Layout → Nat
  | .single => 1
  | .pair => 1
  | .quad => 2
  | .six => 2

/-- The tile count of a layout (R111). -/
def Layout.tileCount (l : Layout) : Nat := l.columns * l.tileRows

/-- The glyph scale as a number (R99). -/
def Scale.factor : Scale → Nat
  | .one => 1
  | .two => 2

/-- A rectangle of pixels, all four sides included. -/
structure Rect where
  left : Int
  right : Int
  top : Int
  bottom : Int
  deriving DecidableEq, Repr

/-- The pixel lies in the rectangle. -/
def Rect.has (r : Rect) (x y : Int) : Bool :=
  decide (r.left ≤ x) && decide (x ≤ r.right) && decide (r.top ≤ y) && decide (y ≤ r.bottom)

/-- The extent of tile t of a configuration's layout (R111): column t mod n, tile row t div n. -/
def tileRect (k : ChanConfig) (t : Nat) : Rect :=
  let n := k.layout.columns
  let m := k.layout.tileRows
  let i := t % n
  let j := t / n
  { left := (i * k.raster.width / n : Nat)
    right := ((i + 1) * k.raster.width / n : Nat) - 1
    top := (j * k.raster.height / m : Nat)
    bottom := ((j + 1) * k.raster.height / m : Nat) - 1 }

/-- The clip rectangle of tile t: the tile inset by the border width (R112). -/
def clipRect (k : ChanConfig) (t : Nat) : Rect :=
  let r := tileRect k t
  let b : Int := k.border.val
  { left := r.left + b, right := r.right - b, top := r.top + b, bottom := r.bottom - b }

/-- The placement is suspended under the configuration's layout (R123). -/
def suspended (k : ChanConfig) (q : Placement) : Bool := decide (k.layout.tileCount ≤ q.tile.val)

/-! ### Row boxes (R119–R121) -/

/-- The sum of the advances of the cells of a text (R119). -/
def advanceSum (cells : Table Cell 256) (text : List Position) : Nat :=
  (text.map fun q => (cells.get q.cell).advance).sum

/-- The width of a version's row box under a configuration's glyph scale (R119). -/
def boxWidth (k : ChanConfig) (cells : Table Cell 256) (v : Version) : Nat :=
  k.scale.factor * advanceSum cells v.text + (if v.style.box then 4 * k.scale.factor else 0)

/-- The height of a row box (R119). -/
def boxHeight (k : ChanConfig) : Nat := 24 * k.scale.factor

/-- The base that an anchor part gives for a box side of length w between two clip sides (R121): part 0 LEFT or TOP,
1 CENTRE or MIDDLE, 2 RIGHT or BOTTOM. `Int./` by 2 rounds towards minus infinity. -/
def anchorBase (part : Nat) (lo hi : Int) (w : Int) : Int :=
  match part with
  | 0 => lo
  | 1 => lo + (hi - lo + 1 - w) / 2
  | _ => hi + 1 - w

/-- The row box of a placement of a version, as left and top (R121). -/
def boxOrigin (k : ChanConfig) (cells : Table Cell 256) (v : Version) (q : Placement) : Int × Int :=
  let r := clipRect k q.tile.val
  (anchorBase (q.anchor.val % 3) r.left r.right (boxWidth k cells v) + q.x,
   anchorBase (q.anchor.val / 3) r.top r.bottom (boxHeight k) + q.y)

/-! ### The clipped-channel mask (R128) -/

/-- The row box of a placement has a width and reaches outside the clip rectangle of its tile (R128, steps 1–4). -/
def placementClipped (k : ChanConfig) (cells : Table Cell 256) (v : Version) (q : Placement) : Bool :=
  let r := clipRect k q.tile.val
  let w : Int := boxWidth k cells v
  let h : Int := boxHeight k
  let o := boxOrigin k cells v q
  !(suspended k q) && decide (0 < w)
    && (decide (o.1 < r.left) || decide (o.1 + w - 1 > r.right) || decide (o.2 < r.top)
        || decide (o.2 + h - 1 > r.bottom))

/-- The clipped-channel mask of a version under the channels' active configurations (R17, R128). -/
def clippedMask (channels : Four Channel) (cells : Table Cell 256) (v : Version) : ChanSet :=
  v.placements.foldl
    (fun m q => if placementClipped (channels.get q.chan).active cells v q then m.set q.chan true else m)
    (Four.fill false)

/-! ### The draw list (R106, R118) -/

/-- The placement of a version on channel c, if it has one (R3). -/
def placementOn (c : Chan) (v : Version) : Option Placement := v.placements.find? fun q => q.chan == c

/-- The drawable placements of a latched set on channel c, in ascending row number (R106). -/
def drawables (c : Chan) (k : ChanConfig) (latched : Table Version 48) : List DrawItem :=
  (ascending 48).filterMap fun r =>
    match placementOn c (latched.get r) with
    | some q => if suspended k q then none else some { row := r, placement := q }
    | none => none

/-- The drawable placements in layer order: ascending priority, then ascending row number (R118). -/
def layerOrder (latched : Table Version 48) (items : List DrawItem) : List DrawItem :=
  (ascending 8).flatMap fun pr => items.filter fun d => (latched.get d.row).style.priority == pr

/-- The draw list in layer order: all drawable placements, or the 32 that come last in layer order, which are those of
highest priority and among equal priority of highest row number (R106, R118). -/
def drawList (c : Chan) (k : ChanConfig) (latched : Table Version 48) : List DrawItem :=
  let items := layerOrder latched (drawables c k latched)
  items.drop (items.length - Config.drawBudget)

/-! ### Pixels (R115–R127) -/

/-- The pixel code in column j of a bitmap line (R188). -/
def lineCode (l : Line) (j : Nat) : BitVec 2 := l.extractLsb' (30 - 2 * j) 2

/-- The pixel code of column j, line i of a cell. -/
def cellCode (cell : Cell) (i j : Nat) : BitVec 2 :=
  if h : i < 24 then lineCode (cell.bitmap.get ⟨i, h⟩) j else 0#2

/-- The pixel code that a text draws dx pixels right of its origin and dy below the box top, 0 where it draws none
(R120). -/
def textCode (s : Nat) (cells : Table Cell 256) : List Position → Nat → Nat → BitVec 2
  | [], _, _ => 0#2
  | q :: rest, dx, dy =>
    let w := s * (cells.get q.cell).advance
    if dx < w then cellCode (cells.get q.cell) (dy / s) (dx / s) else textCode s cells rest (dx - w) dy

/-- HALF of one component (R126). -/
def halfByte (ink beneath : Byte) : Byte := BitVec.ofNat 8 ((ink.toNat + beneath.toNat) / 2)

/-- A row's colour drawn over what lies beneath (R126). -/
def blendOver (b : Blend) (ink beneath : Colour) : Colour :=
  match b with
  | .opaqueInk => ink
  | .halfInk => ⟨halfByte ink.y beneath.y, halfByte ink.cb beneath.cb, halfByte ink.cr beneath.cr⟩

/-- The colour of a pixel code, none for code 0 (R124). -/
def codeColour (st : Style) (code : BitVec 2) : Option Colour :=
  match code.toNat with
  | 0 => none
  | 1 => some st.ink
  | 2 => some st.edge
  | _ => some st.shade

/-- One row of the draw list at one pixel: its box, then its glyphs, inside the clip rectangle (R119–R126). -/
def drawRow (k : ChanConfig) (cells : Table Cell 256) (v : Version) (q : Placement) (x y : Int) (beneath : Colour) :
    Colour :=
  let o := boxOrigin k cells v q
  let dx := x - o.1
  let dy := y - o.2
  let margin := if v.style.box then 2 * k.scale.factor else 0
  if (clipRect k q.tile.val).has x y && decide (0 ≤ dx) && decide (dx < boxWidth k cells v) && decide (0 ≤ dy)
      && decide (dy < boxHeight k) then
    let boxed := if v.style.box then blendOver v.style.blend v.style.shade beneath else beneath
    if dx < margin then boxed
    else
      match codeColour v.style (textCode k.scale.factor cells v.text (dx.toNat - margin) dy.toNat) with
      | some colour => blendOver v.style.blend colour boxed
      | none => boxed
  else beneath

/-- The pixel lies in the plane of the raster (R109). -/
def inPlane (k : ChanConfig) (x y : Int) : Bool :=
  decide (0 ≤ x) && decide (x < k.raster.width) && decide (0 ≤ y) && decide (y < k.raster.height)

/-- The number of the tile that contains a pixel of the plane (R111). -/
def tileAt (k : ChanConfig) (x y : Int) : Nat :=
  ((List.range k.layout.tileCount).find? fun t => (tileRect k t).has x y).getD 0

/-- Layers 1 and 2 at a pixel of the plane (R116, R117). -/
def underlay (k : ChanConfig) (state : SignalState) (input : Colour) (x y : Int) : Colour :=
  let t := tileAt k x y
  if !((clipRect k t).has x y) then k.borderColour
  else if state == .locked && k.videoMask.getLsbD t then input
  else k.background

/-- A pixel of the plane in the frame in progress: three layers, bottom to top (R114, R115). -/
def composedPixel (f : FrameLatch) (state : SignalState) (cells : Table Cell 256) (input : Colour) (x y : Int) :
    Colour :=
  f.drawList.foldl (fun beneath d => drawRow f.config cells (f.latched.get d.row) d.placement x y beneath)
    (underlay f.config state input x y)

/-! ### Video outputs (R91, R110, R184) -/

/-- The output pixel of channel c at (x, y), given the input picture's pixel there, none where the input picture has
none. The answer is none where there is no output pixel (R91, R110). -/
def State.videoOut (s : State) (c : Chan) (x y : Int) (input : Option Colour) : Option Colour :=
  match (s.channels.get c).state, s.compositors.get c with
  | .locked, some f =>
    match input with
    | some pixel => some (if inPlane f.config x y then composedPixel f .locked s.cells pixel x y else pixel)
    | none => none
  | .freeRun, some f =>
    if inPlane f.config x y then some (composedPixel f .freeRun s.cells f.config.background x y) else none
  | _, _ => input

/-- What channel c's output carries beside active pixels, given what its input carries there (ancillary data): the
input's, unchanged, where the output follows the input (R91, R110); none in a picture that the part generates, which is
active pixels alone (R110; log 12). -/
def State.ancillaryOut {α : Type} (s : State) (c : Chan) (input : Option α) : Option α :=
  match (s.channels.get c).state with
  | .off => input
  | .seeking => input
  | .locked => input
  | .freeRun => none

/-- Where the video clock and the embedded timing of an output come from (R91, R184). -/
inductive VideoClock where
  | input
  | generated (raster : Raster) (period : Nat)
  deriving DecidableEq, Repr

/-- The timing of channel c's output (R91, R184). -/
def State.videoClock (s : State) (c : Chan) : VideoClock :=
  match (s.channels.get c).state with
  | .freeRun => .generated (s.channels.get c).active.raster (s.channels.get c).active.period
  | .off => .input
  | .seeking => .input
  | .locked => .input

end Sys2Proof.Machine
end

