-- ==== Sys2Proof/Machine/Operands.lean ====
section
/-! DEFINITION. Reading command payloads: every operand form of R185–R189, each answering none where the bytes spell no
value, and the channel configuration in both directions (R187). -/
namespace Sys2Proof.Machine

/-- Byte i of a payload. The payload length has been checked before (R173). -/
def byteAt (payload : List Byte) (i : Nat) : Byte := payload.getD i 0#8

/-- The two bytes from i on, most significant first (R185). -/
def halfAt (payload : List Byte) (i : Nat) : Half := byteAt payload i ++ byteAt payload (i + 1)

/-- A flag (R185). -/
def flag? (b : Byte) : Option Bool :=
  match b.toNat with
  | 0 => some false
  | 1 => some true
  | _ => none

/-- A set of event classes (R185). -/
def classes? (b : Byte) : Option (BitVec 6) := if b.toNat < 64 then some (b.setWidth 6) else none

/-- A character code is valid (R3). -/
def codeValid (c : Half) : Bool := c != 0x0000#16 && c != 0xFFFF#16

/-- A resource id (R57). -/
def resource? (b : Byte) : Option Resource :=
  if h : b.toNat < 44 then some ⟨b.toNat, by omega⟩
  else if h : 0x80 ≤ b.toNat ∧ b.toNat ≤ 0x83 then some ⟨b.toNat - 0x80 + 44, by omega⟩
  else none

/-- The id byte of a resource (R57). -/
def resourceId (r : Resource) : Byte := if r.val < 44 then BitVec.ofNat 8 r.val else BitVec.ofNat 8 (r.val - 44 + 0x80)

/-- The leased row a resource is, if it is one (R57). -/
def resourceRow (r : Resource) : Option LeasedNo := if h : r.val < 44 then some ⟨r.val, h⟩ else none

/-- The resource that a leased row is. -/
def rowResource (r : LeasedNo) : Resource := ⟨r.val, by omega⟩

/-- The resource that a channel is: id 0x80 + c (R57). -/
def chanResource (c : Chan) : Resource := ⟨c.val + 44, by omega⟩

/-- The channel a resource is, if it is one. -/
def resourceChan (r : Resource) : Option Chan := if h : 44 ≤ r.val then some ⟨r.val - 44, by omega⟩ else none

/-- A row number (R1). -/
def row? (b : Byte) : Option RowNo := if h : b.toNat < 48 then some ⟨b.toNat, h⟩ else none

/-- The number of a leased row (R1, R8). -/
def leasedRow? (b : Byte) : Option LeasedNo := if h : b.toNat < 44 then some ⟨b.toNat, h⟩ else none

/-- The number of a common row (R79). -/
def commonRow? (b : Byte) : Option RowNo := if h : 44 ≤ b.toNat ∧ b.toNat < 48 then some ⟨b.toNat, h.2⟩ else none

/-- The place of a leased row in the row table. -/
def LeasedNo.row (r : LeasedNo) : RowNo := ⟨r.val, by omega⟩

/-- The leased part of a row, if the row is leased (R1). -/
def rowLeased (r : RowNo) : Option LeasedNo := if h : r.val < 44 then some ⟨r.val, h⟩ else none

/-- A channel number (R100, R108). -/
def chan? (b : Byte) : Option Chan := if h : b.toNat < 4 then some ⟨b.toNat, h⟩ else none

/-- A text: codes of two bytes (R186). A last odd byte spells no code. -/
def codesOf : List Byte → List Half
  | hi :: lo :: rest => (hi ++ lo) :: codesOf rest
  | [_] => []
  | [] => []

def blend? (b : Byte) : Option Blend :=
  match b.toNat with
  | 0 => some .opaqueInk
  | 1 => some .halfInk
  | _ => none

/-- Three colour components, all values of which are accepted (R4). -/
def colourAt (bs : List Byte) (i : Nat) : Colour := ⟨byteAt bs i, byteAt bs (i + 1), byteAt bs (i + 2)⟩

/-- A style record of 12 bytes (R10, R186). -/
def style? (bs : List Byte) : Option Style :=
  match blend? (byteAt bs 9), flag? (byteAt bs 10) with
  | some blend, some box =>
    if h : (byteAt bs 11).toNat < 8 then
      some { ink := colourAt bs 0, edge := colourAt bs 3, shade := colourAt bs 6, blend := blend, box := box,
             priority := ⟨(byteAt bs 11).toNat, h⟩ }
    else none
  | _, _ => none

/-- An offset: two's complement, −1023 to +1023 (R186). -/
def offset? (h : Half) : Option Int := if -1023 ≤ h.toInt ∧ h.toInt ≤ 1023 then some h.toInt else none

/-- A placement record of 7 bytes (R11, R186). -/
def placement? (bs : List Byte) : Option Placement :=
  match chan? (byteAt bs 0), offset? (halfAt bs 3), offset? (halfAt bs 5) with
  | some c, some x, some y =>
    if h : (byteAt bs 1).toNat < 6 ∧ (byteAt bs 2).toNat < 9 then
      some { chan := c, tile := ⟨(byteAt bs 1).toNat, h.1⟩, anchor := ⟨(byteAt bs 2).toNat, h.2⟩, x := x, y := y }
    else none
  | _, _, _ => none

/-- n placement records back to back (R186). -/
def placementRecords? : Nat → List Byte → Option (List Placement)
  | 0, _ => some []
  | n + 1, bs =>
    match placement? (bs.take 7), placementRecords? n (bs.drop 7) with
    | some q, some qs => some (q :: qs)
    | _, _ => none

/-- No two entries name the same channel (R3, R11). -/
def chansDistinct : List Placement → Bool
  | [] => true
  | q :: qs => qs.all (fun q' => q'.chan != q.chan) && chansDistinct qs

/-- A placement list of n entries (R11). -/
def placements? (n : Nat) (bs : List Byte) : Option (List Placement) :=
  if n ≤ 4 then
    match placementRecords? n bs with
    | some qs => if chansDistinct qs then some qs else none
    | none => none
  else none

/-! ### Channel configuration (R187) -/

def raster? (b : Byte) : Option Raster :=
  match b.toNat with
  | 0 => some .r720x480
  | 1 => some .r720x576
  | 2 => some .r1280x720
  | 3 => some .r1920x1080
  | _ => none

def layout? (b : Byte) : Option Layout :=
  match b.toNat with
  | 0 => some .single
  | 1 => some .pair
  | 2 => some .quad
  | 3 => some .six
  | _ => none

def scale? (b : Byte) : Option Scale :=
  match b.toNat with
  | 1 => some .one
  | 2 => some .two
  | _ => none

def Raster.byte : Raster → Byte
  | .r720x480 => 0x00#8
  | .r720x576 => 0x01#8
  | .r1280x720 => 0x02#8
  | .r1920x1080 => 0x03#8

def Layout.byte : Layout → Byte
  | .single => 0x00#8
  | .pair => 0x01#8
  | .quad => 0x02#8
  | .six => 0x03#8

def Scale.byte : Scale → Byte
  | .one => 0x01#8
  | .two => 0x02#8

def Colour.bytes (k : Colour) : List Byte := [k.y, k.cb, k.cr]

/-- The record of 15 bytes (R187). -/
def ChanConfig.bytes (k : ChanConfig) : List Byte :=
  flagByte k.on :: flagByte k.freeRunPermitted :: k.raster.byte :: (halfBytes (BitVec.ofNat 16 k.period)
    ++ [k.layout.byte, k.scale.byte, BitVec.ofNat 8 k.border.val] ++ k.borderColour.bytes ++ k.background.bytes
    ++ [setByte k.videoMask])

/-- The width in bytes of the field of a selector bit (R187). -/
def fieldWidth (bit : Fin 10) : Nat :=
  match bit.val with
  | 3 => 2
  | 7 => 3
  | 8 => 3
  | _ => 1

/-- A configuration with the field of a selector bit taken from its spelling, none where the bytes spell no value of
the field (R99, R187). -/
def writeField (bit : Fin 10) (bs : List Byte) (k : ChanConfig) : Option ChanConfig :=
  match bit.val with
  | 0 => (flag? (byteAt bs 0)).map fun v => { k with on := v }
  | 1 => (flag? (byteAt bs 0)).map fun v => { k with freeRunPermitted := v }
  | 2 => (raster? (byteAt bs 0)).map fun v => { k with raster := v }
  | 3 =>
    if 1000 ≤ (halfAt bs 0).toNat ∧ (halfAt bs 0).toNat ≤ 5000 then some { k with period := (halfAt bs 0).toNat }
    else none
  | 4 => (layout? (byteAt bs 0)).map fun v => { k with layout := v }
  | 5 => (scale? (byteAt bs 0)).map fun v => { k with scale := v }
  | 6 => if h : (byteAt bs 0).toNat < 16 then some { k with border := ⟨(byteAt bs 0).toNat, h⟩ } else none
  | 7 => some { k with borderColour := colourAt bs 0 }
  | 8 => some { k with background := colourAt bs 0 }
  | _ => (classes? (byteAt bs 0)).map fun v => { k with videoMask := v }

/-- The selector bits of a selector field, ascending (R187). -/
def selectedFields (selectors : Half) : List (Fin 10) :=
  (ascending 10).filter fun bit => selectors.getLsbD bit.val

/-- The sum of the widths of the selected fields (R187). -/
def fieldsWidth (bits : List (Fin 10)) : Nat := (bits.map fieldWidth).sum

/-- The selected fields written in ascending selector order, none where any value lies outside its spelling (R100,
R187). -/
def writeFields : List (Fin 10) → List Byte → ChanConfig → Option ChanConfig
  | [], _, k => some k
  | bit :: rest, bs, k =>
    match writeField bit (bs.take (fieldWidth bit)) k with
    | some k' => writeFields rest (bs.drop (fieldWidth bit)) k'
    | none => none

/-- What the `fields` argument of CHANNEL_SET makes of a staged configuration: selectors, then the values (R187). The
payload starts with the channel byte. -/
def fieldsWritten? (payload : List Byte) (k : ChanConfig) : Option ChanConfig :=
  let selectors := halfAt payload 1
  if selectors.toNat ≥ 1024 then none
  else if payload.length ≠ 3 + fieldsWidth (selectedFields selectors) then none
  else writeFields (selectedFields selectors) (payload.drop 3) k

end Sys2Proof.Machine
end

