-- ==== Sys2Proof/Machine/Ops.lean ====
section
/-! DEFINITION. The shared operations of the blocks: chip-select windows and the response slot, posting and filing of
events, sessions, the commit path and landing, the glyph store's resolve, discard and map, claims, frame starts, and the
end of a session. Every command of the part is written over these. -/
namespace Sys2Proof.Machine

/-! ### Writing one field of one block -/

def State.modPort (s : State) (p : Port) (f : PortIf → PortIf) : State := { s with ports := s.ports.modify p f }

def State.modSession (s : State) (p : Port) (f : Session → Session) : State :=
  { s with sessions := s.sessions.modify p f }

def State.modClaim (s : State) (r : Resource) (f : Claim → Claim) : State := { s with claims := s.claims.modify r f }

def State.modWait (s : State) (p : Port) (f : Nat → Nat) : State := { s with waits := s.waits.modify p f }

def State.modRow (s : State) (r : RowNo) (f : Row → Row) : State := { s with rows := s.rows.modify r f }

def State.modLeased (s : State) (r : LeasedNo) (f : Leased → Leased) : State :=
  { s with leased := s.leased.modify r f }

def State.modCell (s : State) (n : CellNo) (f : Cell → Cell) : State := { s with cells := s.cells.modify n f }

def State.setUpload (s : State) (p : Port) (u : Option Upload) : State := { s with uploads := s.uploads.set p u }

def State.setMap (s : State) (m : List MapEntry) : State := { s with map := m }

def State.modChannel (s : State) (c : Chan) (f : Channel → Channel) : State :=
  { s with channels := s.channels.modify c f }

def State.setCompositor (s : State) (c : Chan) (f : Option FrameLatch) : State :=
  { s with compositors := s.compositors.set c f }

/-! ### Chip-select windows (R166, R167, R168, R176, R177) -/

/-- The byte SDOn carries when no response byte is due (R166). -/
def filler : Byte := 0xFF#8

/-- CSn is asserted: a window opens, and bytes are counted from here (R166, R167). -/
def PortIf.openWindow (q : PortIf) : PortIf :=
  { q with recv := .opening, buffer := [], bits := 0, delivered := 0, shifting := [], csn := true, sdo := [],
           sdoTail := [] }

/-- One byte time of a fetch after byte 0: the next response byte is shifted out, or filler. The last byte of a FULL
slot's response empties the slot (R176, R177). -/
def PortIf.fetchByte (q : PortIf) : PortIf :=
  match q.shifting with
  | [] => { q with sdo := q.sdo ++ [filler] }
  | b :: rest =>
    { q with
      sdo := q.sdo ++ [b]
      shifting := rest
      slot := if rest.isEmpty then none else q.slot
      delivered := if rest.isEmpty || q.slot.isNone then 0 else q.delivered + 1 }

/-- Eight rising edges of SCKn bring in one byte (R166–R168). -/
def PortIf.clockByte (q : PortIf) (b : Byte) : PortIf :=
  match q.recv with
  | .idle => q
  | .ignore => q
  | .opening =>
    if b = fetchMarker then
      { q with recv := .fetch, sdo := q.sdo ++ [filler], shifting := (q.slot.getD Response.empty).bytes }
    else { q with recv := .command, sdo := q.sdo ++ [filler], buffer := [b] }
  | .command =>
    { q with
      sdo := q.sdo ++ [filler]
      buffer := if q.buffer.length < Config.bufferBytes then q.buffer ++ [b] else q.buffer }
  | .fetch => q.fetchByte

/-- The first n bits of a byte, most significant first (R166). -/
def topBits (b : Byte) (n : Nat) : List Bool := (List.range n).map fun i => b.getMsbD i

/-- Fewer than eight rising edges: a partial byte at the end of the window (R166). -/
def PortIf.clockBits (q : PortIf) (n : Nat) : PortIf :=
  match q.recv with
  | .idle => q
  | .ignore => q
  | .opening => { q with bits := n, sdoTail := topBits filler n }
  | .command => { q with bits := n, sdoTail := topBits filler n }
  | .fetch => { q with sdoTail := topBits (q.shifting.headD filler) n }

/-- What a window carries, from its opening to just before its close. -/
def PortIf.receive (q : PortIf) (f : RawFrame) : PortIf :=
  (f.bytes.foldl PortIf.clockByte q.openWindow).clockBits f.bits

/-- CSn is deasserted: the window closes, and nothing of it stays in the assembly buffer (R167, log 14). -/
def PortIf.closeWindow (q : PortIf) : PortIf :=
  { q with recv := .idle, buffer := [], bits := 0, delivered := 0, shifting := [], csn := false }

/-- A window that opens and closes while a reset is held: no bit is read or driven, and the port stays in IGNORE
(R167). -/
def PortIf.ignoreWindow (q : PortIf) : PortIf :=
  { q with recv := .ignore, csn := false, sdo := [], sdoTail := [] }

/-- IGNORE ends once no reset is held and CSn is deasserted (R167). -/
def State.leaveIgnore (s : State) (p : Port) : State :=
  if (s.ports.get p).recv == .ignore && !(s.inReset p) && !(s.ports.get p).csn then
    s.modPort p fun q => { q with recv := .idle }
  else s

/-! ### Replies and the response slot (R174, R175) -/

/-- What a command, or a bad frame, answers before its response is placed. -/
structure Reply where
  status : Status
  payload : List Byte
  deriving DecidableEq, Repr

/-- The stage bytes of a BAD_ARG response (R174). -/
def stageUnknown : Byte := 0x00#8

def stageLength : Byte := 0x01#8

def stageValue : Byte := 0x02#8

/-- BAD_ARG at stage VALUE (R174). -/
def badValue : Reply := { status := .badArg, payload := [stageValue] }

/-- OK with a payload. -/
def okReply (payload : List Byte) : Reply := { status := .ok, payload := payload }

/-- Placing a response in the slot: a response waiting there is discarded unread and the new one is flagged (R175). -/
def State.place (s : State) (p : Port) (r : Reply) : State :=
  s.modPort p fun q =>
    { q with slot := some { status := r.status, discarded := q.slot.isSome, payload := r.payload } }

/-- One whole window that carries a frame which is not a fetch (R167, R169, R171). In reset it is ignored. Otherwise it
is judged at its close: a bad frame answers BAD_FRAME with its reason, a good one is taken by `taken`, and the response
is placed. -/
def State.closeFrame (s : State) (p : Port) (f : RawFrame) (taken : State → State × Reply) : State :=
  if s.inReset p then s.modPort p PortIf.ignoreWindow
  else
    let q := (s.ports.get p).receive f
    let closed := s.modPort p fun _ => q.closeWindow
    match judge q.buffer q.bits with
    | some reason => closed.place p { status := .badFrame, payload := [reason.byte] }
    | none => (taken closed).1.place p (taken closed).2

/-! ### Posting and filing events (R151, R152) -/

/-- A block hands an event for a session to the session block (R151). -/
def State.post (s : State) (source : Source) (i : Sid) (e : Event) : State :=
  { s with posted := s.posted ++ [{ source := source, addressee := .session i, event := e }] }

/-- The identity of the session on a port. -/
def State.sidOf (s : State) (p : Port) : Sid := { port := p, epoch := (s.sessions.get p).epoch }

/-- The session is the ACTIVE session of its port (R144). -/
def State.isActive (s : State) (i : Sid) : Bool :=
  (s.sessions.get i.port).active && (s.sessions.get i.port).epoch == i.epoch

/-- One record for each ACTIVE session other than the one on `except` (R151). -/
def State.broadcast (s : State) (source : Source) (except : Option Port) (e : Event) : State :=
  (ascending 4).foldl
    (fun s p => if (s.sessions.get p).active && except != some p then s.post source (s.sidOf p) e else s) s

/-- Filing against a session record: mask, space, store (R152, steps 2–4; R154, R155). -/
def Session.file (r : Session) (e : Event) : Session :=
  if !(maskHas r.mask e.kind.cls) then r
  else if r.queue.length ≥ Config.queueCapacity then { r with lost := if r.lost = 255#8 then 255#8 else r.lost + 1#8 }
  else { r with queue := r.queue ++ [{ seq := r.nextSeq, event := e }], nextSeq := r.nextSeq + 1#8 }

/-- Filing one event (R152): dropped unless its addressee is the ACTIVE session of the port (step 1, R144). -/
def State.fileEvent (s : State) (x : Posted) : State :=
  match x.addressee with
  | .session i => if s.isActive i then s.modSession i.port fun r => r.file x.event else s
  | .ended _ => s

/-- The port of an addressee. -/
def Addressee.port : Addressee → Port
  | .session i => i.port
  | .ended p => p

/-- The event in flight that `source` posted for a session of port p. -/
def Posted.fromTo (source : Source) (p : Port) (x : Posted) : Bool := x.source == source && x.addressee.port == p

/-- The oldest event in flight from a block to a port's session reaches the session block and is filed; events of one
block to one queue keep their order (R152, R156). -/
def State.fileOldest (s : State) (source : Source) (p : Port) : State :=
  match s.posted.find? (Posted.fromTo source p) with
  | some x => ({ s with posted := s.posted.eraseP (Posted.fromTo source p) } : State).fileEvent x
  | none => s

/-! ### Sessions and leases (R130, R133, R134) -/

/-- The full lease in ms (R129). -/
def Session.fullLease (r : Session) : Nat := 100 * r.term.toNat

/-- A quarter of the full lease, in ms (R138). -/
def Session.lowMark (r : Session) : Nat := 25 * r.term.toNat

/-- LEASE_LOW is due: the lease of an ACTIVE session is armed and down to a quarter (R138). -/
def Session.lowDue (r : Session) : Bool := r.active && r.armed && r.remaining == r.lowMark

/-- The lease of an ACTIVE session has run out (R139). -/
def Session.expiryDue (r : Session) : Bool := r.active && r.remaining == 0

/-- The lease is set back to its full length and LEASE_LOW is armed (R134). -/
def State.renewLease (s : State) (p : Port) : State :=
  s.modSession p fun r => { r with remaining := r.fullLease, fraction := 0, armed := true }

/-- The id in a frame is that of the port's ACTIVE session (R133). -/
def State.sessionCheck (s : State) (p : Port) (sid : Byte) : Bool :=
  (s.sessions.get p).active && (s.sidOf p).byte == sid

/-- The epoch after an epoch (R130). -/
def nextEpoch (e : BitVec 6) : BitVec 6 := if e = 63#6 then 1#6 else e + 1#6

/-- Steps 3–5 of R171 for a command other than ATTACH: session check, renewal, payload length, and then the block that
owns the command, which is given the caller. -/
def State.takeCommand (s : State) (p : Port) (sid : Byte) (payload : List Byte) (least greatest : Nat)
    (own : Sid → State → State × Reply) : State × Reply :=
  if s.sessionCheck p sid then
    let renewed := s.renewLease p
    if payload.length < least || payload.length > greatest then
      (renewed, { status := .badArg, payload := [stageLength] })
    else own (s.sidOf p) renewed
  else (s, { status := .stale, payload := [] })

/-- A command frame of port p, from the opening of its window to the placing of its response (R171). -/
def State.commandFrame (s : State) (p : Port) (code sid : Byte) (payload : List Byte) (least greatest : Nat)
    (own : Sid → State → State × Reply) : State :=
  s.closeFrame p (wireFrame code sid payload) fun t => t.takeCommand p sid payload least greatest own

/-! ### The glyph map (R35), kept with its codes strictly rising -/

/-- The entry of a code. -/
def mapFind (m : List MapEntry) (code : Half) : Option MapEntry := m.find? fun e => e.code == code

/-- The map with an entry added, or put in the place of its code's entry. -/
def mapInsert (e : MapEntry) : List MapEntry → List MapEntry
  | [] => [e]
  | x :: rest =>
    if e.code = x.code then e :: rest
    else if e.code.toNat < x.code.toNat then e :: x :: rest
    else x :: mapInsert e rest

/-- The map without the entry of a code. -/
def mapErase (m : List MapEntry) (code : Half) : List MapEntry := m.filter fun e => e.code != code

/-- The map after the end of a session: its volatile entries are removed, its others lose their holder (R53). -/
def mapEndSession (m : List MapEntry) (i : Sid) : List MapEntry :=
  (m.filter fun e => !(e.holder == some i && e.isVolatile)).map fun e =>
    if e.holder = some i then { e with holder := none } else e

/-- Codes strictly rising: the canonical form of the map, one entry per code (R35). -/
def mapSorted : List MapEntry → Bool
  | [] => true
  | [_] => true
  | x :: y :: rest => decide (x.code.toNat < y.code.toNat) && mapSorted (y :: rest)

/-- The entry is held by a session other than the caller (R36). -/
def heldByAnother (e : MapEntry) (caller : Sid) : Option Sid :=
  match e.holder with
  | some h => if h = caller then none else some h
  | none => none

/-! ### Cells: resolve, discard, retirement (R37–R39, R46) -/

/-- The cell a code resolves to today (R38). -/
def State.cellFor (s : State) (code : Half) : CellNo :=
  match mapFind s.map code with
  | some e => e.cell
  | none => 0

/-- The text of codes with the cells they resolve to (R14, R38). -/
def State.resolveText (s : State) (codes : List Half) : List Position :=
  codes.map fun code => { code := code, cell := s.cellFor code }

/-- One reference more for each position (R14, R38). -/
def State.addRefs (s : State) (text : List Position) : State :=
  text.foldl (fun s q => s.modCell q.cell fun k => { k with refs := k.refs + 1 }) s

/-- A cell that loses one reference: a RETIRING cell that reaches 0 becomes FREE (R39). -/
def Cell.dropRef (k : Cell) : Cell :=
  { k with
    refs := k.refs - 1
    state := if k.state = .retiring ∧ k.refs - 1 = 0 then .free else k.state }

/-- A discard request (R20, R39). -/
def State.discardText (s : State) (text : List Position) : State :=
  text.foldl (fun s q => s.modCell q.cell Cell.dropRef) s

/-- The number of positions that took cell 0 (R14). -/
def missingCount (text : List Position) : Nat := text.countP fun q => q.cell == 0

/-- The state a cell enters when the map lets go of it (R46, R51, R53). -/
def releasedState (k : Cell) : CellState := if k.refs = 0 then .free else .retiring

/-- The map lets go of a cell. -/
def State.releaseCell (s : State) (n : CellNo) : State := s.modCell n fun k => { k with state := releasedState k }

/-- The open upload of a session, of which it has at most one (R41). -/
def State.uploadOf (s : State) (i : Sid) : Option Upload :=
  match s.uploads.get i.port with
  | some u => if u.session = i then some u else none
  | none => none

/-- The session's upload, if it has one, ends without installing: its cell becomes FREE and its record is removed (R43,
R45, R48, R53). -/
def State.dropUpload (s : State) (i : Sid) : State :=
  match s.uploadOf i with
  | some u => (s.modCell u.cell fun k => { k with state := .free }).setUpload i.port none
  | none => s

/-! ### The commit path and landing (R14–R21, R25) -/

/-- The holding set of a commit over an old live version: the running channels it names (R16). -/
def State.holdingSet (s : State) (old : Version) : ChanSet :=
  old.placements.foldl
    (fun m q => if (s.channels.get q.chan).state.running then m.set q.chan true else m) (Four.fill false)

/-- What is being committed (R15): the edit buffer, the payload of WRITE_COMMON, or the blank content. -/
structure Content where
  codes : List Half
  style : Style
  placements : List Placement
  deriving DecidableEq, Repr

/-- The content of a blank commit (R25). -/
def Content.blank : Content := { codes := [], style := Style.default, placements := [] }

/-- The new live version of a commit (R15, step 4). -/
def State.newVersion (s : State) (r : RowNo) (k : Content) (origin : Origin) : Version :=
  { text := s.resolveText k.codes, style := k.style, placements := k.placements,
    generation := nextGeneration (s.rows.get r).generation, origin := origin }

/-- R14–R16 up to the landing: the text is resolved and counted, the old live version is held, the new one is live. -/
def State.exchange (s : State) (r : RowNo) (k : Content) (origin : Origin) : State :=
  let new := s.newVersion r k origin
  let old := (s.rows.get r).live
  (s.addRefs new.text).modRow r fun _ => { live := new, held := some { version := old, holding := s.holdingSet old } }

/-- The event that reports a landing (R21). -/
def landedEvent (r : RowNo) (g : Half) : Event :=
  { kind := .commitLanded, subject := BitVec.ofNat 16 r.val, value := g, port := none }

/-- COMMIT_LANDED to the origin of the live version, if it is a session and still the ACTIVE one (R21). -/
def State.postLanded (s : State) (r : RowNo) : State :=
  match (s.rows.get r).live.origin with
  | .session i => if s.isActive i then s.post .rowTable i (landedEvent r (s.rows.get r).generation) else s
  | .part => s
  | .ended => s

/-- Steps 1–3 of a landing (R19): the held version is discarded, the row becomes SETTLED, COMMIT_LANDED is posted. -/
def State.settle (s : State) (r : RowNo) : State :=
  let discarded :=
    match (s.rows.get r).held with
    | some h => s.discardText h.version.text
    | none => s
  (discarded.modRow r fun x => { x with held := none }).postLanded r

/-- A blank commit, which lands at once when its holding set is empty (R16, R25). -/
def State.blankCommit (s : State) (r : RowNo) : State :=
  let t := s.exchange r Content.blank .part
  if ChanSet.isEmpty (t.rows.get r).holding then t.settle r else t

/-- A landing (R19). -/
def State.land (s : State) (r : RowNo) : State :=
  let t := s.settle r
  match rowLeased r with
  | some l =>
    if (t.leased.get l).blankPending then (t.modLeased l fun x => { x with blankPending := false }).blankCommit r
    else t
  | none => t

/-- The end of a taken commit: it lands at once when its holding set is empty (R16). -/
def State.landIfFree (s : State) (r : RowNo) : State :=
  if ChanSet.isEmpty (s.rows.get r).holding then s.land r else s

/-- The response of a taken COMMIT or WRITE_COMMON (R17, R83, R190), from the state after the exchange of versions. -/
def State.commitReply (s : State) (r : RowNo) : Reply :=
  let v := (s.rows.get r).live
  okReply (halfBytes v.generation ++ [BitVec.ofNat 8 (missingCount v.text),
    ChanSet.byte (clippedMask s.channels s.cells v), ChanSet.byte (s.rows.get r).holding])

/-- Channel c leaves the holding set of one row, which lands when the set empties (R18, R28). -/
def State.releaseRow (s : State) (c : Chan) (r : RowNo) : State :=
  match (s.rows.get r).held with
  | some h =>
    if h.holding.get c then
      let left := h.holding.set c false
      let t := s.modRow r fun x => { x with held := some { h with holding := left } }
      if ChanSet.isEmpty left then t.land r else t
    else s
  | none => s

/-- Channel c leaves every holding set; rows land in ascending row number (R18, R28). -/
def State.releaseChannel (s : State) (c : Chan) : State := (ascending 48).foldl (fun s r => s.releaseRow c r) s

/-! ### Leased rows: grant and leave (R23, R24) -/

/-- The edit buffer that a grant makes: a copy of the live version, its codes without their cells (R23). -/
def editCopy (v : Version) : EditBuffer :=
  { text := v.text.map fun q => q.code, style := v.style, placements := v.placements }

/-- A grant of leased row l (R23). -/
def State.grantRow (s : State) (l : LeasedNo) : State :=
  s.modLeased l fun _ => { edit := editCopy (s.rows.get (LeasedNo.row l)).live, blankPending := false }

/-- A leave blank of leased row l (R24). -/
def State.leaveBlank (s : State) (l : LeasedNo) : State :=
  let emptied := s.modLeased l fun x => { x with edit := EditBuffer.empty }
  if (s.rows.get (LeasedNo.row l)).swapping then emptied.modLeased l fun x => { x with blankPending := true }
  else emptied.blankCommit (LeasedNo.row l)

/-- A grant request to the row table, which only a leased row has (R62, R66). -/
def State.grant (s : State) (r : Resource) : State :=
  match resourceRow r with
  | some l => s.grantRow l
  | none => s

/-! ### Claims (R65–R68, R71, R72) -/

/-- The holder's port of a claim record, or none. -/
def Claim.holderPort (k : Claim) : Option Port := k.holder.map Sid.port

/-- NOT_HOLDER with the holder's port of a resource, or none (R65, R100). -/
def State.notHolder (s : State) (r : Resource) : Reply :=
  { status := .notHolder, payload := [portByte (s.claims.get r).holderPort] }

/-- The event that reports a grant (R68, R150). -/
def grantedEvent (r : Resource) (leaver : Port) : Event :=
  { kind := .claimGranted, subject := (resourceId r).setWidth 16, value := 0#16, port := some leaver }

/-- The holder leaves a resource (R66, R67): to the oldest waiter, or unheld with the row kept or left blank. -/
def State.leaveResource (s : State) (r : Resource) (leaver : Port) (keep : Bool) : State :=
  match (s.claims.get r).waiters with
  | w :: rest =>
    (((s.modClaim r fun _ => { holder := some w, waiters := rest }).modWait w.port fun n => n - 1).grant r).post
      .claimTable w (grantedEvent r leaver)
  | [] =>
    let unheld := s.modClaim r fun x => { x with holder := none }
    match resourceRow r with
    | some l => if keep then unheld else unheld.leaveBlank l
    | none => unheld

/-- The session leaves every waiter list it is in, and its wait count becomes 0 (R71). -/
def State.removeWaits (s : State) (i : Sid) : State :=
  ({ s with claims := s.claims.map fun k => { k with waiters := k.waiters.filter fun w => w != i } } : State).modWait
    i.port fun _ => 0

/-- The session leaves every resource it holds, in ascending resource id (R72). -/
def State.leaveHoldings (s : State) (i : Sid) : State :=
  (ascending 48).foldl
    (fun s r => if (s.claims.get r).holder = some i then s.leaveResource r i.port false else s) s

/-! ### Channel engines (R93–R98, R103, R106, R107) -/

/-- The timer runs and its remaining time is 0 (R93, R94). -/
def Timer.due : Timer → Bool
  | .stopped => false
  | .running _ remaining => remaining == 0

/-- The loss timer started or restarted: twice the active nominal frame period (R93). -/
def Channel.startLoss (k : Channel) : Channel :=
  { k with loss := .running (2 * k.active.period) (2 * k.active.period) }

/-- The free-run timer started or restarted: one active nominal frame period (R94). -/
def Channel.startFreeRun (k : Channel) : Channel := { k with freeRun := .running k.active.period k.active.period }

def chanEvent (kind : EventKind) (c : Chan) (value : Half) : Event :=
  { kind := kind, subject := BitVec.ofNat 16 c.val, value := value, port := none }

/-- A change of state among SEEKING, LOCKED and FREERUN, with its CHANNEL_SIGNAL (R96). -/
def State.signal (s : State) (c : Chan) (new : SignalState) : State :=
  (s.modChannel c fun k => { k with state := new }).broadcast (.channelEngine c) none
    (chanEvent .channelSignal c (new.byte.setWidth 16))

/-- A pending configuration, if present, becomes active, and CHANNEL_APPLIED is posted to its applier (R103). -/
def State.activatePending (s : State) (c : Chan) : State :=
  match (s.channels.get c).pending with
  | some x =>
    let t := s.modChannel c fun k => { k with active := x.config, pending := none }
    match x.applier with
    | some i => if t.isActive i then t.post (.channelEngine c) i (chanEvent .channelApplied c 0#16) else t
    | none => t
  | none => s

/-- The version of a row that channel c draws (R27). -/
def latchedVersion (c : Chan) (x : Row) : Version :=
  match x.held with
  | some h => if h.holding.get c then h.version else x.live
  | none => x.live

/-- What the compositor of c takes at stage 3 (R27, R106, R113). -/
def State.frameLatch (s : State) (c : Chan) : FrameLatch :=
  let config := (s.channels.get c).active
  let latched := s.rows.map (latchedVersion c)
  { latched := latched, drawList := drawList c config latched, config := config }

/-- The placements a frame drops: its drawable placements over the draw budget (R106). -/
def droppedCount (c : Chan) (f : FrameLatch) : Nat :=
  (drawables c f.config f.latched).length - Config.drawBudget

/-- Stage 3 of a frame start: latch, draw list, overbooked mark, OVERBOOKED (R27, R106, R107). -/
def State.latchFrame (s : State) (c : Chan) : State :=
  let f := s.frameLatch c
  let dropped := droppedCount c f
  let before := (s.channels.get c).overbooked
  let t := (s.setCompositor c (some f)).modChannel c fun k => { k with overbooked := dropped != 0, dropped := dropped }
  if !before && dropped != 0 then
    match (s.claims.get (chanResource c)).holder with
    | some i => t.post (.channelEngine c) i (chanEvent .overbooked c (BitVec.ofNat 16 dropped))
    | none => t
  else t

/-- A frame start of channel c, in its three stages (R27, R98). -/
def State.frameStart (s : State) (c : Chan) : State := ((s.activatePending c).releaseChannel c).latchFrame c

/-- Steps 4 and 5 of R95: the marks are cleared, the compositor drops its frame (R113) and the holds are released. -/
def State.stopDrawing (s : State) (c : Chan) : State :=
  ((s.modChannel c fun k => { k with overbooked := false, dropped := 0 }).setCompositor c none).releaseChannel c

/-- Entry into FREERUN by a loss timer expiry: a frame start, then the free-run timer (R93, R94). -/
def State.enterFreeRun (s : State) (c : Chan) : State :=
  (((s.signal c .freeRun).modChannel c fun k => { k with loss := .stopped }).frameStart c).modChannel c
    Channel.startFreeRun

/-- Entry into SEEKING from LOCKED by a loss timer expiry (R93, R95). -/
def State.enterSeeking (s : State) (c : Chan) : State :=
  ((((s.signal c .seeking).activatePending c).modChannel c fun k => { k with freeRun := .stopped }).modChannel c
    Channel.startLoss).stopDrawing c

/-! ### The end of a session (R22, R53, R103, R142–R144) -/

/-- Each SWAPPING row whose live version the session committed has its origin ENDED (R22). -/
def Row.endOrigin (i : Sid) (x : Row) : Row :=
  if x.swapping && x.live.origin == .session i then { x with live := { x.live with origin := .ended } } else x

/-- A pending configuration the session applied has its applier ENDED (R103). -/
def Channel.endApplier (i : Sid) (k : Channel) : Channel :=
  match k.pending with
  | some x => if x.applier = some i then { k with pending := some { x with applier := none } } else k
  | none => k

/-- An event in flight addressed to the session reaches no later session of its port (R144, R163; log 7). -/
def Posted.endAddressee (i : Sid) (x : Posted) : Posted :=
  if x.addressee = .session i then { x with addressee := .ended i.port } else x

/-- The record of a session that ends (R142, steps 1–5). -/
def Session.ended (r : Session) (cause : EndCause) : Session :=
  { r with active := false, remaining := 0, fraction := 0, armed := false, mask := 0#6, queue := [], lost := 0#8,
           causes := r.causes ||| cause.bit }

/-- The cells whose volatile entries the session's end removes (R53). -/
def State.releaseVolatile (s : State) (i : Sid) : State :=
  s.map.foldl (fun t e => if e.holder = some i ∧ e.isVolatile then t.releaseCell e.cell else t) s

/-- The glyph store's work at a session's end (R53). -/
def State.endGlyphs (s : State) (i : Sid) : State :=
  let t := (s.dropUpload i).releaseVolatile i
  t.setMap (mapEndSession t.map i)

/-- The session-end notice, handed to every block (R143). -/
def State.endNotice (s : State) (i : Sid) : State :=
  (({ s with
      posted := s.posted.map (Posted.endAddressee i)
      rows := s.rows.map (Row.endOrigin i)
      channels := s.channels.map (Channel.endApplier i) } : State).endGlyphs i).removeWaits i |>.leaveHoldings i

/-- The ACTIVE session of port p ends (R142). -/
def State.endSession (s : State) (p : Port) (cause : EndCause) : State :=
  (s.modSession p fun r => r.ended cause).endNotice (s.sidOf p)

/-! ### Resets (R7, R34, R60, R90, R147, R148, R165, R181, R182) -/

/-- Every block at its power-on values, with the end-cause sets given; the ports, the CRST level and the queue of
waiting steps are not touched (R7, R34, R60, R90, R148). -/
def State.resetBlocks (s : State) (cause : EndCause) : State :=
  { State.reset with
    crst := s.crst
    ports := s.ports
    sessions := Four.fill { Session.reset with causes := cause.bit }
    pending := s.pending
    freeIndex := s.freeIndex }

/-- A port interface at the assertion of a reset (R181, R182): what its window carried so far is received, unless the
port was ignoring that window (R167), and then everything is dropped. -/
def PortIf.assertReset (q : PortIf) (inReset : Bool) (w : Window) : PortIf :=
  let met :=
    match w with
    | .closed => { q with csn := false, sdo := [], sdoTail := [] }
    | .opened f =>
      if inReset || q.recv == RecvState.ignore then { q with csn := true, sdo := [], sdoTail := [] } else q.receive f
  { met with recv := .ignore, buffer := [], bits := 0, slot := none, delivered := 0, shifting := [] }

end Sys2Proof.Machine
end

