-- ==== Sys2Proof/Machine/Channels.lean ====
section
/-! DEFINITION. Channels and frame timing (05): CHANNEL_SET, CHANNEL_APPLY, READ_CHANNEL, and the three steps that make
or end frames. -/
namespace Sys2Proof.Machine

/-- The checks on the channel that CHANNEL_SET and CHANNEL_APPLY share (R100, steps 1 and 2; R101). -/
def State.withHeldChannel (s : State) (payload : List Byte) (caller : Sid) (act : Chan → State × Reply) :
    State × Reply :=
  match chan? (byteAt payload 0) with
  | some c =>
    if (s.claims.get (chanResource c)).holder = some caller then act c else (s, s.notHolder (chanResource c))
  | none => (s, badValue)

/-- CHANNEL_SET on a channel its caller holds (R100). -/
def State.stageFields (s : State) (payload : List Byte) (c : Chan) : State × Reply :=
  match fieldsWritten? payload (s.channels.get c).staged with
  | some staged => (s.modChannel c fun k => { k with staged := staged }, okReply [])
  | none => (s, badValue)

/-- CHANNEL_SET (R100). -/
def execChannelSet (p : Port) (sid : Byte) (payload : List Byte) (s : State) : Host.Outcome State Fault Refusal :=
  .next (s.commandFrame p 0x40#8 sid payload 3 18
    fun caller t => t.withHeldChannel payload caller (t.stageFields payload))

/-- The response of CHANNEL_APPLY: outcome, resulting state, replaced flag (R190). -/
def applyReply (isPending : Bool) (state : SignalState) (replaced : Bool) : Reply :=
  okReply [flagByte isPending, state.byte, flagByte replaced]

/-- The staged configuration becomes active (R101, R102). -/
def Channel.applyStaged (k : Channel) : Channel := { k with active := k.staged }

/-- The engine's own fields on entry into OFF (R95, steps 1 and 3). -/
def Channel.turnOff (k : Channel) : Channel := { k with state := .off, loss := .stopped, freeRun := .stopped }

/-- CHANNEL_APPLY taken in OFF (R101). -/
def State.applyInOff (s : State) (c : Chan) : State × Reply :=
  let t := s.modChannel c Channel.applyStaged
  if (s.channels.get c).staged.on then
    (t.modChannel c fun k => { k.startLoss with state := .seeking }, applyReply false .seeking false)
  else (t, applyReply false .off false)

/-- CHANNEL_APPLY taken in SEEKING (R101): mode ON leaves the loss timer running as it is. -/
def State.applyInSeeking (s : State) (c : Chan) : State × Reply :=
  let t := s.modChannel c Channel.applyStaged
  if (s.channels.get c).staged.on then (t, applyReply false .seeking false)
  else (t.modChannel c Channel.turnOff, applyReply false .off false)

/-- CHANNEL_APPLY taken in LOCKED or FREERUN (R102). -/
def State.applyInRunning (s : State) (caller : Sid) (c : Chan) : State × Reply :=
  let k := s.channels.get c
  let replaced := k.pending.isSome
  if k.staged.on then
    (s.modChannel c fun k => { k with pending := some { config := k.staged, applier := some caller } },
     applyReply true k.state replaced)
  else
    (((s.modChannel c fun k => { k.applyStaged with pending := none }).modChannel c Channel.turnOff).stopDrawing c,
     applyReply false .off replaced)

/-- CHANNEL_APPLY on a channel its caller holds (R101, R102). -/
def State.applyChannel (s : State) (caller : Sid) (c : Chan) : State × Reply :=
  match (s.channels.get c).state with
  | .off => s.applyInOff c
  | .seeking => s.applyInSeeking c
  | .locked => s.applyInRunning caller c
  | .freeRun => s.applyInRunning caller c

/-- CHANNEL_APPLY (R101, R102). -/
def execChannelApply (p : Port) (sid : Byte) (payload : List Byte) (s : State) : Host.Outcome State Fault Refusal :=
  .next (s.commandFrame p 0x41#8 sid payload 1 1
    fun caller t => t.withHeldChannel payload caller (t.applyChannel caller))

/-- The 50 bytes of a READ_CHANNEL response (R191). -/
def Channel.report (k : Channel) : List Byte :=
  let applier := match k.pending with
    | some x => x.applier.map Sid.port
    | none => none
  let pendingBytes := match k.pending with
    | some x => x.config.bytes
    | none => List.replicate 15 0x00#8
  [k.state.byte, flagByte k.overbooked, BitVec.ofNat 8 k.dropped, flagByte k.pending.isSome, portByte applier]
    ++ k.active.bytes ++ k.staged.bytes ++ pendingBytes

/-- READ_CHANNEL's own check and response (R108). -/
def State.takeReadChannel (payload : List Byte) (_caller : Sid) (s : State) : State × Reply :=
  match chan? (byteAt payload 0) with
  | some c => (s, okReply (s.channels.get c).report)
  | none => (s, badValue)

/-- READ_CHANNEL (R108). -/
def execReadChannel (p : Port) (sid : Byte) (payload : List Byte) (s : State) : Host.Outcome State Fault Refusal :=
  .next (s.commandFrame p 0x42#8 sid payload 1 1 (State.takeReadChannel payload))

/-- A frame start made by the input, after which the loss timer is started (R92, R93). -/
def State.inputFrame (s : State) (c : Chan) : State := (s.frameStart c).modChannel c Channel.startLoss

/-- Input timing arrives on channel c (R92, R96). -/
def State.inputArrives (s : State) (c : Chan) : State :=
  match (s.channels.get c).state with
  | .off => s
  | .seeking => (s.signal c .locked).inputFrame c
  | .locked => s.inputFrame c
  | .freeRun => ((s.signal c .locked).modChannel c fun k => { k with freeRun := .stopped }).inputFrame c

/-- INPUT_FRAME_START (R92). -/
def execInputFrameStart (c : Chan) (s : State) : Host.Outcome State Fault Refusal := .next (s.inputArrives c)

/-- The loss timer of channel c has run out (R93). -/
def State.lossTaken (s : State) (c : Chan) : State :=
  let permitted := (s.channels.get c).active.freeRunPermitted
  match (s.channels.get c).state with
  | .off => s
  | .seeking => if permitted then s.enterFreeRun c else s.modChannel c Channel.startLoss
  | .locked => if permitted then s.enterFreeRun c else s.enterSeeking c
  | .freeRun => s

/-- The expiry of the loss timer (R93). It does not happen where a frame start or an apply that reached the channel first
restarted or stopped the timer (R97). -/
def State.lossExpires (s : State) (c : Chan) : State := if (s.channels.get c).loss.due then s.lossTaken c else s

/-- LOSS_TIMER_EXPIRY (R93). -/
def execLossTimerExpiry (c : Chan) (s : State) : Host.Outcome State Fault Refusal := .next (s.lossExpires c)

/-- The free-run timer of channel c has run out (R94). It runs in FREERUN alone. -/
def State.freeRunTaken (s : State) (c : Chan) : State :=
  match (s.channels.get c).state with
  | .off => s
  | .seeking => s
  | .locked => s
  | .freeRun => (s.frameStart c).modChannel c Channel.startFreeRun

/-- The expiry of the free-run timer (R94). It does not happen where an arrival or an apply that reached the channel first
stopped the timer (R97). -/
def State.freeRunExpires (s : State) (c : Chan) : State :=
  if (s.channels.get c).freeRun.due then s.freeRunTaken c else s

/-- FREE_RUN_TIMER_EXPIRY (R94). -/
def execFreeRunTimerExpiry (c : Chan) (s : State) : Host.Outcome State Fault Refusal := .next (s.freeRunExpires c)

end Sys2Proof.Machine
end

