-- ==== Sys2Proof/Machine/Claims.lean ====
section
/-! DEFINITION. Claims and waiting lists (03): CLAIM, RELEASE, CANCEL_WAIT, READ_CLAIM. -/
namespace Sys2Proof.Machine

/-- The value of CLAIM's OK response: a row's live generation, or 0x00 and a channel's state (R62, R190). -/
def State.claimValue (s : State) (r : Resource) : List Byte :=
  match resourceRow r, resourceChan r with
  | some l, _ => halfBytes (s.rows.get (LeasedNo.row l)).generation
  | none, some c => [0x00#8, (s.channels.get c).state.byte]
  | none, none => [0x00#8, 0x00#8]

/-- The caller becomes holder of an unheld resource (R62). -/
def State.takeResource (s : State) (r : Resource) (caller : Sid) : State :=
  (s.modClaim r fun k => { k with holder := some caller }).grant r

/-- The caller joins the tail of a waiter list (R63). -/
def State.joinWaiters (s : State) (r : Resource) (caller : Sid) : State :=
  (s.modClaim r fun k => { k with waiters := k.waiters ++ [caller] }).modWait caller.port fun n => n + 1

/-- The place of a session in a waiter list, 1 for the oldest (R58). -/
def waitPlace (waiters : List Sid) (i : Sid) : Byte := BitVec.ofNat 8 (waiters.idxOf i + 1)

/-- CLAIM of a resource that a session holds (R61, steps 2 and 4–7). -/
def State.claimHeld (s : State) (r : Resource) (wait : Bool) (holder caller : Sid) : State × Reply :=
  let waiters := (s.claims.get r).waiters
  if holder = caller then (s, okReply (flagByte false :: s.claimValue r))
  else if !wait then (s, { status := .held, payload := [portByte (some holder.port)] })
  else if caller ∈ waiters then
    (s, { status := .queued, payload := [waitPlace waiters caller, portByte (some holder.port)] })
  else if s.waits.get caller.port ≥ Config.waitLimit then
    (s, { status := .waitLimit, payload := [portByte (some holder.port)] })
  else
    (s.joinWaiters r caller,
     { status := .queued, payload := [waitPlace (waiters ++ [caller]) caller, portByte (some holder.port)] })

/-- CLAIM's own checks and effect (R61). -/
def State.takeClaim (payload : List Byte) (caller : Sid) (s : State) : State × Reply :=
  match resource? (byteAt payload 0), flag? (byteAt payload 1) with
  | some r, some wait =>
    match (s.claims.get r).holder with
    | none => (s.takeResource r caller, okReply (flagByte true :: s.claimValue r))
    | some holder => s.claimHeld r wait holder caller
  | _, _ => (s, badValue)

/-- CLAIM (R61). -/
def execClaim (p : Port) (sid : Byte) (payload : List Byte) (s : State) : Host.Outcome State Fault Refusal :=
  .next (s.commandFrame p 0x10#8 sid payload 2 2 (State.takeClaim payload))

/-- RELEASE's own checks and effect (R65). -/
def State.takeRelease (payload : List Byte) (caller : Sid) (s : State) : State × Reply :=
  match resource? (byteAt payload 0), flag? (byteAt payload 1) with
  | some r, some keep =>
    if (s.claims.get r).holder = some caller then
      let t := s.leaveResource r caller.port keep
      (t, okReply [portByte (t.claims.get r).holderPort])
    else (s, s.notHolder r)
  | _, _ => (s, badValue)

/-- RELEASE (R65). -/
def execRelease (p : Port) (sid : Byte) (payload : List Byte) (s : State) : Host.Outcome State Fault Refusal :=
  .next (s.commandFrame p 0x11#8 sid payload 2 2 (State.takeRelease payload))

/-- CANCEL_WAIT's own checks and effect (R70). -/
def State.takeCancelWait (payload : List Byte) (caller : Sid) (s : State) : State × Reply :=
  match resource? (byteAt payload 0) with
  | some r =>
    let left := (s.claims.get r).waiters.erase caller
    if caller ∈ (s.claims.get r).waiters then
      ((s.modClaim r fun k => { k with waiters := left }).modWait caller.port fun n => n - 1,
       okReply [BitVec.ofNat 8 left.length])
    else (s, badValue)
  | none => (s, badValue)

/-- CANCEL_WAIT (R70). -/
def execCancelWait (p : Port) (sid : Byte) (payload : List Byte) (s : State) : Host.Outcome State Fault Refusal :=
  .next (s.commandFrame p 0x12#8 sid payload 1 1 (State.takeCancelWait payload))

/-- The port in place i of a waiter list, 0xFF beyond its end (R191). -/
def waiterByte (waiters : List Sid) (i : Nat) : Byte := portByte (waiters[i]?.map Sid.port)

/-- READ_CLAIM's own check and response (R75, R191). -/
def State.takeReadClaim (payload : List Byte) (caller : Sid) (s : State) : State × Reply :=
  match resource? (byteAt payload 0) with
  | some r =>
    let k := s.claims.get r
    (s, okReply [portByte k.holderPort, BitVec.ofNat 8 k.waiters.length, waiterByte k.waiters 0,
      waiterByte k.waiters 1, waiterByte k.waiters 2, BitVec.ofNat 8 (s.waits.get caller.port)])
  | none => (s, badValue)

/-- READ_CLAIM (R75). -/
def execReadClaim (p : Port) (sid : Byte) (payload : List Byte) (s : State) : Host.Outcome State Fault Refusal :=
  .next (s.commandFrame p 0x13#8 sid payload 1 1 (State.takeReadClaim payload))

end Sys2Proof.Machine
end

