-- ==== Sys2Proof/Machine/Events.lean ====
section
/-! DEFINITION. Events (08): READ_EVENTS and EVENT_FILING. -/
namespace Sys2Proof.Machine

/-- READ_EVENTS' own check and effect (R157, R192). -/
def State.takeReadEvents (payload : List Byte) (caller : Sid) (s : State) : State × Reply :=
  let n := (byteAt payload 0).toNat
  let r := s.sessions.get caller.port
  let out := r.queue.take n
  let left := r.queue.drop n
  if n = 0 || n > 8 then (s, badValue)
  else
    (s.modSession caller.port fun r => { r with queue := left, lost := 0#8 },
     okReply (BitVec.ofNat 8 out.length :: BitVec.ofNat 8 left.length :: r.lost :: out.flatMap EventRecord.bytes))

/-- READ_EVENTS (R157). -/
def execReadEvents (p : Port) (sid : Byte) (payload : List Byte) (s : State) : Host.Outcome State Fault Refusal :=
  .next (s.commandFrame p 0x05#8 sid payload 1 1 (State.takeReadEvents payload))

/-- EVENT_FILING (R152): the oldest event in flight from a block to a port's session. -/
def execEventFiling (source : Source) (p : Port) (s : State) : Host.Outcome State Fault Refusal :=
  .next (s.fileOldest source p)

end Sys2Proof.Machine
end

