-- ==== Sys2Proof/Machine/Glyphs.lean ====
section
/-! DEFINITION. The glyph store (02): GLYPH_BEGIN, GLYPH_LINES, GLYPH_ABORT, GLYPH_DELETE, READ_GLYPH, READ_STORE. -/
namespace Sys2Proof.Machine

/-- The lowest-numbered FREE cell (R42). -/
def State.lowestFree (s : State) : Option CellNo :=
  (ascending 256).find? fun n => (s.cells.get n).state == .free

/-- A cell taken for an upload (R33, R42). -/
def Cell.loading (advance : Nat) : Cell :=
  { state := .loading, bitmap := Table.fill 24 0#32, advance := advance, refs := 0 }

/-- NOT_HOLDER with the port of the session that holds a code (R42, R45, R51). -/
def heldReply (holder : Sid) : Reply := { status := .notHolder, payload := [portByte (some holder.port)] }

/-- The session other than the caller that holds a code's entry (R36). -/
def State.codeHeldByAnother (s : State) (code : Half) (caller : Sid) : Option Sid :=
  match mapFind s.map code with
  | some e => heldByAnother e caller
  | none => none

/-- The upload is opened in a cell (R42). -/
def State.openUpload (s : State) (caller : Sid) (n : CellNo) (code : Half) (advance : Nat) (isVolatile : Bool) :
    State :=
  (s.modCell n fun _ => Cell.loading advance).setUpload caller.port
    (some { session := caller, code := code, cell := n, next := 0, isVolatile := isVolatile })

/-- GLYPH_BEGIN's own checks and effect (R42, R189): code (2), advance, volatile flag. -/
def State.takeGlyphBegin (payload : List Byte) (caller : Sid) (s : State) : State × Reply :=
  let code := halfAt payload 0
  let advance := (byteAt payload 2).toNat
  match s.uploadOf caller with
  | some _ => (s, { status := .uploadOpen, payload := [] })
  | none =>
    match flag? (byteAt payload 3) with
    | none => (s, badValue)
    | some isVolatile =>
      if !(codeValid code) || advance < 1 || advance > 16 then (s, badValue)
      else
        match s.codeHeldByAnother code caller with
        | some holder => (s, heldReply holder)
        | none =>
          match s.lowestFree with
          | none => (s, { status := .noCell, payload := [] })
          | some n => (s.openUpload caller n code advance isVolatile, okReply [BitVec.ofNat 8 n.val])

/-- GLYPH_BEGIN (R42). -/
def execGlyphBegin (p : Port) (sid : Byte) (payload : List Byte) (s : State) : Host.Outcome State Fault Refusal :=
  .next (s.commandFrame p 0x30#8 sid payload 4 4 (State.takeGlyphBegin payload))

/-- Four bytes as a bitmap line (R188). -/
def lineAt (bs : List Byte) (i : Nat) : Line := byteAt bs i ++ byteAt bs (i + 1) ++ byteAt bs (i + 2) ++ byteAt bs (i + 3)

/-- Bitmap line j of fragment f (R44). -/
def lineNo (f : Fin 6) (j : Fin 4) : Fin 24 := ⟨4 * f.val + j.val, by omega⟩

/-- A fragment's four lines written into a bitmap (R44, R188). -/
def writeLines (b : Table Line 24) (f : Fin 6) (lines : List Byte) : Table Line 24 :=
  (((b.set (lineNo f 0) (lineAt lines 0)).set (lineNo f 1) (lineAt lines 4)).set (lineNo f 2) (lineAt lines 8)).set
    (lineNo f 3) (lineAt lines 12)

/-- The fragment that follows fragments 0–4 (R44). -/
def nextFragment (f : Fin 6) : Fin 6 := if h : f.val < 5 then ⟨f.val + 1, by omega⟩ else f

/-- GLYPH_CHANGED (code, REPLACED or REMOVED) (R47, R51, R150). -/
def glyphEvent (code value : Half) (by_ : Port) : Event :=
  { kind := .glyphChanged, subject := code, value := value, port := some by_ }

/-- The install of a completed upload (R46, R47). -/
def State.install (s : State) (caller : Sid) (u : Upload) : State × Reply :=
  let old := mapFind s.map u.code
  let released :=
    match old with
    | some e => s.releaseCell e.cell
    | none => s
  let mapped :=
    released.setMap (mapInsert { code := u.code, cell := u.cell, holder := some caller, isVolatile := u.isVolatile }
      released.map)
  let ready := (mapped.modCell u.cell fun k => { k with state := .ready, refs := 0 }).setUpload caller.port none
  match old with
  | some e =>
    (ready.broadcast .glyphStore (some caller.port) (glyphEvent u.code glyphReplaced caller.port),
     okReply [BitVec.ofNat 8 u.cell.val, flagByte true, BitVec.ofNat 8 e.cell.val,
       (releasedState (s.cells.get e.cell)).byte])
  | none => (ready, okReply [BitVec.ofNat 8 u.cell.val, flagByte false, 0x00#8, 0x00#8])

/-- A fragment of the expected number: its lines are written, and fragment 5 completes the upload (R44–R46). -/
def State.takeFragment (s : State) (caller : Sid) (u : Upload) (lines : List Byte) : State × Reply :=
  let written := s.modCell u.cell fun k => { k with bitmap := writeLines k.bitmap u.next lines }
  if u.next = 5 then
    match written.codeHeldByAnother u.code caller with
    | some holder => (written.dropUpload caller, heldReply holder)
    | none => written.install caller u
  else
    (written.setUpload caller.port (some { u with next := nextFragment u.next }),
     okReply [BitVec.ofNat 8 (nextFragment u.next).val])

/-- GLYPH_LINES' own checks and effect (R43): seq, lines. -/
def State.takeGlyphLines (payload : List Byte) (caller : Sid) (s : State) : State × Reply :=
  match s.uploadOf caller with
  | none => (s, { status := .noUpload, payload := [] })
  | some u =>
    if (byteAt payload 0).toNat ≠ u.next.val then
      (s.dropUpload caller, { status := .sequence, payload := [BitVec.ofNat 8 u.next.val] })
    else s.takeFragment caller u (payload.drop 1)

/-- GLYPH_LINES (R43–R47). -/
def execGlyphLines (p : Port) (sid : Byte) (payload : List Byte) (s : State) : Host.Outcome State Fault Refusal :=
  .next (s.commandFrame p 0x31#8 sid payload 17 17 (State.takeGlyphLines payload))

/-- GLYPH_ABORT's own check and effect (R48). -/
def State.takeGlyphAbort (caller : Sid) (s : State) : State × Reply :=
  match s.uploadOf caller with
  | none => (s, { status := .noUpload, payload := [] })
  | some u => (s.dropUpload caller, okReply [BitVec.ofNat 8 u.cell.val])

/-- GLYPH_ABORT (R48). -/
def execGlyphAbort (p : Port) (sid : Byte) (payload : List Byte) (s : State) : Host.Outcome State Fault Refusal :=
  .next (s.commandFrame p 0x32#8 sid payload 0 0 State.takeGlyphAbort)

/-- GLYPH_DELETE's own checks and effect (R51). -/
def State.takeGlyphDelete (payload : List Byte) (caller : Sid) (s : State) : State × Reply :=
  let code := halfAt payload 0
  match mapFind s.map code with
  | none => (s, badValue)
  | some e =>
    if !(codeValid code) then (s, badValue)
    else
      match heldByAnother e caller with
      | some holder => (s, heldReply holder)
      | none =>
        let removed := (s.setMap (mapErase s.map code)).releaseCell e.cell
        (removed.broadcast .glyphStore (some caller.port) (glyphEvent code glyphRemoved caller.port),
         okReply [BitVec.ofNat 8 e.cell.val, (releasedState (s.cells.get e.cell)).byte])

/-- GLYPH_DELETE (R51). -/
def execGlyphDelete (p : Port) (sid : Byte) (payload : List Byte) (s : State) : Host.Outcome State Fault Refusal :=
  .next (s.commandFrame p 0x33#8 sid payload 2 2 (State.takeGlyphDelete payload))

/-- The number of open uploads of a code (R55). -/
def State.uploadsOf (s : State) (code : Half) : Nat :=
  (ascending 4).countP fun p => (s.uploads.get p).any fun u => u.code == code

/-- The nine bytes of a READ_GLYPH response (R55, R191). -/
def State.glyphReport (s : State) (code : Half) (mapped : Bool) (n : CellNo) (holder : Option Port)
    (isVolatile : Bool) : List Byte :=
  let k := s.cells.get n
  [flagByte mapped, BitVec.ofNat 8 n.val, portByte holder, flagByte isVolatile, k.state.byte, BitVec.ofNat 8 k.advance]
    ++ halfBytes (BitVec.ofNat 16 k.refs) ++ [BitVec.ofNat 8 (s.uploadsOf code)]

/-- READ_GLYPH's own check and response (R55). A code without an entry reports cell 0. -/
def State.takeReadGlyph (payload : List Byte) (_caller : Sid) (s : State) : State × Reply :=
  let code := halfAt payload 0
  if !(codeValid code) then (s, badValue)
  else
    match mapFind s.map code with
    | some e => (s, okReply (s.glyphReport code true e.cell (e.holder.map Sid.port) e.isVolatile))
    | none => (s, okReply (s.glyphReport code false 0 none false))

/-- READ_GLYPH (R55). -/
def execReadGlyph (p : Port) (sid : Byte) (payload : List Byte) (s : State) : Host.Outcome State Fault Refusal :=
  .next (s.commandFrame p 0x34#8 sid payload 2 2 (State.takeReadGlyph payload))

/-- The number of cells in a state (R56). -/
def State.cellCount (s : State) (x : CellState) : Nat := s.cells.cells.countP fun k => k.state == x

/-- The six counts of a READ_STORE response (R56, R191). -/
def State.storeCounts (s : State) : List Nat :=
  [s.cellCount .free, s.cellCount .loading, s.cellCount .ready, s.cellCount .retiring, s.map.length,
   (s.cells.get 0).refs]

/-- READ_STORE (R56). -/
def execReadStore (p : Port) (sid : Byte) (payload : List Byte) (s : State) : Host.Outcome State Fault Refusal :=
  .next (s.commandFrame p 0x35#8 sid payload 0 0
    fun _ t => (t, okReply (t.storeCounts.flatMap fun n => halfBytes (BitVec.ofNat 16 n))))

end Sys2Proof.Machine
end

