-- ==== Sys2Proof/Machine/Resets.lean ====
section
/-! DEFINITION. Supply and resets (R7, R34, R60, R90, R147, R148, R165, R181, R182): POWER_ON, CRST and PRSTn. -/
namespace Sys2Proof.Machine

/-- A port at power-on: IGNORE if its CSn is asserted, else IDLE (R165); its reset inputs are deasserted (log 3). -/
def PortIf.powered (csn : Bool) : PortIf :=
  { PortIf.reset with recv := if csn then .ignore else .idle, csn := csn }

/-- POWER_ON (R148, R165, R182). -/
def execPowerOn (csn : Four Bool) (s : State) : Host.Outcome State Fault Refusal :=
  .next { s.resetBlocks .power with crst := false, ports := csn.map PortIf.powered }

/-- CRST_ASSERTED (R148, R182). -/
def execCrstAsserted (windows : Four Window) (s : State) : Host.Outcome State Fault Refusal :=
  let port := fun p => (s.ports.get p).assertReset (s.inReset p) (windows.get p)
  .next { s.resetBlocks .chipReset with crst := true, ports := ⟨port 0, port 1, port 2, port 3⟩ }

/-- The level of CSn as a reset input is released (R167). -/
def State.seeCsn (s : State) (p : Port) (csn : Bool) : State := s.modPort p fun q => { q with csn := csn }

/-- CRST_DEASSERTED (R182): each port leaves IGNORE when its CSn is deasserted and its own PRSTn is not held. -/
def execCrstDeasserted (csn : Four Bool) (s : State) : Host.Outcome State Fault Refusal :=
  .next ((ascending 4).foldl (fun t p => (t.seeCsn p (csn.get p)).leaveIgnore p) { s with crst := false })

/-- PRST_ASSERTED (R147, R181): the end cause, the session's end, and the port interface. -/
def execPrstAsserted (p : Port) (window : Window) (s : State) : Host.Outcome State Fault Refusal :=
  let met := s.modPort p fun q => { q.assertReset (s.inReset p) window with prst := true }
  let noted := met.modSession p fun r => { r with causes := r.causes ||| EndCause.portReset.bit }
  .next (if (s.sessions.get p).active then noted.endSession p .portReset else noted)

/-- PRST_DEASSERTED (R181): the port leaves IGNORE when its CSn is deasserted and CRST is not held. -/
def execPrstDeasserted (p : Port) (csn : Bool) (s : State) : Host.Outcome State Fault Refusal :=
  .next (((s.modPort p fun q => { q with prst := false }).seeCsn p csn).leaveIgnore p)

end Sys2Proof.Machine
end

