-- ==== Sys2Proof/Machine/Rows.lean ====
section
/-! DEFINITION. Text rows (01) and common rows (04): EDIT_TEXT, SET_STYLE, SET_PLACEMENTS, COMMIT, READ_ROW,
WRITE_COMMON. -/
namespace Sys2Proof.Machine

/-- The checks on the row that the edit commands and COMMIT share (R8, steps 1 and 2). -/
def State.withHeldRow (s : State) (payload : List Byte) (caller : Sid) (act : LeasedNo → State × Reply) :
    State × Reply :=
  match leasedRow? (byteAt payload 0) with
  | some l =>
    if (s.claims.get (rowResource l)).holder = some caller then act l
    else (s, { status := .notHolder, payload := [] })
  | none => (s, badValue)

/-- The edit buffer changed, and nothing else (R12). -/
def State.modEdit (s : State) (l : LeasedNo) (f : EditBuffer → EditBuffer) : State :=
  s.modLeased l fun x => { x with edit := f x.edit }

/-- The text after a run of codes is written from `start`, with what follows it kept or removed (R9). -/
def writeRun (text : List Half) (start : Nat) (codes : List Half) (truncate : Bool) : List Half :=
  text.take start ++ codes ++ (if truncate then [] else text.drop (start + codes.length))

/-- EDIT_TEXT on a row its caller holds (R9, R189): row, start, truncate flag, m, m codes. -/
def State.editText (s : State) (payload : List Byte) (l : LeasedNo) : State × Reply :=
  let start := (byteAt payload 1).toNat
  let m := (byteAt payload 3).toNat
  let codes := codesOf (payload.drop 4)
  let text := (s.leased.get l).edit.text
  match flag? (byteAt payload 2) with
  | some truncate =>
    if start > text.length || m > 40 || payload.length ≠ 4 + 2 * m || !(codes.all codeValid) || start + m > 40 then
      (s, badValue)
    else
      let new := writeRun text start codes truncate
      (s.modEdit l fun b => { b with text := new }, okReply [BitVec.ofNat 8 new.length])
  | none => (s, badValue)

/-- EDIT_TEXT (R9). -/
def execEditText (p : Port) (sid : Byte) (payload : List Byte) (s : State) : Host.Outcome State Fault Refusal :=
  .next (s.commandFrame p 0x20#8 sid payload 4 84 fun caller t => t.withHeldRow payload caller (t.editText payload))

/-- SET_STYLE on a row its caller holds (R10). -/
def State.setStyle (s : State) (payload : List Byte) (l : LeasedNo) : State × Reply :=
  match style? (payload.drop 1) with
  | some style => (s.modEdit l fun b => { b with style := style }, okReply [])
  | none => (s, badValue)

/-- SET_STYLE (R10). -/
def execSetStyle (p : Port) (sid : Byte) (payload : List Byte) (s : State) : Host.Outcome State Fault Refusal :=
  .next (s.commandFrame p 0x21#8 sid payload 13 13 fun caller t => t.withHeldRow payload caller (t.setStyle payload))

/-- SET_PLACEMENTS on a row its caller holds (R11, R189): row, p, p placement records. -/
def State.setPlacements (s : State) (payload : List Byte) (l : LeasedNo) : State × Reply :=
  let n := (byteAt payload 1).toNat
  match placements? n (payload.drop 2) with
  | some list =>
    if payload.length ≠ 2 + 7 * n then (s, badValue)
    else (s.modEdit l fun b => { b with placements := list }, okReply [BitVec.ofNat 8 list.length])
  | none => (s, badValue)

/-- SET_PLACEMENTS (R11). -/
def execSetPlacements (p : Port) (sid : Byte) (payload : List Byte) (s : State) : Host.Outcome State Fault Refusal :=
  .next (s.commandFrame p 0x22#8 sid payload 2 30
    fun caller t => t.withHeldRow payload caller (t.setPlacements payload))

/-- The content of an edit buffer (R15). -/
def EditBuffer.content (b : EditBuffer) : Content :=
  { codes := b.text, style := b.style, placements := b.placements }

/-- COMMIT on a row its caller holds: HELD while SWAPPING (R13), else the commit path (R14–R17). -/
def State.commitRow (s : State) (caller : Sid) (l : LeasedNo) : State × Reply :=
  let r := LeasedNo.row l
  if (s.rows.get r).swapping then
    (s, { status := .held, payload := halfBytes (s.rows.get r).generation })
  else
    let t := s.exchange r (s.leased.get l).edit.content (.session caller)
    (t.landIfFree r, t.commitReply r)

/-- COMMIT (R13–R17). -/
def execCommit (p : Port) (sid : Byte) (payload : List Byte) (s : State) : Host.Outcome State Fault Refusal :=
  .next (s.commandFrame p 0x23#8 sid payload 1 1 fun caller t => t.withHeldRow payload caller (t.commitRow caller))

/-- The port of a row's claim holder, none for a common row (R30). -/
def State.rowHolder (s : State) (r : RowNo) : Option Port :=
  match rowLeased r with
  | some l => (s.claims.get (rowResource l)).holder.map Sid.port
  | none => none

/-- A row's blank-pending mark, clear for a common row (R30). -/
def State.rowMark (s : State) (r : RowNo) : Bool :=
  match rowLeased r with
  | some l => (s.leased.get l).blankPending
  | none => false

/-- READ_ROW's own check and response (R30, R191). -/
def State.takeReadRow (payload : List Byte) (_caller : Sid) (s : State) : State × Reply :=
  match row? (byteAt payload 0) with
  | some r =>
    let x := s.rows.get r
    let heldGeneration := match x.held with
      | some h => h.version.generation
      | none => 0#16
    (s, okReply ([flagByte x.swapping, portByte (s.rowHolder r)] ++ halfBytes x.generation
      ++ [ChanSet.byte x.holding, flagByte (s.rowMark r)] ++ halfBytes heldGeneration
      ++ [BitVec.ofNat 8 x.live.text.length] ++ x.live.text.flatMap fun q => halfBytes q.code))
  | none => (s, badValue)

/-- READ_ROW (R30). -/
def execReadRow (p : Port) (sid : Byte) (payload : List Byte) (s : State) : Host.Outcome State Fault Refusal :=
  .next (s.commandFrame p 0x24#8 sid payload 1 1 (State.takeReadRow payload))

/-- The content a WRITE_COMMON payload carries, none where it fails an argument check (R80, R189): row, expected
generation (2), style record, p, m, p placement records, m codes. -/
def commonContent? (payload : List Byte) : Option Content :=
  let n := (byteAt payload 15).toNat
  let m := (byteAt payload 16).toNat
  let codes := codesOf (payload.drop (17 + 7 * n))
  match style? (payload.drop 3), placements? n (payload.drop 17) with
  | some style, some list =>
    if m > 40 || payload.length ≠ 17 + 7 * n + 2 * m || !(codes.all codeValid) then none
    else some { codes := codes, style := style, placements := list }
  | _, _ => none

/-- COMMON_CHANGED (row, generation, writer port) (R84, R150). -/
def changedEvent (r : RowNo) (g : Half) (writer : Port) : Event :=
  { kind := .commonChanged, subject := BitVec.ofNat 16 r.val, value := g, port := some writer }

/-- A WRITE_COMMON whose payload has passed its checks (R79, steps 3–5; R81–R85). -/
def State.writeCommon (s : State) (caller : Sid) (r : RowNo) (expected : Half) (k : Content) : State × Reply :=
  let x := s.rows.get r
  if x.swapping then
    (s, { status := .held, payload := halfBytes x.generation ++ [ChanSet.byte x.holding] })
  else if expected ≠ x.generation then (s, { status := .conflict, payload := halfBytes x.generation })
  else
    let t := s.exchange r k (.session caller)
    let told := t.broadcast .rowTable (some caller.port) (changedEvent r (t.rows.get r).generation caller.port)
    (told.landIfFree r, t.commitReply r)

/-- WRITE_COMMON's own checks and effect (R79, R80). -/
def State.takeWriteCommon (payload : List Byte) (caller : Sid) (s : State) : State × Reply :=
  match commonRow? (byteAt payload 0), commonContent? payload with
  | some r, some k => s.writeCommon caller r (halfAt payload 1) k
  | _, _ => (s, badValue)

/-- WRITE_COMMON (R79–R85). -/
def execWriteCommon (p : Port) (sid : Byte) (payload : List Byte) (s : State) : Host.Outcome State Fault Refusal :=
  .next (s.commandFrame p 0x28#8 sid payload 17 125 (State.takeWriteCommon payload))

end Sys2Proof.Machine
end

