-- ==== Sys2Proof/Machine/Sessions.lean ====
section
/-! DEFINITION. Sessions and leases (07): ATTACH, DETACH, RENEW, SET_EVENT_MASK, and the two steps of the lease timer. -/
namespace Sys2Proof.Machine

/-- The record of a session that opens (R132, step 3; R130, R154). -/
def Session.opened (r : Session) (term : Byte) (mask : BitVec 6) : Session :=
  { r with active := true, epoch := nextEpoch r.epoch, term := term, remaining := 100 * term.toNat, fraction := 0,
           armed := true, mask := mask, queue := [], nextSeq := 0#8, lost := 0#8 }

/-- A taken ATTACH (R132). -/
def State.openSession (s : State) (p : Port) (term : Byte) (mask : BitVec 6) : State × Reply :=
  let ended := if (s.sessions.get p).active then s.endSession p .reattach else s
  let opened := ended.modSession p fun r => r.opened term mask
  (opened.modSession p fun r => { r with causes := 0#6 },
   okReply [(opened.sidOf p).byte, setByte (opened.sessions.get p).causes, Config.revision])

/-- ATTACH after the frame and command-code checks: its length check (R173) and its own checks (R131). -/
def State.takeAttach (s : State) (p : Port) (sid : Byte) (payload : List Byte) : State × Reply :=
  if payload.length ≠ 2 then (s, { status := .badArg, payload := [stageLength] })
  else if sid ≠ 0#8 || byteAt payload 0 = 0#8 then (s, badValue)
  else
    match classes? (byteAt payload 1) with
    | some mask => s.openSession p (byteAt payload 0) mask
    | none => (s, badValue)

/-- ATTACH (R131, R132). -/
def execAttach (p : Port) (sid : Byte) (payload : List Byte) (s : State) : Host.Outcome State Fault Refusal :=
  .next (s.closeFrame p (wireFrame 0x01#8 sid payload) fun t => t.takeAttach p sid payload)

/-- DETACH once its session check has renewed the lease (R141). -/
def State.takeDetach (caller : Sid) (s : State) : State × Reply := (s.endSession caller.port .detach, okReply [])

/-- DETACH (R141). -/
def execDetach (p : Port) (sid : Byte) (payload : List Byte) (s : State) : Host.Outcome State Fault Refusal :=
  .next (s.commandFrame p 0x02#8 sid payload 0 0 State.takeDetach)

/-- RENEW (R135). -/
def execRenew (p : Port) (sid : Byte) (payload : List Byte) (s : State) : Host.Outcome State Fault Refusal :=
  .next (s.commandFrame p 0x03#8 sid payload 0 0 fun caller t => (t, okReply [(t.sessions.get caller.port).term]))

/-- SET_EVENT_MASK's own check and effect (R136). -/
def State.takeSetEventMask (payload : List Byte) (caller : Sid) (s : State) : State × Reply :=
  match classes? (byteAt payload 0) with
  | some mask => (s.modSession caller.port fun r => { r with mask := mask }, okReply [setByte mask])
  | none => (s, badValue)

/-- SET_EVENT_MASK (R136). -/
def execSetEventMask (p : Port) (sid : Byte) (payload : List Byte) (s : State) : Host.Outcome State Fault Refusal :=
  .next (s.commandFrame p 0x04#8 sid payload 1 1 (State.takeSetEventMask payload))

/-- LEASE_LOW (0, remaining) (R138, R150). -/
def lowEvent (remaining : Nat) : Event :=
  { kind := .leaseLow, subject := 0#16, value := BitVec.ofNat 16 remaining, port := none }

/-- LEASE_LOW (R138). A renewal that reaches the record first sets the lease back above the quarter, and then LEASE_LOW
is not posted in this period (R140). -/
def execLeaseLow (p : Port) (s : State) : Host.Outcome State Fault Refusal :=
  let r := s.sessions.get p
  .next
    (if r.lowDue then
      (s.modSession p fun r => { r with armed := false }).post .sessionBlock (s.sidOf p) (lowEvent r.lowMark)
    else s)

/-- LEASE_EXPIRY (R139). A renewal, a new session or another end that reaches the record first leaves no lease that has
run out, and then the expiry does not happen (R140, R145). -/
def execLeaseExpiry (p : Port) (s : State) : Host.Outcome State Fault Refusal :=
  .next (if (s.sessions.get p).expiryDue then s.endSession p .lease else s)

end Sys2Proof.Machine
end

