-- ==== Sys2Proof/Machine/Ports.lean ====
section
/-! DEFINITION. The port interface's own steps (09): UNKNOWN_COMMAND, FETCH_FRAME, FRAME_IGNORED, BAD_FRAME. -/
namespace Sys2Proof.Machine

/-- A command code that names no command (R172, R174). -/
def unknownReply : Reply := { status := .badArg, payload := [stageUnknown] }

/-- A good frame whose code names no command: no session check and no renewal (R172). -/
def State.unknownFrame (s : State) (p : Port) (code sid : Byte) (payload : List Byte) : State :=
  s.closeFrame p (wireFrame code sid payload) fun t => (t, unknownReply)

/-- A fetch frame with so many bits clocked after its marker (R176, R177): the bytes the master sends in it are not
read. -/
def State.fetchFrame (s : State) (p : Port) (clocked : Nat) : State :=
  if s.inReset p then s.modPort p PortIf.ignoreWindow
  else
    s.modPort p fun q =>
      (q.receive ⟨fetchMarker :: List.replicate (clocked / 8) 0#8, clocked % 8⟩).closeWindow

/-- FETCH_FRAME (R176, R177). -/
def execFetchFrame (p : Port) (clocked : Nat) (s : State) : Host.Outcome State Fault Refusal :=
  .next (s.fetchFrame p clocked)

/-- FRAME_IGNORED (R167): CSn is deasserted at the end of an ignored window. -/
def execFrameIgnored (p : Port) (s : State) : Host.Outcome State Fault Refusal :=
  .next ((s.modPort p fun q => { q with csn := false }).leaveIgnore p)

/-- The bad frame of a window: judged at its close, and BAD_FRAME placed (R169, R175). -/
def State.badFrame (s : State) (p : Port) (f : RawFrame) : State :=
  s.closeFrame p f fun t => (t, unknownReply)

/-- What a port makes of a command code (R172): the command that the code names. -/
def execCode (p : Port) (code sid : Byte) (payload : List Byte) (s : State) : Host.Outcome State Fault Refusal :=
  match code.toNat with
  | 0x01 => execAttach p sid payload s
  | 0x02 => execDetach p sid payload s
  | 0x03 => execRenew p sid payload s
  | 0x04 => execSetEventMask p sid payload s
  | 0x05 => execReadEvents p sid payload s
  | 0x10 => execClaim p sid payload s
  | 0x11 => execRelease p sid payload s
  | 0x12 => execCancelWait p sid payload s
  | 0x13 => execReadClaim p sid payload s
  | 0x20 => execEditText p sid payload s
  | 0x21 => execSetStyle p sid payload s
  | 0x22 => execSetPlacements p sid payload s
  | 0x23 => execCommit p sid payload s
  | 0x24 => execReadRow p sid payload s
  | 0x28 => execWriteCommon p sid payload s
  | 0x30 => execGlyphBegin p sid payload s
  | 0x31 => execGlyphLines p sid payload s
  | 0x32 => execGlyphAbort p sid payload s
  | 0x33 => execGlyphDelete p sid payload s
  | 0x34 => execReadGlyph p sid payload s
  | 0x35 => execReadStore p sid payload s
  | 0x40 => execChannelSet p sid payload s
  | 0x41 => execChannelApply p sid payload s
  | 0x42 => execReadChannel p sid payload s
  | _ => .next (s.unknownFrame p code sid payload)

/-- UNKNOWN_COMMAND (R172). A code that does name a command is taken as that command, as it is on the wire (log 6). -/
def execUnknownCommand (p : Port) (code sid : Byte) (payload : List Byte) (s : State) :
    Host.Outcome State Fault Refusal := execCode p code sid payload s

/-- BAD_FRAME (R169). The part decides from the bytes alone what a window is, and so does this step (log 6): an empty
window has no effect (R167), a fetch is a fetch, a good frame is taken, and any other is a bad frame. -/
def execBadFrame (p : Port) (f : RawFrame) (s : State) : Host.Outcome State Fault Refusal :=
  match f.bytes with
  | [] => .next (if f.bits = 0 then s else s.badFrame p f)
  | first :: rest =>
    if first = fetchMarker then .next (s.fetchFrame p (8 * rest.length + f.bits))
    else
      match judge (f.bytes.take Config.bufferBytes) f.bits, rest with
      | none, code :: sid :: _ :: tail => execCode p code sid tail.dropLast s
      | _, _ => .next (s.badFrame p f)

end Sys2Proof.Machine
end

