-- ==== Sys2Proof/Machine/Dispatch.lean ====
section
/-! DEFINITION. One arm for each step of the part. -/
namespace Sys2Proof.Machine

def exec (i : Instr) (s : State) : Host.Outcome State Fault Refusal :=
  match i with
  | .attach p sid payload => Sys2Proof.Machine.execAttach p sid payload s
  | .detach p sid payload => Sys2Proof.Machine.execDetach p sid payload s
  | .renew p sid payload => Sys2Proof.Machine.execRenew p sid payload s
  | .setEventMask p sid payload => Sys2Proof.Machine.execSetEventMask p sid payload s
  | .readEvents p sid payload => Sys2Proof.Machine.execReadEvents p sid payload s
  | .claim p sid payload => Sys2Proof.Machine.execClaim p sid payload s
  | .release p sid payload => Sys2Proof.Machine.execRelease p sid payload s
  | .cancelWait p sid payload => Sys2Proof.Machine.execCancelWait p sid payload s
  | .readClaim p sid payload => Sys2Proof.Machine.execReadClaim p sid payload s
  | .editText p sid payload => Sys2Proof.Machine.execEditText p sid payload s
  | .setStyle p sid payload => Sys2Proof.Machine.execSetStyle p sid payload s
  | .setPlacements p sid payload => Sys2Proof.Machine.execSetPlacements p sid payload s
  | .commit p sid payload => Sys2Proof.Machine.execCommit p sid payload s
  | .readRow p sid payload => Sys2Proof.Machine.execReadRow p sid payload s
  | .writeCommon p sid payload => Sys2Proof.Machine.execWriteCommon p sid payload s
  | .glyphBegin p sid payload => Sys2Proof.Machine.execGlyphBegin p sid payload s
  | .glyphLines p sid payload => Sys2Proof.Machine.execGlyphLines p sid payload s
  | .glyphAbort p sid payload => Sys2Proof.Machine.execGlyphAbort p sid payload s
  | .glyphDelete p sid payload => Sys2Proof.Machine.execGlyphDelete p sid payload s
  | .readGlyph p sid payload => Sys2Proof.Machine.execReadGlyph p sid payload s
  | .readStore p sid payload => Sys2Proof.Machine.execReadStore p sid payload s
  | .channelSet p sid payload => Sys2Proof.Machine.execChannelSet p sid payload s
  | .channelApply p sid payload => Sys2Proof.Machine.execChannelApply p sid payload s
  | .readChannel p sid payload => Sys2Proof.Machine.execReadChannel p sid payload s
  | .unknownCommand p code sid payload => Sys2Proof.Machine.execUnknownCommand p code sid payload s
  | .badFrame p f => Sys2Proof.Machine.execBadFrame p f s
  | .fetchFrame p clocked => Sys2Proof.Machine.execFetchFrame p clocked s
  | .frameIgnored p => Sys2Proof.Machine.execFrameIgnored p s
  | .powerOn csn => Sys2Proof.Machine.execPowerOn csn s
  | .crstAsserted windows => Sys2Proof.Machine.execCrstAsserted windows s
  | .crstDeasserted csn => Sys2Proof.Machine.execCrstDeasserted csn s
  | .prstAsserted p window => Sys2Proof.Machine.execPrstAsserted p window s
  | .prstDeasserted p csn => Sys2Proof.Machine.execPrstDeasserted p csn s
  | .inputFrameStart c => Sys2Proof.Machine.execInputFrameStart c s
  | .lossTimerExpiry c => Sys2Proof.Machine.execLossTimerExpiry c s
  | .freeRunTimerExpiry c => Sys2Proof.Machine.execFreeRunTimerExpiry c s
  | .leaseLow p => Sys2Proof.Machine.execLeaseLow p s
  | .leaseExpiry p => Sys2Proof.Machine.execLeaseExpiry p s
  | .eventFiling source p => Sys2Proof.Machine.execEventFiling source p s

end Sys2Proof.Machine
end

