-- ==== Sys2Proof/Machine/Time.lean ====
section
/-! DEFINITION. What the part does when no step waits (log 8, log 9): events in flight are filed, and otherwise 10 µs
pass, the unit of the frame timers (R89). -/
namespace Sys2Proof.Machine

/-- A timer after 10 µs more (R89). -/
def Timer.tick : Timer → Timer
  | .stopped => .stopped
  | .running duration remaining => .running duration (remaining - 1)

/-- A lease after 10 µs more: the remaining lease falls by one each ms (R137). -/
def Session.tick (r : Session) : Session :=
  if !r.active then r
  else if r.fraction + 1 < 100 then { r with fraction := r.fraction + 1 }
  else { r with fraction := 0, remaining := r.remaining - 1 }

def Channel.tick (k : Channel) : Channel := { k with loss := k.loss.tick, freeRun := k.freeRun.tick }

/-- The steps that a port's lease timer makes due. -/
def leaseSteps (p : Port) (r : Session) : List Instr :=
  (if r.lowDue then [.leaseLow p] else []) ++ (if r.expiryDue then [.leaseExpiry p] else [])

/-- The steps that a channel's timers make due. -/
def timerSteps (c : Chan) (k : Channel) : List Instr :=
  (if k.loss.due then [.lossTimerExpiry c] else []) ++ (if k.freeRun.due then [.freeRunTimerExpiry c] else [])

/-- The timer steps that are due now, ports and channels in ascending number. -/
def State.dueSteps (s : State) : List Instr :=
  ((ascending 4).flatMap fun p => leaseSteps p (s.sessions.get p))
    ++ (ascending 4).flatMap fun c => timerSteps c (s.channels.get c)

/-- A list with x at place i. -/
def insertAt {α : Type} (x : α) (i : Nat) (l : List α) : List α := l.take i ++ x :: l.drop i

/-- The same steps in an order the manual leaves open (R178): free choices number n and following (log 10). -/
def freeOrder {α : Type} (n : Nat) : List α → List α
  | [] => []
  | [x] => [x]
  | x :: y :: rest => insertAt x (Config.freeChoice n % (rest.length + 2)) (freeOrder (n + 1) (y :: rest))

/-- 10 µs pass. The timer steps that fall due wait in the queue, in an order the manual leaves open. -/
def State.tick (s : State) : State :=
  let t := { s with sessions := s.sessions.map Session.tick, channels := s.channels.map Channel.tick }
  { t with pending := s.pending ++ freeOrder s.freeIndex t.dueSteps, freeIndex := s.freeIndex + t.dueSteps.length }

/-- One event in flight is filed: a free choice of which, within the order of R156 (log 10). -/
def State.fileSome (s : State) (x : Posted) (rest : List Posted) : State :=
  let chosen := if rest.isEmpty then x else (x :: rest).getD (Config.freeChoice s.freeIndex % (rest.length + 1)) x
  { s.fileOldest chosen.source chosen.addressee.port with freeIndex := s.freeIndex + 1 }

/-- The part with no step waiting: an event in flight is filed, or 10 µs pass (log 8). -/
def State.idle (s : State) : State :=
  match s.posted with
  | [] => s.tick
  | x :: rest => s.fileSome x rest

end Sys2Proof.Machine
end

