-- ==== Sys2Proof/Safety.lean ====
section
/-! DEFINITION. What counts as a safe state of the part, in the terms the statements use: the conditions under which a
command is taken, what a window leaves in its port, and the properties of each block that the manual says always hold. -/
namespace Sys2Proof.Machine

/-! ### When a command is taken, and what its window leaves -/

/-- A frame on port p that carries `sid` is read and passes the session check (R167, R133). -/
abbrev Callable (s : State) (p : Port) (sid : Byte) : Prop := s.inReset p = false ∧ s.sessionCheck p sid = true

/-- Port p after a whole window of n byte times that carried a command frame: nothing of it stays, and SDOn carried
filler (R166, R167, R168). -/
def State.windowed (s : State) (p : Port) (n : Nat) : State :=
  s.modPort p fun q =>
    { q with recv := .idle, buffer := [], bits := 0, delivered := 0, shifting := [], csn := false,
             sdo := List.replicate n filler, sdoTail := [] }

/-- Port p after a command frame with a payload of n bytes that was answered with r (R168, R175). -/
def State.answer (s : State) (p : Port) (n : Nat) (r : Reply) : State := (s.windowed p (n + 5)).place p r

/-- The response in a port's slot is r, flagged when it replaced another (R175). -/
abbrev Answered (s t : State) (p : Port) (r : Reply) : Prop :=
  (t.ports.get p).slot = some { status := r.status, discarded := (s.ports.get p).slot.isSome, payload := r.payload }

/-! ### What stays as it was -/

/-- The chip pins, the queue of steps and the other ports are as before. -/
abbrev OtherPortsKept (p : Port) (s t : State) : Prop :=
  t.crst = s.crst ∧ t.pending = s.pending ∧ t.freeIndex = s.freeIndex ∧
    ∀ q : Port, q ≠ p → t.ports.get q = s.ports.get q

/-- The session records of the other ports are as before. -/
abbrev OtherSessionsKept (p : Port) (s t : State) : Prop := ∀ q : Port, q ≠ p → t.sessions.get q = s.sessions.get q

/-- The row table is as before. -/
abbrev RowsKept (s t : State) : Prop := t.rows = s.rows ∧ t.leased = s.leased

/-- The claim table is as before. -/
abbrev ClaimsKept (s t : State) : Prop := t.claims = s.claims ∧ t.waits = s.waits

/-- The glyph store is as before. -/
abbrev StoreKept (s t : State) : Prop := t.cells = s.cells ∧ t.map = s.map ∧ t.uploads = s.uploads

/-- The channel engines and the compositors are as before. -/
abbrev ChannelsKept (s t : State) : Prop := t.channels = s.channels ∧ t.compositors = s.compositors

/-- The contents of the cells are as before: only counts and states may differ (R33, R40). -/
abbrev GlyphsKept (s t : State) : Prop :=
  ∀ n : CellNo, (t.cells.get n).bitmap = (s.cells.get n).bitmap ∧ (t.cells.get n).advance = (s.cells.get n).advance

/-! ### Rows, in closed form -/

/-- The running channels that a version names: the holding set of a commit over it (R16). -/
def runningNamed (channels : Four Channel) (v : Version) : ChanSet :=
  let named := fun c : Chan => (channels.get c).state.running && (placementOn c v).isSome
  ⟨named 0, named 1, named 2, named 3⟩

/-- What a row holds back after a commit over `old` with the holding set `holds` (R15, R16). -/
def heldBack (old : Version) (holds : ChanSet) : Option Held :=
  if ChanSet.isEmpty holds then none else some { version := old, holding := holds }

/-- A row after a blank commit, its channels being in the given states (R25). -/
def Row.blanked (channels : Four Channel) (x : Row) : Row :=
  { live := { Version.empty with generation := nextGeneration x.generation },
    held := heldBack x.live (runningNamed channels x.live) }

/-- The row lands when channel c leaves its holding set (R18, R28). -/
def Row.landsWithout (c : Chan) (x : Row) : Bool :=
  match x.held with
  | some h => h.holding.get c && ChanSet.isEmpty (h.holding.set c false)
  | none => false

/-- A row after channel c has left its holding set: landed, and then blanked if `mark` is set, or with the rest of its
holding set (R18, R19, R25, R28). -/
def Row.without (channels : Four Channel) (c : Chan) (mark : Bool) (x : Row) : Row :=
  match x.held with
  | some h =>
    if !h.holding.get c then x
    else if !x.landsWithout c then { x with held := some { h with holding := h.holding.set c false } }
    else if mark then Row.blanked channels x
    else { x with held := none }
  | none => x

/-- Every row has lost channel c from its holding set; the blank-pending marks of the rows that landed are clear. -/
abbrev RowsWithout (c : Chan) (s t : State) : Prop :=
  (∀ r : RowNo, t.rows.get r = Row.without t.channels c (s.rowMark r) (s.rows.get r)) ∧
    ∀ l : LeasedNo, t.leased.get l =
      { s.leased.get l with
        blankPending := (s.leased.get l).blankPending && !(s.rows.get (LeasedNo.row l)).landsWithout c }

/-- The COMMIT_LANDED of row r, if its live version's origin is an ACTIVE session (R21). -/
def State.landedPost (s : State) (r : RowNo) : Option Posted :=
  match (s.rows.get r).live.origin with
  | .session i =>
    if s.isActive i then
      some { source := .rowTable, addressee := .session i, event := landedEvent r (s.rows.get r).generation }
    else none
  | .part => none
  | .ended => none

/-- The events of the rows that land when channel c leaves every holding set, in ascending row number (R18, R28). -/
def State.landedPosts (s : State) (c : Chan) : List Posted :=
  (ascending 48).filterMap fun r => if (s.rows.get r).landsWithout c then s.landedPost r else none

/-- A discard frees RETIRING cells whose count has reached 0, and changes no other state (R39). -/
abbrev DiscardsOnly (s t : State) : Prop :=
  ∀ n : CellNo, (t.cells.get n).refs ≤ (s.cells.get n).refs ∧
    ((t.cells.get n).state = (s.cells.get n).state ∨
      (s.cells.get n).state = .retiring ∧ (t.cells.get n).state = .free ∧ (t.cells.get n).refs = 0)

/-- The positions of a text that resolve to cell n. -/
def positionsIn (text : List Position) (n : CellNo) : Nat := text.countP fun q => q.cell == n

/-- The cells after a commit of `new` over `old`: the new positions are counted, and the old ones taken back when the
commit lands at once, which frees RETIRING cells that reach 0 (R14, R16, R20, R39). -/
abbrev CountsCommitted (s t : State) (new old : List Position) (atOnce : Bool) : Prop :=
  ∀ n : CellNo,
    (t.cells.get n).refs = (s.cells.get n).refs + positionsIn new n - (if atOnce then positionsIn old n else 0) ∧
      (t.cells.get n).state =
        (if atOnce ∧ (s.cells.get n).state = .retiring ∧ 0 < positionsIn old n ∧ (t.cells.get n).refs = 0 then .free
         else (s.cells.get n).state)

/-! ### Posting, in closed form -/

/-- One event for each ACTIVE session but the one on `except`, in ascending port (R151). -/
def State.postsTo (s : State) (source : Source) (except : Option Port) (e : Event) : List Posted :=
  (ascending 4).filterMap fun p =>
    if (s.sessions.get p).active && except != some p then
      some { source := source, addressee := .session (s.sidOf p), event := e }
    else none

/-- CHANNEL_SIGNAL for a change of state (R96). -/
def State.signalPosts (s : State) (c : Chan) (new : SignalState) : List Posted :=
  s.postsTo (.channelEngine c) none (chanEvent .channelSignal c (new.byte.setWidth 16))

/-- CHANNEL_APPLIED for the pending configuration of channel c, if its applier is ACTIVE (R103). -/
def State.appliedPosts (s : State) (c : Chan) : List Posted :=
  match (s.channels.get c).pending with
  | some x =>
    match x.applier with
    | some i =>
      if s.isActive i then
        [{ source := .channelEngine c, addressee := .session i, event := chanEvent .channelApplied c 0#16 }]
      else []
    | none => []
  | none => []

/-- OVERBOOKED, when a clear mark is set, for the holder of the channel (R107). -/
def State.overbookedPosts (s : State) (c : Chan) (dropped : Nat) : List Posted :=
  match (s.claims.get (chanResource c)).holder with
  | some i =>
    if !(s.channels.get c).overbooked && dropped != 0 then
      [{ source := .channelEngine c, addressee := .session i,
         event := chanEvent .overbooked c (BitVec.ofNat 16 dropped) }]
    else []
  | none => []

/-! ### Frame starts, in closed form -/

/-- The configuration of channel c once a pending one has become active (R103). -/
def Channel.nextConfig (k : Channel) : ChanConfig :=
  match k.pending with
  | some x => x.config
  | none => k.active

/-- A frame in progress of channel c, latched from the rows of t under a configuration (R27, R106, R113). -/
abbrev LatchedFrom (c : Chan) (t : State) (config : ChanConfig) (f : FrameLatch) : Prop :=
  f.config = config ∧ (∀ r : RowNo, f.latched.get r = latchedVersion c (t.rows.get r)) ∧
    f.drawList = drawList c config f.latched

/-- One frame start of channel c, with the events its change of state posted before it (R27, R98, R106, R107). -/
abbrev FrameMade (c : Chan) (signals : List Posted) (s t : State) : Prop :=
  ∃ f, t.compositors = s.compositors.set c (some f) ∧ LatchedFrom c t (s.channels.get c).nextConfig f ∧
    (t.channels.get c).active = (s.channels.get c).nextConfig ∧ (t.channels.get c).pending = none ∧
    (t.channels.get c).staged = (s.channels.get c).staged ∧
    (t.channels.get c).dropped = (drawables c f.config f.latched).length - 32 ∧
    (t.channels.get c).overbooked = decide ((t.channels.get c).dropped ≠ 0) ∧
    t.posted = s.posted ++ signals ++ s.appliedPosts c ++ s.landedPosts c ++
      s.overbookedPosts c (t.channels.get c).dropped ∧
    RowsWithout c s t

/-- A frame start changes nothing but its channel, its compositor, the rows, the cells' counts and states, and the events
in flight. -/
abbrev FrameFrame (c : Chan) (s t : State) : Prop :=
  t.crst = s.crst ∧ t.ports = s.ports ∧ t.sessions = s.sessions ∧ ClaimsKept s t ∧ t.map = s.map ∧
    t.uploads = s.uploads ∧ t.pending = s.pending ∧ t.freeIndex = s.freeIndex ∧
    (∀ d : Chan, d ≠ c → t.channels.get d = s.channels.get d ∧ t.compositors.get d = s.compositors.get d) ∧
    GlyphsKept s t ∧ DiscardsOnly s t

/-! ### The end of a session, in closed form -/

/-- A claim record after the end of session i: its waits are gone, and what it held is the oldest waiter's, or no one's
(R66, R67, R71, R72). -/
def Claim.afterEnd (i : Sid) (k : Claim) : Claim :=
  let left := k.waiters.filter fun w => w != i
  if k.holder = some i then { holder := left.head?, waiters := left.tail } else { holder := k.holder, waiters := left }

/-- The waiter that the end of session i gives a resource to (R66, R72). -/
def Claim.heir (i : Sid) (k : Claim) : Option Sid := if k.holder = some i then (k.afterEnd i).holder else none

/-- The end of session i leaves row r blank: i holds it and no one else waits for it (R67). -/
def State.leftBlank (s : State) (i : Sid) (r : RowNo) : Bool :=
  match rowLeased r with
  | some l => (s.claims.get (rowResource l)).holder == some i && ((s.claims.get (rowResource l)).heir i).isNone
  | none => false

/-- A row after the end of session i: its origin is marked, and a row left blank while SETTLED is blanked (R22, R24). -/
def State.rowAfterEnd (s : State) (i : Sid) (r : RowNo) : Row :=
  let x := Row.endOrigin i (s.rows.get r)
  if s.leftBlank i r && !x.swapping then Row.blanked s.channels x else x

/-- The leased part of a row after the end of session i: granted, left blank or as it was (R23, R24). -/
def State.leasedAfterEnd (s : State) (i : Sid) (l : LeasedNo) : Leased :=
  if ((s.claims.get (rowResource l)).heir i).isSome then
    { edit := editCopy (s.rows.get (LeasedNo.row l)).live, blankPending := false }
  else if s.leftBlank i (LeasedNo.row l) then
    { edit := EditBuffer.empty,
      blankPending := (s.leased.get l).blankPending || (s.rows.get (LeasedNo.row l)).swapping }
  else s.leased.get l

/-- The CLAIM_GRANTED events of the end of session i, in ascending resource id (R68, R72). -/
def State.grantPosts (s : State) (i : Sid) : List Posted :=
  (ascending 48).filterMap fun r =>
    ((s.claims.get r).heir i).map fun w =>
      { source := .claimTable, addressee := .session w, event := grantedEvent r i.port }

/-- The work of the other blocks at the end of session i, from s to t (R22, R53, R71, R72, R103, R143). -/
abbrev EndNoticed (i : Sid) (s t : State) : Prop :=
  t.claims = s.claims.map (Claim.afterEnd i) ∧
    (∀ q : Port, t.waits.get q = if q = i.port then 0 else
      s.waits.get q - (ascending 48).countP fun r => ((s.claims.get r).heir i).any fun w => w.port == q) ∧
    (∀ r : RowNo, t.rows.get r = s.rowAfterEnd i r) ∧ (∀ l : LeasedNo, t.leased.get l = s.leasedAfterEnd i l) ∧
    t.posted = s.posted.map (Posted.endAddressee i) ++ s.grantPosts i ∧
    t.map = mapEndSession s.map i ∧
    t.uploads = (if (s.uploadOf i).isSome then s.uploads.set i.port none else s.uploads) ∧
    t.channels = s.channels.map (Channel.endApplier i) ∧ t.compositors = s.compositors ∧ t.crst = s.crst ∧
    t.pending = s.pending ∧ t.freeIndex = s.freeIndex ∧ GlyphsKept s t

/-! ### Payload contents -/

/-- The wire form of a placement (R186). -/
def placementBytes (q : Placement) : List Byte :=
  [BitVec.ofNat 8 q.chan.val, BitVec.ofNat 8 q.tile.val, BitVec.ofNat 8 q.anchor.val] ++
    halfBytes (BitVec.ofInt 16 q.x) ++ halfBytes (BitVec.ofInt 16 q.y)

/-- The wire form of a style record (R186). -/
def styleBytes (x : Style) : List Byte :=
  [x.ink.y, x.ink.cb, x.ink.cr, x.edge.y, x.edge.cb, x.edge.cr, x.shade.y, x.shade.cb, x.shade.cr,
   match x.blend with
   | .opaqueInk => 0x00#8
   | .halfInk => 0x01#8,
   flagByte x.box, BitVec.ofNat 8 x.priority.val]

/-- The wire form of the configuration field of a selector bit (R187). -/
def fieldBytes (bit : Fin 10) (k : ChanConfig) : List Byte :=
  match bit.val with
  | 0 => [flagByte k.on]
  | 1 => [flagByte k.freeRunPermitted]
  | 2 => [k.raster.byte]
  | 3 => halfBytes (BitVec.ofNat 16 k.period)
  | 4 => [k.layout.byte]
  | 5 => [k.scale.byte]
  | 6 => [BitVec.ofNat 8 k.border.val]
  | 7 => k.borderColour.bytes
  | 8 => k.background.bytes
  | _ => [setByte k.videoMask]

/-- A configuration with the field of a selector bit taken from another (R187). -/
def copyField (bit : Fin 10) (source target : ChanConfig) : ChanConfig :=
  match bit.val with
  | 0 => { target with on := source.on }
  | 1 => { target with freeRunPermitted := source.freeRunPermitted }
  | 2 => { target with raster := source.raster }
  | 3 => { target with period := source.period }
  | 4 => { target with layout := source.layout }
  | 5 => { target with scale := source.scale }
  | 6 => { target with border := source.border }
  | 7 => { target with borderColour := source.borderColour }
  | 8 => { target with background := source.background }
  | _ => { target with videoMask := source.videoMask }

/-- Seven bytes that spell no placement: a field outside its accepted values (R186). -/
abbrev SpellsNoPlacement (bytes : List Byte) : Prop :=
  4 ≤ (bytes.getD 0 0#8).toNat ∨ 6 ≤ (bytes.getD 1 0#8).toNat ∨ 9 ≤ (bytes.getD 2 0#8).toNat ∨
    (bytes.getD 3 0#8 ++ bytes.getD 4 0#8).toInt < -1023 ∨ 1023 < (bytes.getD 3 0#8 ++ bytes.getD 4 0#8).toInt ∨
    (bytes.getD 5 0#8 ++ bytes.getD 6 0#8).toInt < -1023 ∨ 1023 < (bytes.getD 5 0#8 ++ bytes.getD 6 0#8).toInt

/-- Bytes that spell no value of the configuration field of a selector bit (R99, R187). -/
def SpellsNoField (bit : Fin 10) (bytes : List Byte) : Prop :=
  let first := (bytes.getD 0 0#8).toNat
  let period := (bytes.getD 0 0#8 ++ bytes.getD 1 0#8).toNat
  match bit.val with
  | 0 => 2 ≤ first
  | 1 => 2 ≤ first
  | 2 => 4 ≤ first
  | 3 => period < 1000 ∨ 5000 < period
  | 4 => 4 ≤ first
  | 5 => first = 0 ∨ 3 ≤ first
  | 6 => 16 ≤ first
  | 7 => False
  | 8 => False
  | _ => 64 ≤ first

/-- The bitmap of a cell after fragment f: its four lines are the payload's, from byte 1 on, and the other lines stay
(R44, R188). -/
abbrev FragmentWritten (f : Nat) (payload : List Byte) (old new : Table Line 24) : Prop :=
  ∀ i : Fin 24, new.get i =
    if i.val / 4 = f then
      payload.getD (1 + 4 * (i.val % 4)) 0#8 ++ payload.getD (2 + 4 * (i.val % 4)) 0#8 ++
        payload.getD (3 + 4 * (i.val % 4)) 0#8 ++ payload.getD (4 + 4 * (i.val % 4)) 0#8
    else old.get i

/-! ### Payload lengths -/

/-- The least and greatest payload length of the commands that carry a session id, by code (R173, R189). -/
def payloadLengths (code : Byte) : Option (Nat × Nat) :=
  match code.toNat with
  | 0x02 => some (0, 0)
  | 0x03 => some (0, 0)
  | 0x04 => some (1, 1)
  | 0x05 => some (1, 1)
  | 0x10 => some (2, 2)
  | 0x11 => some (2, 2)
  | 0x12 => some (1, 1)
  | 0x13 => some (1, 1)
  | 0x20 => some (4, 84)
  | 0x21 => some (13, 13)
  | 0x22 => some (2, 30)
  | 0x23 => some (1, 1)
  | 0x24 => some (1, 1)
  | 0x28 => some (17, 125)
  | 0x30 => some (4, 4)
  | 0x31 => some (17, 17)
  | 0x32 => some (0, 0)
  | 0x33 => some (2, 2)
  | 0x34 => some (2, 2)
  | 0x35 => some (0, 0)
  | 0x40 => some (3, 18)
  | 0x41 => some (1, 1)
  | 0x42 => some (1, 1)
  | _ => none

/-! ### Properties of the blocks -/

/-- A port interface between windows: IDLE or IGNORE with nothing assembled, and in reset IGNORE with its slot EMPTY
(R165, R167, R181, R182). -/
abbrev PortOk (s : State) (p : Port) : Prop :=
  ((s.ports.get p).recv = .idle ∨ (s.ports.get p).recv = .ignore) ∧ (s.ports.get p).buffer = [] ∧
    (s.ports.get p).bits = 0 ∧ (s.ports.get p).delivered = 0 ∧ (s.ports.get p).shifting = [] ∧
    (s.inReset p = true → (s.ports.get p).recv = .ignore ∧ (s.ports.get p).slot = none ∧
      (s.sessions.get p).active = false)

/-- A session record (R129, R130, R153): at most 24 events; while NONE no lease runs, no event waits and none is
counted lost; while ACTIVE the epoch and the term are not 0 and the lease is at most its full length. -/
abbrev SessionOk (r : Session) : Prop :=
  r.queue.length ≤ 24 ∧
    (r.active = false → r.queue = [] ∧ r.lost = 0#8 ∧ r.remaining = 0 ∧ r.armed = false ∧ r.mask = 0#6) ∧
    (r.active = true → r.epoch ≠ 0#6 ∧ r.term ≠ 0#8 ∧ r.remaining ≤ 100 * r.term.toNat)

/-- A timer that runs. -/
def Timer.isRunning : Timer → Bool
  | .stopped => false
  | .running _ _ => true

/-- A channel engine and its compositor (R89, R107, R113): mode OFF exactly in OFF, a pending configuration only in
LOCKED or FREERUN, each timer exactly in its states, the mark set exactly when placements were dropped, and a frame in
progress exactly in LOCKED or FREERUN. -/
abbrev ChannelOk (s : State) (c : Chan) : Prop :=
  ((s.channels.get c).active.on = false ↔ (s.channels.get c).state = .off) ∧
    ((s.channels.get c).pending.isSome = true → (s.channels.get c).state.running = true) ∧
    (∀ x ∈ (s.channels.get c).pending, x.config.on = true) ∧
    ((s.channels.get c).loss.isRunning = true ↔
      (s.channels.get c).state = .seeking ∨ (s.channels.get c).state = .locked) ∧
    ((s.channels.get c).freeRun.isRunning = true ↔ (s.channels.get c).state = .freeRun) ∧
    ((s.channels.get c).overbooked = true ↔ (s.channels.get c).dropped ≠ 0) ∧ (s.channels.get c).dropped ≤ 16 ∧
    ((s.compositors.get c).isSome = (s.channels.get c).state.running) ∧
    ∀ f ∈ s.compositors.get c, f.drawList.length ≤ 32

/-- The number of waiter lists that a session of port p is in (R59). -/
def State.waitsIn (s : State) (p : Port) : Nat := s.claims.cells.countP fun k => k.waiters.any fun w => w.port == p

/-- A claim record (R58): every session in it is ACTIVE, the waiters are distinct, at most 3 and not the holder, and a
list that is not empty has a holder before it. -/
abbrev ClaimOk (s : State) (k : Claim) : Prop :=
  (∀ i ∈ k.holder, s.isActive i = true) ∧ (∀ w ∈ k.waiters, s.isActive w = true ∧ k.holder ≠ some w) ∧
    k.waiters.Nodup ∧ k.waiters.length ≤ 3 ∧ (k.waiters ≠ [] → k.holder.isSome = true)

/-- The claim table (R58, R59): every record, and the wait counts. -/
abbrev ClaimsOk (s : State) : Prop :=
  (∀ k ∈ s.claims.cells, ClaimOk s k) ∧ ∀ p : Port, s.waits.get p = s.waitsIn p ∧ s.waits.get p ≤ 8

/-- A text of at most 40 and a placement list of at most 4, no two on one channel (R3). -/
abbrev ContentOk (textLength : Nat) (placements : List Placement) : Prop :=
  textLength ≤ 40 ∧ placements.length ≤ 4 ∧ chansDistinct placements = true

/-- A row record (R2, R3): the sizes of its contents; while SWAPPING the holding set is not empty and holds only running
channels that the held version names. -/
abbrev RowOk (s : State) (x : Row) : Prop :=
  ContentOk x.live.text.length x.live.placements ∧
    ∀ h ∈ x.held, ContentOk h.version.text.length h.version.placements ∧ ChanSet.isEmpty h.holding = false ∧
      ∀ c : Chan, h.holding.get c = true →
        (s.channels.get c).state.running = true ∧ (placementOn c h.version).isSome = true

/-- The row table (R2, R3, R26): every record and every edit buffer; the blank-pending mark is set only on a row that is
SWAPPING and has no holder. -/
abbrev RowsOk (s : State) : Prop :=
  (∀ x ∈ s.rows.cells, RowOk s x) ∧
    ∀ l : LeasedNo, ContentOk (s.leased.get l).edit.text.length (s.leased.get l).edit.placements ∧
      ((s.leased.get l).blankPending = true →
        (s.rows.get (LeasedNo.row l)).swapping = true ∧ (s.claims.get (rowResource l)).holder = none)

/-- The positions of a row's live and held versions that resolve to cell n (R37). -/
def Row.refsTo (x : Row) (n : CellNo) : Nat :=
  (x.live.text.countP fun q => q.cell == n) +
    match x.held with
    | some h => h.version.text.countP fun q => q.cell == n
    | none => 0

/-- The positions of all rows that resolve to cell n (R37). -/
def State.refsTo (s : State) (n : CellNo) : Nat := (s.rows.cells.map fun x => x.refsTo n).sum

/-- The number of map entries that name cell n (R35). -/
def State.entriesOf (s : State) (n : CellNo) : Nat := s.map.countP fun e => e.cell == n

/-- The number of open uploads into cell n (R41). -/
def State.uploadsInto (s : State) (n : CellNo) : Nat :=
  (ascending 4).countP fun p => (s.uploads.get p).any fun u => u.cell == n

/-- A cell (R31, R35, R37, R41): its count is the number of positions that resolve to it; FREE and LOADING cells have
none and RETIRING ones at least one; READY cells but cell 0 are named by exactly one entry and other cells by none;
LOADING cells have exactly one upload and other cells none; cell 0 is READY and not named. -/
abbrev CellOk (s : State) (n : CellNo) : Prop :=
  (s.cells.get n).refs = s.refsTo n ∧
    ((s.cells.get n).state = .free ∨ (s.cells.get n).state = .loading → (s.cells.get n).refs = 0) ∧
    ((s.cells.get n).state = .retiring → 1 ≤ (s.cells.get n).refs) ∧
    s.entriesOf n = (if (s.cells.get n).state = .ready ∧ n ≠ 0 then 1 else 0) ∧
    s.uploadsInto n = (if (s.cells.get n).state = .loading then 1 else 0) ∧
    (n = 0 → (s.cells.get n).state = .ready)

/-- The glyph store (R31, R35, R37, R41): every cell, the map in its canonical form, and every upload kept under the
port of its session. -/
abbrev StoreOk (s : State) : Prop :=
  (∀ n : CellNo, CellOk s n) ∧ mapSorted s.map = true ∧
    ∀ p : Port, ∀ u ∈ s.uploads.get p, u.session.port = p

/-- The holders of map entries and of uploads are ACTIVE sessions, and a volatile entry has a holder (R36, R41). -/
abbrev HoldersOk (s : State) : Prop :=
  (∀ e ∈ s.map, (∀ i ∈ e.holder, s.isActive i = true) ∧ (e.isVolatile = true → e.holder.isSome = true)) ∧
    ∀ p : Port, ∀ u ∈ s.uploads.get p, u.session.port = p ∧ s.isActive u.session = true

end Sys2Proof.Machine
end

