-- ==== Sys2Proof/WellFormed.lean ====
section
/-! DEFINITION. Which operands belong to a row. A step whose operands do not is still given the effect its bytes have
on the wire (log 6); the check says which terms the table's rows describe. -/
namespace Sys2Proof

/-- A window's partial byte has 0–7 bits (R166). -/
def RawFrame.wf (f : RawFrame) : Bool := decide (f.bits < 8)

def Window.wf : Window → Bool
  | .closed => true
  | .opened f => f.wf

/-- The bytes of the step's frame, when it is a frame that carries a command. -/
def Instr.frame (i : Instr) : Option RawFrame :=
  match i.commandParts with
  | some (_, code, sid, payload) => some (wireFrame code sid payload)
  | none => none

/-- The code names none of the 24 commands (R172). -/
def codeUnknown (code : Byte) : Bool :=
  match Instr.ofCode 0 code 0#8 [] with
  | .unknownCommand _ _ _ _ => true
  | _ => false

/-- The operands are ones the step's row describes: a payload of a good frame (R168), a code that names no command
(R172), a window that R169 judges bad, a partial byte of 0–7 bits (R166). -/
def Instr.wf (i : Instr) : Bool :=
  match i with
  | .unknownCommand _ code _ payload => codeUnknown code && decide (payload.length ≤ Config.payloadBytes)
  | .badFrame p f => f.wf && decide (Instr.ofFrame p f = some (.badFrame p f))
  | .crstAsserted w => w.at0.wf && w.at1.wf && w.at2.wf && w.at3.wf
  | .prstAsserted _ w => w.wf
  | i =>
    match i.commandParts with
    | some (_, _, _, payload) => decide (payload.length ≤ Config.payloadBytes)
    | none => true

end Sys2Proof
end

