-- ==== Sys2Proof/Certificates/Slice0/Obligations.lean ====
section
/-! DEFINITION. The statements about the model. Each names the rules it follows; a statement about a command gives its
next state whole: the blocks it names change as said, and every other field is as before. -/

open Sys2Proof Sys2Proof.Machine

/-! ### The machine -/

/-- The step at the front of the queue runs on the state with the queue's rest (R171, 95). -/
def Obligations.StepRunsFront : Prop :=
  ∀ (i : Instr) (s : State), step { s with pending := i :: s.pending } = exec i s

/-- With no step waiting, one event in flight is filed, or 10 µs pass: leases and timers run down, and the timer steps
that fall due are put in the queue in some order. The model's choice (log 8, log 9, log 10); R89, R137, R152. -/
def Obligations.EmptyQueueFilesOrLetsTimePass : Prop :=
  ∀ s : State, s.pending = [] →
    (s.posted ≠ [] →
      ∃ x ∈ s.posted, step s =
        .next { s.fileOldest x.source x.addressee.port with freeIndex := s.freeIndex + 1 }) ∧
    (s.posted = [] →
      ∃ t, step s = .next t ∧
        t = { s with sessions := s.sessions.map Session.tick, channels := s.channels.map Channel.tick,
                     pending := t.pending, freeIndex := t.freeIndex } ∧
        ∀ i : Instr, t.pending.count i = t.dueSteps.count i)

/-- Every step has a next state: nothing stops the part (R171, R174, R179). That a command does not touch the queue
of waiting steps and the index of the free choices is the model's choice, since both are the model's own (logs 20 and
10). -/
def Obligations.NothingStopsThePart : Prop :=
  (∀ (i : Instr) (s : State), ∃ t, exec i s = .next t ∧ t.pending = s.pending ∧ t.freeIndex = s.freeIndex) ∧
    ∀ s : State, ∃ t, step s = .next t

/-! ### Resets -/

/-- The values after power-on that the spec gives (R7, R34, R60, R90, R130, R148, R154, R165). The receive state IDLE
is R165's value for a CSn that is deasserted at power-on, and that every CSn is so in State.reset is the model's choice
(log 3). -/
def Obligations.ResetValues : Prop :=
  (∀ p : Port,
    ((State.reset.ports.get p).recv = .idle ∧ (State.reset.ports.get p).buffer = [] ∧
      (State.reset.ports.get p).bits = 0 ∧ (State.reset.ports.get p).slot = none ∧
      (State.reset.ports.get p).delivered = 0) ∧
    ((State.reset.sessions.get p).active = false ∧ (State.reset.sessions.get p).epoch = 0#6 ∧
      (State.reset.sessions.get p).remaining = 0 ∧ (State.reset.sessions.get p).armed = false ∧
      (State.reset.sessions.get p).mask = 0#6 ∧ (State.reset.sessions.get p).queue = [] ∧
      (State.reset.sessions.get p).nextSeq = 0#8 ∧ (State.reset.sessions.get p).lost = 0#8 ∧
      (State.reset.sessions.get p).causes = EndCause.power.bit) ∧
    State.reset.waits.get p = 0 ∧ State.reset.uploads.get p = none ∧ State.reset.attn p = false) ∧
  (∀ r : Resource, (State.reset.claims.get r).holder = none ∧ (State.reset.claims.get r).waiters = []) ∧
  (∀ r : RowNo, (State.reset.rows.get r).held = none ∧
    (State.reset.rows.get r).live =
      { text := [], style := Style.default, placements := [], generation := 0#16, origin := .part }) ∧
  (∀ l : LeasedNo, (State.reset.leased.get l).edit = { text := [], style := Style.default, placements := [] } ∧
    (State.reset.leased.get l).blankPending = false) ∧
  State.reset.map = [] ∧
  ((State.reset.cells.get 0).state = .ready ∧ (State.reset.cells.get 0).advance = 10 ∧
    (State.reset.cells.get 0).refs = 0) ∧
  (∀ i j : Fin 24, j.val < 16 →
    cellCode (State.reset.cells.get 0) i.val j.val =
      if (1 ≤ j.val ∧ j.val ≤ 8 ∧ (i.val = 4 ∨ i.val = 19)) ∨
          (4 ≤ i.val ∧ i.val ≤ 19 ∧ (j.val = 1 ∨ j.val = 8)) then 1#2 else 0#2) ∧
  (∀ n : CellNo, n ≠ 0 → (State.reset.cells.get n).state = .free ∧ (State.reset.cells.get n).refs = 0) ∧
  ∀ c : Chan, (State.reset.channels.get c).state = .off ∧
    (State.reset.channels.get c).active = ChanConfig.default ∧
    (State.reset.channels.get c).staged = ChanConfig.default ∧ (State.reset.channels.get c).pending = none ∧
    (State.reset.channels.get c).loss = .stopped ∧ (State.reset.channels.get c).freeRun = .stopped ∧
    (State.reset.channels.get c).overbooked = false ∧ (State.reset.channels.get c).dropped = 0 ∧
    State.reset.compositors.get c = none

/-- Power-on, and the assertion of CRST, return every block to its reset values; the ports are IDLE or IGNORE after
power-on by the level of their CSn, and all in IGNORE, with ATTN deasserted, from the assertion of CRST (R7, R34, R60,
R90, R148, R161, R165, R182). The values that the spec gives no block are the model's choices: the lease term 0 (log 1),
the bitmap and the advance of cells 1 to 255 (log 2), PRSTn and CRST deasserted at POWER_ON (log 3), and the queue of
steps and the index of the free choices kept (logs 20 and 10). -/
def Obligations.PowerOnAndChipResetClearThePart : Prop :=
  (∀ (s : State) (csn : Four Bool),
    exec (.powerOn csn) s = .next
      { State.reset with
        ports := csn.map fun low => { PortIf.reset with recv := if low then .ignore else .idle, csn := low }
        pending := s.pending
        freeIndex := s.freeIndex }) ∧
  ∀ (s : State) (windows : Four Window), ∃ t, exec (.crstAsserted windows) s = .next t ∧
    t = { State.reset with
          crst := true
          sessions := Four.fill { Session.reset with causes := EndCause.chipReset.bit }
          ports := t.ports
          pending := s.pending
          freeIndex := s.freeIndex } ∧
    ∀ p : Port, (t.ports.get p).recv = .ignore ∧ (t.ports.get p).buffer = [] ∧ (t.ports.get p).bits = 0 ∧
      (t.ports.get p).slot = none ∧ (t.ports.get p).delivered = 0 ∧ (t.ports.get p).shifting = [] ∧
      (t.ports.get p).prst = (s.ports.get p).prst ∧
      (t.ports.get p).csn = (match windows.get p with | .closed => false | .opened _ => true) ∧ t.attn p = false

/-- The release of CRST, the release of PRSTn and the close of an ignored window change nothing but the pins they move;
a port leaves IGNORE when no reset is held and its CSn is deasserted (R148, R167, R181, R182). -/
def Obligations.PortsLeaveIgnore : Prop :=
  (∀ (s : State) (csn : Four Bool), ∃ t, exec (.crstDeasserted csn) s = .next t ∧
    t = { s with crst := false, ports := t.ports } ∧
    ∀ p : Port, t.ports.get p =
      { s.ports.get p with
        csn := csn.get p
        recv := if (s.ports.get p).recv = .ignore ∧ (s.ports.get p).prst = false ∧ csn.get p = false then .idle
                else (s.ports.get p).recv }) ∧
  (∀ (s : State) (p : Port) (csn : Bool),
    exec (.prstDeasserted p csn) s = .next
      { s with ports := s.ports.modify p fun q =>
          { q with prst := false, csn := csn,
                   recv := if q.recv = .ignore ∧ s.crst = false ∧ csn = false then .idle else q.recv } }) ∧
  ∀ (s : State) (p : Port),
    exec (.frameIgnored p) s = .next
      { s with ports := s.ports.modify p fun q =>
          { q with csn := false,
                   recv := if q.recv = .ignore ∧ s.inReset p = false then .idle else q.recv } }

/-- The assertion of PRSTn adds PORT_RESET to the port's end causes, ends its ACTIVE session, empties its slot, drops
the frame in progress and leaves the other ports alone (R147, R161, R181). -/
def Obligations.PortResetEndsTheSession : Prop :=
  ∀ (s : State) (p : Port) (window : Window), ∃ t, exec (.prstAsserted p window) s = .next t ∧
    (∀ q : Port, q ≠ p → t.ports.get q = s.ports.get q) ∧
    ((t.ports.get p).recv = .ignore ∧ (t.ports.get p).buffer = [] ∧ (t.ports.get p).bits = 0 ∧
      (t.ports.get p).slot = none ∧ (t.ports.get p).delivered = 0 ∧ (t.ports.get p).shifting = [] ∧
      (t.ports.get p).prst = true ∧
      (t.ports.get p).csn = (match window with | .closed => false | .opened _ => true)) ∧
    ((s.sessions.get p).active = false →
      t = { s with
            ports := t.ports
            sessions := s.sessions.modify p fun r => { r with causes := r.causes ||| EndCause.portReset.bit } }) ∧
    ((s.sessions.get p).active = true →
      t.sessions = s.sessions.modify p (fun r => r.ended .portReset) ∧ t.attn p = false ∧
        EndNoticed (s.sidOf p) s t)

/-! ### Frames -/

/-- Every window on a port held in reset is ignored to its end: the port stays in IGNORE, nothing is driven on SDOn, and
nothing else changes (R167, R181, R182). -/
def Obligations.FramesInResetAreIgnored : Prop :=
  ∀ (s : State) (p : Port), s.inReset p = true →
    let ignored := { s with ports := s.ports.modify p fun q =>
      { q with recv := .ignore, csn := false, sdo := [], sdoTail := [] } }
    (∀ (i : Instr) (code sid : Byte) (payload : List Byte), i.commandParts = some (p, code, sid, payload) →
      exec i s = .next ignored) ∧
    (∀ f : RawFrame, (Instr.badFrame p f).wf = true → exec (.badFrame p f) s = .next ignored) ∧
    ∀ n : Nat, exec (.fetchFrame p n) s = .next ignored

/-- The checks common to all commands but ATTACH: without the id of the port's ACTIVE session the answer is STALE and
nothing changes; with it, a payload of a wrong length is answered BAD_ARG at stage LENGTH and renews the lease
(R133, R134, R171, R173, R189). -/
def Obligations.CommonChecks : Prop :=
  ∀ (s : State) (i : Instr) (p : Port) (code sid : Byte) (payload : List Byte) (least greatest : Nat),
    i.commandParts = some (p, code, sid, payload) → payloadLengths code = some (least, greatest) →
    payload.length ≤ 200 → s.inReset p = false →
    (s.sessionCheck p sid = false →
      exec i s = .next (s.answer p payload.length { status := .stale, payload := [] })) ∧
    (s.sessionCheck p sid = true → payload.length < least ∨ greatest < payload.length →
      exec i s = .next ((s.renewLease p).answer p payload.length { status := .badArg, payload := [0x01#8] }))

/-- The judgement of a frame at its close is the first test of R169 that fails; a bad frame is answered BAD_FRAME with
that reason, and nothing changes but its port, whose SDOn carried filler (R166, R168, R169, R175). -/
def Obligations.BadFrameIsAnswered : Prop :=
  (∀ (bytes : List Byte) (bits : Nat) (reason : BadReason), judge bytes bits = some reason ↔
    let l := (bytes.getD 3 0#8).toNat
    let marked := bytes = [] ∨ bytes.head? = some 0x5C#8
    (reason = .marker ∧ ¬ marked) ∨
    (reason = .bits ∧ marked ∧ bits ≠ 0) ∨
    (reason = .short ∧ marked ∧ bits = 0 ∧ bytes.length < 4) ∨
    (reason = .length ∧ marked ∧ bits = 0 ∧ 4 ≤ bytes.length ∧ 200 < l) ∨
    (reason = .short ∧ marked ∧ bits = 0 ∧ 4 ≤ bytes.length ∧ l ≤ 200 ∧ bytes.length < l + 5) ∨
    (reason = .long ∧ marked ∧ bits = 0 ∧ 4 ≤ bytes.length ∧ l ≤ 200 ∧ l + 5 < bytes.length) ∨
    (reason = .check ∧ marked ∧ bits = 0 ∧ l ≤ 200 ∧ bytes.length = l + 5 ∧
      crc8 ((bytes.drop 1).take (l + 3)) ≠ bytes.getD (l + 4) 0#8)) ∧
  ∀ (s : State) (p : Port) (f : RawFrame) (reason : BadReason), s.inReset p = false →
    (f.bytes ≠ [] ∨ f.bits ≠ 0) → f.bytes.head? ≠ some 0x5D#8 →
    judge (f.bytes.take 206) f.bits = some reason →
    exec (.badFrame p f) s = .next
      { s with ports := s.ports.modify p fun q =>
          { q with
            recv := .idle, buffer := [], bits := 0, delivered := 0, shifting := [], csn := false
            sdo := List.replicate f.bytes.length 0xFF#8
            sdoTail := topBits 0xFF#8 f.bits
            slot := some { status := .badFrame, discarded := q.slot.isSome, payload := [reason.byte] } } }

/-- A good frame whose code names no command is answered BAD_ARG at stage UNKNOWN, whatever the session id; no lease is
renewed (R134, R172, R174, R175). -/
def Obligations.UnknownCommandIsAnswered : Prop :=
  ∀ (s : State) (p : Port) (code sid : Byte) (payload : List Byte), s.inReset p = false →
    (Instr.unknownCommand p code sid payload).wf = true →
    exec (.unknownCommand p code sid payload) s = .next
      { s with ports := s.ports.modify p fun q =>
          { q with
            recv := .idle, buffer := [], bits := 0, delivered := 0, shifting := [], csn := false
            sdo := List.replicate (payload.length + 5) 0xFF#8
            sdoTail := []
            slot := some { status := .badArg, discarded := q.slot.isSome, payload := [0x00#8] } } }

/-- A fetch shifts out filler and then the slot's response, or the EMPTY response, and filler after it; the slot empties
exactly when the last byte of its response has been shifted out, and nothing else changes (R174, R176, R177). -/
def Obligations.FetchShiftsTheResponse : Prop :=
  ∀ (s : State) (p : Port) (n : Nat), s.inReset p = false →
    exec (.fetchFrame p n) s = .next
      { s with ports := s.ports.modify p fun q =>
          let out := match q.slot with
            | some r => r.bytes
            | none => [0x1F#8, 0x00#8, 0x00#8, 0xE5#8]
          { q with
            recv := .idle, buffer := [], bits := 0, delivered := 0, shifting := [], csn := false
            slot := if out.length ≤ n / 8 then none else q.slot
            sdo := 0xFF#8 :: (out ++ List.replicate (n / 8) 0xFF#8).take (n / 8)
            sdoTail := topBits ((out.drop (n / 8)).headD 0xFF#8) (n % 8) } }

/-- Every command, laid out on the wire as R168 and R185 say, is read back as that command with every operand (R169,
R172). -/
def Obligations.WireRoundTrip : Prop :=
  ∀ (i : Instr) (p : Port) (code sid : Byte) (payload : List Byte),
    i.wf = true → i.commandParts = some (p, code, sid, payload) →
    i.frame = some (wireFrame code sid payload) ∧ Instr.ofFrame p (wireFrame code sid payload) = some i

/-- What a window does is decided by its bytes alone: given as raw bytes, it acts as the step they spell, and an empty
window does nothing. The raw form of a good frame is the model's choice (log 6); R167, R171. -/
def Obligations.WindowIsItsStep : Prop :=
  ∀ (s : State) (p : Port) (f : RawFrame),
    (∀ i, Instr.ofFrame p f = some i → exec (.badFrame p f) s = exec i s) ∧
    (Instr.ofFrame p f = none → exec (.badFrame p f) s = .next s)

/-! ### Sessions -/

/-- ATTACH on a port whose session is NONE opens a session: the epoch advances, the record starts afresh, the end-cause
set is reported and emptied (R130, R131, R132, R146). -/
def Obligations.AttachOpensASession : Prop :=
  ∀ (s : State) (p : Port) (term mask : Byte), s.inReset p = false → (s.sessions.get p).active = false →
    term ≠ 0#8 → mask.toNat < 64 →
    exec (.attach p 0x00#8 [term, mask]) s = .next
      (({ s with sessions := s.sessions.modify p fun r =>
            { r with
              active := true
              epoch := if r.epoch = 63#6 then 1#6 else r.epoch + 1#6
              term := term, remaining := 100 * term.toNat, fraction := 0, armed := true
              mask := mask.setWidth 6, queue := [], nextSeq := 0#8, lost := 0#8, causes := 0#6 } } : State).answer p 2
        { status := .ok
          payload := [Sid.byte { port := p, epoch := nextEpoch (s.sessions.get p).epoch },
                      setByte (s.sessions.get p).causes, 0x01#8] })

/-- ATTACH over an ACTIVE session ends that session with cause REATTACH, hands its end to the other blocks, and then
opens the new one, whose response reports REATTACH among the causes (R130, R132, R146). -/
def Obligations.AttachReplacesASession : Prop :=
  ∀ (s : State) (p : Port) (term mask : Byte), s.inReset p = false → (s.sessions.get p).active = true →
    term ≠ 0#8 → mask.toNat < 64 →
    ∃ t, exec (.attach p 0x00#8 [term, mask]) s = .next t ∧
      t.sessions = (s.sessions.modify p fun r =>
        { r with
          active := true, epoch := nextEpoch r.epoch, term := term, remaining := 100 * term.toNat, fraction := 0
          armed := true, mask := mask.setWidth 6, queue := [], nextSeq := 0#8, lost := 0#8, causes := 0#6 }) ∧
      t.ports = (s.answer p 2
        { status := .ok
          payload := [Sid.byte { port := p, epoch := nextEpoch (s.sessions.get p).epoch },
                      setByte ((s.sessions.get p).causes ||| EndCause.reattach.bit), 0x01#8] }).ports ∧
      EndNoticed (s.sidOf p) s t

/-- A refused ATTACH changes nothing: a wrong length answers BAD_ARG at stage LENGTH, and a session id other than 0x00,
a term of 0 or a class that does not exist at stage VALUE (R131, R134, R173). -/
def Obligations.RefusedAttachChangesNothing : Prop :=
  ∀ (s : State) (p : Port) (sid : Byte) (payload : List Byte), s.inReset p = false → payload.length ≤ 200 →
    (payload.length ≠ 2 →
      exec (.attach p sid payload) s = .next
        (s.answer p payload.length { status := .badArg, payload := [0x01#8] })) ∧
    (payload.length = 2 → sid ≠ 0x00#8 ∨ payload.getD 0 0#8 = 0x00#8 ∨ 64 ≤ (payload.getD 1 0#8).toNat →
      exec (.attach p sid payload) s = .next
        (s.answer p payload.length { status := .badArg, payload := [0x02#8] }))

/-- DETACH ends the caller's session with cause DETACH, hands its end to the other blocks, and answers OK in the slot
that the end does not touch (R141, R142, R143). -/
def Obligations.DetachEndsTheSession : Prop :=
  ∀ (s : State) (p : Port) (sid : Byte), Callable s p sid →
    ∃ t, exec (.detach p sid []) s = .next t ∧ t.sessions = s.sessions.modify p (fun r => r.ended .detach) ∧
      t.ports = (s.answer p 0 { status := .ok, payload := [] }).ports ∧ t.attn p = false ∧
      EndNoticed (s.sidOf p) s t

/-- LEASE_EXPIRY at a lease that has run out ends the session with cause LEASE; the port's slot and window are not
touched. Where a command or the end of the session reached the record first, so that no lease has run out, it does not
happen (R139, R140, R142, R143). With time left on the lease in any other way it does nothing too, which is the model's
reading (log 9). -/
def Obligations.LeaseExpiryEndsTheSession : Prop :=
  ∀ (s : State) (p : Port),
    ((s.sessions.get p).active = true → (s.sessions.get p).remaining = 0 →
      ∃ t, exec (.leaseExpiry p) s = .next t ∧ t.sessions = s.sessions.modify p (fun r => r.ended .lease) ∧
        t.ports = s.ports ∧ t.attn p = false ∧ EndNoticed (s.sidOf p) s t) ∧
    ((s.sessions.get p).active = false ∨ (s.sessions.get p).remaining ≠ 0 →
      exec (.leaseExpiry p) s = .next s)

/-- At the end of a session by LEASE_EXPIRY, DETACH, ATTACH over it or PRST_ASSERTED, its upload's cell is FREE, the
cells of its volatile entries and all RETIRING cells are RETIRING while they are counted and FREE when they are not, and
every other cell keeps its state (R39, R53). -/
def Obligations.SessionEndSettlesTheCells : Prop :=
  ∀ (s : State) (p : Port) (i : Instr), (s.sessions.get p).active = true → StoreOk s →
    (i = .leaseExpiry p ∧ (s.sessions.get p).remaining = 0 ∨
      (∃ sid, i = .detach p sid [] ∧ Callable s p sid) ∨
      (∃ term mask, i = .attach p 0x00#8 [term, mask] ∧ s.inReset p = false ∧ term ≠ 0#8 ∧ mask.toNat < 64) ∨
      ∃ window, i = .prstAsserted p window) →
    ∃ t, exec i s = .next t ∧ ∀ n : CellNo, (t.cells.get n).state =
      if (s.uploadOf (s.sidOf p)).any (fun u => u.cell == n) then .free
      else if s.map.any (fun e => e.cell == n && e.holder == some (s.sidOf p) && e.isVolatile) ∨
          (s.cells.get n).state = .retiring then
        (if (t.cells.get n).refs = 0 then .free else .retiring)
      else (s.cells.get n).state

/-- RENEW sets the lease back to its full length, arms LEASE_LOW, answers the term and changes nothing else (R134,
R135). -/
def Obligations.RenewRestoresTheLease : Prop :=
  ∀ (s : State) (p : Port) (sid : Byte), Callable s p sid →
    exec (.renew p sid []) s = .next
      (({ s with sessions := s.sessions.modify p fun r =>
            { r with remaining := 100 * r.term.toNat, fraction := 0, armed := true } } : State).answer p 0
        { status := .ok, payload := [(s.sessions.get p).term] })

/-- SET_EVENT_MASK replaces the mask and answers it; a class that does not exist is refused and leaves the mask (R134,
R136). -/
def Obligations.SetEventMaskReplacesTheMask : Prop :=
  ∀ (s : State) (p : Port) (sid classes : Byte), Callable s p sid →
    (classes.toNat < 64 →
      exec (.setEventMask p sid [classes]) s = .next
        (({ s.renewLease p with sessions := (s.renewLease p).sessions.modify p fun r =>
              { r with mask := classes.setWidth 6 } } : State).answer p 1
          { status := .ok, payload := [classes] })) ∧
    (64 ≤ classes.toNat →
      exec (.setEventMask p sid [classes]) s = .next
        ((s.renewLease p).answer p 1 { status := .badArg, payload := [0x02#8] }))

/-- READ_EVENTS takes the oldest n events, at most 8, answers them with the remaining and the lost count, and clears the
lost count; n of 0 or above 8 is refused and removes nothing (R134, R157, R160, R192). -/
def Obligations.ReadEventsDrainsTheQueue : Prop :=
  ∀ (s : State) (p : Port) (sid n : Byte), Callable s p sid →
    (1 ≤ n.toNat ∧ n.toNat ≤ 8 →
      let r := s.sessions.get p
      exec (.readEvents p sid [n]) s = .next
        (({ s.renewLease p with sessions := (s.renewLease p).sessions.modify p fun r =>
              { r with queue := r.queue.drop n.toNat, lost := 0#8 } } : State).answer p 1
          { status := .ok
            payload := BitVec.ofNat 8 (min n.toNat r.queue.length) :: BitVec.ofNat 8 (r.queue.length - n.toNat) ::
              r.lost :: (r.queue.take n.toNat).flatMap fun e =>
                [e.seq, e.event.kind.byte] ++ halfBytes e.event.subject ++ halfBytes e.event.value ++
                  [portByte e.event.port, setByte e.event.kind.cls.bit] })) ∧
    (n.toNat = 0 ∨ 8 < n.toNat →
      exec (.readEvents p sid [n]) s = .next
        ((s.renewLease p).answer p 1 { status := .badArg, payload := [0x02#8] }))

/-- LEASE_LOW at an armed lease of 25 × term ms is posted to the session itself and disarmed. Where a command renewed
the lease first, or it is not armed, nothing is posted (R138, R140). At any other value of the lease it does nothing
too, which is the model's reading (log 9). -/
def Obligations.LeaseLowWarnsOnce : Prop :=
  ∀ (s : State) (p : Port),
    let r := s.sessions.get p
    (r.active = true → r.armed = true → r.remaining = 25 * r.term.toNat →
      exec (.leaseLow p) s = .next
        { s with
          sessions := s.sessions.modify p fun r => { r with armed := false }
          posted := s.posted ++
            [{ source := .sessionBlock, addressee := .session (s.sidOf p)
               event := { kind := .leaseLow, subject := 0#16, value := BitVec.ofNat 16 (25 * r.term.toNat)
                          port := none } }] }) ∧
    (r.active = false ∨ r.armed = false ∨ r.remaining ≠ 25 * r.term.toNat → exec (.leaseLow p) s = .next s)

/-- Filing an event takes it out of flight. It is dropped unless its session is the ACTIVE one of its port, kept out by
the mask, lost when the queue holds 24, and else stored with the next sequence number; nothing else changes (R144, R149,
R152, R154, R155). -/
def Obligations.FilingFollowsTheFourSteps : Prop :=
  ∀ (s : State) (source : Source) (p : Port) (before after : List Posted) (x : Posted),
    s.posted = before ++ x :: after → Posted.fromTo source p x = true →
    (∀ y ∈ before, Posted.fromTo source p y = false) →
    exec (.eventFiling source p) s = .next
      { s with
        posted := before ++ after
        sessions :=
          if x.addressee = .session (s.sidOf p) ∧ (s.sessions.get p).active = true then
            s.sessions.modify p fun r =>
              if maskHas r.mask x.event.kind.cls = false then r
              else if 24 ≤ r.queue.length then { r with lost := if r.lost = 255#8 then 255#8 else r.lost + 1#8 }
              else { r with queue := r.queue ++ [{ seq := r.nextSeq, event := x.event }]
                            nextSeq := r.nextSeq + 1#8 }
          else s.sessions }

/-! ### Claims -/

/-- CLAIM of an unheld resource makes the caller its holder, whatever the wait flag. A leased row's edit buffer becomes
a copy of its live version and its blank-pending mark is cleared; a channel's engine is not touched (R23, R61, R62). -/
def Obligations.ClaimTakesAnUnheldResource : Prop :=
  ∀ (s : State) (p : Port) (sid id wait : Byte) (r : Resource), Callable s p sid → resource? id = some r →
    wait.toNat < 2 → (s.claims.get r).holder = none →
    (∀ l : LeasedNo, resourceRow r = some l →
      exec (.claim p sid [id, wait]) s = .next
        (({ s.renewLease p with
            claims := s.claims.modify r fun k => { k with holder := some (s.sidOf p) }
            leased := s.leased.set l
              { edit := { text := (s.rows.get (LeasedNo.row l)).live.text.map Position.code
                          style := (s.rows.get (LeasedNo.row l)).live.style
                          placements := (s.rows.get (LeasedNo.row l)).live.placements }
                blankPending := false } } : State).answer p 2
          { status := .ok, payload := 0x01#8 :: halfBytes (s.rows.get (LeasedNo.row l)).live.generation })) ∧
    (∀ c : Chan, resourceChan r = some c →
      exec (.claim p sid [id, wait]) s = .next
        (({ s.renewLease p with
            claims := s.claims.modify r fun k => { k with holder := some (s.sidOf p) } } : State).answer p 2
          { status := .ok, payload := [0x01#8, 0x00#8, (s.channels.get c).state.byte] }))

/-- CLAIM with the wait flag of a resource that another session holds puts the caller at the tail of its waiter list and
raises its wait count (R61, R63). -/
def Obligations.ClaimJoinsTheWaiters : Prop :=
  ∀ (s : State) (p : Port) (sid id : Byte) (r : Resource) (holder : Sid), Callable s p sid →
    resource? id = some r → (s.claims.get r).holder = some holder → holder ≠ s.sidOf p →
    s.sidOf p ∉ (s.claims.get r).waiters → s.waits.get p < 8 →
    exec (.claim p sid [id, 0x01#8]) s = .next
      (({ s.renewLease p with
          claims := s.claims.modify r fun k => { k with waiters := k.waiters ++ [s.sidOf p] }
          waits := s.waits.modify p fun n => n + 1 } : State).answer p 2
        { status := .queued
          payload := [BitVec.ofNat 8 ((s.claims.get r).waiters.length + 1), portByte (some holder.port)] })

/-- CLAIM of a resource that its caller holds, that it already waits for, or that it may not or does not want to wait
for, changes nothing but the lease; neither does a CLAIM refused for its arguments (R61, R62, R190). -/
def Obligations.ClaimThatChangesNothing : Prop :=
  ∀ (s : State) (p : Port) (sid id wait : Byte), Callable s p sid →
    (resource? id = none ∨ 2 ≤ wait.toNat →
      exec (.claim p sid [id, wait]) s = .next
        ((s.renewLease p).answer p 2 { status := .badArg, payload := [0x02#8] })) ∧
    ∀ (r : Resource) (holder : Sid), resource? id = some r → wait.toNat < 2 →
    (s.claims.get r).holder = some holder →
    (holder = s.sidOf p →
      exec (.claim p sid [id, wait]) s = .next ((s.renewLease p).answer p 2
        { status := .ok
          payload := 0x00#8 ::
            match resourceRow r, resourceChan r with
            | some l, _ => halfBytes (s.rows.get (LeasedNo.row l)).live.generation
            | none, some c => [0x00#8, (s.channels.get c).state.byte]
            | none, none => [0x00#8, 0x00#8] })) ∧
    (holder ≠ s.sidOf p → wait = 0x00#8 →
      exec (.claim p sid [id, wait]) s = .next ((s.renewLease p).answer p 2
        { status := .held, payload := [portByte (some holder.port)] })) ∧
    (holder ≠ s.sidOf p → wait = 0x01#8 → s.sidOf p ∈ (s.claims.get r).waiters →
      exec (.claim p sid [id, wait]) s = .next ((s.renewLease p).answer p 2
        { status := .queued
          payload := [BitVec.ofNat 8 ((s.claims.get r).waiters.idxOf (s.sidOf p) + 1),
                      portByte (some holder.port)] })) ∧
    (holder ≠ s.sidOf p → wait = 0x01#8 → s.sidOf p ∉ (s.claims.get r).waiters → 8 ≤ s.waits.get p →
      exec (.claim p sid [id, wait]) s = .next ((s.renewLease p).answer p 2
        { status := .waitLimit, payload := [portByte (some holder.port)] }))

/-- RELEASE passes the resource to its oldest waiter with CLAIM_GRANTED, or leaves it unheld. An unheld leased row is
kept as it is with the keep flag; without it its edit buffer is emptied, and it is blanked at once when SETTLED and
marked blank-pending when SWAPPING. It is refused for its arguments and from any session but the holder (R23, R24, R25,
R65, R66, R67, R68). -/
def Obligations.ReleasePassesOnOrLeaves : Prop :=
  ∀ (s : State) (p : Port) (sid id keep : Byte), Callable s p sid →
    (resource? id = none ∨ 2 ≤ keep.toNat →
      exec (.release p sid [id, keep]) s = .next
        ((s.renewLease p).answer p 2 { status := .badArg, payload := [0x02#8] })) ∧
    ∀ r : Resource, resource? id = some r → keep.toNat < 2 →
    ((s.claims.get r).holder ≠ some (s.sidOf p) →
      exec (.release p sid [id, keep]) s = .next ((s.renewLease p).answer p 2
        { status := .notHolder, payload := [portByte ((s.claims.get r).holder.map Sid.port)] })) ∧
    ((s.claims.get r).holder = some (s.sidOf p) →
    (∀ (w : Sid) (rest : List Sid), (s.claims.get r).waiters = w :: rest →
      exec (.release p sid [id, keep]) s = .next
        (({ s.renewLease p with
            claims := s.claims.set r { holder := some w, waiters := rest }
            waits := s.waits.modify w.port fun n => n - 1
            leased := match resourceRow r with
              | some l => s.leased.set l
                  { edit := editCopy (s.rows.get (LeasedNo.row l)).live, blankPending := false }
              | none => s.leased
            posted := s.posted ++
              [{ source := .claimTable, addressee := .session w
                 event := { kind := .claimGranted, subject := (resourceId r).setWidth 16, value := 0#16
                            port := some p } }] } : State).answer p 2
          { status := .ok, payload := [portByte (some w.port)] })) ∧
    ((s.claims.get r).waiters = [] →
      (resourceRow r = none ∨ keep = 0x01#8 →
        exec (.release p sid [id, keep]) s = .next
          (({ s.renewLease p with claims := s.claims.set r { holder := none, waiters := [] } } : State).answer p 2
            { status := .ok, payload := [0xFF#8] })) ∧
      (∀ l : LeasedNo, resourceRow r = some l → keep = 0x00#8 → (s.rows.get (LeasedNo.row l)).held.isSome = true →
        exec (.release p sid [id, keep]) s = .next
          (({ s.renewLease p with
              claims := s.claims.set r { holder := none, waiters := [] }
              leased := s.leased.set l { edit := EditBuffer.empty, blankPending := true } } : State).answer p 2
            { status := .ok, payload := [0xFF#8] })) ∧
      (∀ l : LeasedNo, resourceRow r = some l → keep = 0x00#8 → (s.rows.get (LeasedNo.row l)).held = none →
        ∃ t, exec (.release p sid [id, keep]) s = .next t ∧
          t = { s.renewLease p with
                ports := (s.answer p 2 { status := .ok, payload := [0xFF#8] }).ports
                claims := s.claims.set r { holder := none, waiters := [] }
                leased := s.leased.modify l fun x => { x with edit := EditBuffer.empty }
                rows := s.rows.set (LeasedNo.row l) ((s.rows.get (LeasedNo.row l)).blanked s.channels)
                cells := t.cells } ∧
          GlyphsKept s t ∧
          CountsCommitted s t [] (s.rows.get (LeasedNo.row l)).live.text
            (ChanSet.isEmpty (runningNamed s.channels (s.rows.get (LeasedNo.row l)).live)))))

/-- CANCEL_WAIT removes a waiting caller from the list, keeps the order of the others and lowers its wait count; an id
that is no resource, and a caller that does not wait, are refused (R57, R70). -/
def Obligations.CancelWaitLeavesTheList : Prop :=
  ∀ (s : State) (p : Port) (sid id : Byte), Callable s p sid →
    (∀ r : Resource, resource? id = some r → s.sidOf p ∈ (s.claims.get r).waiters →
      exec (.cancelWait p sid [id]) s = .next
        (({ s.renewLease p with
            claims := s.claims.modify r fun k => { k with waiters := k.waiters.erase (s.sidOf p) }
            waits := s.waits.modify p fun n => n - 1 } : State).answer p 1
          { status := .ok, payload := [BitVec.ofNat 8 ((s.claims.get r).waiters.length - 1)] })) ∧
    (resource? id = none ∨ (∃ r, resource? id = some r ∧ s.sidOf p ∉ (s.claims.get r).waiters) →
      exec (.cancelWait p sid [id]) s = .next
        ((s.renewLease p).answer p 1 { status := .badArg, payload := [0x02#8] }))

/-- The five read commands report state as it stands and change nothing but the lease and the slot; an operand that
names nothing is refused (R30, R55, R56, R75, R108, R187, R191). READ_CHANNEL's applier byte 0xFF with no configuration
pending is the model's reading (log 17). -/
def Obligations.ReadsReportAndChangeNothing : Prop :=
  ∀ (s : State) (p : Port) (sid : Byte), Callable s p sid →
    let refused := fun n : Nat => (s.renewLease p).answer p n { status := .badArg, payload := [0x02#8] }
    (∀ b : Byte, (row? b = none → exec (.readRow p sid [b]) s = .next (refused 1)) ∧
      (resource? b = none → exec (.readClaim p sid [b]) s = .next (refused 1)) ∧
      (chan? b = none → exec (.readChannel p sid [b]) s = .next (refused 1))) ∧
    (∀ code : Half, code = 0x0000#16 ∨ code = 0xFFFF#16 →
      exec (.readGlyph p sid (halfBytes code)) s = .next (refused 2)) ∧
    (∀ (b : Byte) (r : RowNo), row? b = some r →
      exec (.readRow p sid [b]) s = .next ((s.renewLease p).answer p 1
        { status := .ok
          payload :=
            let x := s.rows.get r
            [flagByte x.held.isSome,
             match rowLeased r with
             | some l => portByte ((s.claims.get (rowResource l)).holder.map Sid.port)
             | none => 0xFF#8] ++
            halfBytes x.live.generation ++
            [match x.held with
             | some h => ChanSet.byte h.holding
             | none => 0x00#8,
             match rowLeased r with
             | some l => flagByte (s.leased.get l).blankPending
             | none => 0x00#8] ++
            (match x.held with
             | some h => halfBytes h.version.generation
             | none => [0x00#8, 0x00#8]) ++
            BitVec.ofNat 8 x.live.text.length :: x.live.text.flatMap fun q => halfBytes q.code })) ∧
    (∀ code : Half, code ≠ 0x0000#16 → code ≠ 0xFFFF#16 →
      exec (.readGlyph p sid (halfBytes code)) s = .next ((s.renewLease p).answer p 2
        { status := .ok
          payload :=
            let uploads := BitVec.ofNat 8 ((ascending 4).countP fun q =>
              (s.uploads.get q).any fun u => u.code == code)
            match s.map.find? (fun e => e.code == code) with
            | some e =>
              [0x01#8, BitVec.ofNat 8 e.cell.val, portByte (e.holder.map Sid.port), flagByte e.isVolatile,
               (s.cells.get e.cell).state.byte, BitVec.ofNat 8 (s.cells.get e.cell).advance] ++
              halfBytes (BitVec.ofNat 16 (s.cells.get e.cell).refs) ++ [uploads]
            | none =>
              [0x00#8, 0x00#8, 0xFF#8, 0x00#8, (s.cells.get 0).state.byte, BitVec.ofNat 8 (s.cells.get 0).advance] ++
              halfBytes (BitVec.ofNat 16 (s.cells.get 0).refs) ++ [uploads] })) ∧
    (exec (.readStore p sid []) s = .next ((s.renewLease p).answer p 0
      { status := .ok
        payload :=
          let inState := fun x : CellState => (ascending 256).countP fun n => (s.cells.get n).state == x
          [inState .free, inState .loading, inState .ready, inState .retiring, s.map.length,
           (s.cells.get 0).refs].flatMap fun n => halfBytes (BitVec.ofNat 16 n) })) ∧
    (∀ (id : Byte) (r : Resource), resource? id = some r →
      exec (.readClaim p sid [id]) s = .next ((s.renewLease p).answer p 1
        { status := .ok
          payload :=
            let waiter := fun i : Nat => portByte ((s.claims.get r).waiters[i]?.map Sid.port)
            [portByte ((s.claims.get r).holder.map Sid.port), BitVec.ofNat 8 (s.claims.get r).waiters.length,
             waiter 0, waiter 1, waiter 2, BitVec.ofNat 8 (s.waits.get p)] })) ∧
    (∀ (b : Byte) (c : Chan), chan? b = some c →
      exec (.readChannel p sid [b]) s = .next ((s.renewLease p).answer p 1
        { status := .ok
          payload :=
            let k := s.channels.get c
            [k.state.byte, flagByte k.overbooked, BitVec.ofNat 8 k.dropped, flagByte k.pending.isSome,
             match k.pending with
             | some x => portByte (x.applier.map Sid.port)
             | none => 0xFF#8] ++ k.active.bytes ++ k.staged.bytes ++
            (match k.pending with
             | some x => x.config.bytes
             | none => List.replicate 15 0x00#8) }))

/-! ### Rows -/

/-- EDIT_TEXT on a leased row that its caller holds writes the run into the edit buffer's text, appends beyond its end,
cuts after the run with the truncate flag, and answers the new length. A start beyond the text, a flag outside its
values, a count that is not the number of codes, an invalid code or a text that would pass 40 is refused and leaves the
text (R3, R8, R9, R12, R189). -/
def Obligations.EditTextWritesARun : Prop :=
  ∀ (s : State) (p : Port) (sid row start m truncate : Byte) (codes : List Half) (l : LeasedNo), Callable s p sid →
    leasedRow? row = some l → (s.claims.get (rowResource l)).holder = some (s.sidOf p) → codes.length ≤ 40 →
    let text := (s.leased.get l).edit.text
    let payload := [row, start, truncate, m] ++ codes.flatMap halfBytes
    (start.toNat ≤ text.length ∧ m.toNat = codes.length ∧ start.toNat + codes.length ≤ 40 ∧ truncate.toNat < 2 ∧
        (∀ c ∈ codes, c ≠ 0x0000#16 ∧ c ≠ 0xFFFF#16) →
      ∃ new : List Half,
        exec (.editText p sid payload) s = .next
          (({ s.renewLease p with leased := s.leased.modify l fun x =>
                { x with edit := { x.edit with text := new } } } : State).answer p payload.length
            { status := .ok, payload := [BitVec.ofNat 8 new.length] }) ∧
        new.length = (if truncate = 0x01#8 then start.toNat + codes.length
                      else max text.length (start.toNat + codes.length)) ∧
        ∀ i : Nat, i < new.length →
          new[i]? = if i < start.toNat ∨ start.toNat + codes.length ≤ i then text[i]? else codes[i - start.toNat]?) ∧
    (text.length < start.toNat ∨ m.toNat ≠ codes.length ∨ 40 < start.toNat + codes.length ∨ 2 ≤ truncate.toNat ∨
        (∃ c ∈ codes, c = 0x0000#16 ∨ c = 0xFFFF#16) →
      exec (.editText p sid payload) s = .next
        ((s.renewLease p).answer p payload.length { status := .badArg, payload := [0x02#8] }))

/-- SET_STYLE on a leased row that its caller holds replaces the edit buffer's style; a blend, box or priority outside
its values is refused, and colours are not checked (R4, R8, R10, R12, R186). -/
def Obligations.SetStyleReplacesTheStyle : Prop :=
  ∀ (s : State) (p : Port) (sid row a0 a1 a2 a3 a4 a5 a6 a7 a8 blend box priority : Byte) (l : LeasedNo),
    Callable s p sid → leasedRow? row = some l → (s.claims.get (rowResource l)).holder = some (s.sidOf p) →
    let payload := [row, a0, a1, a2, a3, a4, a5, a6, a7, a8, blend, box, priority]
    (∀ n : Fin 8, blend.toNat < 2 → box.toNat < 2 → priority.toNat = n.val →
      exec (.setStyle p sid payload) s = .next
        (({ s.renewLease p with leased := s.leased.modify l fun x =>
              { x with edit :=
                { x.edit with
                  style := { ink := ⟨a0, a1, a2⟩, edge := ⟨a3, a4, a5⟩, shade := ⟨a6, a7, a8⟩
                             blend := if blend = 0x00#8 then .opaqueInk else .halfInk
                             box := decide (box = 0x01#8), priority := n } } } } : State).answer p 13
          { status := .ok, payload := [] })) ∧
    (2 ≤ blend.toNat ∨ 2 ≤ box.toNat ∨ 8 ≤ priority.toNat →
      exec (.setStyle p sid payload) s = .next
        ((s.renewLease p).answer p 13 { status := .badArg, payload := [0x02#8] }))

/-- SET_PLACEMENTS on a leased row that its caller holds replaces the edit buffer's placement list by the entries given,
offsets −1023 to +1023, and answers their number. Two entries on one channel, a count above 4, a length that is not that
of the count, and an entry with a field outside its values are refused and change nothing (R5, R8, R11, R12, R186,
R189). -/
def Obligations.SetPlacementsReplacesTheList : Prop :=
  ∀ (s : State) (p : Port) (sid row : Byte) (l : LeasedNo), Callable s p sid → leasedRow? row = some l →
    (s.claims.get (rowResource l)).holder = some (s.sidOf p) →
    (∀ list : List Placement, list.length ≤ 4 →
      (∀ q ∈ list, -1023 ≤ q.x ∧ q.x ≤ 1023 ∧ -1023 ≤ q.y ∧ q.y ≤ 1023) →
      let payload := [row, BitVec.ofNat 8 list.length] ++ list.flatMap placementBytes
      ((list.map Placement.chan).Nodup →
        exec (.setPlacements p sid payload) s = .next
          (({ s.renewLease p with leased := s.leased.modify l fun x =>
                { x with edit := { x.edit with placements := list } } } : State).answer p payload.length
            { status := .ok, payload := [BitVec.ofNat 8 list.length] })) ∧
      (¬ (list.map Placement.chan).Nodup →
        exec (.setPlacements p sid payload) s = .next
          ((s.renewLease p).answer p payload.length { status := .badArg, payload := [0x02#8] }))) ∧
    ∀ (n : Byte) (records : List Byte), records.length ≤ 28 →
      4 < n.toNat ∨ records.length ≠ 7 * n.toNat ∨ (∃ i, i < n.toNat ∧ SpellsNoPlacement (records.drop (7 * i))) →
      exec (.setPlacements p sid (row :: n :: records)) s = .next
        ((s.renewLease p).answer p (records.length + 2) { status := .badArg, payload := [0x02#8] })

/-- The edit commands, COMMIT, CHANNEL_SET and CHANNEL_APPLY are refused BAD_ARG for a number that names no leased row
or no channel, and NOT_HOLDER from any session but the holder, and change nothing but the lease (R8, R57, R100, R101,
R190). -/
def Obligations.OnlyTheHolderChanges : Prop :=
  ∀ (s : State) (p : Port) (sid b : Byte) (rest : List Byte), Callable s p sid →
    let n := rest.length + 1
    let rowRefused := fun r : Reply =>
      (4 ≤ n → n ≤ 84 → exec (.editText p sid (b :: rest)) s = .next ((s.renewLease p).answer p n r)) ∧
      (n = 13 → exec (.setStyle p sid (b :: rest)) s = .next ((s.renewLease p).answer p n r)) ∧
      (2 ≤ n → n ≤ 30 → exec (.setPlacements p sid (b :: rest)) s = .next ((s.renewLease p).answer p n r)) ∧
      (n = 1 → exec (.commit p sid (b :: rest)) s = .next ((s.renewLease p).answer p n r))
    let chanRefused := fun r : Reply =>
      (3 ≤ n → n ≤ 18 → exec (.channelSet p sid (b :: rest)) s = .next ((s.renewLease p).answer p n r)) ∧
      (n = 1 → exec (.channelApply p sid (b :: rest)) s = .next ((s.renewLease p).answer p n r))
    (leasedRow? b = none → rowRefused { status := .badArg, payload := [0x02#8] }) ∧
    (∀ l : LeasedNo, leasedRow? b = some l → (s.claims.get (rowResource l)).holder ≠ some (s.sidOf p) →
      rowRefused { status := .notHolder, payload := [] }) ∧
    (chan? b = none → chanRefused { status := .badArg, payload := [0x02#8] }) ∧
    ∀ c : Chan, chan? b = some c → (s.claims.get (chanResource c)).holder ≠ some (s.sidOf p) →
      chanRefused
        { status := .notHolder, payload := [portByte ((s.claims.get (chanResource c)).holder.map Sid.port)] }

/-- COMMIT of a SETTLED row makes the edit buffer its live version: codes resolved through the map or to cell 0, the
generation advanced, the caller as origin. The old live version is held for the running channels it names; with none
the commit lands at once and COMMIT_LANDED is posted to the caller. The edit buffer stays (R14, R15, R16, R17, R21). -/
def Obligations.CommitExchangesTheVersions : Prop :=
  ∀ (s : State) (p : Port) (sid row : Byte) (l : LeasedNo), Callable s p sid → leasedRow? row = some l →
    (s.claims.get (rowResource l)).holder = some (s.sidOf p) → (s.rows.get (LeasedNo.row l)).held = none →
    (s.leased.get l).blankPending = false →
    ∃ (t : State) (new : Version) (mask : ChanSet),
      let old := (s.rows.get (LeasedNo.row l)).live
      let holds := runningNamed s.channels old
      exec (.commit p sid [row]) s = .next t ∧
      new = { text := (s.leased.get l).edit.text.map fun code =>
                { code := code
                  cell := match s.map.find? (fun e => e.code == code) with
                    | some e => e.cell
                    | none => 0 }
              style := (s.leased.get l).edit.style
              placements := (s.leased.get l).edit.placements
              generation := if old.generation = 0xFFFF#16 then 1#16 else old.generation + 1#16
              origin := .session (s.sidOf p) } ∧
      (∀ c : Chan, mask.get c = true ↔
        ∃ q ∈ new.placements, q.chan = c ∧ placementClipped (s.channels.get c).active s.cells new q = true) ∧
      t = { s.renewLease p with
            ports := (s.answer p 1
              { status := .ok
                payload := halfBytes new.generation ++
                  [BitVec.ofNat 8 (positionsIn new.text 0), ChanSet.byte mask, ChanSet.byte holds] }).ports
            rows := s.rows.set (LeasedNo.row l)
              { live := new
                held := if ChanSet.isEmpty holds then none else some { version := old, holding := holds } }
            posted := s.posted ++
              (if ChanSet.isEmpty holds then
                [{ source := .rowTable, addressee := .session (s.sidOf p)
                   event := { kind := .commitLanded, subject := BitVec.ofNat 16 l.val, value := new.generation
                              port := none } }]
               else [])
            cells := t.cells } ∧
      GlyphsKept s t ∧ CountsCommitted s t new.text old.text (ChanSet.isEmpty holds)

/-- COMMIT of a SWAPPING row is refused HELD with the current generation and changes nothing but the lease (R13). -/
def Obligations.CommitOfASwappingRowIsHeld : Prop :=
  ∀ (s : State) (p : Port) (sid row : Byte) (l : LeasedNo), Callable s p sid → leasedRow? row = some l →
    (s.claims.get (rowResource l)).holder = some (s.sidOf p) → (s.rows.get (LeasedNo.row l)).held.isSome = true →
    exec (.commit p sid [row]) s = .next
      ((s.renewLease p).answer p 1
        { status := .held, payload := halfBytes (s.rows.get (LeasedNo.row l)).live.generation })

/-- WRITE_COMMON of a common row, from any session: BAD_ARG for a row that is not common, a style or a placement outside
its values, two entries on one channel, a code that is not valid, a count above its greatest or a length that is not
that of the counts, HELD while the row is SWAPPING, CONFLICT when the expected generation is not the row's, and else a
commit of the payload with the caller as origin, COMMON_CHANGED to every other ACTIVE session, and COMMIT_LANDED to the
caller when it lands at once (R14, R15, R16, R79, R80, R81, R82, R83, R84). -/
def Obligations.WriteCommonCommitsThePayload : Prop :=
  (∀ (s : State) (p : Port) (sid : Byte) (payload : List Byte), Callable s p sid →
    17 ≤ payload.length → payload.length ≤ 125 →
    let field := fun i : Nat => (payload.getD i 0#8).toNat
    2 ≤ field 12 ∨ 2 ≤ field 13 ∨ 8 ≤ field 14 ∨ 4 < field 15 ∨ 40 < field 16 ∨
      payload.length ≠ 17 + 7 * field 15 + 2 * field 16 ∨
      (∃ i, i < field 15 ∧ SpellsNoPlacement (payload.drop (17 + 7 * i))) →
    exec (.writeCommon p sid payload) s = .next ((s.renewLease p).answer p payload.length
      { status := .badArg, payload := [0x02#8] })) ∧
  ∀ (s : State) (p : Port) (sid row : Byte) (expected : Half) (style : Style) (list : List Placement)
    (codes : List Half), Callable s p sid → list.length ≤ 4 →
    (∀ q ∈ list, -1023 ≤ q.x ∧ q.x ≤ 1023 ∧ -1023 ≤ q.y ∧ q.y ≤ 1023) → codes.length ≤ 40 →
    let payload := [row] ++ halfBytes expected ++ styleBytes style ++
      [BitVec.ofNat 8 list.length, BitVec.ofNat 8 codes.length] ++ list.flatMap placementBytes ++
      codes.flatMap halfBytes
    let good := (list.map Placement.chan).Nodup ∧ ∀ c ∈ codes, c ≠ 0x0000#16 ∧ c ≠ 0xFFFF#16
    (row.toNat < 44 ∨ 48 ≤ row.toNat ∨ ¬ good →
      exec (.writeCommon p sid payload) s = .next ((s.renewLease p).answer p payload.length
        { status := .badArg, payload := [0x02#8] })) ∧
    ∀ r : RowNo, row.toNat = r.val → 44 ≤ r.val → good →
    let old := (s.rows.get r).live
    let holds := runningNamed s.channels old
    (∀ h, (s.rows.get r).held = some h →
      exec (.writeCommon p sid payload) s = .next ((s.renewLease p).answer p payload.length
        { status := .held, payload := halfBytes old.generation ++ [ChanSet.byte h.holding] })) ∧
    ((s.rows.get r).held = none → expected ≠ old.generation →
      exec (.writeCommon p sid payload) s = .next ((s.renewLease p).answer p payload.length
        { status := .conflict, payload := halfBytes old.generation })) ∧
    ((s.rows.get r).held = none → expected = old.generation →
      ∃ (t : State) (new : Version) (mask : ChanSet), exec (.writeCommon p sid payload) s = .next t ∧
        new = { text := codes.map fun code =>
                  { code := code
                    cell := match s.map.find? (fun e => e.code == code) with
                      | some e => e.cell
                      | none => 0 }
                style := style
                placements := list
                generation := if old.generation = 0xFFFF#16 then 1#16 else old.generation + 1#16
                origin := .session (s.sidOf p) } ∧
        (∀ c : Chan, mask.get c = true ↔
          ∃ q ∈ new.placements, q.chan = c ∧ placementClipped (s.channels.get c).active s.cells new q = true) ∧
        t = { s.renewLease p with
              ports := (s.answer p payload.length
                { status := .ok
                  payload := halfBytes new.generation ++
                    [BitVec.ofNat 8 (positionsIn new.text 0), ChanSet.byte mask, ChanSet.byte holds] }).ports
              rows := s.rows.set r
                { live := new
                  held := if ChanSet.isEmpty holds then none else some { version := old, holding := holds } }
              posted := s.posted ++
                s.postsTo .rowTable (some p)
                  { kind := .commonChanged, subject := BitVec.ofNat 16 r.val, value := new.generation
                    port := some p } ++
                (if ChanSet.isEmpty holds then
                  [{ source := .rowTable, addressee := .session (s.sidOf p)
                     event := { kind := .commitLanded, subject := BitVec.ofNat 16 r.val, value := new.generation
                                port := none } }]
                 else [])
              cells := t.cells } ∧
        GlyphsKept s t ∧ CountsCommitted s t new.text old.text (ChanSet.isEmpty holds))

/-! ### The glyph store -/

/-- GLYPH_BEGIN with no upload open takes the lowest-numbered FREE cell, cleared and LOADING, and opens an upload that
waits for fragment 0. It is refused UPLOAD_OPEN with an upload open, BAD_ARG for a code, advance or flag outside its
values, NOT_HOLDER when another session holds the code, and NO_CELL with no cell FREE (R36, R42). -/
def Obligations.GlyphBeginTakesTheLowestFreeCell : Prop :=
  ∀ (s : State) (p : Port) (sid advance mark : Byte) (code : Half), Callable s p sid →
    let refused := fun (status : Status) (bytes : List Byte) =>
      exec (.glyphBegin p sid (halfBytes code ++ [advance, mark])) s = .next
        ((s.renewLease p).answer p 4 { status := status, payload := bytes })
    let good := code ≠ 0x0000#16 ∧ code ≠ 0xFFFF#16 ∧ 1 ≤ advance.toNat ∧ advance.toNat ≤ 16 ∧ mark.toNat < 2
    let entry := s.map.find? fun e => e.code == code
    ((s.uploadOf (s.sidOf p)).isSome = true → refused .uploadOpen []) ∧
    (s.uploadOf (s.sidOf p) = none → ¬ good → refused .badArg [0x02#8]) ∧
    (s.uploadOf (s.sidOf p) = none → good →
      (∀ e h, entry = some e → e.holder = some h → h ≠ s.sidOf p → refused .notHolder [portByte (some h.port)]) ∧
      ((∀ e h, entry = some e → e.holder = some h → h = s.sidOf p) →
        (∀ n : CellNo, (s.cells.get n).state = .free → (∀ m : CellNo, m < n → (s.cells.get m).state ≠ .free) →
          exec (.glyphBegin p sid (halfBytes code ++ [advance, mark])) s = .next
            (({ s.renewLease p with
                cells := s.cells.set n
                  { state := .loading, bitmap := Table.fill 24 0#32, advance := advance.toNat, refs := 0 }
                uploads := s.uploads.set p
                  (some { session := s.sidOf p, code := code, cell := n, next := 0
                          isVolatile := decide (mark = 0x01#8) }) } : State).answer p 4
              { status := .ok, payload := [BitVec.ofNat 8 n.val] })) ∧
        ((∀ n : CellNo, (s.cells.get n).state ≠ .free) → refused .noCell [])))

/-- GLYPH_LINES with the expected fragment 0–4 writes its four lines and advances the upload (R43, R44, R188). -/
def Obligations.GlyphLinesWritesAFragment : Prop :=
  ∀ (s : State) (p : Port) (sid : Byte) (payload : List Byte) (u : Upload), Callable s p sid →
    payload.length = 17 → s.uploadOf (s.sidOf p) = some u → (payload.getD 0 0#8).toNat = u.next.val →
    u.next.val < 5 →
    ∃ (bitmap : Table Line 24) (next : Fin 6),
      FragmentWritten u.next.val payload (s.cells.get u.cell).bitmap bitmap ∧ next.val = u.next.val + 1 ∧
      exec (.glyphLines p sid payload) s = .next
        (({ s.renewLease p with
            cells := s.cells.modify u.cell fun k => { k with bitmap := bitmap }
            uploads := s.uploads.set p (some { u with next := next }) } : State).answer p 17
          { status := .ok, payload := [BitVec.ofNat 8 next.val] })

/-- Fragment 5 completes the upload. If another session holds the code by now, the upload's cell is freed and the answer
is NOT_HOLDER. Otherwise the entry names the upload's cell, now READY, with the caller as holder; the old cell becomes
RETIRING or FREE by its count, and a replaced entry is told to every other ACTIVE session (R44, R45, R46, R47). -/
def Obligations.LastFragmentInstallsTheGlyph : Prop :=
  ∀ (s : State) (p : Port) (sid : Byte) (payload : List Byte) (u : Upload), Callable s p sid →
    payload.length = 17 → s.uploadOf (s.sidOf p) = some u → payload.getD 0 0#8 = 0x05#8 → u.next = 5 →
    let entry := s.map.find? (fun e => e.code == u.code)
    (∀ e, entry = some e → e.cell ≠ u.cell) →
    (∀ e h, entry = some e → e.holder = some h → h ≠ s.sidOf p →
      ∃ bitmap, FragmentWritten 5 payload (s.cells.get u.cell).bitmap bitmap ∧
        exec (.glyphLines p sid payload) s = .next
          (({ s.renewLease p with
              cells := s.cells.modify u.cell fun k => { k with bitmap := bitmap, state := .free }
              uploads := s.uploads.set p none } : State).answer p 17
            { status := .notHolder, payload := [portByte (some h.port)] })) ∧
    ((∀ e h, entry = some e → e.holder = some h → h = s.sidOf p) →
      ∃ (t : State) (bitmap : Table Line 24),
        FragmentWritten 5 payload (s.cells.get u.cell).bitmap bitmap ∧ exec (.glyphLines p sid payload) s = .next t ∧
        t = { s.renewLease p with
              ports := (s.answer p 17
                { status := .ok
                  payload := match entry with
                    | some e => [BitVec.ofNat 8 u.cell.val, 0x01#8, BitVec.ofNat 8 e.cell.val,
                        if (s.cells.get e.cell).refs = 0 then 0x00#8 else 0x03#8]
                    | none => [BitVec.ofNat 8 u.cell.val, 0x00#8, 0x00#8, 0x00#8] }).ports
              cells := t.cells, map := t.map
              uploads := s.uploads.set p none
              posted := s.posted ++
                match entry with
                | some _ => s.postsTo .glyphStore (some p)
                    { kind := .glyphChanged, subject := u.code, value := 0x0001#16, port := some p }
                | none => [] } ∧
        (∀ code : Half, t.map.find? (fun e => e.code == code) =
          if code = u.code then
            some { code := code, cell := u.cell, holder := some (s.sidOf p), isVolatile := u.isVolatile }
          else s.map.find? fun e => e.code == code) ∧
        t.cells.get u.cell = { s.cells.get u.cell with bitmap := bitmap, state := .ready, refs := 0 } ∧
        ∀ n : CellNo, n ≠ u.cell → t.cells.get n =
          if entry.any (fun e => e.cell == n) then
            { s.cells.get n with state := if (s.cells.get n).refs = 0 then .free else .retiring }
          else s.cells.get n)

/-- GLYPH_LINES with a fragment number other than the expected one is refused SEQUENCE and ends the upload, whose cell
becomes FREE; without an upload it is refused NO_UPLOAD (R43, R171). -/
def Obligations.WrongFragmentEndsTheUpload : Prop :=
  ∀ (s : State) (p : Port) (sid : Byte) (payload : List Byte), Callable s p sid → payload.length = 17 →
    (∀ u, s.uploadOf (s.sidOf p) = some u → (payload.getD 0 0#8).toNat ≠ u.next.val →
      exec (.glyphLines p sid payload) s = .next
        (({ s.renewLease p with
            cells := s.cells.modify u.cell fun k => { k with state := .free }
            uploads := s.uploads.set p none } : State).answer p 17
          { status := .sequence, payload := [BitVec.ofNat 8 u.next.val] })) ∧
    (s.uploadOf (s.sidOf p) = none →
      exec (.glyphLines p sid payload) s = .next
        ((s.renewLease p).answer p 17 { status := .noUpload, payload := [] }))

/-- GLYPH_ABORT ends the caller's upload: its cell becomes FREE, the record is removed, the map is not changed and no
event is posted; without an upload it is refused NO_UPLOAD (R48). -/
def Obligations.GlyphAbortFreesTheCell : Prop :=
  ∀ (s : State) (p : Port) (sid : Byte), Callable s p sid →
    (∀ u, s.uploadOf (s.sidOf p) = some u →
      exec (.glyphAbort p sid []) s = .next
        (({ s.renewLease p with
            cells := s.cells.modify u.cell fun k => { k with state := .free }
            uploads := s.uploads.set p none } : State).answer p 0
          { status := .ok, payload := [BitVec.ofNat 8 u.cell.val] })) ∧
    (s.uploadOf (s.sidOf p) = none →
      exec (.glyphAbort p sid []) s = .next
        ((s.renewLease p).answer p 0 { status := .noUpload, payload := [] }))

/-- GLYPH_DELETE removes a code's entry, which another session does not hold: its cell becomes RETIRING or FREE by its
count, and every other ACTIVE session is told. A code that is not valid or without an entry is refused BAD_ARG, an entry
of another session NOT_HOLDER (R36, R51). -/
def Obligations.GlyphDeleteRemovesTheEntry : Prop :=
  ∀ (s : State) (p : Port) (sid : Byte) (code : Half), Callable s p sid →
    let valid := code ≠ 0x0000#16 ∧ code ≠ 0xFFFF#16
    (∀ e, valid → s.map.find? (fun e => e.code == code) = some e → (∀ h, e.holder = some h → h = s.sidOf p) →
      exec (.glyphDelete p sid (halfBytes code)) s = .next
        (({ s.renewLease p with
            map := s.map.filter fun x => x.code != code
            cells := s.cells.modify e.cell fun k => { k with state := if k.refs = 0 then .free else .retiring }
            posted := s.posted ++ s.postsTo .glyphStore (some p)
              { kind := .glyphChanged, subject := code, value := 0x0002#16, port := some p } } : State).answer p 2
          { status := .ok
            payload := [BitVec.ofNat 8 e.cell.val, if (s.cells.get e.cell).refs = 0 then 0x00#8 else 0x03#8] })) ∧
    (∀ e h, valid → s.map.find? (fun e => e.code == code) = some e → e.holder = some h → h ≠ s.sidOf p →
      exec (.glyphDelete p sid (halfBytes code)) s = .next
        ((s.renewLease p).answer p 2 { status := .notHolder, payload := [portByte (some h.port)] })) ∧
    (¬ valid ∨ s.map.find? (fun e => e.code == code) = none →
      exec (.glyphDelete p sid (halfBytes code)) s = .next
        ((s.renewLease p).answer p 2 { status := .badArg, payload := [0x02#8] }))

/-! ### Channels -/

/-- CHANNEL_SET from the channel's holder writes the selected fields of the staged copy, each from its own value in
ascending selector order, and nothing else. A selector that names no field, values of another total length than the
selected fields have, and any value outside its field's spelling, among whatever other fields are selected, are refused,
and no field is written (R99, R100, R187). -/
def Obligations.ChannelSetStagesFields : Prop :=
  ∀ (s : State) (p : Port) (sid b : Byte) (c : Chan) (selectors : Half), Callable s p sid → chan? b = some c →
    (s.claims.get (chanResource c)).holder = some (s.sidOf p) →
    let bits := (ascending 10).filter fun bit => selectors.getLsbD bit.val
    let old := (s.channels.get c).staged
    let refused := fun values : List Byte => exec (.channelSet p sid ([b] ++ halfBytes selectors ++ values)) s = .next
      ((s.renewLease p).answer p (3 + values.length) { status := .badArg, payload := [0x02#8] })
    (∀ k : ChanConfig, selectors.toNat < 1024 → 1000 ≤ k.period → k.period ≤ 5000 →
      let values := bits.flatMap fun bit => fieldBytes bit k
      exec (.channelSet p sid ([b] ++ halfBytes selectors ++ values)) s = .next
        (({ s.renewLease p with channels := s.channels.modify c fun x =>
              { x with staged := bits.foldl (fun k' bit => copyField bit k k') old } } : State).answer p
          (3 + values.length) { status := .ok, payload := [] })) ∧
    (∀ values : List Byte, values.length ≤ 15 →
      1024 ≤ selectors.toNat ∨ values.length ≠ (bits.map fun bit => (fieldBytes bit old).length).sum →
      refused values) ∧
    ∀ value : Fin 10 → List Byte, selectors.toNat < 1024 →
      (∀ bit, (value bit).length = (fieldBytes bit old).length) → (∃ bit ∈ bits, SpellsNoField bit (value bit)) →
      refused (bits.flatMap value)

/-- CHANNEL_APPLY from the holder in OFF or SEEKING makes the staged configuration active at once: OFF with mode ON
enters SEEKING with the loss timer started, SEEKING with mode OFF enters OFF with the timers stopped, and SEEKING with
mode ON leaves the loss timer running as it is; no event is posted (R95, R101). -/
def Obligations.ChannelApplyActsAtOnce : Prop :=
  ∀ (s : State) (p : Port) (sid b : Byte) (c : Chan), Callable s p sid → chan? b = some c →
    (s.claims.get (chanResource c)).holder = some (s.sidOf p) →
    let k := s.channels.get c
    let applied := fun (x : Channel) (state : Byte) =>
      (({ s.renewLease p with channels := s.channels.set c x } : State).answer p 1
        { status := .ok, payload := [0x00#8, state, 0x00#8] })
    (k.state = .off → k.staged.on = false →
      exec (.channelApply p sid [b]) s = .next (applied { k with active := k.staged } 0x00#8)) ∧
    (k.state = .off → k.staged.on = true →
      exec (.channelApply p sid [b]) s = .next
        (applied { k with active := k.staged, state := .seeking
                          loss := .running (2 * k.staged.period) (2 * k.staged.period) } 0x01#8)) ∧
    (k.state = .seeking → k.staged.on = true →
      exec (.channelApply p sid [b]) s = .next (applied { k with active := k.staged } 0x01#8)) ∧
    (k.state = .seeking → k.staged.on = false →
      exec (.channelApply p sid [b]) s = .next
        (applied { k with active := k.staged, state := .off, loss := .stopped, freeRun := .stopped } 0x00#8))

/-- CHANNEL_APPLY from the holder in LOCKED or FREERUN: mode ON makes the staged configuration pending with the caller
as applier; mode OFF drops a pending one, makes the staged copy active, enters OFF, ends the frame and releases the
channel from every holding set (R28, R95, R102, R113). -/
def Obligations.ChannelApplyWhileRunning : Prop :=
  ∀ (s : State) (p : Port) (sid b : Byte) (c : Chan), Callable s p sid → chan? b = some c →
    (s.claims.get (chanResource c)).holder = some (s.sidOf p) →
    let k := s.channels.get c
    k.state = .locked ∨ k.state = .freeRun →
    (k.staged.on = true →
      exec (.channelApply p sid [b]) s = .next
        (({ s.renewLease p with
            channels := s.channels.set c
              { k with pending := some { config := k.staged, applier := some (s.sidOf p) } } } : State).answer p 1
          { status := .ok, payload := [0x01#8, k.state.byte, flagByte k.pending.isSome] })) ∧
    (k.staged.on = false →
      ∃ t, exec (.channelApply p sid [b]) s = .next t ∧
        t = { s.renewLease p with
              ports := (s.answer p 1
                { status := .ok, payload := [0x00#8, 0x00#8, flagByte k.pending.isSome] }).ports
              channels := s.channels.set c
                { k with active := k.staged, pending := none, state := .off, loss := .stopped, freeRun := .stopped
                         overbooked := false, dropped := 0 }
              compositors := s.compositors.set c none
              rows := t.rows, leased := t.leased, cells := t.cells
              posted := s.posted ++ s.landedPosts c } ∧
        RowsWithout c s t ∧ GlyphsKept s t ∧ DiscardsOnly s t)

/-- An input frame start makes a frame of a channel that is not OFF: SEEKING and FREERUN enter LOCKED with
CHANNEL_SIGNAL, the loss timer starts afresh after the pending configuration has become active, and the free-run timer
is stopped; in OFF it does nothing (R18, R27, R92, R94, R96, R98, R103, R106, R107). -/
def Obligations.InputFrameStartMakesAFrame : Prop :=
  ∀ (s : State) (c : Chan),
    let k := s.channels.get c
    (k.state = .off → exec (.inputFrameStart c) s = .next s) ∧
    (k.state ≠ .off →
      ∃ t, exec (.inputFrameStart c) s = .next t ∧
        FrameMade c (if k.state = .locked then [] else s.signalPosts c .locked) s t ∧ FrameFrame c s t ∧
        (t.channels.get c).state = .locked ∧
        (t.channels.get c).loss = .running (2 * k.nextConfig.period) (2 * k.nextConfig.period) ∧
        (t.channels.get c).freeRun = (if k.state = .freeRun then .stopped else k.freeRun))

/-- The expiry of a loss timer that has run out enters FREERUN with a frame when free-run is permitted; without it,
SEEKING restarts the timer, and LOCKED enters SEEKING: the pending configuration becomes active, the marks and the frame
are dropped and the channel leaves every holding set. Where an arrival or an apply reached the channel first, so that no
loss timer has run out, the expiry does not happen (R28, R93, R94, R95, R96, R97, R103, R113). With time left on the
timer in any other way it does nothing too, which is the model's reading (log 9). -/
def Obligations.LossTimerExpiryEntersFreeRunOrSeeking : Prop :=
  ∀ (s : State) (c : Chan),
    let k := s.channels.get c
    ((∀ d, k.loss ≠ .running d 0) → exec (.lossTimerExpiry c) s = .next s) ∧
    ∀ d, k.loss = .running d 0 →
    (k.state = .seeking ∨ k.state = .locked → k.active.freeRunPermitted = true →
      ∃ t, exec (.lossTimerExpiry c) s = .next t ∧
        FrameMade c (s.signalPosts c .freeRun) s t ∧ FrameFrame c s t ∧
        (t.channels.get c).state = .freeRun ∧ (t.channels.get c).loss = .stopped ∧
        (t.channels.get c).freeRun = .running k.nextConfig.period k.nextConfig.period) ∧
    (k.state = .seeking → k.active.freeRunPermitted = false →
      exec (.lossTimerExpiry c) s = .next
        { s with
          channels := s.channels.set c { k with loss := .running (2 * k.active.period) (2 * k.active.period) } }) ∧
    (k.state = .locked → k.active.freeRunPermitted = false →
      ∃ t, exec (.lossTimerExpiry c) s = .next t ∧
        t = { s with
              channels := s.channels.set c
                { k with state := .seeking, active := k.nextConfig, pending := none, freeRun := .stopped
                         loss := .running (2 * k.nextConfig.period) (2 * k.nextConfig.period)
                         overbooked := false, dropped := 0 }
              compositors := s.compositors.set c none
              rows := t.rows, leased := t.leased, cells := t.cells
              posted := s.posted ++ s.signalPosts c .seeking ++ s.appliedPosts c ++ s.landedPosts c } ∧
        RowsWithout c s t ∧ GlyphsKept s t ∧ DiscardsOnly s t)

/-- The expiry of a free-run timer that has run out, in FREERUN, makes a frame and restarts that timer. Where an arrival
or an apply reached the channel first and stopped the timer, the expiry does not happen (R94, R97, R98). With time left
on the timer in any other way it does nothing too, which is the model's reading (log 9). -/
def Obligations.FreeRunTimerExpiryMakesAFrame : Prop :=
  ∀ (s : State) (c : Chan),
    let k := s.channels.get c
    ((∀ d, k.freeRun ≠ .running d 0) → exec (.freeRunTimerExpiry c) s = .next s) ∧
    ∀ d, k.freeRun = .running d 0 → k.state = .freeRun →
      ∃ t, exec (.freeRunTimerExpiry c) s = .next t ∧ FrameMade c [] s t ∧ FrameFrame c s t ∧
        (t.channels.get c).state = .freeRun ∧ (t.channels.get c).loss = k.loss ∧
        (t.channels.get c).freeRun = .running k.nextConfig.period k.nextConfig.period

/-! ### Composition -/

/-- The draw list holds drawable placements only, at most 32 of them and all when there are at most 32; any drawable
placement that it leaves out has a lower priority than each one it holds, or the same priority and a lower row number
(R106, R118). -/
def Obligations.DrawListKeepsTheHighest : Prop :=
  ∀ (c : Chan) (k : ChanConfig) (latched : Table Version 48),
    let all := drawables c k latched
    let list := drawList c k latched
    (∀ d : DrawItem, d ∈ all ↔
      placementOn c (latched.get d.row) = some d.placement ∧ d.placement.tile.val < k.layout.tileCount) ∧
    (∀ d ∈ list, d ∈ all) ∧ list.Nodup ∧ list.length = min all.length 32 ∧
    (∀ d ∈ all, d ∉ list → ∀ e ∈ list,
      (latched.get d.row).style.priority < (latched.get e.row).style.priority ∨
        (latched.get d.row).style.priority = (latched.get e.row).style.priority ∧ d.row < e.row) ∧
    list.Pairwise fun d e =>
      (latched.get d.row).style.priority < (latched.get e.row).style.priority ∨
        (latched.get d.row).style.priority = (latched.get e.row).style.priority ∧ d.row < e.row

/-- The tiles of a layout cover every pixel of the plane, each exactly once. Their extents, the clip rectangles inset by
the border width, the row boxes with their anchors, and the test of the clipped-channel mask are those of the manual's
formulas (R109, R111, R112, R119, R121, R128). -/
def Obligations.TilesCoverThePlaneOnce : Prop :=
  (∀ (r : Rect) (x y : Int), r.has x y = true ↔ r.left ≤ x ∧ x ≤ r.right ∧ r.top ≤ y ∧ y ≤ r.bottom) ∧
  ∀ k : ChanConfig,
    let w := k.raster.width
    let h := k.raster.height
    let n := k.layout.columns
    let m := k.layout.tileRows
    let b : Int := k.border.val
    ((w, h) = match k.raster with
      | .r720x480 => (720, 480)
      | .r720x576 => (720, 576)
      | .r1280x720 => (1280, 720)
      | .r1920x1080 => (1920, 1080)) ∧
    ((n, m) = match k.layout with
      | .single => (1, 1)
      | .pair => (2, 1)
      | .quad => (2, 2)
      | .six => (3, 2)) ∧
    k.layout.tileCount = n * m ∧ k.scale.factor = (if k.scale = .one then 1 else 2) ∧
    (∀ x y : Int, inPlane k x y = true ↔ 0 ≤ x ∧ x < w ∧ 0 ≤ y ∧ y < h) ∧
    (∀ i j : Nat, i < n → j < m → tileRect k (j * n + i) =
      { left := (i * w / n : Nat), right := ((i + 1) * w / n : Nat) - 1
        top := (j * h / m : Nat), bottom := ((j + 1) * h / m : Nat) - 1 }) ∧
    (∀ t : Nat, clipRect k t =
      { left := (tileRect k t).left + b, right := (tileRect k t).right - b
        top := (tileRect k t).top + b, bottom := (tileRect k t).bottom - b }) ∧
    (∀ x y : Int, inPlane k x y = true →
      ∃ t : Nat, t < k.layout.tileCount ∧ (tileRect k t).has x y = true ∧
        ∀ u : Nat, u < k.layout.tileCount → (tileRect k u).has x y = true → u = t) ∧
    ∀ (cells : Table Cell 256) (v : Version) (q : Placement),
      let scale : Int := k.scale.factor
      let r := clipRect k q.tile.val
      let width := scale * (v.text.map fun u => ((cells.get u.cell).advance : Int)).sum +
        (if v.style.box = true then 4 * scale else 0)
      let height := 24 * scale
      let left := q.x + match q.anchor.val % 3 with
        | 0 => r.left
        | 1 => r.left + (r.right - r.left + 1 - width) / 2
        | _ => r.right + 1 - width
      let top := q.y + match q.anchor.val / 3 with
        | 0 => r.top
        | 1 => r.top + (r.bottom - r.top + 1 - height) / 2
        | _ => r.bottom + 1 - height
      (boxWidth k cells v : Int) = width ∧ (boxHeight k : Int) = height ∧ boxOrigin k cells v q = (left, top) ∧
        (placementClipped k cells v q = true ↔ q.tile.val < k.layout.tileCount ∧ 0 < width ∧
          (left < r.left ∨ r.right < left + width - 1 ∨ top < r.top ∨ r.bottom < top + height - 1))

/-- The picture is built in three layers. A row changes a pixel only inside the clip rectangle of its placement's tile
and inside its row box; there its box, if it has one, is blended over what lies beneath, and then the colour of the
pixel code at that place of its text, a code 0 pixel showing the box or what lies beneath. HALF halves the sum of each
component, OPAQUE replaces it. The rows of the draw list are drawn in its order over the border of the tile, its video
or its background. The output passes the input through in OFF and SEEKING, and beyond the plane in LOCKED, with its
timing and ancillary data; in FREERUN it is generated (R91, R110, R115, R116, R117, R118, R120, R122, R124, R125, R126,
R184). A generated picture without ancillary data is the model's reading (log 12). -/
def Obligations.RowsDrawInsideTheirClip : Prop :=
  (∀ (k : ChanConfig) (cells : Table Cell 256) (v : Version) (q : Placement) (x y : Int) (beneath : Colour),
    let scale : Int := k.scale.factor
    let dx := x - (boxOrigin k cells v q).1
    let dy := y - (boxOrigin k cells v q).2
    let inside := (clipRect k q.tile.val).has x y = true ∧ 0 ≤ dx ∧ dx < boxWidth k cells v ∧ 0 ≤ dy ∧
      dy < boxHeight k
    let advances := fun text : List Position => (text.map fun u => ((cells.get u.cell).advance : Int)).sum
    let half := fun a b : Byte => BitVec.ofNat 8 ((a.toNat + b.toNat) / 2)
    let blended := fun a b : Colour => match v.style.blend with
      | .opaqueInk => a
      | .halfInk => ⟨half a.y b.y, half a.cb b.cb, half a.cr b.cr⟩
    let boxed := if v.style.box = true then blended v.style.shade beneath else beneath
    let textX := dx - if v.style.box = true then 2 * scale else 0
    let drawn := drawRow k cells v q x y beneath
    (¬ inside → drawn = beneath) ∧
    (inside → textX < 0 ∨ scale * advances v.text ≤ textX → drawn = boxed) ∧
    (inside → ∀ (n : Nat) (u : Position) (i : Fin 24) (j : Nat), v.text[n]? = some u →
      j < (cells.get u.cell).advance → scale * advances (v.text.take n) + scale * j ≤ textX →
      textX < scale * advances (v.text.take n) + scale * (j + 1) → scale * i.val ≤ dy → dy < scale * (i.val + 1) →
      drawn = match (((cells.get u.cell).bitmap.get i).extractLsb' (30 - 2 * j) 2).toNat with
        | 0 => boxed
        | 1 => blended v.style.ink boxed
        | 2 => blended v.style.edge boxed
        | _ => blended v.style.shade boxed)) ∧
  (∀ (f : FrameLatch) (state : SignalState) (cells : Table Cell 256) (input : Colour) (x y : Int) (t : Nat),
    t < f.config.layout.tileCount → (tileRect f.config t).has x y = true →
    composedPixel f state cells input x y =
      f.drawList.foldl (fun beneath d => drawRow f.config cells (f.latched.get d.row) d.placement x y beneath)
        (if (clipRect f.config t).has x y = false then f.config.borderColour
         else if state = .locked ∧ f.config.videoMask.getLsbD t = true then input
         else f.config.background)) ∧
  ∀ (s : State) (c : Chan),
    let k := s.channels.get c
    let follows := s.videoClock c = .input ∧ ∀ {α : Type} (data : Option α), s.ancillaryOut c data = data
    (k.state = .off ∨ k.state = .seeking →
      follows ∧ ∀ (x y : Int) (input : Option Colour), s.videoOut c x y input = input) ∧
    (k.state = .locked → follows) ∧
    (k.state = .freeRun → s.videoClock c = .generated k.active.raster k.active.period ∧
      ∀ {α : Type} (data : Option α), s.ancillaryOut c data = none) ∧
    ∀ f, s.compositors.get c = some f → ∀ (x y : Int) (pixel : Colour),
      (k.state = .locked → s.videoOut c x y none = none ∧
        s.videoOut c x y (some pixel) =
          some (if inPlane f.config x y = true then composedPixel f .locked s.cells pixel x y else pixel)) ∧
      (k.state = .freeRun → ∀ input : Option Colour, s.videoOut c x y input =
        if inPlane f.config x y = true then some (composedPixel f .freeRun s.cells pixel x y) else none)

/-! ### What always holds -/

/-- After power-on every block is legal. -/
def Obligations.ResetIsLegal : Prop :=
  (∀ p : Port, PortOk State.reset p ∧ SessionOk (State.reset.sessions.get p)) ∧
    (∀ c : Chan, ChannelOk State.reset c) ∧ ClaimsOk State.reset ∧ RowsOk State.reset ∧ StoreOk State.reset ∧
    HoldersOk State.reset

/-- Every step keeps the port interfaces legal: between windows IDLE or IGNORE with nothing assembled, and in reset in
IGNORE with an EMPTY slot and no session (R147, R148, R165, R167, R181, R182). -/
def Obligations.StepsKeepPortsLegal : Prop :=
  ∀ s t : State, (∀ p : Port, PortOk s p) → step s = .next t → ∀ p : Port, PortOk t p

/-- Every step keeps the session records legal: at most 24 events, nothing waiting or running while NONE, and while
ACTIVE an epoch and a term that are not 0 and a lease of at most its full length (R129, R130, R153). -/
def Obligations.StepsKeepSessionsLegal : Prop :=
  ∀ s t : State, (∀ p : Port, SessionOk (s.sessions.get p)) → step s = .next t →
    ∀ p : Port, SessionOk (t.sessions.get p)

/-- Every step keeps the channel engines and compositors legal: mode OFF exactly in OFF, a pending configuration only
while running, each timer exactly in its states, the overbooked mark exactly with drops, and a frame of at most 32
placements exactly while running (R89, R99, R106, R107, R113). -/
def Obligations.StepsKeepChannelsLegal : Prop :=
  ∀ s t : State, (∀ c : Chan, ChannelOk s c) → step s = .next t → ∀ c : Chan, ChannelOk t c

/-- Every step keeps the claim table legal: records name ACTIVE sessions only, at most 3 distinct waiters and never the
holder, and wait counts are the numbers of lists, at most 8 (R58, R59). -/
def Obligations.StepsKeepClaimsLegal : Prop :=
  ∀ s t : State, ClaimsOk s → step s = .next t → ClaimsOk t

/-- Every step keeps the row table legal: sizes of contents, a SWAPPING row held by running channels that its held
version names, and the blank-pending mark only on a SWAPPING row without a holder (R2, R3, R16, R26). -/
def Obligations.StepsKeepRowsLegal : Prop :=
  ∀ s t : State, RowsOk s → step s = .next t → RowsOk t

/-- Every step keeps the glyph store legal: each cell's count is the number of positions of live and held versions that
resolve to it, states agree with the map, the uploads and the counts, the map is in its one form, and holders and
uploaders are ACTIVE sessions (R31, R33, R35, R36, R37, R40, R41). -/
def Obligations.StepsKeepTheStoreLegal : Prop :=
  ∀ s t : State, StoreOk s → HoldersOk s → step s = .next t → StoreOk t ∧ HoldersOk t
end

