-- ==== Sys2Proof/Laws/State.lean ====
section
/-! SUPPORT. What each single write leaves in each field of the state: the field it writes, and the others as they were. -/
namespace Sys2Proof.Machine

variable (s : State)

/-! ### modPort -/

@[simp] theorem State.modPort_crst (p : Port) (f : PortIf → PortIf) : (s.modPort p f).crst = s.crst := rfl
@[simp] theorem State.modPort_ports (p : Port) (f : PortIf → PortIf) :
    (s.modPort p f).ports = s.ports.modify p f := rfl
@[simp] theorem State.modPort_sessions (p : Port) (f : PortIf → PortIf) : (s.modPort p f).sessions = s.sessions := rfl
@[simp] theorem State.modPort_posted (p : Port) (f : PortIf → PortIf) : (s.modPort p f).posted = s.posted := rfl
@[simp] theorem State.modPort_claims (p : Port) (f : PortIf → PortIf) : (s.modPort p f).claims = s.claims := rfl
@[simp] theorem State.modPort_waits (p : Port) (f : PortIf → PortIf) : (s.modPort p f).waits = s.waits := rfl
@[simp] theorem State.modPort_rows (p : Port) (f : PortIf → PortIf) : (s.modPort p f).rows = s.rows := rfl
@[simp] theorem State.modPort_leased (p : Port) (f : PortIf → PortIf) : (s.modPort p f).leased = s.leased := rfl
@[simp] theorem State.modPort_cells (p : Port) (f : PortIf → PortIf) : (s.modPort p f).cells = s.cells := rfl
@[simp] theorem State.modPort_map (p : Port) (f : PortIf → PortIf) : (s.modPort p f).map = s.map := rfl
@[simp] theorem State.modPort_uploads (p : Port) (f : PortIf → PortIf) : (s.modPort p f).uploads = s.uploads := rfl
@[simp] theorem State.modPort_channels (p : Port) (f : PortIf → PortIf) : (s.modPort p f).channels = s.channels := rfl
@[simp] theorem State.modPort_compositors (p : Port) (f : PortIf → PortIf) :
    (s.modPort p f).compositors = s.compositors := rfl
@[simp] theorem State.modPort_pending (p : Port) (f : PortIf → PortIf) : (s.modPort p f).pending = s.pending := rfl
@[simp] theorem State.modPort_freeIndex (p : Port) (f : PortIf → PortIf) :
    (s.modPort p f).freeIndex = s.freeIndex := rfl

/-! ### modSession -/

@[simp] theorem State.modSession_crst (p : Port) (f : Session → Session) : (s.modSession p f).crst = s.crst := rfl
@[simp] theorem State.modSession_ports (p : Port) (f : Session → Session) : (s.modSession p f).ports = s.ports := rfl
@[simp] theorem State.modSession_sessions (p : Port) (f : Session → Session) :
    (s.modSession p f).sessions = s.sessions.modify p f := rfl
@[simp] theorem State.modSession_posted (p : Port) (f : Session → Session) :
    (s.modSession p f).posted = s.posted := rfl
@[simp] theorem State.modSession_claims (p : Port) (f : Session → Session) :
    (s.modSession p f).claims = s.claims := rfl
@[simp] theorem State.modSession_waits (p : Port) (f : Session → Session) : (s.modSession p f).waits = s.waits := rfl
@[simp] theorem State.modSession_rows (p : Port) (f : Session → Session) : (s.modSession p f).rows = s.rows := rfl
@[simp] theorem State.modSession_leased (p : Port) (f : Session → Session) :
    (s.modSession p f).leased = s.leased := rfl
@[simp] theorem State.modSession_cells (p : Port) (f : Session → Session) : (s.modSession p f).cells = s.cells := rfl
@[simp] theorem State.modSession_map (p : Port) (f : Session → Session) : (s.modSession p f).map = s.map := rfl
@[simp] theorem State.modSession_uploads (p : Port) (f : Session → Session) :
    (s.modSession p f).uploads = s.uploads := rfl
@[simp] theorem State.modSession_channels (p : Port) (f : Session → Session) :
    (s.modSession p f).channels = s.channels := rfl
@[simp] theorem State.modSession_compositors (p : Port) (f : Session → Session) :
    (s.modSession p f).compositors = s.compositors := rfl
@[simp] theorem State.modSession_pending (p : Port) (f : Session → Session) :
    (s.modSession p f).pending = s.pending := rfl
@[simp] theorem State.modSession_freeIndex (p : Port) (f : Session → Session) :
    (s.modSession p f).freeIndex = s.freeIndex := rfl

/-! ### modClaim -/

@[simp] theorem State.modClaim_crst (r : Resource) (f : Claim → Claim) : (s.modClaim r f).crst = s.crst := rfl
@[simp] theorem State.modClaim_ports (r : Resource) (f : Claim → Claim) : (s.modClaim r f).ports = s.ports := rfl
@[simp] theorem State.modClaim_sessions (r : Resource) (f : Claim → Claim) :
    (s.modClaim r f).sessions = s.sessions := rfl
@[simp] theorem State.modClaim_posted (r : Resource) (f : Claim → Claim) : (s.modClaim r f).posted = s.posted := rfl
@[simp] theorem State.modClaim_claims (r : Resource) (f : Claim → Claim) :
    (s.modClaim r f).claims = s.claims.modify r f := rfl
@[simp] theorem State.modClaim_waits (r : Resource) (f : Claim → Claim) : (s.modClaim r f).waits = s.waits := rfl
@[simp] theorem State.modClaim_rows (r : Resource) (f : Claim → Claim) : (s.modClaim r f).rows = s.rows := rfl
@[simp] theorem State.modClaim_leased (r : Resource) (f : Claim → Claim) : (s.modClaim r f).leased = s.leased := rfl
@[simp] theorem State.modClaim_cells (r : Resource) (f : Claim → Claim) : (s.modClaim r f).cells = s.cells := rfl
@[simp] theorem State.modClaim_map (r : Resource) (f : Claim → Claim) : (s.modClaim r f).map = s.map := rfl
@[simp] theorem State.modClaim_uploads (r : Resource) (f : Claim → Claim) :
    (s.modClaim r f).uploads = s.uploads := rfl
@[simp] theorem State.modClaim_channels (r : Resource) (f : Claim → Claim) :
    (s.modClaim r f).channels = s.channels := rfl
@[simp] theorem State.modClaim_compositors (r : Resource) (f : Claim → Claim) :
    (s.modClaim r f).compositors = s.compositors := rfl
@[simp] theorem State.modClaim_pending (r : Resource) (f : Claim → Claim) :
    (s.modClaim r f).pending = s.pending := rfl
@[simp] theorem State.modClaim_freeIndex (r : Resource) (f : Claim → Claim) :
    (s.modClaim r f).freeIndex = s.freeIndex := rfl

/-! ### modWait -/

@[simp] theorem State.modWait_crst (p : Port) (f : Nat → Nat) : (s.modWait p f).crst = s.crst := rfl
@[simp] theorem State.modWait_ports (p : Port) (f : Nat → Nat) : (s.modWait p f).ports = s.ports := rfl
@[simp] theorem State.modWait_sessions (p : Port) (f : Nat → Nat) : (s.modWait p f).sessions = s.sessions := rfl
@[simp] theorem State.modWait_posted (p : Port) (f : Nat → Nat) : (s.modWait p f).posted = s.posted := rfl
@[simp] theorem State.modWait_claims (p : Port) (f : Nat → Nat) : (s.modWait p f).claims = s.claims := rfl
@[simp] theorem State.modWait_waits (p : Port) (f : Nat → Nat) : (s.modWait p f).waits = s.waits.modify p f := rfl
@[simp] theorem State.modWait_rows (p : Port) (f : Nat → Nat) : (s.modWait p f).rows = s.rows := rfl
@[simp] theorem State.modWait_leased (p : Port) (f : Nat → Nat) : (s.modWait p f).leased = s.leased := rfl
@[simp] theorem State.modWait_cells (p : Port) (f : Nat → Nat) : (s.modWait p f).cells = s.cells := rfl
@[simp] theorem State.modWait_map (p : Port) (f : Nat → Nat) : (s.modWait p f).map = s.map := rfl
@[simp] theorem State.modWait_uploads (p : Port) (f : Nat → Nat) : (s.modWait p f).uploads = s.uploads := rfl
@[simp] theorem State.modWait_channels (p : Port) (f : Nat → Nat) : (s.modWait p f).channels = s.channels := rfl
@[simp] theorem State.modWait_compositors (p : Port) (f : Nat → Nat) :
    (s.modWait p f).compositors = s.compositors := rfl
@[simp] theorem State.modWait_pending (p : Port) (f : Nat → Nat) : (s.modWait p f).pending = s.pending := rfl
@[simp] theorem State.modWait_freeIndex (p : Port) (f : Nat → Nat) : (s.modWait p f).freeIndex = s.freeIndex := rfl

/-! ### modRow -/

@[simp] theorem State.modRow_crst (r : RowNo) (f : Row → Row) : (s.modRow r f).crst = s.crst := rfl
@[simp] theorem State.modRow_ports (r : RowNo) (f : Row → Row) : (s.modRow r f).ports = s.ports := rfl
@[simp] theorem State.modRow_sessions (r : RowNo) (f : Row → Row) : (s.modRow r f).sessions = s.sessions := rfl
@[simp] theorem State.modRow_posted (r : RowNo) (f : Row → Row) : (s.modRow r f).posted = s.posted := rfl
@[simp] theorem State.modRow_claims (r : RowNo) (f : Row → Row) : (s.modRow r f).claims = s.claims := rfl
@[simp] theorem State.modRow_waits (r : RowNo) (f : Row → Row) : (s.modRow r f).waits = s.waits := rfl
@[simp] theorem State.modRow_rows (r : RowNo) (f : Row → Row) : (s.modRow r f).rows = s.rows.modify r f := rfl
@[simp] theorem State.modRow_leased (r : RowNo) (f : Row → Row) : (s.modRow r f).leased = s.leased := rfl
@[simp] theorem State.modRow_cells (r : RowNo) (f : Row → Row) : (s.modRow r f).cells = s.cells := rfl
@[simp] theorem State.modRow_map (r : RowNo) (f : Row → Row) : (s.modRow r f).map = s.map := rfl
@[simp] theorem State.modRow_uploads (r : RowNo) (f : Row → Row) : (s.modRow r f).uploads = s.uploads := rfl
@[simp] theorem State.modRow_channels (r : RowNo) (f : Row → Row) : (s.modRow r f).channels = s.channels := rfl
@[simp] theorem State.modRow_compositors (r : RowNo) (f : Row → Row) :
    (s.modRow r f).compositors = s.compositors := rfl
@[simp] theorem State.modRow_pending (r : RowNo) (f : Row → Row) : (s.modRow r f).pending = s.pending := rfl
@[simp] theorem State.modRow_freeIndex (r : RowNo) (f : Row → Row) : (s.modRow r f).freeIndex = s.freeIndex := rfl

/-! ### modLeased -/

@[simp] theorem State.modLeased_crst (l : LeasedNo) (f : Leased → Leased) : (s.modLeased l f).crst = s.crst := rfl
@[simp] theorem State.modLeased_ports (l : LeasedNo) (f : Leased → Leased) : (s.modLeased l f).ports = s.ports := rfl
@[simp] theorem State.modLeased_sessions (l : LeasedNo) (f : Leased → Leased) :
    (s.modLeased l f).sessions = s.sessions := rfl
@[simp] theorem State.modLeased_posted (l : LeasedNo) (f : Leased → Leased) :
    (s.modLeased l f).posted = s.posted := rfl
@[simp] theorem State.modLeased_claims (l : LeasedNo) (f : Leased → Leased) :
    (s.modLeased l f).claims = s.claims := rfl
@[simp] theorem State.modLeased_waits (l : LeasedNo) (f : Leased → Leased) : (s.modLeased l f).waits = s.waits := rfl
@[simp] theorem State.modLeased_rows (l : LeasedNo) (f : Leased → Leased) : (s.modLeased l f).rows = s.rows := rfl
@[simp] theorem State.modLeased_leased (l : LeasedNo) (f : Leased → Leased) :
    (s.modLeased l f).leased = s.leased.modify l f := rfl
@[simp] theorem State.modLeased_cells (l : LeasedNo) (f : Leased → Leased) : (s.modLeased l f).cells = s.cells := rfl
@[simp] theorem State.modLeased_map (l : LeasedNo) (f : Leased → Leased) : (s.modLeased l f).map = s.map := rfl
@[simp] theorem State.modLeased_uploads (l : LeasedNo) (f : Leased → Leased) :
    (s.modLeased l f).uploads = s.uploads := rfl
@[simp] theorem State.modLeased_channels (l : LeasedNo) (f : Leased → Leased) :
    (s.modLeased l f).channels = s.channels := rfl
@[simp] theorem State.modLeased_compositors (l : LeasedNo) (f : Leased → Leased) :
    (s.modLeased l f).compositors = s.compositors := rfl
@[simp] theorem State.modLeased_pending (l : LeasedNo) (f : Leased → Leased) :
    (s.modLeased l f).pending = s.pending := rfl
@[simp] theorem State.modLeased_freeIndex (l : LeasedNo) (f : Leased → Leased) :
    (s.modLeased l f).freeIndex = s.freeIndex := rfl

/-! ### modCell -/

@[simp] theorem State.modCell_crst (n : CellNo) (f : Cell → Cell) : (s.modCell n f).crst = s.crst := rfl
@[simp] theorem State.modCell_ports (n : CellNo) (f : Cell → Cell) : (s.modCell n f).ports = s.ports := rfl
@[simp] theorem State.modCell_sessions (n : CellNo) (f : Cell → Cell) : (s.modCell n f).sessions = s.sessions := rfl
@[simp] theorem State.modCell_posted (n : CellNo) (f : Cell → Cell) : (s.modCell n f).posted = s.posted := rfl
@[simp] theorem State.modCell_claims (n : CellNo) (f : Cell → Cell) : (s.modCell n f).claims = s.claims := rfl
@[simp] theorem State.modCell_waits (n : CellNo) (f : Cell → Cell) : (s.modCell n f).waits = s.waits := rfl
@[simp] theorem State.modCell_rows (n : CellNo) (f : Cell → Cell) : (s.modCell n f).rows = s.rows := rfl
@[simp] theorem State.modCell_leased (n : CellNo) (f : Cell → Cell) : (s.modCell n f).leased = s.leased := rfl
@[simp] theorem State.modCell_cells (n : CellNo) (f : Cell → Cell) : (s.modCell n f).cells = s.cells.modify n f := rfl
@[simp] theorem State.modCell_map (n : CellNo) (f : Cell → Cell) : (s.modCell n f).map = s.map := rfl
@[simp] theorem State.modCell_uploads (n : CellNo) (f : Cell → Cell) : (s.modCell n f).uploads = s.uploads := rfl
@[simp] theorem State.modCell_channels (n : CellNo) (f : Cell → Cell) : (s.modCell n f).channels = s.channels := rfl
@[simp] theorem State.modCell_compositors (n : CellNo) (f : Cell → Cell) :
    (s.modCell n f).compositors = s.compositors := rfl
@[simp] theorem State.modCell_pending (n : CellNo) (f : Cell → Cell) : (s.modCell n f).pending = s.pending := rfl
@[simp] theorem State.modCell_freeIndex (n : CellNo) (f : Cell → Cell) :
    (s.modCell n f).freeIndex = s.freeIndex := rfl

/-! ### setUpload -/

@[simp] theorem State.setUpload_crst (p : Port) (u : Option Upload) : (s.setUpload p u).crst = s.crst := rfl
@[simp] theorem State.setUpload_ports (p : Port) (u : Option Upload) : (s.setUpload p u).ports = s.ports := rfl
@[simp] theorem State.setUpload_sessions (p : Port) (u : Option Upload) :
    (s.setUpload p u).sessions = s.sessions := rfl
@[simp] theorem State.setUpload_posted (p : Port) (u : Option Upload) : (s.setUpload p u).posted = s.posted := rfl
@[simp] theorem State.setUpload_claims (p : Port) (u : Option Upload) : (s.setUpload p u).claims = s.claims := rfl
@[simp] theorem State.setUpload_waits (p : Port) (u : Option Upload) : (s.setUpload p u).waits = s.waits := rfl
@[simp] theorem State.setUpload_rows (p : Port) (u : Option Upload) : (s.setUpload p u).rows = s.rows := rfl
@[simp] theorem State.setUpload_leased (p : Port) (u : Option Upload) : (s.setUpload p u).leased = s.leased := rfl
@[simp] theorem State.setUpload_cells (p : Port) (u : Option Upload) : (s.setUpload p u).cells = s.cells := rfl
@[simp] theorem State.setUpload_map (p : Port) (u : Option Upload) : (s.setUpload p u).map = s.map := rfl
@[simp] theorem State.setUpload_uploads (p : Port) (u : Option Upload) :
    (s.setUpload p u).uploads = s.uploads.set p u := rfl
@[simp] theorem State.setUpload_channels (p : Port) (u : Option Upload) :
    (s.setUpload p u).channels = s.channels := rfl
@[simp] theorem State.setUpload_compositors (p : Port) (u : Option Upload) :
    (s.setUpload p u).compositors = s.compositors := rfl
@[simp] theorem State.setUpload_pending (p : Port) (u : Option Upload) : (s.setUpload p u).pending = s.pending := rfl
@[simp] theorem State.setUpload_freeIndex (p : Port) (u : Option Upload) :
    (s.setUpload p u).freeIndex = s.freeIndex := rfl

/-! ### setMap -/

@[simp] theorem State.setMap_crst (m : List MapEntry) : (s.setMap m).crst = s.crst := rfl
@[simp] theorem State.setMap_ports (m : List MapEntry) : (s.setMap m).ports = s.ports := rfl
@[simp] theorem State.setMap_sessions (m : List MapEntry) : (s.setMap m).sessions = s.sessions := rfl
@[simp] theorem State.setMap_posted (m : List MapEntry) : (s.setMap m).posted = s.posted := rfl
@[simp] theorem State.setMap_claims (m : List MapEntry) : (s.setMap m).claims = s.claims := rfl
@[simp] theorem State.setMap_waits (m : List MapEntry) : (s.setMap m).waits = s.waits := rfl
@[simp] theorem State.setMap_rows (m : List MapEntry) : (s.setMap m).rows = s.rows := rfl
@[simp] theorem State.setMap_leased (m : List MapEntry) : (s.setMap m).leased = s.leased := rfl
@[simp] theorem State.setMap_cells (m : List MapEntry) : (s.setMap m).cells = s.cells := rfl
@[simp] theorem State.setMap_map (m : List MapEntry) : (s.setMap m).map = m := rfl
@[simp] theorem State.setMap_uploads (m : List MapEntry) : (s.setMap m).uploads = s.uploads := rfl
@[simp] theorem State.setMap_channels (m : List MapEntry) : (s.setMap m).channels = s.channels := rfl
@[simp] theorem State.setMap_compositors (m : List MapEntry) : (s.setMap m).compositors = s.compositors := rfl
@[simp] theorem State.setMap_pending (m : List MapEntry) : (s.setMap m).pending = s.pending := rfl
@[simp] theorem State.setMap_freeIndex (m : List MapEntry) : (s.setMap m).freeIndex = s.freeIndex := rfl

/-! ### modChannel -/

@[simp] theorem State.modChannel_crst (c : Chan) (f : Channel → Channel) : (s.modChannel c f).crst = s.crst := rfl
@[simp] theorem State.modChannel_ports (c : Chan) (f : Channel → Channel) : (s.modChannel c f).ports = s.ports := rfl
@[simp] theorem State.modChannel_sessions (c : Chan) (f : Channel → Channel) :
    (s.modChannel c f).sessions = s.sessions := rfl
@[simp] theorem State.modChannel_posted (c : Chan) (f : Channel → Channel) :
    (s.modChannel c f).posted = s.posted := rfl
@[simp] theorem State.modChannel_claims (c : Chan) (f : Channel → Channel) :
    (s.modChannel c f).claims = s.claims := rfl
@[simp] theorem State.modChannel_waits (c : Chan) (f : Channel → Channel) : (s.modChannel c f).waits = s.waits := rfl
@[simp] theorem State.modChannel_rows (c : Chan) (f : Channel → Channel) : (s.modChannel c f).rows = s.rows := rfl
@[simp] theorem State.modChannel_leased (c : Chan) (f : Channel → Channel) :
    (s.modChannel c f).leased = s.leased := rfl
@[simp] theorem State.modChannel_cells (c : Chan) (f : Channel → Channel) : (s.modChannel c f).cells = s.cells := rfl
@[simp] theorem State.modChannel_map (c : Chan) (f : Channel → Channel) : (s.modChannel c f).map = s.map := rfl
@[simp] theorem State.modChannel_uploads (c : Chan) (f : Channel → Channel) :
    (s.modChannel c f).uploads = s.uploads := rfl
@[simp] theorem State.modChannel_channels (c : Chan) (f : Channel → Channel) :
    (s.modChannel c f).channels = s.channels.modify c f := rfl
@[simp] theorem State.modChannel_compositors (c : Chan) (f : Channel → Channel) :
    (s.modChannel c f).compositors = s.compositors := rfl
@[simp] theorem State.modChannel_pending (c : Chan) (f : Channel → Channel) :
    (s.modChannel c f).pending = s.pending := rfl
@[simp] theorem State.modChannel_freeIndex (c : Chan) (f : Channel → Channel) :
    (s.modChannel c f).freeIndex = s.freeIndex := rfl

/-! ### setCompositor -/

@[simp] theorem State.setCompositor_crst (c : Chan) (f : Option FrameLatch) :
    (s.setCompositor c f).crst = s.crst := rfl
@[simp] theorem State.setCompositor_ports (c : Chan) (f : Option FrameLatch) :
    (s.setCompositor c f).ports = s.ports := rfl
@[simp] theorem State.setCompositor_sessions (c : Chan) (f : Option FrameLatch) :
    (s.setCompositor c f).sessions = s.sessions := rfl
@[simp] theorem State.setCompositor_posted (c : Chan) (f : Option FrameLatch) :
    (s.setCompositor c f).posted = s.posted := rfl
@[simp] theorem State.setCompositor_claims (c : Chan) (f : Option FrameLatch) :
    (s.setCompositor c f).claims = s.claims := rfl
@[simp] theorem State.setCompositor_waits (c : Chan) (f : Option FrameLatch) :
    (s.setCompositor c f).waits = s.waits := rfl
@[simp] theorem State.setCompositor_rows (c : Chan) (f : Option FrameLatch) :
    (s.setCompositor c f).rows = s.rows := rfl
@[simp] theorem State.setCompositor_leased (c : Chan) (f : Option FrameLatch) :
    (s.setCompositor c f).leased = s.leased := rfl
@[simp] theorem State.setCompositor_cells (c : Chan) (f : Option FrameLatch) :
    (s.setCompositor c f).cells = s.cells := rfl
@[simp] theorem State.setCompositor_map (c : Chan) (f : Option FrameLatch) : (s.setCompositor c f).map = s.map := rfl
@[simp] theorem State.setCompositor_uploads (c : Chan) (f : Option FrameLatch) :
    (s.setCompositor c f).uploads = s.uploads := rfl
@[simp] theorem State.setCompositor_channels (c : Chan) (f : Option FrameLatch) :
    (s.setCompositor c f).channels = s.channels := rfl
@[simp] theorem State.setCompositor_compositors (c : Chan) (f : Option FrameLatch) :
    (s.setCompositor c f).compositors = s.compositors.set c f := rfl
@[simp] theorem State.setCompositor_pending (c : Chan) (f : Option FrameLatch) :
    (s.setCompositor c f).pending = s.pending := rfl
@[simp] theorem State.setCompositor_freeIndex (c : Chan) (f : Option FrameLatch) :
    (s.setCompositor c f).freeIndex = s.freeIndex := rfl

/-! ### post -/

@[simp] theorem State.post_crst (x : Source) (i : Sid) (e : Event) : (s.post x i e).crst = s.crst := rfl
@[simp] theorem State.post_ports (x : Source) (i : Sid) (e : Event) : (s.post x i e).ports = s.ports := rfl
@[simp] theorem State.post_sessions (x : Source) (i : Sid) (e : Event) : (s.post x i e).sessions = s.sessions := rfl
@[simp] theorem State.post_posted (x : Source) (i : Sid) (e : Event) :
    (s.post x i e).posted = s.posted ++ [{ source := x, addressee := .session i, event := e }] := rfl
@[simp] theorem State.post_claims (x : Source) (i : Sid) (e : Event) : (s.post x i e).claims = s.claims := rfl
@[simp] theorem State.post_waits (x : Source) (i : Sid) (e : Event) : (s.post x i e).waits = s.waits := rfl
@[simp] theorem State.post_rows (x : Source) (i : Sid) (e : Event) : (s.post x i e).rows = s.rows := rfl
@[simp] theorem State.post_leased (x : Source) (i : Sid) (e : Event) : (s.post x i e).leased = s.leased := rfl
@[simp] theorem State.post_cells (x : Source) (i : Sid) (e : Event) : (s.post x i e).cells = s.cells := rfl
@[simp] theorem State.post_map (x : Source) (i : Sid) (e : Event) : (s.post x i e).map = s.map := rfl
@[simp] theorem State.post_uploads (x : Source) (i : Sid) (e : Event) : (s.post x i e).uploads = s.uploads := rfl
@[simp] theorem State.post_channels (x : Source) (i : Sid) (e : Event) : (s.post x i e).channels = s.channels := rfl
@[simp] theorem State.post_compositors (x : Source) (i : Sid) (e : Event) :
    (s.post x i e).compositors = s.compositors := rfl
@[simp] theorem State.post_pending (x : Source) (i : Sid) (e : Event) : (s.post x i e).pending = s.pending := rfl
@[simp] theorem State.post_freeIndex (x : Source) (i : Sid) (e : Event) :
    (s.post x i e).freeIndex = s.freeIndex := rfl

/-! ### Reset and activity, which only the ports and the sessions decide -/

@[simp] theorem State.isActive_modPort (p : Port) (f : PortIf → PortIf) (j : Sid) :
    (s.modPort p f).isActive j = s.isActive j := rfl
@[simp] theorem State.sidOf_modPort (p : Port) (f : PortIf → PortIf) (q : Port) :
    (s.modPort p f).sidOf q = s.sidOf q := rfl
@[simp] theorem State.inReset_modSession (p : Port) (f : Session → Session) (q : Port) :
    (s.modSession p f).inReset q = s.inReset q := rfl
@[simp] theorem State.inReset_modClaim (r : Resource) (f : Claim → Claim) (q : Port) :
    (s.modClaim r f).inReset q = s.inReset q := rfl
@[simp] theorem State.isActive_modClaim (r : Resource) (f : Claim → Claim) (j : Sid) :
    (s.modClaim r f).isActive j = s.isActive j := rfl
@[simp] theorem State.sidOf_modClaim (r : Resource) (f : Claim → Claim) (q : Port) :
    (s.modClaim r f).sidOf q = s.sidOf q := rfl
@[simp] theorem State.inReset_modWait (p : Port) (f : Nat → Nat) (q : Port) :
    (s.modWait p f).inReset q = s.inReset q := rfl
@[simp] theorem State.isActive_modWait (p : Port) (f : Nat → Nat) (j : Sid) :
    (s.modWait p f).isActive j = s.isActive j := rfl
@[simp] theorem State.sidOf_modWait (p : Port) (f : Nat → Nat) (q : Port) : (s.modWait p f).sidOf q = s.sidOf q := rfl
@[simp] theorem State.inReset_modRow (r : RowNo) (f : Row → Row) (q : Port) :
    (s.modRow r f).inReset q = s.inReset q := rfl
@[simp] theorem State.isActive_modRow (r : RowNo) (f : Row → Row) (j : Sid) :
    (s.modRow r f).isActive j = s.isActive j := rfl
@[simp] theorem State.sidOf_modRow (r : RowNo) (f : Row → Row) (q : Port) : (s.modRow r f).sidOf q = s.sidOf q := rfl
@[simp] theorem State.inReset_modLeased (l : LeasedNo) (f : Leased → Leased) (q : Port) :
    (s.modLeased l f).inReset q = s.inReset q := rfl
@[simp] theorem State.isActive_modLeased (l : LeasedNo) (f : Leased → Leased) (j : Sid) :
    (s.modLeased l f).isActive j = s.isActive j := rfl
@[simp] theorem State.sidOf_modLeased (l : LeasedNo) (f : Leased → Leased) (q : Port) :
    (s.modLeased l f).sidOf q = s.sidOf q := rfl
@[simp] theorem State.inReset_modCell (n : CellNo) (f : Cell → Cell) (q : Port) :
    (s.modCell n f).inReset q = s.inReset q := rfl
@[simp] theorem State.isActive_modCell (n : CellNo) (f : Cell → Cell) (j : Sid) :
    (s.modCell n f).isActive j = s.isActive j := rfl
@[simp] theorem State.sidOf_modCell (n : CellNo) (f : Cell → Cell) (q : Port) :
    (s.modCell n f).sidOf q = s.sidOf q := rfl
@[simp] theorem State.inReset_setUpload (p : Port) (u : Option Upload) (q : Port) :
    (s.setUpload p u).inReset q = s.inReset q := rfl
@[simp] theorem State.isActive_setUpload (p : Port) (u : Option Upload) (j : Sid) :
    (s.setUpload p u).isActive j = s.isActive j := rfl
@[simp] theorem State.sidOf_setUpload (p : Port) (u : Option Upload) (q : Port) :
    (s.setUpload p u).sidOf q = s.sidOf q := rfl
@[simp] theorem State.inReset_setMap (m : List MapEntry) (q : Port) : (s.setMap m).inReset q = s.inReset q := rfl
@[simp] theorem State.isActive_setMap (m : List MapEntry) (j : Sid) : (s.setMap m).isActive j = s.isActive j := rfl
@[simp] theorem State.sidOf_setMap (m : List MapEntry) (q : Port) : (s.setMap m).sidOf q = s.sidOf q := rfl
@[simp] theorem State.inReset_modChannel (c : Chan) (f : Channel → Channel) (q : Port) :
    (s.modChannel c f).inReset q = s.inReset q := rfl
@[simp] theorem State.isActive_modChannel (c : Chan) (f : Channel → Channel) (j : Sid) :
    (s.modChannel c f).isActive j = s.isActive j := rfl
@[simp] theorem State.sidOf_modChannel (c : Chan) (f : Channel → Channel) (q : Port) :
    (s.modChannel c f).sidOf q = s.sidOf q := rfl
@[simp] theorem State.inReset_setCompositor (c : Chan) (f : Option FrameLatch) (q : Port) :
    (s.setCompositor c f).inReset q = s.inReset q := rfl
@[simp] theorem State.isActive_setCompositor (c : Chan) (f : Option FrameLatch) (j : Sid) :
    (s.setCompositor c f).isActive j = s.isActive j := rfl
@[simp] theorem State.sidOf_setCompositor (c : Chan) (f : Option FrameLatch) (q : Port) :
    (s.setCompositor c f).sidOf q = s.sidOf q := rfl
@[simp] theorem State.inReset_post (x : Source) (i : Sid) (e : Event) (q : Port) :
    (s.post x i e).inReset q = s.inReset q := rfl
@[simp] theorem State.isActive_post (x : Source) (i : Sid) (e : Event) (j : Sid) :
    (s.post x i e).isActive j = s.isActive j := rfl
@[simp] theorem State.sidOf_post (x : Source) (i : Sid) (e : Event) (q : Port) :
    (s.post x i e).sidOf q = s.sidOf q := rfl

/-- States with equal fields are equal. -/
theorem State.eq_of_fields {s t : State} (h0 : s.crst = t.crst) (h1 : s.ports = t.ports)
    (h2 : s.sessions = t.sessions) (h3 : s.posted = t.posted) (h4 : s.claims = t.claims) (h5 : s.waits = t.waits)
    (h6 : s.rows = t.rows) (h7 : s.leased = t.leased) (h8 : s.cells = t.cells) (h9 : s.map = t.map)
    (h10 : s.uploads = t.uploads) (h11 : s.channels = t.channels) (h12 : s.compositors = t.compositors)
    (h13 : s.pending = t.pending) (h14 : s.freeIndex = t.freeIndex) : s = t := by
  cases s; cases t; simp_all

end Sys2Proof.Machine
end

