-- ==== Sys2Proof/Laws/Keeps.lean ====
section
/-! SUPPORT. What each shared operation leaves as it was: one lemma per field that it does not write. -/
namespace Sys2Proof.Machine

variable (s : State)

/-- What every step of a fold keeps, the fold keeps. -/
theorem foldl_keeps {α β : Type} {g : State → β} {f : State → α → State} (h : ∀ s x, g (f s x) = g s) (l : List α)
    (s : State) : g (l.foldl f s) = g s := by
  induction l generalizing s with
  | nil => rfl
  | cons x rest ih => rw [List.foldl_cons, ih, h]

/-! ### addRefs -/

@[simp] theorem State.addRefs_crst (x : List Position) :
    (s.addRefs x).crst = s.crst := foldl_keeps (g := State.crst) (fun _ _ => by simp) _ _
@[simp] theorem State.addRefs_ports (x : List Position) :
    (s.addRefs x).ports = s.ports := foldl_keeps (g := State.ports) (fun _ _ => by simp) _ _
@[simp] theorem State.addRefs_sessions (x : List Position) :
    (s.addRefs x).sessions = s.sessions := foldl_keeps (g := State.sessions) (fun _ _ => by simp) _ _
@[simp] theorem State.addRefs_posted (x : List Position) :
    (s.addRefs x).posted = s.posted := foldl_keeps (g := State.posted) (fun _ _ => by simp) _ _
@[simp] theorem State.addRefs_claims (x : List Position) :
    (s.addRefs x).claims = s.claims := foldl_keeps (g := State.claims) (fun _ _ => by simp) _ _
@[simp] theorem State.addRefs_waits (x : List Position) :
    (s.addRefs x).waits = s.waits := foldl_keeps (g := State.waits) (fun _ _ => by simp) _ _
@[simp] theorem State.addRefs_rows (x : List Position) :
    (s.addRefs x).rows = s.rows := foldl_keeps (g := State.rows) (fun _ _ => by simp) _ _
@[simp] theorem State.addRefs_leased (x : List Position) :
    (s.addRefs x).leased = s.leased := foldl_keeps (g := State.leased) (fun _ _ => by simp) _ _
@[simp] theorem State.addRefs_map (x : List Position) :
    (s.addRefs x).map = s.map := foldl_keeps (g := State.map) (fun _ _ => by simp) _ _
@[simp] theorem State.addRefs_uploads (x : List Position) :
    (s.addRefs x).uploads = s.uploads := foldl_keeps (g := State.uploads) (fun _ _ => by simp) _ _
@[simp] theorem State.addRefs_channels (x : List Position) :
    (s.addRefs x).channels = s.channels := foldl_keeps (g := State.channels) (fun _ _ => by simp) _ _
@[simp] theorem State.addRefs_compositors (x : List Position) :
    (s.addRefs x).compositors = s.compositors := foldl_keeps (g := State.compositors) (fun _ _ => by simp) _ _
@[simp] theorem State.addRefs_pending (x : List Position) :
    (s.addRefs x).pending = s.pending := foldl_keeps (g := State.pending) (fun _ _ => by simp) _ _
@[simp] theorem State.addRefs_freeIndex (x : List Position) :
    (s.addRefs x).freeIndex = s.freeIndex := foldl_keeps (g := State.freeIndex) (fun _ _ => by simp) _ _
@[simp] theorem State.isActive_addRefs (x : List Position) (j : Sid) :
    (s.addRefs x).isActive j = s.isActive j := by simp [State.isActive]
@[simp] theorem State.sidOf_addRefs (x : List Position) (q : Port) :
    (s.addRefs x).sidOf q = s.sidOf q := by simp [State.sidOf]

/-! ### discardText -/

@[simp] theorem State.discardText_crst (x : List Position) :
    (s.discardText x).crst = s.crst := foldl_keeps (g := State.crst) (fun _ _ => by simp) _ _
@[simp] theorem State.discardText_ports (x : List Position) :
    (s.discardText x).ports = s.ports := foldl_keeps (g := State.ports) (fun _ _ => by simp) _ _
@[simp] theorem State.discardText_sessions (x : List Position) :
    (s.discardText x).sessions = s.sessions := foldl_keeps (g := State.sessions) (fun _ _ => by simp) _ _
@[simp] theorem State.discardText_posted (x : List Position) :
    (s.discardText x).posted = s.posted := foldl_keeps (g := State.posted) (fun _ _ => by simp) _ _
@[simp] theorem State.discardText_claims (x : List Position) :
    (s.discardText x).claims = s.claims := foldl_keeps (g := State.claims) (fun _ _ => by simp) _ _
@[simp] theorem State.discardText_waits (x : List Position) :
    (s.discardText x).waits = s.waits := foldl_keeps (g := State.waits) (fun _ _ => by simp) _ _
@[simp] theorem State.discardText_rows (x : List Position) :
    (s.discardText x).rows = s.rows := foldl_keeps (g := State.rows) (fun _ _ => by simp) _ _
@[simp] theorem State.discardText_leased (x : List Position) :
    (s.discardText x).leased = s.leased := foldl_keeps (g := State.leased) (fun _ _ => by simp) _ _
@[simp] theorem State.discardText_map (x : List Position) :
    (s.discardText x).map = s.map := foldl_keeps (g := State.map) (fun _ _ => by simp) _ _
@[simp] theorem State.discardText_uploads (x : List Position) :
    (s.discardText x).uploads = s.uploads := foldl_keeps (g := State.uploads) (fun _ _ => by simp) _ _
@[simp] theorem State.discardText_channels (x : List Position) :
    (s.discardText x).channels = s.channels := foldl_keeps (g := State.channels) (fun _ _ => by simp) _ _
@[simp] theorem State.discardText_compositors (x : List Position) :
    (s.discardText x).compositors = s.compositors := foldl_keeps (g := State.compositors) (fun _ _ => by simp) _ _
@[simp] theorem State.discardText_pending (x : List Position) :
    (s.discardText x).pending = s.pending := foldl_keeps (g := State.pending) (fun _ _ => by simp) _ _
@[simp] theorem State.discardText_freeIndex (x : List Position) :
    (s.discardText x).freeIndex = s.freeIndex := foldl_keeps (g := State.freeIndex) (fun _ _ => by simp) _ _
@[simp] theorem State.isActive_discardText (x : List Position) (j : Sid) :
    (s.discardText x).isActive j = s.isActive j := by simp [State.isActive]
@[simp] theorem State.sidOf_discardText (x : List Position) (q : Port) :
    (s.discardText x).sidOf q = s.sidOf q := by simp [State.sidOf]

/-! ### broadcast -/

@[simp] theorem State.broadcast_crst (x : Source) (e : Option Port) (v : Event) :
    (s.broadcast x e v).crst = s.crst := foldl_keeps (g := State.crst) (fun _ _ => by split <;> simp) _ _
@[simp] theorem State.broadcast_ports (x : Source) (e : Option Port) (v : Event) :
    (s.broadcast x e v).ports = s.ports := foldl_keeps (g := State.ports) (fun _ _ => by split <;> simp) _ _
@[simp] theorem State.broadcast_sessions (x : Source) (e : Option Port) (v : Event) :
    (s.broadcast x e v).sessions = s.sessions := foldl_keeps (g := State.sessions) (fun _ _ => by split <;> simp) _ _
@[simp] theorem State.broadcast_claims (x : Source) (e : Option Port) (v : Event) :
    (s.broadcast x e v).claims = s.claims := foldl_keeps (g := State.claims) (fun _ _ => by split <;> simp) _ _
@[simp] theorem State.broadcast_waits (x : Source) (e : Option Port) (v : Event) :
    (s.broadcast x e v).waits = s.waits := foldl_keeps (g := State.waits) (fun _ _ => by split <;> simp) _ _
@[simp] theorem State.broadcast_rows (x : Source) (e : Option Port) (v : Event) :
    (s.broadcast x e v).rows = s.rows := foldl_keeps (g := State.rows) (fun _ _ => by split <;> simp) _ _
@[simp] theorem State.broadcast_leased (x : Source) (e : Option Port) (v : Event) :
    (s.broadcast x e v).leased = s.leased := foldl_keeps (g := State.leased) (fun _ _ => by split <;> simp) _ _
@[simp] theorem State.broadcast_cells (x : Source) (e : Option Port) (v : Event) :
    (s.broadcast x e v).cells = s.cells := foldl_keeps (g := State.cells) (fun _ _ => by split <;> simp) _ _
@[simp] theorem State.broadcast_map (x : Source) (e : Option Port) (v : Event) :
    (s.broadcast x e v).map = s.map := foldl_keeps (g := State.map) (fun _ _ => by split <;> simp) _ _
@[simp] theorem State.broadcast_uploads (x : Source) (e : Option Port) (v : Event) :
    (s.broadcast x e v).uploads = s.uploads := foldl_keeps (g := State.uploads) (fun _ _ => by split <;> simp) _ _
@[simp] theorem State.broadcast_channels (x : Source) (e : Option Port) (v : Event) :
    (s.broadcast x e v).channels = s.channels := foldl_keeps (g := State.channels) (fun _ _ => by split <;> simp) _ _
@[simp] theorem State.broadcast_compositors (x : Source) (e : Option Port) (v : Event) :
    (s.broadcast x e v).compositors = s.compositors :=
  foldl_keeps (g := State.compositors) (fun _ _ => by split <;> simp) _ _
@[simp] theorem State.broadcast_pending (x : Source) (e : Option Port) (v : Event) :
    (s.broadcast x e v).pending = s.pending := foldl_keeps (g := State.pending) (fun _ _ => by split <;> simp) _ _
@[simp] theorem State.broadcast_freeIndex (x : Source) (e : Option Port) (v : Event) :
    (s.broadcast x e v).freeIndex = s.freeIndex :=
  foldl_keeps (g := State.freeIndex) (fun _ _ => by split <;> simp) _ _
@[simp] theorem State.isActive_broadcast (x : Source) (e : Option Port) (v : Event) (j : Sid) :
    (s.broadcast x e v).isActive j = s.isActive j := by simp [State.isActive]
@[simp] theorem State.sidOf_broadcast (x : Source) (e : Option Port) (v : Event) (q : Port) :
    (s.broadcast x e v).sidOf q = s.sidOf q := by simp [State.sidOf]

/-! ### postLanded -/

@[simp] theorem State.postLanded_crst (r : RowNo) :
    (s.postLanded r).crst = s.crst := by unfold State.postLanded; (try dsimp only); (repeat' split) <;> simp
@[simp] theorem State.postLanded_ports (r : RowNo) :
    (s.postLanded r).ports = s.ports := by unfold State.postLanded; (try dsimp only); (repeat' split) <;> simp
@[simp] theorem State.postLanded_sessions (r : RowNo) :
    (s.postLanded r).sessions = s.sessions := by unfold State.postLanded; (try dsimp only); (repeat' split) <;> simp
@[simp] theorem State.postLanded_claims (r : RowNo) :
    (s.postLanded r).claims = s.claims := by unfold State.postLanded; (try dsimp only); (repeat' split) <;> simp
@[simp] theorem State.postLanded_waits (r : RowNo) :
    (s.postLanded r).waits = s.waits := by unfold State.postLanded; (try dsimp only); (repeat' split) <;> simp
@[simp] theorem State.postLanded_rows (r : RowNo) :
    (s.postLanded r).rows = s.rows := by unfold State.postLanded; (try dsimp only); (repeat' split) <;> simp
@[simp] theorem State.postLanded_leased (r : RowNo) :
    (s.postLanded r).leased = s.leased := by unfold State.postLanded; (try dsimp only); (repeat' split) <;> simp
@[simp] theorem State.postLanded_cells (r : RowNo) :
    (s.postLanded r).cells = s.cells := by unfold State.postLanded; (try dsimp only); (repeat' split) <;> simp
@[simp] theorem State.postLanded_map (r : RowNo) :
    (s.postLanded r).map = s.map := by unfold State.postLanded; (try dsimp only); (repeat' split) <;> simp
@[simp] theorem State.postLanded_uploads (r : RowNo) :
    (s.postLanded r).uploads = s.uploads := by unfold State.postLanded; (try dsimp only); (repeat' split) <;> simp
@[simp] theorem State.postLanded_channels (r : RowNo) :
    (s.postLanded r).channels = s.channels := by unfold State.postLanded; (try dsimp only); (repeat' split) <;> simp
@[simp] theorem State.postLanded_compositors (r : RowNo) :
    (s.postLanded r).compositors = s.compositors :=
  by unfold State.postLanded; (try dsimp only); (repeat' split) <;> simp
@[simp] theorem State.postLanded_pending (r : RowNo) :
    (s.postLanded r).pending = s.pending := by unfold State.postLanded; (try dsimp only); (repeat' split) <;> simp
@[simp] theorem State.postLanded_freeIndex (r : RowNo) :
    (s.postLanded r).freeIndex = s.freeIndex := by unfold State.postLanded; (try dsimp only); (repeat' split) <;> simp
@[simp] theorem State.isActive_postLanded (r : RowNo) (j : Sid) :
    (s.postLanded r).isActive j = s.isActive j := by simp [State.isActive]
@[simp] theorem State.sidOf_postLanded (r : RowNo) (q : Port) :
    (s.postLanded r).sidOf q = s.sidOf q := by simp [State.sidOf]

/-! ### exchange -/

@[simp] theorem State.exchange_crst (r : RowNo) (k : Content) (o : Origin) :
    (s.exchange r k o).crst = s.crst := by unfold State.exchange; (try dsimp only); (repeat' split) <;> simp
@[simp] theorem State.exchange_ports (r : RowNo) (k : Content) (o : Origin) :
    (s.exchange r k o).ports = s.ports := by unfold State.exchange; (try dsimp only); (repeat' split) <;> simp
@[simp] theorem State.exchange_sessions (r : RowNo) (k : Content) (o : Origin) :
    (s.exchange r k o).sessions = s.sessions := by unfold State.exchange; (try dsimp only); (repeat' split) <;> simp
@[simp] theorem State.exchange_posted (r : RowNo) (k : Content) (o : Origin) :
    (s.exchange r k o).posted = s.posted := by unfold State.exchange; (try dsimp only); (repeat' split) <;> simp
@[simp] theorem State.exchange_claims (r : RowNo) (k : Content) (o : Origin) :
    (s.exchange r k o).claims = s.claims := by unfold State.exchange; (try dsimp only); (repeat' split) <;> simp
@[simp] theorem State.exchange_waits (r : RowNo) (k : Content) (o : Origin) :
    (s.exchange r k o).waits = s.waits := by unfold State.exchange; (try dsimp only); (repeat' split) <;> simp
@[simp] theorem State.exchange_leased (r : RowNo) (k : Content) (o : Origin) :
    (s.exchange r k o).leased = s.leased := by unfold State.exchange; (try dsimp only); (repeat' split) <;> simp
@[simp] theorem State.exchange_map (r : RowNo) (k : Content) (o : Origin) :
    (s.exchange r k o).map = s.map := by unfold State.exchange; (try dsimp only); (repeat' split) <;> simp
@[simp] theorem State.exchange_uploads (r : RowNo) (k : Content) (o : Origin) :
    (s.exchange r k o).uploads = s.uploads := by unfold State.exchange; (try dsimp only); (repeat' split) <;> simp
@[simp] theorem State.exchange_channels (r : RowNo) (k : Content) (o : Origin) :
    (s.exchange r k o).channels = s.channels := by unfold State.exchange; (try dsimp only); (repeat' split) <;> simp
@[simp] theorem State.exchange_compositors (r : RowNo) (k : Content) (o : Origin) :
    (s.exchange r k o).compositors = s.compositors :=
  by unfold State.exchange; (try dsimp only); (repeat' split) <;> simp
@[simp] theorem State.exchange_pending (r : RowNo) (k : Content) (o : Origin) :
    (s.exchange r k o).pending = s.pending := by unfold State.exchange; (try dsimp only); (repeat' split) <;> simp
@[simp] theorem State.exchange_freeIndex (r : RowNo) (k : Content) (o : Origin) :
    (s.exchange r k o).freeIndex = s.freeIndex := by unfold State.exchange; (try dsimp only); (repeat' split) <;> simp
@[simp] theorem State.isActive_exchange (r : RowNo) (k : Content) (o : Origin) (j : Sid) :
    (s.exchange r k o).isActive j = s.isActive j := by simp [State.isActive]
@[simp] theorem State.sidOf_exchange (r : RowNo) (k : Content) (o : Origin) (q : Port) :
    (s.exchange r k o).sidOf q = s.sidOf q := by simp [State.sidOf]

/-! ### settle -/

@[simp] theorem State.settle_crst (r : RowNo) :
    (s.settle r).crst = s.crst := by unfold State.settle; (try dsimp only); (repeat' split) <;> simp
@[simp] theorem State.settle_ports (r : RowNo) :
    (s.settle r).ports = s.ports := by unfold State.settle; (try dsimp only); (repeat' split) <;> simp
@[simp] theorem State.settle_sessions (r : RowNo) :
    (s.settle r).sessions = s.sessions := by unfold State.settle; (try dsimp only); (repeat' split) <;> simp
@[simp] theorem State.settle_claims (r : RowNo) :
    (s.settle r).claims = s.claims := by unfold State.settle; (try dsimp only); (repeat' split) <;> simp
@[simp] theorem State.settle_waits (r : RowNo) :
    (s.settle r).waits = s.waits := by unfold State.settle; (try dsimp only); (repeat' split) <;> simp
@[simp] theorem State.settle_leased (r : RowNo) :
    (s.settle r).leased = s.leased := by unfold State.settle; (try dsimp only); (repeat' split) <;> simp
@[simp] theorem State.settle_map (r : RowNo) :
    (s.settle r).map = s.map := by unfold State.settle; (try dsimp only); (repeat' split) <;> simp
@[simp] theorem State.settle_uploads (r : RowNo) :
    (s.settle r).uploads = s.uploads := by unfold State.settle; (try dsimp only); (repeat' split) <;> simp
@[simp] theorem State.settle_channels (r : RowNo) :
    (s.settle r).channels = s.channels := by unfold State.settle; (try dsimp only); (repeat' split) <;> simp
@[simp] theorem State.settle_compositors (r : RowNo) :
    (s.settle r).compositors = s.compositors := by unfold State.settle; (try dsimp only); (repeat' split) <;> simp
@[simp] theorem State.settle_pending (r : RowNo) :
    (s.settle r).pending = s.pending := by unfold State.settle; (try dsimp only); (repeat' split) <;> simp
@[simp] theorem State.settle_freeIndex (r : RowNo) :
    (s.settle r).freeIndex = s.freeIndex := by unfold State.settle; (try dsimp only); (repeat' split) <;> simp
@[simp] theorem State.isActive_settle (r : RowNo) (j : Sid) :
    (s.settle r).isActive j = s.isActive j := by simp [State.isActive]
@[simp] theorem State.sidOf_settle (r : RowNo) (q : Port) : (s.settle r).sidOf q = s.sidOf q := by simp [State.sidOf]

/-! ### blankCommit -/

@[simp] theorem State.blankCommit_crst (r : RowNo) :
    (s.blankCommit r).crst = s.crst := by unfold State.blankCommit; (try dsimp only); (repeat' split) <;> simp
@[simp] theorem State.blankCommit_ports (r : RowNo) :
    (s.blankCommit r).ports = s.ports := by unfold State.blankCommit; (try dsimp only); (repeat' split) <;> simp
@[simp] theorem State.blankCommit_sessions (r : RowNo) :
    (s.blankCommit r).sessions = s.sessions := by unfold State.blankCommit; (try dsimp only); (repeat' split) <;> simp
@[simp] theorem State.blankCommit_claims (r : RowNo) :
    (s.blankCommit r).claims = s.claims := by unfold State.blankCommit; (try dsimp only); (repeat' split) <;> simp
@[simp] theorem State.blankCommit_waits (r : RowNo) :
    (s.blankCommit r).waits = s.waits := by unfold State.blankCommit; (try dsimp only); (repeat' split) <;> simp
@[simp] theorem State.blankCommit_leased (r : RowNo) :
    (s.blankCommit r).leased = s.leased := by unfold State.blankCommit; (try dsimp only); (repeat' split) <;> simp
@[simp] theorem State.blankCommit_map (r : RowNo) :
    (s.blankCommit r).map = s.map := by unfold State.blankCommit; (try dsimp only); (repeat' split) <;> simp
@[simp] theorem State.blankCommit_uploads (r : RowNo) :
    (s.blankCommit r).uploads = s.uploads := by unfold State.blankCommit; (try dsimp only); (repeat' split) <;> simp
@[simp] theorem State.blankCommit_channels (r : RowNo) :
    (s.blankCommit r).channels = s.channels := by unfold State.blankCommit; (try dsimp only); (repeat' split) <;> simp
@[simp] theorem State.blankCommit_compositors (r : RowNo) :
    (s.blankCommit r).compositors = s.compositors :=
  by unfold State.blankCommit; (try dsimp only); (repeat' split) <;> simp
@[simp] theorem State.blankCommit_pending (r : RowNo) :
    (s.blankCommit r).pending = s.pending := by unfold State.blankCommit; (try dsimp only); (repeat' split) <;> simp
@[simp] theorem State.blankCommit_freeIndex (r : RowNo) :
    (s.blankCommit r).freeIndex = s.freeIndex :=
  by unfold State.blankCommit; (try dsimp only); (repeat' split) <;> simp
@[simp] theorem State.isActive_blankCommit (r : RowNo) (j : Sid) :
    (s.blankCommit r).isActive j = s.isActive j := by simp [State.isActive]
@[simp] theorem State.sidOf_blankCommit (r : RowNo) (q : Port) :
    (s.blankCommit r).sidOf q = s.sidOf q := by simp [State.sidOf]

/-! ### land -/

@[simp] theorem State.land_crst (r : RowNo) :
    (s.land r).crst = s.crst := by unfold State.land; (try dsimp only); (repeat' split) <;> simp
@[simp] theorem State.land_ports (r : RowNo) :
    (s.land r).ports = s.ports := by unfold State.land; (try dsimp only); (repeat' split) <;> simp
@[simp] theorem State.land_sessions (r : RowNo) :
    (s.land r).sessions = s.sessions := by unfold State.land; (try dsimp only); (repeat' split) <;> simp
@[simp] theorem State.land_claims (r : RowNo) :
    (s.land r).claims = s.claims := by unfold State.land; (try dsimp only); (repeat' split) <;> simp
@[simp] theorem State.land_waits (r : RowNo) :
    (s.land r).waits = s.waits := by unfold State.land; (try dsimp only); (repeat' split) <;> simp
@[simp] theorem State.land_map (r : RowNo) :
    (s.land r).map = s.map := by unfold State.land; (try dsimp only); (repeat' split) <;> simp
@[simp] theorem State.land_uploads (r : RowNo) :
    (s.land r).uploads = s.uploads := by unfold State.land; (try dsimp only); (repeat' split) <;> simp
@[simp] theorem State.land_channels (r : RowNo) :
    (s.land r).channels = s.channels := by unfold State.land; (try dsimp only); (repeat' split) <;> simp
@[simp] theorem State.land_compositors (r : RowNo) :
    (s.land r).compositors = s.compositors := by unfold State.land; (try dsimp only); (repeat' split) <;> simp
@[simp] theorem State.land_pending (r : RowNo) :
    (s.land r).pending = s.pending := by unfold State.land; (try dsimp only); (repeat' split) <;> simp
@[simp] theorem State.land_freeIndex (r : RowNo) :
    (s.land r).freeIndex = s.freeIndex := by unfold State.land; (try dsimp only); (repeat' split) <;> simp
@[simp] theorem State.isActive_land (r : RowNo) (j : Sid) :
    (s.land r).isActive j = s.isActive j := by simp [State.isActive]
@[simp] theorem State.sidOf_land (r : RowNo) (q : Port) : (s.land r).sidOf q = s.sidOf q := by simp [State.sidOf]

/-! ### landIfFree -/

@[simp] theorem State.landIfFree_crst (r : RowNo) :
    (s.landIfFree r).crst = s.crst := by unfold State.landIfFree; (try dsimp only); (repeat' split) <;> simp
@[simp] theorem State.landIfFree_ports (r : RowNo) :
    (s.landIfFree r).ports = s.ports := by unfold State.landIfFree; (try dsimp only); (repeat' split) <;> simp
@[simp] theorem State.landIfFree_sessions (r : RowNo) :
    (s.landIfFree r).sessions = s.sessions := by unfold State.landIfFree; (try dsimp only); (repeat' split) <;> simp
@[simp] theorem State.landIfFree_claims (r : RowNo) :
    (s.landIfFree r).claims = s.claims := by unfold State.landIfFree; (try dsimp only); (repeat' split) <;> simp
@[simp] theorem State.landIfFree_waits (r : RowNo) :
    (s.landIfFree r).waits = s.waits := by unfold State.landIfFree; (try dsimp only); (repeat' split) <;> simp
@[simp] theorem State.landIfFree_map (r : RowNo) :
    (s.landIfFree r).map = s.map := by unfold State.landIfFree; (try dsimp only); (repeat' split) <;> simp
@[simp] theorem State.landIfFree_uploads (r : RowNo) :
    (s.landIfFree r).uploads = s.uploads := by unfold State.landIfFree; (try dsimp only); (repeat' split) <;> simp
@[simp] theorem State.landIfFree_channels (r : RowNo) :
    (s.landIfFree r).channels = s.channels := by unfold State.landIfFree; (try dsimp only); (repeat' split) <;> simp
@[simp] theorem State.landIfFree_compositors (r : RowNo) :
    (s.landIfFree r).compositors = s.compositors :=
  by unfold State.landIfFree; (try dsimp only); (repeat' split) <;> simp
@[simp] theorem State.landIfFree_pending (r : RowNo) :
    (s.landIfFree r).pending = s.pending := by unfold State.landIfFree; (try dsimp only); (repeat' split) <;> simp
@[simp] theorem State.landIfFree_freeIndex (r : RowNo) :
    (s.landIfFree r).freeIndex = s.freeIndex := by unfold State.landIfFree; (try dsimp only); (repeat' split) <;> simp
@[simp] theorem State.isActive_landIfFree (r : RowNo) (j : Sid) :
    (s.landIfFree r).isActive j = s.isActive j := by simp [State.isActive]
@[simp] theorem State.sidOf_landIfFree (r : RowNo) (q : Port) :
    (s.landIfFree r).sidOf q = s.sidOf q := by simp [State.sidOf]

/-! ### releaseRow -/

@[simp] theorem State.releaseRow_crst (c : Chan) (r : RowNo) :
    (s.releaseRow c r).crst = s.crst := by unfold State.releaseRow; (try dsimp only); (repeat' split) <;> simp
@[simp] theorem State.releaseRow_ports (c : Chan) (r : RowNo) :
    (s.releaseRow c r).ports = s.ports := by unfold State.releaseRow; (try dsimp only); (repeat' split) <;> simp
@[simp] theorem State.releaseRow_sessions (c : Chan) (r : RowNo) :
    (s.releaseRow c r).sessions = s.sessions := by unfold State.releaseRow; (try dsimp only); (repeat' split) <;> simp
@[simp] theorem State.releaseRow_claims (c : Chan) (r : RowNo) :
    (s.releaseRow c r).claims = s.claims := by unfold State.releaseRow; (try dsimp only); (repeat' split) <;> simp
@[simp] theorem State.releaseRow_waits (c : Chan) (r : RowNo) :
    (s.releaseRow c r).waits = s.waits := by unfold State.releaseRow; (try dsimp only); (repeat' split) <;> simp
@[simp] theorem State.releaseRow_map (c : Chan) (r : RowNo) :
    (s.releaseRow c r).map = s.map := by unfold State.releaseRow; (try dsimp only); (repeat' split) <;> simp
@[simp] theorem State.releaseRow_uploads (c : Chan) (r : RowNo) :
    (s.releaseRow c r).uploads = s.uploads := by unfold State.releaseRow; (try dsimp only); (repeat' split) <;> simp
@[simp] theorem State.releaseRow_channels (c : Chan) (r : RowNo) :
    (s.releaseRow c r).channels = s.channels := by unfold State.releaseRow; (try dsimp only); (repeat' split) <;> simp
@[simp] theorem State.releaseRow_compositors (c : Chan) (r : RowNo) :
    (s.releaseRow c r).compositors = s.compositors :=
  by unfold State.releaseRow; (try dsimp only); (repeat' split) <;> simp
@[simp] theorem State.releaseRow_pending (c : Chan) (r : RowNo) :
    (s.releaseRow c r).pending = s.pending := by unfold State.releaseRow; (try dsimp only); (repeat' split) <;> simp
@[simp] theorem State.releaseRow_freeIndex (c : Chan) (r : RowNo) :
    (s.releaseRow c r).freeIndex = s.freeIndex :=
  by unfold State.releaseRow; (try dsimp only); (repeat' split) <;> simp
@[simp] theorem State.isActive_releaseRow (c : Chan) (r : RowNo) (j : Sid) :
    (s.releaseRow c r).isActive j = s.isActive j := by simp [State.isActive]
@[simp] theorem State.sidOf_releaseRow (c : Chan) (r : RowNo) (q : Port) :
    (s.releaseRow c r).sidOf q = s.sidOf q := by simp [State.sidOf]

/-! ### releaseChannel -/

@[simp] theorem State.releaseChannel_crst (c : Chan) :
    (s.releaseChannel c).crst = s.crst := foldl_keeps (g := State.crst) (fun _ _ => by simp) _ _
@[simp] theorem State.releaseChannel_ports (c : Chan) :
    (s.releaseChannel c).ports = s.ports := foldl_keeps (g := State.ports) (fun _ _ => by simp) _ _
@[simp] theorem State.releaseChannel_sessions (c : Chan) :
    (s.releaseChannel c).sessions = s.sessions := foldl_keeps (g := State.sessions) (fun _ _ => by simp) _ _
@[simp] theorem State.releaseChannel_claims (c : Chan) :
    (s.releaseChannel c).claims = s.claims := foldl_keeps (g := State.claims) (fun _ _ => by simp) _ _
@[simp] theorem State.releaseChannel_waits (c : Chan) :
    (s.releaseChannel c).waits = s.waits := foldl_keeps (g := State.waits) (fun _ _ => by simp) _ _
@[simp] theorem State.releaseChannel_map (c : Chan) :
    (s.releaseChannel c).map = s.map := foldl_keeps (g := State.map) (fun _ _ => by simp) _ _
@[simp] theorem State.releaseChannel_uploads (c : Chan) :
    (s.releaseChannel c).uploads = s.uploads := foldl_keeps (g := State.uploads) (fun _ _ => by simp) _ _
@[simp] theorem State.releaseChannel_channels (c : Chan) :
    (s.releaseChannel c).channels = s.channels := foldl_keeps (g := State.channels) (fun _ _ => by simp) _ _
@[simp] theorem State.releaseChannel_compositors (c : Chan) :
    (s.releaseChannel c).compositors = s.compositors := foldl_keeps (g := State.compositors) (fun _ _ => by simp) _ _
@[simp] theorem State.releaseChannel_pending (c : Chan) :
    (s.releaseChannel c).pending = s.pending := foldl_keeps (g := State.pending) (fun _ _ => by simp) _ _
@[simp] theorem State.releaseChannel_freeIndex (c : Chan) :
    (s.releaseChannel c).freeIndex = s.freeIndex := foldl_keeps (g := State.freeIndex) (fun _ _ => by simp) _ _
@[simp] theorem State.isActive_releaseChannel (c : Chan) (j : Sid) :
    (s.releaseChannel c).isActive j = s.isActive j := by simp [State.isActive]
@[simp] theorem State.sidOf_releaseChannel (c : Chan) (q : Port) :
    (s.releaseChannel c).sidOf q = s.sidOf q := by simp [State.sidOf]

/-! ### grantRow -/

@[simp] theorem State.grantRow_crst (l : LeasedNo) :
    (s.grantRow l).crst = s.crst := by unfold State.grantRow; (try dsimp only); (repeat' split) <;> simp
@[simp] theorem State.grantRow_ports (l : LeasedNo) :
    (s.grantRow l).ports = s.ports := by unfold State.grantRow; (try dsimp only); (repeat' split) <;> simp
@[simp] theorem State.grantRow_sessions (l : LeasedNo) :
    (s.grantRow l).sessions = s.sessions := by unfold State.grantRow; (try dsimp only); (repeat' split) <;> simp
@[simp] theorem State.grantRow_posted (l : LeasedNo) :
    (s.grantRow l).posted = s.posted := by unfold State.grantRow; (try dsimp only); (repeat' split) <;> simp
@[simp] theorem State.grantRow_claims (l : LeasedNo) :
    (s.grantRow l).claims = s.claims := by unfold State.grantRow; (try dsimp only); (repeat' split) <;> simp
@[simp] theorem State.grantRow_waits (l : LeasedNo) :
    (s.grantRow l).waits = s.waits := by unfold State.grantRow; (try dsimp only); (repeat' split) <;> simp
@[simp] theorem State.grantRow_rows (l : LeasedNo) :
    (s.grantRow l).rows = s.rows := by unfold State.grantRow; (try dsimp only); (repeat' split) <;> simp
@[simp] theorem State.grantRow_cells (l : LeasedNo) :
    (s.grantRow l).cells = s.cells := by unfold State.grantRow; (try dsimp only); (repeat' split) <;> simp
@[simp] theorem State.grantRow_map (l : LeasedNo) :
    (s.grantRow l).map = s.map := by unfold State.grantRow; (try dsimp only); (repeat' split) <;> simp
@[simp] theorem State.grantRow_uploads (l : LeasedNo) :
    (s.grantRow l).uploads = s.uploads := by unfold State.grantRow; (try dsimp only); (repeat' split) <;> simp
@[simp] theorem State.grantRow_channels (l : LeasedNo) :
    (s.grantRow l).channels = s.channels := by unfold State.grantRow; (try dsimp only); (repeat' split) <;> simp
@[simp] theorem State.grantRow_compositors (l : LeasedNo) :
    (s.grantRow l).compositors = s.compositors := by unfold State.grantRow; (try dsimp only); (repeat' split) <;> simp
@[simp] theorem State.grantRow_pending (l : LeasedNo) :
    (s.grantRow l).pending = s.pending := by unfold State.grantRow; (try dsimp only); (repeat' split) <;> simp
@[simp] theorem State.grantRow_freeIndex (l : LeasedNo) :
    (s.grantRow l).freeIndex = s.freeIndex := by unfold State.grantRow; (try dsimp only); (repeat' split) <;> simp
@[simp] theorem State.isActive_grantRow (l : LeasedNo) (j : Sid) :
    (s.grantRow l).isActive j = s.isActive j := by simp [State.isActive]
@[simp] theorem State.sidOf_grantRow (l : LeasedNo) (q : Port) :
    (s.grantRow l).sidOf q = s.sidOf q := by simp [State.sidOf]

/-! ### leaveBlank -/

@[simp] theorem State.leaveBlank_crst (l : LeasedNo) :
    (s.leaveBlank l).crst = s.crst := by unfold State.leaveBlank; (try dsimp only); (repeat' split) <;> simp
@[simp] theorem State.leaveBlank_ports (l : LeasedNo) :
    (s.leaveBlank l).ports = s.ports := by unfold State.leaveBlank; (try dsimp only); (repeat' split) <;> simp
@[simp] theorem State.leaveBlank_sessions (l : LeasedNo) :
    (s.leaveBlank l).sessions = s.sessions := by unfold State.leaveBlank; (try dsimp only); (repeat' split) <;> simp
@[simp] theorem State.leaveBlank_claims (l : LeasedNo) :
    (s.leaveBlank l).claims = s.claims := by unfold State.leaveBlank; (try dsimp only); (repeat' split) <;> simp
@[simp] theorem State.leaveBlank_waits (l : LeasedNo) :
    (s.leaveBlank l).waits = s.waits := by unfold State.leaveBlank; (try dsimp only); (repeat' split) <;> simp
@[simp] theorem State.leaveBlank_map (l : LeasedNo) :
    (s.leaveBlank l).map = s.map := by unfold State.leaveBlank; (try dsimp only); (repeat' split) <;> simp
@[simp] theorem State.leaveBlank_uploads (l : LeasedNo) :
    (s.leaveBlank l).uploads = s.uploads := by unfold State.leaveBlank; (try dsimp only); (repeat' split) <;> simp
@[simp] theorem State.leaveBlank_channels (l : LeasedNo) :
    (s.leaveBlank l).channels = s.channels := by unfold State.leaveBlank; (try dsimp only); (repeat' split) <;> simp
@[simp] theorem State.leaveBlank_compositors (l : LeasedNo) :
    (s.leaveBlank l).compositors = s.compositors :=
  by unfold State.leaveBlank; (try dsimp only); (repeat' split) <;> simp
@[simp] theorem State.leaveBlank_pending (l : LeasedNo) :
    (s.leaveBlank l).pending = s.pending := by unfold State.leaveBlank; (try dsimp only); (repeat' split) <;> simp
@[simp] theorem State.leaveBlank_freeIndex (l : LeasedNo) :
    (s.leaveBlank l).freeIndex = s.freeIndex := by unfold State.leaveBlank; (try dsimp only); (repeat' split) <;> simp
@[simp] theorem State.isActive_leaveBlank (l : LeasedNo) (j : Sid) :
    (s.leaveBlank l).isActive j = s.isActive j := by simp [State.isActive]
@[simp] theorem State.sidOf_leaveBlank (l : LeasedNo) (q : Port) :
    (s.leaveBlank l).sidOf q = s.sidOf q := by simp [State.sidOf]

/-! ### grant -/

@[simp] theorem State.grant_crst (r : Resource) :
    (s.grant r).crst = s.crst := by unfold State.grant; (try dsimp only); (repeat' split) <;> simp
@[simp] theorem State.grant_ports (r : Resource) :
    (s.grant r).ports = s.ports := by unfold State.grant; (try dsimp only); (repeat' split) <;> simp
@[simp] theorem State.grant_sessions (r : Resource) :
    (s.grant r).sessions = s.sessions := by unfold State.grant; (try dsimp only); (repeat' split) <;> simp
@[simp] theorem State.grant_posted (r : Resource) :
    (s.grant r).posted = s.posted := by unfold State.grant; (try dsimp only); (repeat' split) <;> simp
@[simp] theorem State.grant_claims (r : Resource) :
    (s.grant r).claims = s.claims := by unfold State.grant; (try dsimp only); (repeat' split) <;> simp
@[simp] theorem State.grant_waits (r : Resource) :
    (s.grant r).waits = s.waits := by unfold State.grant; (try dsimp only); (repeat' split) <;> simp
@[simp] theorem State.grant_rows (r : Resource) :
    (s.grant r).rows = s.rows := by unfold State.grant; (try dsimp only); (repeat' split) <;> simp
@[simp] theorem State.grant_cells (r : Resource) :
    (s.grant r).cells = s.cells := by unfold State.grant; (try dsimp only); (repeat' split) <;> simp
@[simp] theorem State.grant_map (r : Resource) :
    (s.grant r).map = s.map := by unfold State.grant; (try dsimp only); (repeat' split) <;> simp
@[simp] theorem State.grant_uploads (r : Resource) :
    (s.grant r).uploads = s.uploads := by unfold State.grant; (try dsimp only); (repeat' split) <;> simp
@[simp] theorem State.grant_channels (r : Resource) :
    (s.grant r).channels = s.channels := by unfold State.grant; (try dsimp only); (repeat' split) <;> simp
@[simp] theorem State.grant_compositors (r : Resource) :
    (s.grant r).compositors = s.compositors := by unfold State.grant; (try dsimp only); (repeat' split) <;> simp
@[simp] theorem State.grant_pending (r : Resource) :
    (s.grant r).pending = s.pending := by unfold State.grant; (try dsimp only); (repeat' split) <;> simp
@[simp] theorem State.grant_freeIndex (r : Resource) :
    (s.grant r).freeIndex = s.freeIndex := by unfold State.grant; (try dsimp only); (repeat' split) <;> simp
@[simp] theorem State.isActive_grant (r : Resource) (j : Sid) :
    (s.grant r).isActive j = s.isActive j := by simp [State.isActive]
@[simp] theorem State.sidOf_grant (r : Resource) (q : Port) : (s.grant r).sidOf q = s.sidOf q := by simp [State.sidOf]

/-! ### leaveResource -/

@[simp] theorem State.leaveResource_crst (r : Resource) (p : Port) (k : Bool) :
    (s.leaveResource r p k).crst = s.crst := by unfold State.leaveResource; (try dsimp only); (repeat' split) <;> simp
@[simp] theorem State.leaveResource_ports (r : Resource) (p : Port) (k : Bool) :
    (s.leaveResource r p k).ports = s.ports :=
  by unfold State.leaveResource; (try dsimp only); (repeat' split) <;> simp
@[simp] theorem State.leaveResource_sessions (r : Resource) (p : Port) (k : Bool) :
    (s.leaveResource r p k).sessions = s.sessions :=
  by unfold State.leaveResource; (try dsimp only); (repeat' split) <;> simp
@[simp] theorem State.leaveResource_map (r : Resource) (p : Port) (k : Bool) :
    (s.leaveResource r p k).map = s.map := by unfold State.leaveResource; (try dsimp only); (repeat' split) <;> simp
@[simp] theorem State.leaveResource_uploads (r : Resource) (p : Port) (k : Bool) :
    (s.leaveResource r p k).uploads = s.uploads :=
  by unfold State.leaveResource; (try dsimp only); (repeat' split) <;> simp
@[simp] theorem State.leaveResource_channels (r : Resource) (p : Port) (k : Bool) :
    (s.leaveResource r p k).channels = s.channels :=
  by unfold State.leaveResource; (try dsimp only); (repeat' split) <;> simp
@[simp] theorem State.leaveResource_compositors (r : Resource) (p : Port) (k : Bool) :
    (s.leaveResource r p k).compositors = s.compositors :=
  by unfold State.leaveResource; (try dsimp only); (repeat' split) <;> simp
@[simp] theorem State.leaveResource_pending (r : Resource) (p : Port) (k : Bool) :
    (s.leaveResource r p k).pending = s.pending :=
  by unfold State.leaveResource; (try dsimp only); (repeat' split) <;> simp
@[simp] theorem State.leaveResource_freeIndex (r : Resource) (p : Port) (k : Bool) :
    (s.leaveResource r p k).freeIndex = s.freeIndex :=
  by unfold State.leaveResource; (try dsimp only); (repeat' split) <;> simp
@[simp] theorem State.isActive_leaveResource (r : Resource) (p : Port) (k : Bool) (j : Sid) :
    (s.leaveResource r p k).isActive j = s.isActive j := by simp [State.isActive]
@[simp] theorem State.sidOf_leaveResource (r : Resource) (p : Port) (k : Bool) (q : Port) :
    (s.leaveResource r p k).sidOf q = s.sidOf q := by simp [State.sidOf]

/-! ### removeWaits -/

@[simp] theorem State.removeWaits_crst (i : Sid) :
    (s.removeWaits i).crst = s.crst := by unfold State.removeWaits; (try dsimp only); (repeat' split) <;> simp
@[simp] theorem State.removeWaits_ports (i : Sid) :
    (s.removeWaits i).ports = s.ports := by unfold State.removeWaits; (try dsimp only); (repeat' split) <;> simp
@[simp] theorem State.removeWaits_sessions (i : Sid) :
    (s.removeWaits i).sessions = s.sessions := by unfold State.removeWaits; (try dsimp only); (repeat' split) <;> simp
@[simp] theorem State.removeWaits_posted (i : Sid) :
    (s.removeWaits i).posted = s.posted := by unfold State.removeWaits; (try dsimp only); (repeat' split) <;> simp
@[simp] theorem State.removeWaits_rows (i : Sid) :
    (s.removeWaits i).rows = s.rows := by unfold State.removeWaits; (try dsimp only); (repeat' split) <;> simp
@[simp] theorem State.removeWaits_leased (i : Sid) :
    (s.removeWaits i).leased = s.leased := by unfold State.removeWaits; (try dsimp only); (repeat' split) <;> simp
@[simp] theorem State.removeWaits_cells (i : Sid) :
    (s.removeWaits i).cells = s.cells := by unfold State.removeWaits; (try dsimp only); (repeat' split) <;> simp
@[simp] theorem State.removeWaits_map (i : Sid) :
    (s.removeWaits i).map = s.map := by unfold State.removeWaits; (try dsimp only); (repeat' split) <;> simp
@[simp] theorem State.removeWaits_uploads (i : Sid) :
    (s.removeWaits i).uploads = s.uploads := by unfold State.removeWaits; (try dsimp only); (repeat' split) <;> simp
@[simp] theorem State.removeWaits_channels (i : Sid) :
    (s.removeWaits i).channels = s.channels := by unfold State.removeWaits; (try dsimp only); (repeat' split) <;> simp
@[simp] theorem State.removeWaits_compositors (i : Sid) :
    (s.removeWaits i).compositors = s.compositors :=
  by unfold State.removeWaits; (try dsimp only); (repeat' split) <;> simp
@[simp] theorem State.removeWaits_pending (i : Sid) :
    (s.removeWaits i).pending = s.pending := by unfold State.removeWaits; (try dsimp only); (repeat' split) <;> simp
@[simp] theorem State.removeWaits_freeIndex (i : Sid) :
    (s.removeWaits i).freeIndex = s.freeIndex :=
  by unfold State.removeWaits; (try dsimp only); (repeat' split) <;> simp
@[simp] theorem State.isActive_removeWaits (i : Sid) (j : Sid) :
    (s.removeWaits i).isActive j = s.isActive j := by simp [State.isActive]
@[simp] theorem State.sidOf_removeWaits (i : Sid) (q : Port) :
    (s.removeWaits i).sidOf q = s.sidOf q := by simp [State.sidOf]

/-! ### leaveHoldings -/

@[simp] theorem State.leaveHoldings_crst (i : Sid) :
    (s.leaveHoldings i).crst = s.crst := foldl_keeps (g := State.crst) (fun _ _ => by split <;> simp) _ _
@[simp] theorem State.leaveHoldings_ports (i : Sid) :
    (s.leaveHoldings i).ports = s.ports := foldl_keeps (g := State.ports) (fun _ _ => by split <;> simp) _ _
@[simp] theorem State.leaveHoldings_sessions (i : Sid) :
    (s.leaveHoldings i).sessions = s.sessions := foldl_keeps (g := State.sessions) (fun _ _ => by split <;> simp) _ _
@[simp] theorem State.leaveHoldings_map (i : Sid) :
    (s.leaveHoldings i).map = s.map := foldl_keeps (g := State.map) (fun _ _ => by split <;> simp) _ _
@[simp] theorem State.leaveHoldings_uploads (i : Sid) :
    (s.leaveHoldings i).uploads = s.uploads := foldl_keeps (g := State.uploads) (fun _ _ => by split <;> simp) _ _
@[simp] theorem State.leaveHoldings_channels (i : Sid) :
    (s.leaveHoldings i).channels = s.channels := foldl_keeps (g := State.channels) (fun _ _ => by split <;> simp) _ _
@[simp] theorem State.leaveHoldings_compositors (i : Sid) :
    (s.leaveHoldings i).compositors = s.compositors :=
  foldl_keeps (g := State.compositors) (fun _ _ => by split <;> simp) _ _
@[simp] theorem State.leaveHoldings_pending (i : Sid) :
    (s.leaveHoldings i).pending = s.pending := foldl_keeps (g := State.pending) (fun _ _ => by split <;> simp) _ _
@[simp] theorem State.leaveHoldings_freeIndex (i : Sid) :
    (s.leaveHoldings i).freeIndex = s.freeIndex :=
  foldl_keeps (g := State.freeIndex) (fun _ _ => by split <;> simp) _ _
@[simp] theorem State.isActive_leaveHoldings (i : Sid) (j : Sid) :
    (s.leaveHoldings i).isActive j = s.isActive j := by simp [State.isActive]
@[simp] theorem State.sidOf_leaveHoldings (i : Sid) (q : Port) :
    (s.leaveHoldings i).sidOf q = s.sidOf q := by simp [State.sidOf]

/-! ### releaseCell -/

@[simp] theorem State.releaseCell_crst (n : CellNo) :
    (s.releaseCell n).crst = s.crst := by unfold State.releaseCell; (try dsimp only); (repeat' split) <;> simp
@[simp] theorem State.releaseCell_ports (n : CellNo) :
    (s.releaseCell n).ports = s.ports := by unfold State.releaseCell; (try dsimp only); (repeat' split) <;> simp
@[simp] theorem State.releaseCell_sessions (n : CellNo) :
    (s.releaseCell n).sessions = s.sessions := by unfold State.releaseCell; (try dsimp only); (repeat' split) <;> simp
@[simp] theorem State.releaseCell_posted (n : CellNo) :
    (s.releaseCell n).posted = s.posted := by unfold State.releaseCell; (try dsimp only); (repeat' split) <;> simp
@[simp] theorem State.releaseCell_claims (n : CellNo) :
    (s.releaseCell n).claims = s.claims := by unfold State.releaseCell; (try dsimp only); (repeat' split) <;> simp
@[simp] theorem State.releaseCell_waits (n : CellNo) :
    (s.releaseCell n).waits = s.waits := by unfold State.releaseCell; (try dsimp only); (repeat' split) <;> simp
@[simp] theorem State.releaseCell_rows (n : CellNo) :
    (s.releaseCell n).rows = s.rows := by unfold State.releaseCell; (try dsimp only); (repeat' split) <;> simp
@[simp] theorem State.releaseCell_leased (n : CellNo) :
    (s.releaseCell n).leased = s.leased := by unfold State.releaseCell; (try dsimp only); (repeat' split) <;> simp
@[simp] theorem State.releaseCell_map (n : CellNo) :
    (s.releaseCell n).map = s.map := by unfold State.releaseCell; (try dsimp only); (repeat' split) <;> simp
@[simp] theorem State.releaseCell_uploads (n : CellNo) :
    (s.releaseCell n).uploads = s.uploads := by unfold State.releaseCell; (try dsimp only); (repeat' split) <;> simp
@[simp] theorem State.releaseCell_channels (n : CellNo) :
    (s.releaseCell n).channels = s.channels := by unfold State.releaseCell; (try dsimp only); (repeat' split) <;> simp
@[simp] theorem State.releaseCell_compositors (n : CellNo) :
    (s.releaseCell n).compositors = s.compositors :=
  by unfold State.releaseCell; (try dsimp only); (repeat' split) <;> simp
@[simp] theorem State.releaseCell_pending (n : CellNo) :
    (s.releaseCell n).pending = s.pending := by unfold State.releaseCell; (try dsimp only); (repeat' split) <;> simp
@[simp] theorem State.releaseCell_freeIndex (n : CellNo) :
    (s.releaseCell n).freeIndex = s.freeIndex :=
  by unfold State.releaseCell; (try dsimp only); (repeat' split) <;> simp
@[simp] theorem State.isActive_releaseCell (n : CellNo) (j : Sid) :
    (s.releaseCell n).isActive j = s.isActive j := by simp [State.isActive]
@[simp] theorem State.sidOf_releaseCell (n : CellNo) (q : Port) :
    (s.releaseCell n).sidOf q = s.sidOf q := by simp [State.sidOf]

/-! ### dropUpload -/

@[simp] theorem State.dropUpload_crst (i : Sid) :
    (s.dropUpload i).crst = s.crst := by unfold State.dropUpload; (try dsimp only); (repeat' split) <;> simp
@[simp] theorem State.dropUpload_ports (i : Sid) :
    (s.dropUpload i).ports = s.ports := by unfold State.dropUpload; (try dsimp only); (repeat' split) <;> simp
@[simp] theorem State.dropUpload_sessions (i : Sid) :
    (s.dropUpload i).sessions = s.sessions := by unfold State.dropUpload; (try dsimp only); (repeat' split) <;> simp
@[simp] theorem State.dropUpload_posted (i : Sid) :
    (s.dropUpload i).posted = s.posted := by unfold State.dropUpload; (try dsimp only); (repeat' split) <;> simp
@[simp] theorem State.dropUpload_claims (i : Sid) :
    (s.dropUpload i).claims = s.claims := by unfold State.dropUpload; (try dsimp only); (repeat' split) <;> simp
@[simp] theorem State.dropUpload_waits (i : Sid) :
    (s.dropUpload i).waits = s.waits := by unfold State.dropUpload; (try dsimp only); (repeat' split) <;> simp
@[simp] theorem State.dropUpload_rows (i : Sid) :
    (s.dropUpload i).rows = s.rows := by unfold State.dropUpload; (try dsimp only); (repeat' split) <;> simp
@[simp] theorem State.dropUpload_leased (i : Sid) :
    (s.dropUpload i).leased = s.leased := by unfold State.dropUpload; (try dsimp only); (repeat' split) <;> simp
@[simp] theorem State.dropUpload_map (i : Sid) :
    (s.dropUpload i).map = s.map := by unfold State.dropUpload; (try dsimp only); (repeat' split) <;> simp
@[simp] theorem State.dropUpload_channels (i : Sid) :
    (s.dropUpload i).channels = s.channels := by unfold State.dropUpload; (try dsimp only); (repeat' split) <;> simp
@[simp] theorem State.dropUpload_compositors (i : Sid) :
    (s.dropUpload i).compositors = s.compositors :=
  by unfold State.dropUpload; (try dsimp only); (repeat' split) <;> simp
@[simp] theorem State.dropUpload_pending (i : Sid) :
    (s.dropUpload i).pending = s.pending := by unfold State.dropUpload; (try dsimp only); (repeat' split) <;> simp
@[simp] theorem State.dropUpload_freeIndex (i : Sid) :
    (s.dropUpload i).freeIndex = s.freeIndex := by unfold State.dropUpload; (try dsimp only); (repeat' split) <;> simp
@[simp] theorem State.isActive_dropUpload (i : Sid) (j : Sid) :
    (s.dropUpload i).isActive j = s.isActive j := by simp [State.isActive]
@[simp] theorem State.sidOf_dropUpload (i : Sid) (q : Port) :
    (s.dropUpload i).sidOf q = s.sidOf q := by simp [State.sidOf]

/-! ### releaseVolatile -/

@[simp] theorem State.releaseVolatile_crst (i : Sid) :
    (s.releaseVolatile i).crst = s.crst := foldl_keeps (g := State.crst) (fun _ _ => by split <;> simp) _ _
@[simp] theorem State.releaseVolatile_ports (i : Sid) :
    (s.releaseVolatile i).ports = s.ports := foldl_keeps (g := State.ports) (fun _ _ => by split <;> simp) _ _
@[simp] theorem State.releaseVolatile_sessions (i : Sid) :
    (s.releaseVolatile i).sessions = s.sessions :=
  foldl_keeps (g := State.sessions) (fun _ _ => by split <;> simp) _ _
@[simp] theorem State.releaseVolatile_posted (i : Sid) :
    (s.releaseVolatile i).posted = s.posted := foldl_keeps (g := State.posted) (fun _ _ => by split <;> simp) _ _
@[simp] theorem State.releaseVolatile_claims (i : Sid) :
    (s.releaseVolatile i).claims = s.claims := foldl_keeps (g := State.claims) (fun _ _ => by split <;> simp) _ _
@[simp] theorem State.releaseVolatile_waits (i : Sid) :
    (s.releaseVolatile i).waits = s.waits := foldl_keeps (g := State.waits) (fun _ _ => by split <;> simp) _ _
@[simp] theorem State.releaseVolatile_rows (i : Sid) :
    (s.releaseVolatile i).rows = s.rows := foldl_keeps (g := State.rows) (fun _ _ => by split <;> simp) _ _
@[simp] theorem State.releaseVolatile_leased (i : Sid) :
    (s.releaseVolatile i).leased = s.leased := foldl_keeps (g := State.leased) (fun _ _ => by split <;> simp) _ _
@[simp] theorem State.releaseVolatile_map (i : Sid) :
    (s.releaseVolatile i).map = s.map := foldl_keeps (g := State.map) (fun _ _ => by split <;> simp) _ _
@[simp] theorem State.releaseVolatile_uploads (i : Sid) :
    (s.releaseVolatile i).uploads = s.uploads := foldl_keeps (g := State.uploads) (fun _ _ => by split <;> simp) _ _
@[simp] theorem State.releaseVolatile_channels (i : Sid) :
    (s.releaseVolatile i).channels = s.channels :=
  foldl_keeps (g := State.channels) (fun _ _ => by split <;> simp) _ _
@[simp] theorem State.releaseVolatile_compositors (i : Sid) :
    (s.releaseVolatile i).compositors = s.compositors :=
  foldl_keeps (g := State.compositors) (fun _ _ => by split <;> simp) _ _
@[simp] theorem State.releaseVolatile_pending (i : Sid) :
    (s.releaseVolatile i).pending = s.pending := foldl_keeps (g := State.pending) (fun _ _ => by split <;> simp) _ _
@[simp] theorem State.releaseVolatile_freeIndex (i : Sid) :
    (s.releaseVolatile i).freeIndex = s.freeIndex :=
  foldl_keeps (g := State.freeIndex) (fun _ _ => by split <;> simp) _ _
@[simp] theorem State.isActive_releaseVolatile (i : Sid) (j : Sid) :
    (s.releaseVolatile i).isActive j = s.isActive j := by simp [State.isActive]
@[simp] theorem State.sidOf_releaseVolatile (i : Sid) (q : Port) :
    (s.releaseVolatile i).sidOf q = s.sidOf q := by simp [State.sidOf]

/-! ### endGlyphs -/

@[simp] theorem State.endGlyphs_crst (i : Sid) :
    (s.endGlyphs i).crst = s.crst := by unfold State.endGlyphs; (try dsimp only); (repeat' split) <;> simp
@[simp] theorem State.endGlyphs_ports (i : Sid) :
    (s.endGlyphs i).ports = s.ports := by unfold State.endGlyphs; (try dsimp only); (repeat' split) <;> simp
@[simp] theorem State.endGlyphs_sessions (i : Sid) :
    (s.endGlyphs i).sessions = s.sessions := by unfold State.endGlyphs; (try dsimp only); (repeat' split) <;> simp
@[simp] theorem State.endGlyphs_posted (i : Sid) :
    (s.endGlyphs i).posted = s.posted := by unfold State.endGlyphs; (try dsimp only); (repeat' split) <;> simp
@[simp] theorem State.endGlyphs_claims (i : Sid) :
    (s.endGlyphs i).claims = s.claims := by unfold State.endGlyphs; (try dsimp only); (repeat' split) <;> simp
@[simp] theorem State.endGlyphs_waits (i : Sid) :
    (s.endGlyphs i).waits = s.waits := by unfold State.endGlyphs; (try dsimp only); (repeat' split) <;> simp
@[simp] theorem State.endGlyphs_rows (i : Sid) :
    (s.endGlyphs i).rows = s.rows := by unfold State.endGlyphs; (try dsimp only); (repeat' split) <;> simp
@[simp] theorem State.endGlyphs_leased (i : Sid) :
    (s.endGlyphs i).leased = s.leased := by unfold State.endGlyphs; (try dsimp only); (repeat' split) <;> simp
@[simp] theorem State.endGlyphs_channels (i : Sid) :
    (s.endGlyphs i).channels = s.channels := by unfold State.endGlyphs; (try dsimp only); (repeat' split) <;> simp
@[simp] theorem State.endGlyphs_compositors (i : Sid) :
    (s.endGlyphs i).compositors = s.compositors :=
  by unfold State.endGlyphs; (try dsimp only); (repeat' split) <;> simp
@[simp] theorem State.endGlyphs_pending (i : Sid) :
    (s.endGlyphs i).pending = s.pending := by unfold State.endGlyphs; (try dsimp only); (repeat' split) <;> simp
@[simp] theorem State.endGlyphs_freeIndex (i : Sid) :
    (s.endGlyphs i).freeIndex = s.freeIndex := by unfold State.endGlyphs; (try dsimp only); (repeat' split) <;> simp
@[simp] theorem State.isActive_endGlyphs (i : Sid) (j : Sid) :
    (s.endGlyphs i).isActive j = s.isActive j := by simp [State.isActive]
@[simp] theorem State.sidOf_endGlyphs (i : Sid) (q : Port) :
    (s.endGlyphs i).sidOf q = s.sidOf q := by simp [State.sidOf]

/-! ### endNotice -/

@[simp] theorem State.endNotice_crst (i : Sid) :
    (s.endNotice i).crst = s.crst := by unfold State.endNotice; (try dsimp only); (repeat' split) <;> simp
@[simp] theorem State.endNotice_ports (i : Sid) :
    (s.endNotice i).ports = s.ports := by unfold State.endNotice; (try dsimp only); (repeat' split) <;> simp
@[simp] theorem State.endNotice_sessions (i : Sid) :
    (s.endNotice i).sessions = s.sessions := by unfold State.endNotice; (try dsimp only); (repeat' split) <;> simp
@[simp] theorem State.endNotice_compositors (i : Sid) :
    (s.endNotice i).compositors = s.compositors :=
  by unfold State.endNotice; (try dsimp only); (repeat' split) <;> simp
@[simp] theorem State.endNotice_pending (i : Sid) :
    (s.endNotice i).pending = s.pending := by unfold State.endNotice; (try dsimp only); (repeat' split) <;> simp
@[simp] theorem State.endNotice_freeIndex (i : Sid) :
    (s.endNotice i).freeIndex = s.freeIndex := by unfold State.endNotice; (try dsimp only); (repeat' split) <;> simp
@[simp] theorem State.isActive_endNotice (i : Sid) (j : Sid) :
    (s.endNotice i).isActive j = s.isActive j := by simp [State.isActive]
@[simp] theorem State.sidOf_endNotice (i : Sid) (q : Port) :
    (s.endNotice i).sidOf q = s.sidOf q := by simp [State.sidOf]

/-! ### endSession -/

@[simp] theorem State.endSession_crst (p : Port) (c : EndCause) :
    (s.endSession p c).crst = s.crst := by unfold State.endSession; (try dsimp only); (repeat' split) <;> simp
@[simp] theorem State.endSession_ports (p : Port) (c : EndCause) :
    (s.endSession p c).ports = s.ports := by unfold State.endSession; (try dsimp only); (repeat' split) <;> simp
@[simp] theorem State.endSession_compositors (p : Port) (c : EndCause) :
    (s.endSession p c).compositors = s.compositors :=
  by unfold State.endSession; (try dsimp only); (repeat' split) <;> simp
@[simp] theorem State.endSession_pending (p : Port) (c : EndCause) :
    (s.endSession p c).pending = s.pending := by unfold State.endSession; (try dsimp only); (repeat' split) <;> simp
@[simp] theorem State.endSession_freeIndex (p : Port) (c : EndCause) :
    (s.endSession p c).freeIndex = s.freeIndex :=
  by unfold State.endSession; (try dsimp only); (repeat' split) <;> simp

/-! ### renewLease -/

@[simp] theorem State.renewLease_crst (p : Port) :
    (s.renewLease p).crst = s.crst := by unfold State.renewLease; (try dsimp only); (repeat' split) <;> simp
@[simp] theorem State.renewLease_ports (p : Port) :
    (s.renewLease p).ports = s.ports := by unfold State.renewLease; (try dsimp only); (repeat' split) <;> simp
@[simp] theorem State.renewLease_posted (p : Port) :
    (s.renewLease p).posted = s.posted := by unfold State.renewLease; (try dsimp only); (repeat' split) <;> simp
@[simp] theorem State.renewLease_claims (p : Port) :
    (s.renewLease p).claims = s.claims := by unfold State.renewLease; (try dsimp only); (repeat' split) <;> simp
@[simp] theorem State.renewLease_waits (p : Port) :
    (s.renewLease p).waits = s.waits := by unfold State.renewLease; (try dsimp only); (repeat' split) <;> simp
@[simp] theorem State.renewLease_rows (p : Port) :
    (s.renewLease p).rows = s.rows := by unfold State.renewLease; (try dsimp only); (repeat' split) <;> simp
@[simp] theorem State.renewLease_leased (p : Port) :
    (s.renewLease p).leased = s.leased := by unfold State.renewLease; (try dsimp only); (repeat' split) <;> simp
@[simp] theorem State.renewLease_cells (p : Port) :
    (s.renewLease p).cells = s.cells := by unfold State.renewLease; (try dsimp only); (repeat' split) <;> simp
@[simp] theorem State.renewLease_map (p : Port) :
    (s.renewLease p).map = s.map := by unfold State.renewLease; (try dsimp only); (repeat' split) <;> simp
@[simp] theorem State.renewLease_uploads (p : Port) :
    (s.renewLease p).uploads = s.uploads := by unfold State.renewLease; (try dsimp only); (repeat' split) <;> simp
@[simp] theorem State.renewLease_channels (p : Port) :
    (s.renewLease p).channels = s.channels := by unfold State.renewLease; (try dsimp only); (repeat' split) <;> simp
@[simp] theorem State.renewLease_compositors (p : Port) :
    (s.renewLease p).compositors = s.compositors :=
  by unfold State.renewLease; (try dsimp only); (repeat' split) <;> simp
@[simp] theorem State.renewLease_pending (p : Port) :
    (s.renewLease p).pending = s.pending := by unfold State.renewLease; (try dsimp only); (repeat' split) <;> simp
@[simp] theorem State.renewLease_freeIndex (p : Port) :
    (s.renewLease p).freeIndex = s.freeIndex := by unfold State.renewLease; (try dsimp only); (repeat' split) <;> simp

/-! ### place -/

@[simp] theorem State.place_crst (p : Port) (r : Reply) :
    (s.place p r).crst = s.crst := by unfold State.place; (try dsimp only); (repeat' split) <;> simp
@[simp] theorem State.place_sessions (p : Port) (r : Reply) :
    (s.place p r).sessions = s.sessions := by unfold State.place; (try dsimp only); (repeat' split) <;> simp
@[simp] theorem State.place_posted (p : Port) (r : Reply) :
    (s.place p r).posted = s.posted := by unfold State.place; (try dsimp only); (repeat' split) <;> simp
@[simp] theorem State.place_claims (p : Port) (r : Reply) :
    (s.place p r).claims = s.claims := by unfold State.place; (try dsimp only); (repeat' split) <;> simp
@[simp] theorem State.place_waits (p : Port) (r : Reply) :
    (s.place p r).waits = s.waits := by unfold State.place; (try dsimp only); (repeat' split) <;> simp
@[simp] theorem State.place_rows (p : Port) (r : Reply) :
    (s.place p r).rows = s.rows := by unfold State.place; (try dsimp only); (repeat' split) <;> simp
@[simp] theorem State.place_leased (p : Port) (r : Reply) :
    (s.place p r).leased = s.leased := by unfold State.place; (try dsimp only); (repeat' split) <;> simp
@[simp] theorem State.place_cells (p : Port) (r : Reply) :
    (s.place p r).cells = s.cells := by unfold State.place; (try dsimp only); (repeat' split) <;> simp
@[simp] theorem State.place_map (p : Port) (r : Reply) :
    (s.place p r).map = s.map := by unfold State.place; (try dsimp only); (repeat' split) <;> simp
@[simp] theorem State.place_uploads (p : Port) (r : Reply) :
    (s.place p r).uploads = s.uploads := by unfold State.place; (try dsimp only); (repeat' split) <;> simp
@[simp] theorem State.place_channels (p : Port) (r : Reply) :
    (s.place p r).channels = s.channels := by unfold State.place; (try dsimp only); (repeat' split) <;> simp
@[simp] theorem State.place_compositors (p : Port) (r : Reply) :
    (s.place p r).compositors = s.compositors := by unfold State.place; (try dsimp only); (repeat' split) <;> simp
@[simp] theorem State.place_pending (p : Port) (r : Reply) :
    (s.place p r).pending = s.pending := by unfold State.place; (try dsimp only); (repeat' split) <;> simp
@[simp] theorem State.place_freeIndex (p : Port) (r : Reply) :
    (s.place p r).freeIndex = s.freeIndex := by unfold State.place; (try dsimp only); (repeat' split) <;> simp
@[simp] theorem State.isActive_place (p : Port) (r : Reply) (j : Sid) :
    (s.place p r).isActive j = s.isActive j := by simp [State.isActive]
@[simp] theorem State.sidOf_place (p : Port) (r : Reply) (q : Port) :
    (s.place p r).sidOf q = s.sidOf q := by simp [State.sidOf]

/-! ### leaveIgnore -/

@[simp] theorem State.leaveIgnore_crst (p : Port) :
    (s.leaveIgnore p).crst = s.crst := by unfold State.leaveIgnore; (try dsimp only); (repeat' split) <;> simp
@[simp] theorem State.leaveIgnore_sessions (p : Port) :
    (s.leaveIgnore p).sessions = s.sessions := by unfold State.leaveIgnore; (try dsimp only); (repeat' split) <;> simp
@[simp] theorem State.leaveIgnore_posted (p : Port) :
    (s.leaveIgnore p).posted = s.posted := by unfold State.leaveIgnore; (try dsimp only); (repeat' split) <;> simp
@[simp] theorem State.leaveIgnore_claims (p : Port) :
    (s.leaveIgnore p).claims = s.claims := by unfold State.leaveIgnore; (try dsimp only); (repeat' split) <;> simp
@[simp] theorem State.leaveIgnore_waits (p : Port) :
    (s.leaveIgnore p).waits = s.waits := by unfold State.leaveIgnore; (try dsimp only); (repeat' split) <;> simp
@[simp] theorem State.leaveIgnore_rows (p : Port) :
    (s.leaveIgnore p).rows = s.rows := by unfold State.leaveIgnore; (try dsimp only); (repeat' split) <;> simp
@[simp] theorem State.leaveIgnore_leased (p : Port) :
    (s.leaveIgnore p).leased = s.leased := by unfold State.leaveIgnore; (try dsimp only); (repeat' split) <;> simp
@[simp] theorem State.leaveIgnore_cells (p : Port) :
    (s.leaveIgnore p).cells = s.cells := by unfold State.leaveIgnore; (try dsimp only); (repeat' split) <;> simp
@[simp] theorem State.leaveIgnore_map (p : Port) :
    (s.leaveIgnore p).map = s.map := by unfold State.leaveIgnore; (try dsimp only); (repeat' split) <;> simp
@[simp] theorem State.leaveIgnore_uploads (p : Port) :
    (s.leaveIgnore p).uploads = s.uploads := by unfold State.leaveIgnore; (try dsimp only); (repeat' split) <;> simp
@[simp] theorem State.leaveIgnore_channels (p : Port) :
    (s.leaveIgnore p).channels = s.channels := by unfold State.leaveIgnore; (try dsimp only); (repeat' split) <;> simp
@[simp] theorem State.leaveIgnore_compositors (p : Port) :
    (s.leaveIgnore p).compositors = s.compositors :=
  by unfold State.leaveIgnore; (try dsimp only); (repeat' split) <;> simp
@[simp] theorem State.leaveIgnore_pending (p : Port) :
    (s.leaveIgnore p).pending = s.pending := by unfold State.leaveIgnore; (try dsimp only); (repeat' split) <;> simp
@[simp] theorem State.leaveIgnore_freeIndex (p : Port) :
    (s.leaveIgnore p).freeIndex = s.freeIndex :=
  by unfold State.leaveIgnore; (try dsimp only); (repeat' split) <;> simp
@[simp] theorem State.isActive_leaveIgnore (p : Port) (j : Sid) :
    (s.leaveIgnore p).isActive j = s.isActive j := by simp [State.isActive]
@[simp] theorem State.sidOf_leaveIgnore (p : Port) (q : Port) :
    (s.leaveIgnore p).sidOf q = s.sidOf q := by simp [State.sidOf]

/-! ### fileEvent -/

@[simp] theorem State.fileEvent_crst (x : Posted) :
    (s.fileEvent x).crst = s.crst := by unfold State.fileEvent; (try dsimp only); (repeat' split) <;> simp
@[simp] theorem State.fileEvent_ports (x : Posted) :
    (s.fileEvent x).ports = s.ports := by unfold State.fileEvent; (try dsimp only); (repeat' split) <;> simp
@[simp] theorem State.fileEvent_posted (x : Posted) :
    (s.fileEvent x).posted = s.posted := by unfold State.fileEvent; (try dsimp only); (repeat' split) <;> simp
@[simp] theorem State.fileEvent_claims (x : Posted) :
    (s.fileEvent x).claims = s.claims := by unfold State.fileEvent; (try dsimp only); (repeat' split) <;> simp
@[simp] theorem State.fileEvent_waits (x : Posted) :
    (s.fileEvent x).waits = s.waits := by unfold State.fileEvent; (try dsimp only); (repeat' split) <;> simp
@[simp] theorem State.fileEvent_rows (x : Posted) :
    (s.fileEvent x).rows = s.rows := by unfold State.fileEvent; (try dsimp only); (repeat' split) <;> simp
@[simp] theorem State.fileEvent_leased (x : Posted) :
    (s.fileEvent x).leased = s.leased := by unfold State.fileEvent; (try dsimp only); (repeat' split) <;> simp
@[simp] theorem State.fileEvent_cells (x : Posted) :
    (s.fileEvent x).cells = s.cells := by unfold State.fileEvent; (try dsimp only); (repeat' split) <;> simp
@[simp] theorem State.fileEvent_map (x : Posted) :
    (s.fileEvent x).map = s.map := by unfold State.fileEvent; (try dsimp only); (repeat' split) <;> simp
@[simp] theorem State.fileEvent_uploads (x : Posted) :
    (s.fileEvent x).uploads = s.uploads := by unfold State.fileEvent; (try dsimp only); (repeat' split) <;> simp
@[simp] theorem State.fileEvent_channels (x : Posted) :
    (s.fileEvent x).channels = s.channels := by unfold State.fileEvent; (try dsimp only); (repeat' split) <;> simp
@[simp] theorem State.fileEvent_compositors (x : Posted) :
    (s.fileEvent x).compositors = s.compositors :=
  by unfold State.fileEvent; (try dsimp only); (repeat' split) <;> simp
@[simp] theorem State.fileEvent_pending (x : Posted) :
    (s.fileEvent x).pending = s.pending := by unfold State.fileEvent; (try dsimp only); (repeat' split) <;> simp
@[simp] theorem State.fileEvent_freeIndex (x : Posted) :
    (s.fileEvent x).freeIndex = s.freeIndex := by unfold State.fileEvent; (try dsimp only); (repeat' split) <;> simp

/-! ### fileOldest -/

@[simp] theorem State.fileOldest_crst (x : Source) (p : Port) :
    (s.fileOldest x p).crst = s.crst := by unfold State.fileOldest; (try dsimp only); (repeat' split) <;> simp
@[simp] theorem State.fileOldest_ports (x : Source) (p : Port) :
    (s.fileOldest x p).ports = s.ports := by unfold State.fileOldest; (try dsimp only); (repeat' split) <;> simp
@[simp] theorem State.fileOldest_claims (x : Source) (p : Port) :
    (s.fileOldest x p).claims = s.claims := by unfold State.fileOldest; (try dsimp only); (repeat' split) <;> simp
@[simp] theorem State.fileOldest_waits (x : Source) (p : Port) :
    (s.fileOldest x p).waits = s.waits := by unfold State.fileOldest; (try dsimp only); (repeat' split) <;> simp
@[simp] theorem State.fileOldest_rows (x : Source) (p : Port) :
    (s.fileOldest x p).rows = s.rows := by unfold State.fileOldest; (try dsimp only); (repeat' split) <;> simp
@[simp] theorem State.fileOldest_leased (x : Source) (p : Port) :
    (s.fileOldest x p).leased = s.leased := by unfold State.fileOldest; (try dsimp only); (repeat' split) <;> simp
@[simp] theorem State.fileOldest_cells (x : Source) (p : Port) :
    (s.fileOldest x p).cells = s.cells := by unfold State.fileOldest; (try dsimp only); (repeat' split) <;> simp
@[simp] theorem State.fileOldest_map (x : Source) (p : Port) :
    (s.fileOldest x p).map = s.map := by unfold State.fileOldest; (try dsimp only); (repeat' split) <;> simp
@[simp] theorem State.fileOldest_uploads (x : Source) (p : Port) :
    (s.fileOldest x p).uploads = s.uploads := by unfold State.fileOldest; (try dsimp only); (repeat' split) <;> simp
@[simp] theorem State.fileOldest_channels (x : Source) (p : Port) :
    (s.fileOldest x p).channels = s.channels := by unfold State.fileOldest; (try dsimp only); (repeat' split) <;> simp
@[simp] theorem State.fileOldest_compositors (x : Source) (p : Port) :
    (s.fileOldest x p).compositors = s.compositors :=
  by unfold State.fileOldest; (try dsimp only); (repeat' split) <;> simp
@[simp] theorem State.fileOldest_pending (x : Source) (p : Port) :
    (s.fileOldest x p).pending = s.pending := by unfold State.fileOldest; (try dsimp only); (repeat' split) <;> simp
@[simp] theorem State.fileOldest_freeIndex (x : Source) (p : Port) :
    (s.fileOldest x p).freeIndex = s.freeIndex :=
  by unfold State.fileOldest; (try dsimp only); (repeat' split) <;> simp

/-! ### signal -/

@[simp] theorem State.signal_crst (c : Chan) (v : SignalState) :
    (s.signal c v).crst = s.crst := by unfold State.signal; (try dsimp only); (repeat' split) <;> simp
@[simp] theorem State.signal_ports (c : Chan) (v : SignalState) :
    (s.signal c v).ports = s.ports := by unfold State.signal; (try dsimp only); (repeat' split) <;> simp
@[simp] theorem State.signal_sessions (c : Chan) (v : SignalState) :
    (s.signal c v).sessions = s.sessions := by unfold State.signal; (try dsimp only); (repeat' split) <;> simp
@[simp] theorem State.signal_claims (c : Chan) (v : SignalState) :
    (s.signal c v).claims = s.claims := by unfold State.signal; (try dsimp only); (repeat' split) <;> simp
@[simp] theorem State.signal_waits (c : Chan) (v : SignalState) :
    (s.signal c v).waits = s.waits := by unfold State.signal; (try dsimp only); (repeat' split) <;> simp
@[simp] theorem State.signal_rows (c : Chan) (v : SignalState) :
    (s.signal c v).rows = s.rows := by unfold State.signal; (try dsimp only); (repeat' split) <;> simp
@[simp] theorem State.signal_leased (c : Chan) (v : SignalState) :
    (s.signal c v).leased = s.leased := by unfold State.signal; (try dsimp only); (repeat' split) <;> simp
@[simp] theorem State.signal_cells (c : Chan) (v : SignalState) :
    (s.signal c v).cells = s.cells := by unfold State.signal; (try dsimp only); (repeat' split) <;> simp
@[simp] theorem State.signal_map (c : Chan) (v : SignalState) :
    (s.signal c v).map = s.map := by unfold State.signal; (try dsimp only); (repeat' split) <;> simp
@[simp] theorem State.signal_uploads (c : Chan) (v : SignalState) :
    (s.signal c v).uploads = s.uploads := by unfold State.signal; (try dsimp only); (repeat' split) <;> simp
@[simp] theorem State.signal_compositors (c : Chan) (v : SignalState) :
    (s.signal c v).compositors = s.compositors := by unfold State.signal; (try dsimp only); (repeat' split) <;> simp
@[simp] theorem State.signal_pending (c : Chan) (v : SignalState) :
    (s.signal c v).pending = s.pending := by unfold State.signal; (try dsimp only); (repeat' split) <;> simp
@[simp] theorem State.signal_freeIndex (c : Chan) (v : SignalState) :
    (s.signal c v).freeIndex = s.freeIndex := by unfold State.signal; (try dsimp only); (repeat' split) <;> simp
@[simp] theorem State.isActive_signal (c : Chan) (v : SignalState) (j : Sid) :
    (s.signal c v).isActive j = s.isActive j := by simp [State.isActive]
@[simp] theorem State.sidOf_signal (c : Chan) (v : SignalState) (q : Port) :
    (s.signal c v).sidOf q = s.sidOf q := by simp [State.sidOf]

/-! ### activatePending -/

@[simp] theorem State.activatePending_crst (c : Chan) :
    (s.activatePending c).crst = s.crst := by unfold State.activatePending; (try dsimp only); (repeat' split) <;> simp
@[simp] theorem State.activatePending_ports (c : Chan) :
    (s.activatePending c).ports = s.ports :=
  by unfold State.activatePending; (try dsimp only); (repeat' split) <;> simp
@[simp] theorem State.activatePending_sessions (c : Chan) :
    (s.activatePending c).sessions = s.sessions :=
  by unfold State.activatePending; (try dsimp only); (repeat' split) <;> simp
@[simp] theorem State.activatePending_claims (c : Chan) :
    (s.activatePending c).claims = s.claims :=
  by unfold State.activatePending; (try dsimp only); (repeat' split) <;> simp
@[simp] theorem State.activatePending_waits (c : Chan) :
    (s.activatePending c).waits = s.waits :=
  by unfold State.activatePending; (try dsimp only); (repeat' split) <;> simp
@[simp] theorem State.activatePending_rows (c : Chan) :
    (s.activatePending c).rows = s.rows := by unfold State.activatePending; (try dsimp only); (repeat' split) <;> simp
@[simp] theorem State.activatePending_leased (c : Chan) :
    (s.activatePending c).leased = s.leased :=
  by unfold State.activatePending; (try dsimp only); (repeat' split) <;> simp
@[simp] theorem State.activatePending_cells (c : Chan) :
    (s.activatePending c).cells = s.cells :=
  by unfold State.activatePending; (try dsimp only); (repeat' split) <;> simp
@[simp] theorem State.activatePending_map (c : Chan) :
    (s.activatePending c).map = s.map := by unfold State.activatePending; (try dsimp only); (repeat' split) <;> simp
@[simp] theorem State.activatePending_uploads (c : Chan) :
    (s.activatePending c).uploads = s.uploads :=
  by unfold State.activatePending; (try dsimp only); (repeat' split) <;> simp
@[simp] theorem State.activatePending_compositors (c : Chan) :
    (s.activatePending c).compositors = s.compositors :=
  by unfold State.activatePending; (try dsimp only); (repeat' split) <;> simp
@[simp] theorem State.activatePending_pending (c : Chan) :
    (s.activatePending c).pending = s.pending :=
  by unfold State.activatePending; (try dsimp only); (repeat' split) <;> simp
@[simp] theorem State.activatePending_freeIndex (c : Chan) :
    (s.activatePending c).freeIndex = s.freeIndex :=
  by unfold State.activatePending; (try dsimp only); (repeat' split) <;> simp
@[simp] theorem State.isActive_activatePending (c : Chan) (j : Sid) :
    (s.activatePending c).isActive j = s.isActive j := by simp [State.isActive]
@[simp] theorem State.sidOf_activatePending (c : Chan) (q : Port) :
    (s.activatePending c).sidOf q = s.sidOf q := by simp [State.sidOf]

/-! ### latchFrame -/

@[simp] theorem State.latchFrame_crst (c : Chan) :
    (s.latchFrame c).crst = s.crst := by unfold State.latchFrame; (try dsimp only); (repeat' split) <;> simp
@[simp] theorem State.latchFrame_ports (c : Chan) :
    (s.latchFrame c).ports = s.ports := by unfold State.latchFrame; (try dsimp only); (repeat' split) <;> simp
@[simp] theorem State.latchFrame_sessions (c : Chan) :
    (s.latchFrame c).sessions = s.sessions := by unfold State.latchFrame; (try dsimp only); (repeat' split) <;> simp
@[simp] theorem State.latchFrame_claims (c : Chan) :
    (s.latchFrame c).claims = s.claims := by unfold State.latchFrame; (try dsimp only); (repeat' split) <;> simp
@[simp] theorem State.latchFrame_waits (c : Chan) :
    (s.latchFrame c).waits = s.waits := by unfold State.latchFrame; (try dsimp only); (repeat' split) <;> simp
@[simp] theorem State.latchFrame_rows (c : Chan) :
    (s.latchFrame c).rows = s.rows := by unfold State.latchFrame; (try dsimp only); (repeat' split) <;> simp
@[simp] theorem State.latchFrame_leased (c : Chan) :
    (s.latchFrame c).leased = s.leased := by unfold State.latchFrame; (try dsimp only); (repeat' split) <;> simp
@[simp] theorem State.latchFrame_cells (c : Chan) :
    (s.latchFrame c).cells = s.cells := by unfold State.latchFrame; (try dsimp only); (repeat' split) <;> simp
@[simp] theorem State.latchFrame_map (c : Chan) :
    (s.latchFrame c).map = s.map := by unfold State.latchFrame; (try dsimp only); (repeat' split) <;> simp
@[simp] theorem State.latchFrame_uploads (c : Chan) :
    (s.latchFrame c).uploads = s.uploads := by unfold State.latchFrame; (try dsimp only); (repeat' split) <;> simp
@[simp] theorem State.latchFrame_pending (c : Chan) :
    (s.latchFrame c).pending = s.pending := by unfold State.latchFrame; (try dsimp only); (repeat' split) <;> simp
@[simp] theorem State.latchFrame_freeIndex (c : Chan) :
    (s.latchFrame c).freeIndex = s.freeIndex := by unfold State.latchFrame; (try dsimp only); (repeat' split) <;> simp
@[simp] theorem State.isActive_latchFrame (c : Chan) (j : Sid) :
    (s.latchFrame c).isActive j = s.isActive j := by simp [State.isActive]
@[simp] theorem State.sidOf_latchFrame (c : Chan) (q : Port) :
    (s.latchFrame c).sidOf q = s.sidOf q := by simp [State.sidOf]

/-! ### frameStart -/

@[simp] theorem State.frameStart_crst (c : Chan) :
    (s.frameStart c).crst = s.crst := by unfold State.frameStart; (try dsimp only); (repeat' split) <;> simp
@[simp] theorem State.frameStart_ports (c : Chan) :
    (s.frameStart c).ports = s.ports := by unfold State.frameStart; (try dsimp only); (repeat' split) <;> simp
@[simp] theorem State.frameStart_sessions (c : Chan) :
    (s.frameStart c).sessions = s.sessions := by unfold State.frameStart; (try dsimp only); (repeat' split) <;> simp
@[simp] theorem State.frameStart_claims (c : Chan) :
    (s.frameStart c).claims = s.claims := by unfold State.frameStart; (try dsimp only); (repeat' split) <;> simp
@[simp] theorem State.frameStart_waits (c : Chan) :
    (s.frameStart c).waits = s.waits := by unfold State.frameStart; (try dsimp only); (repeat' split) <;> simp
@[simp] theorem State.frameStart_map (c : Chan) :
    (s.frameStart c).map = s.map := by unfold State.frameStart; (try dsimp only); (repeat' split) <;> simp
@[simp] theorem State.frameStart_uploads (c : Chan) :
    (s.frameStart c).uploads = s.uploads := by unfold State.frameStart; (try dsimp only); (repeat' split) <;> simp
@[simp] theorem State.frameStart_pending (c : Chan) :
    (s.frameStart c).pending = s.pending := by unfold State.frameStart; (try dsimp only); (repeat' split) <;> simp
@[simp] theorem State.frameStart_freeIndex (c : Chan) :
    (s.frameStart c).freeIndex = s.freeIndex := by unfold State.frameStart; (try dsimp only); (repeat' split) <;> simp
@[simp] theorem State.isActive_frameStart (c : Chan) (j : Sid) :
    (s.frameStart c).isActive j = s.isActive j := by simp [State.isActive]
@[simp] theorem State.sidOf_frameStart (c : Chan) (q : Port) :
    (s.frameStart c).sidOf q = s.sidOf q := by simp [State.sidOf]

/-! ### stopDrawing -/

@[simp] theorem State.stopDrawing_crst (c : Chan) :
    (s.stopDrawing c).crst = s.crst := by unfold State.stopDrawing; (try dsimp only); (repeat' split) <;> simp
@[simp] theorem State.stopDrawing_ports (c : Chan) :
    (s.stopDrawing c).ports = s.ports := by unfold State.stopDrawing; (try dsimp only); (repeat' split) <;> simp
@[simp] theorem State.stopDrawing_sessions (c : Chan) :
    (s.stopDrawing c).sessions = s.sessions := by unfold State.stopDrawing; (try dsimp only); (repeat' split) <;> simp
@[simp] theorem State.stopDrawing_claims (c : Chan) :
    (s.stopDrawing c).claims = s.claims := by unfold State.stopDrawing; (try dsimp only); (repeat' split) <;> simp
@[simp] theorem State.stopDrawing_waits (c : Chan) :
    (s.stopDrawing c).waits = s.waits := by unfold State.stopDrawing; (try dsimp only); (repeat' split) <;> simp
@[simp] theorem State.stopDrawing_map (c : Chan) :
    (s.stopDrawing c).map = s.map := by unfold State.stopDrawing; (try dsimp only); (repeat' split) <;> simp
@[simp] theorem State.stopDrawing_uploads (c : Chan) :
    (s.stopDrawing c).uploads = s.uploads := by unfold State.stopDrawing; (try dsimp only); (repeat' split) <;> simp
@[simp] theorem State.stopDrawing_pending (c : Chan) :
    (s.stopDrawing c).pending = s.pending := by unfold State.stopDrawing; (try dsimp only); (repeat' split) <;> simp
@[simp] theorem State.stopDrawing_freeIndex (c : Chan) :
    (s.stopDrawing c).freeIndex = s.freeIndex :=
  by unfold State.stopDrawing; (try dsimp only); (repeat' split) <;> simp
@[simp] theorem State.isActive_stopDrawing (c : Chan) (j : Sid) :
    (s.stopDrawing c).isActive j = s.isActive j := by simp [State.isActive]
@[simp] theorem State.sidOf_stopDrawing (c : Chan) (q : Port) :
    (s.stopDrawing c).sidOf q = s.sidOf q := by simp [State.sidOf]

/-! ### enterFreeRun -/

@[simp] theorem State.enterFreeRun_crst (c : Chan) :
    (s.enterFreeRun c).crst = s.crst := by unfold State.enterFreeRun; (try dsimp only); (repeat' split) <;> simp
@[simp] theorem State.enterFreeRun_ports (c : Chan) :
    (s.enterFreeRun c).ports = s.ports := by unfold State.enterFreeRun; (try dsimp only); (repeat' split) <;> simp
@[simp] theorem State.enterFreeRun_sessions (c : Chan) :
    (s.enterFreeRun c).sessions = s.sessions :=
  by unfold State.enterFreeRun; (try dsimp only); (repeat' split) <;> simp
@[simp] theorem State.enterFreeRun_claims (c : Chan) :
    (s.enterFreeRun c).claims = s.claims := by unfold State.enterFreeRun; (try dsimp only); (repeat' split) <;> simp
@[simp] theorem State.enterFreeRun_waits (c : Chan) :
    (s.enterFreeRun c).waits = s.waits := by unfold State.enterFreeRun; (try dsimp only); (repeat' split) <;> simp
@[simp] theorem State.enterFreeRun_map (c : Chan) :
    (s.enterFreeRun c).map = s.map := by unfold State.enterFreeRun; (try dsimp only); (repeat' split) <;> simp
@[simp] theorem State.enterFreeRun_uploads (c : Chan) :
    (s.enterFreeRun c).uploads = s.uploads := by unfold State.enterFreeRun; (try dsimp only); (repeat' split) <;> simp
@[simp] theorem State.enterFreeRun_pending (c : Chan) :
    (s.enterFreeRun c).pending = s.pending := by unfold State.enterFreeRun; (try dsimp only); (repeat' split) <;> simp
@[simp] theorem State.enterFreeRun_freeIndex (c : Chan) :
    (s.enterFreeRun c).freeIndex = s.freeIndex :=
  by unfold State.enterFreeRun; (try dsimp only); (repeat' split) <;> simp
@[simp] theorem State.isActive_enterFreeRun (c : Chan) (j : Sid) :
    (s.enterFreeRun c).isActive j = s.isActive j := by simp [State.isActive]
@[simp] theorem State.sidOf_enterFreeRun (c : Chan) (q : Port) :
    (s.enterFreeRun c).sidOf q = s.sidOf q := by simp [State.sidOf]

/-! ### enterSeeking -/

@[simp] theorem State.enterSeeking_crst (c : Chan) :
    (s.enterSeeking c).crst = s.crst := by unfold State.enterSeeking; (try dsimp only); (repeat' split) <;> simp
@[simp] theorem State.enterSeeking_ports (c : Chan) :
    (s.enterSeeking c).ports = s.ports := by unfold State.enterSeeking; (try dsimp only); (repeat' split) <;> simp
@[simp] theorem State.enterSeeking_sessions (c : Chan) :
    (s.enterSeeking c).sessions = s.sessions :=
  by unfold State.enterSeeking; (try dsimp only); (repeat' split) <;> simp
@[simp] theorem State.enterSeeking_claims (c : Chan) :
    (s.enterSeeking c).claims = s.claims := by unfold State.enterSeeking; (try dsimp only); (repeat' split) <;> simp
@[simp] theorem State.enterSeeking_waits (c : Chan) :
    (s.enterSeeking c).waits = s.waits := by unfold State.enterSeeking; (try dsimp only); (repeat' split) <;> simp
@[simp] theorem State.enterSeeking_map (c : Chan) :
    (s.enterSeeking c).map = s.map := by unfold State.enterSeeking; (try dsimp only); (repeat' split) <;> simp
@[simp] theorem State.enterSeeking_uploads (c : Chan) :
    (s.enterSeeking c).uploads = s.uploads := by unfold State.enterSeeking; (try dsimp only); (repeat' split) <;> simp
@[simp] theorem State.enterSeeking_pending (c : Chan) :
    (s.enterSeeking c).pending = s.pending := by unfold State.enterSeeking; (try dsimp only); (repeat' split) <;> simp
@[simp] theorem State.enterSeeking_freeIndex (c : Chan) :
    (s.enterSeeking c).freeIndex = s.freeIndex :=
  by unfold State.enterSeeking; (try dsimp only); (repeat' split) <;> simp
@[simp] theorem State.isActive_enterSeeking (c : Chan) (j : Sid) :
    (s.enterSeeking c).isActive j = s.isActive j := by simp [State.isActive]
@[simp] theorem State.sidOf_enterSeeking (c : Chan) (q : Port) :
    (s.enterSeeking c).sidOf q = s.sidOf q := by simp [State.sidOf]

end Sys2Proof.Machine
end

