-- ==== Sys2Proof/Laws/Apart.lean ====
section
/-! SUPPORT. The port interfaces make no difference to the other blocks: every operation of theirs commutes with a write of
a port (R165: the port interface holds no session state). -/
namespace Sys2Proof.Machine

theorem foldl_commutes {α : Type} {g : State → State} {f : State → α → State} (h : ∀ s x, f (g s) x = g (f s x))
    (l : List α) (s : State) : l.foldl f (g s) = g (l.foldl f s) := by
  induction l generalizing s with
  | nil => rfl
  | cons x rest ih => rw [List.foldl_cons, List.foldl_cons, h, ih]

/-- A write of a port goes into both branches of a choice. -/
theorem State.ite_modPort (c : Prop) [Decidable c] (s t : State) (q : Port) (f : PortIf → PortIf) :
    (if c then s else t).modPort q f = if c then s.modPort q f else t.modPort q f := by split <;> rfl

@[simp] theorem State.addRefs_modPort (s : State) (q : Port) (f : PortIf → PortIf) (x : List Position) :
    (s.modPort q f).addRefs x = (s.addRefs x).modPort q f := by
  exact foldl_commutes (g := fun u => u.modPort q f) (fun _ _ => by rfl) _ _

@[simp] theorem State.discardText_modPort (s : State) (q : Port) (f : PortIf → PortIf) (x : List Position) :
    (s.modPort q f).discardText x = (s.discardText x).modPort q f := by
  exact foldl_commutes (g := fun u => u.modPort q f) (fun _ _ => by rfl) _ _

@[simp] theorem State.broadcast_modPort (s : State) (q : Port) (f : PortIf → PortIf) (x : Source) (e : Option Port) (v : Event) :
    (s.modPort q f).broadcast x e v = (s.broadcast x e v).modPort q f := by
  exact foldl_commutes (g := fun u => u.modPort q f) (fun _ _ => by rw [State.ite_modPort]; rfl) _ _

@[simp] theorem State.postLanded_modPort (s : State) (q : Port) (f : PortIf → PortIf) (r : RowNo) :
    (s.modPort q f).postLanded r = (s.postLanded r).modPort q f := by
  unfold State.postLanded
  dsimp only [State.modPort_rows]
  split
  · rw [State.ite_modPort]; rfl
  · rfl
  · rfl

@[simp] theorem State.exchange_modPort (s : State) (q : Port) (f : PortIf → PortIf) (r : RowNo) (k : Content) (o : Origin) :
    (s.modPort q f).exchange r k o = (s.exchange r k o).modPort q f := by
  unfold State.exchange; simp only [State.addRefs_modPort]; rfl

@[simp] theorem State.settle_modPort (s : State) (q : Port) (f : PortIf → PortIf) (r : RowNo) :
    (s.modPort q f).settle r = (s.settle r).modPort q f := by
  unfold State.settle
  dsimp only [State.modPort_rows]
  split
  · rw [State.discardText_modPort, ← State.postLanded_modPort]; rfl
  · rw [← State.postLanded_modPort]; rfl

@[simp] theorem State.blankCommit_modPort (s : State) (q : Port) (f : PortIf → PortIf) (r : RowNo) :
    (s.modPort q f).blankCommit r = (s.blankCommit r).modPort q f := by
  unfold State.blankCommit
  dsimp only
  rw [State.exchange_modPort, State.settle_modPort, State.ite_modPort]
  rfl

@[simp] theorem State.land_modPort (s : State) (q : Port) (f : PortIf → PortIf) (r : RowNo) :
    (s.modPort q f).land r = (s.land r).modPort q f := by
  unfold State.land
  dsimp only
  rw [State.settle_modPort]
  split
  · rw [State.ite_modPort, ← State.blankCommit_modPort]; rfl
  · rfl

@[simp] theorem State.landIfFree_modPort (s : State) (q : Port) (f : PortIf → PortIf) (r : RowNo) :
    (s.modPort q f).landIfFree r = (s.landIfFree r).modPort q f := by
  unfold State.landIfFree
  rw [State.land_modPort, State.ite_modPort]
  rfl

@[simp] theorem State.releaseRow_modPort (s : State) (q : Port) (f : PortIf → PortIf) (c : Chan) (r : RowNo) :
    (s.modPort q f).releaseRow c r = (s.releaseRow c r).modPort q f := by
  unfold State.releaseRow
  dsimp only [State.modPort_rows]
  split
  · rw [State.ite_modPort, State.ite_modPort, ← State.land_modPort]; rfl
  · rfl

@[simp] theorem State.releaseChannel_modPort (s : State) (q : Port) (f : PortIf → PortIf) (c : Chan) :
    (s.modPort q f).releaseChannel c = (s.releaseChannel c).modPort q f := by
  exact foldl_commutes (g := fun u => u.modPort q f) (fun _ _ => by exact State.releaseRow_modPort _ _ _ _ _) _ _

@[simp] theorem State.grantRow_modPort (s : State) (q : Port) (f : PortIf → PortIf) (l : LeasedNo) :
    (s.modPort q f).grantRow l = (s.grantRow l).modPort q f := by
  rfl

@[simp] theorem State.leaveBlank_modPort (s : State) (q : Port) (f : PortIf → PortIf) (l : LeasedNo) :
    (s.modPort q f).leaveBlank l = (s.leaveBlank l).modPort q f := by
  unfold State.leaveBlank
  dsimp only
  rw [State.ite_modPort, ← State.blankCommit_modPort]; rfl

@[simp] theorem State.grant_modPort (s : State) (q : Port) (f : PortIf → PortIf) (r : Resource) :
    (s.modPort q f).grant r = (s.grant r).modPort q f := by
  unfold State.grant; split <;> rfl

@[simp] theorem State.leaveResource_modPort (s : State) (q : Port) (f : PortIf → PortIf) (r : Resource) (p : Port) (k : Bool) :
    (s.modPort q f).leaveResource r p k = (s.leaveResource r p k).modPort q f := by
  unfold State.leaveResource
  dsimp only [State.modPort_claims]
  split
  · rename_i w rest _
    have h : ∀ t : State, ((t.modPort q f).grant r).post .claimTable w (grantedEvent r p) =
        ((t.grant r).post .claimTable w (grantedEvent r p)).modPort q f := by
      intro t; rw [State.grant_modPort]; rfl
    exact h ((s.modClaim r fun _ => { holder := some w, waiters := rest }).modWait w.port fun n => n - 1)
  · split
    · rw [State.ite_modPort, ← State.leaveBlank_modPort]; rfl
    · rfl

@[simp] theorem State.removeWaits_modPort (s : State) (q : Port) (f : PortIf → PortIf) (i : Sid) :
    (s.modPort q f).removeWaits i = (s.removeWaits i).modPort q f := by
  rfl

@[simp] theorem State.leaveHoldings_modPort (s : State) (q : Port) (f : PortIf → PortIf) (i : Sid) :
    (s.modPort q f).leaveHoldings i = (s.leaveHoldings i).modPort q f := by
  refine foldl_commutes (g := fun u => u.modPort q f) (fun t r => ?_) _ _
  rw [State.ite_modPort, ← State.leaveResource_modPort]
  rfl

@[simp] theorem State.releaseCell_modPort (s : State) (q : Port) (f : PortIf → PortIf) (n : CellNo) :
    (s.modPort q f).releaseCell n = (s.releaseCell n).modPort q f := by
  rfl

@[simp] theorem State.dropUpload_modPort (s : State) (q : Port) (f : PortIf → PortIf) (i : Sid) :
    (s.modPort q f).dropUpload i = (s.dropUpload i).modPort q f := by
  unfold State.dropUpload State.uploadOf; dsimp only [State.modPort_uploads]; split <;> rfl

@[simp] theorem State.releaseVolatile_modPort (s : State) (q : Port) (f : PortIf → PortIf) (i : Sid) :
    (s.modPort q f).releaseVolatile i = (s.releaseVolatile i).modPort q f := by
  exact foldl_commutes (g := fun u => u.modPort q f) (fun _ _ => by rw [State.ite_modPort]; rfl) _ _

@[simp] theorem State.endGlyphs_modPort (s : State) (q : Port) (f : PortIf → PortIf) (i : Sid) :
    (s.modPort q f).endGlyphs i = (s.endGlyphs i).modPort q f := by
  unfold State.endGlyphs
  dsimp only
  rw [State.dropUpload_modPort, State.releaseVolatile_modPort]
  rfl

@[simp] theorem State.endNotice_modPort (s : State) (q : Port) (f : PortIf → PortIf) (i : Sid) :
    (s.modPort q f).endNotice i = (s.endNotice i).modPort q f := by
  unfold State.endNotice
  rw [← State.leaveHoldings_modPort, ← State.removeWaits_modPort, ← State.endGlyphs_modPort]
  rfl

@[simp] theorem State.endSession_modPort (s : State) (q : Port) (f : PortIf → PortIf) (p : Port) (c : EndCause) :
    (s.modPort q f).endSession p c = (s.endSession p c).modPort q f := by
  unfold State.endSession
  rw [← State.endNotice_modPort]
  rfl

@[simp] theorem State.renewLease_modPort (s : State) (q : Port) (f : PortIf → PortIf) (p : Port) :
    (s.modPort q f).renewLease p = (s.renewLease p).modPort q f := by
  rfl

@[simp] theorem State.fileEvent_modPort (s : State) (q : Port) (f : PortIf → PortIf) (x : Posted) :
    (s.modPort q f).fileEvent x = (s.fileEvent x).modPort q f := by
  unfold State.fileEvent
  split
  · rw [State.ite_modPort]; rfl
  · rfl

@[simp] theorem State.fileOldest_modPort (s : State) (q : Port) (f : PortIf → PortIf) (x : Source) (p : Port) :
    (s.modPort q f).fileOldest x p = (s.fileOldest x p).modPort q f := by
  unfold State.fileOldest
  dsimp only [State.modPort_posted]
  split
  · rw [← State.fileEvent_modPort]; rfl
  · rfl

@[simp] theorem State.signal_modPort (s : State) (q : Port) (f : PortIf → PortIf) (c : Chan) (v : SignalState) :
    (s.modPort q f).signal c v = (s.signal c v).modPort q f := by
  unfold State.signal; rw [← State.broadcast_modPort]; rfl

@[simp] theorem State.activatePending_modPort (s : State) (q : Port) (f : PortIf → PortIf) (c : Chan) :
    (s.modPort q f).activatePending c = (s.activatePending c).modPort q f := by
  unfold State.activatePending
  dsimp only [State.modPort_channels]
  split
  · split
    · rw [State.ite_modPort]; rfl
    · rfl
  · rfl

@[simp] theorem State.latchFrame_modPort (s : State) (q : Port) (f : PortIf → PortIf) (c : Chan) :
    (s.modPort q f).latchFrame c = (s.latchFrame c).modPort q f := by
  have hf : (s.modPort q f).frameLatch c = s.frameLatch c := rfl
  unfold State.latchFrame
  dsimp only
  rw [hf]
  dsimp only [State.modPort_claims, State.modChannel_claims, State.setCompositor_claims]
  cases (s.claims.get (chanResource c)).holder <;> (rw [State.ite_modPort]; rfl)

@[simp] theorem State.frameStart_modPort (s : State) (q : Port) (f : PortIf → PortIf) (c : Chan) :
    (s.modPort q f).frameStart c = (s.frameStart c).modPort q f := by
  unfold State.frameStart
  rw [State.activatePending_modPort, State.releaseChannel_modPort, State.latchFrame_modPort]

@[simp] theorem State.stopDrawing_modPort (s : State) (q : Port) (f : PortIf → PortIf) (c : Chan) :
    (s.modPort q f).stopDrawing c = (s.stopDrawing c).modPort q f := by
  unfold State.stopDrawing; rw [← State.releaseChannel_modPort]; rfl

@[simp] theorem State.enterFreeRun_modPort (s : State) (q : Port) (f : PortIf → PortIf) (c : Chan) :
    (s.modPort q f).enterFreeRun c = (s.enterFreeRun c).modPort q f := by
  have h : ∀ (t : State) (g h : Channel → Channel), (((t.modPort q f).modChannel c g).frameStart c).modChannel c h =
      (((t.modChannel c g).frameStart c).modChannel c h).modPort q f := by
    intro t g h
    have : (t.modPort q f).modChannel c g = (t.modChannel c g).modPort q f := rfl
    rw [this, State.frameStart_modPort]; rfl
  unfold State.enterFreeRun
  rw [State.signal_modPort, h]

@[simp] theorem State.enterSeeking_modPort (s : State) (q : Port) (f : PortIf → PortIf) (c : Chan) :
    (s.modPort q f).enterSeeking c = (s.enterSeeking c).modPort q f := by
  have h : ∀ (t : State) (g h : Channel → Channel), (((t.modPort q f).modChannel c g).modChannel c h).stopDrawing c =
      (((t.modChannel c g).modChannel c h).stopDrawing c).modPort q f := by
    intro t g h
    have : ((t.modPort q f).modChannel c g).modChannel c h = ((t.modChannel c g).modChannel c h).modPort q f := rfl
    rw [this, State.stopDrawing_modPort]
  unfold State.enterSeeking
  rw [State.signal_modPort, State.activatePending_modPort, h]

end Sys2Proof.Machine
end

