-- ==== Sys2Proof/Laws/Containers.lean ====
section
/-! SUPPORT. What reading and writing one place of a container gives. -/
namespace Sys2Proof

variable {α β : Type}

/-! ### Four like things -/

theorem Four.get_set (t : Four α) (i j : Fin 4) (a : α) : (t.set i a).get j = if i = j then a else t.get j := by
  fin_cases i <;> fin_cases j <;> rfl

@[simp] theorem Four.get_set_self (t : Four α) (i : Fin 4) (a : α) : (t.set i a).get i = a := by
  simp [Four.get_set]

theorem Four.get_set_ne (t : Four α) {i j : Fin 4} (h : i ≠ j) (a : α) : (t.set i a).get j = t.get j := by
  simp [Four.get_set, h]

theorem Four.get_modify (t : Four α) (i j : Fin 4) (f : α → α) :
    (t.modify i f).get j = if i = j then f (t.get j) else t.get j := by
  fin_cases i <;> fin_cases j <;> rfl

@[simp] theorem Four.get_modify_self (t : Four α) (i : Fin 4) (f : α → α) : (t.modify i f).get i = f (t.get i) := by
  simp [Four.get_modify]

theorem Four.get_modify_ne (t : Four α) {i j : Fin 4} (h : i ≠ j) (f : α → α) : (t.modify i f).get j = t.get j := by
  simp [Four.get_modify, h]

@[simp] theorem Four.get_map (f : α → β) (t : Four α) (i : Fin 4) : (t.map f).get i = f (t.get i) := by
  fin_cases i <;> rfl

@[simp] theorem Four.get_fill (a : α) (i : Fin 4) : (Four.fill a).get i = a := by fin_cases i <;> rfl

/-- Two containers with the same four things are equal. -/
theorem Four.ext_get {t u : Four α} (h : ∀ i, t.get i = u.get i) : t = u := by
  cases t; cases u
  have h0 := h 0; have h1 := h 1; have h2 := h 2; have h3 := h 3
  simp only [Four.get] at h0 h1 h2 h3
  simp_all

@[simp] theorem Four.set_get (t : Four α) (i : Fin 4) : t.set i (t.get i) = t := by fin_cases i <;> rfl

@[simp] theorem Four.set_set (t : Four α) (i : Fin 4) (a b : α) : (t.set i a).set i b = t.set i b := by
  fin_cases i <;> rfl

@[simp] theorem Four.modify_modify (t : Four α) (i : Fin 4) (f g : α → α) :
    (t.modify i f).modify i g = t.modify i fun a => g (f a) := by fin_cases i <;> rfl

@[simp] theorem Four.modify_id (t : Four α) (i : Fin 4) : (t.modify i fun a => a) = t := by fin_cases i <;> rfl

/-- Writes at different places commute. -/
theorem Four.set_comm (t : Four α) {i j : Fin 4} (h : i ≠ j) (a b : α) :
    (t.set i a).set j b = (t.set j b).set i a := by
  fin_cases i <;> fin_cases j <;> first | rfl | exact absurd rfl h

/-- A set is empty exactly when it has no member. -/
theorem ChanSet.isEmpty_iff (t : ChanSet) : ChanSet.isEmpty t = true ↔ ∀ c, t.get c = false := by
  constructor
  · intro h c
    rcases t with ⟨a, b, d, e⟩
    cases a <;> cases b <;> cases d <;> cases e <;> simp_all [ChanSet.isEmpty] <;> fin_cases c <;> rfl
  · intro h
    have h0 := h 0; have h1 := h 1; have h2 := h 2; have h3 := h 3
    simp only [Four.get] at h0 h1 h2 h3
    simp [ChanSet.isEmpty, h0, h1, h2, h3]

/-! ### Tables -/

theorem Table.get_set {n : Nat} (t : Table α n) (i j : Fin n) (a : α) :
    (t.set i a).get j = if i = j then a else t.get j := by
  simp only [Table.get, Table.set, List.getElem_set, Fin.ext_iff]

@[simp] theorem Table.get_set_self {n : Nat} (t : Table α n) (i : Fin n) (a : α) : (t.set i a).get i = a := by
  simp [Table.get_set]

theorem Table.get_set_ne {n : Nat} (t : Table α n) {i j : Fin n} (h : i ≠ j) (a : α) :
    (t.set i a).get j = t.get j := by simp [Table.get_set, h]

theorem Table.get_modify {n : Nat} (t : Table α n) (i j : Fin n) (f : α → α) :
    (t.modify i f).get j = if i = j then f (t.get j) else t.get j := by
  unfold Table.modify
  rw [Table.get_set]
  split
  · rename_i h; rw [h]
  · rfl

@[simp] theorem Table.get_modify_self {n : Nat} (t : Table α n) (i : Fin n) (f : α → α) :
    (t.modify i f).get i = f (t.get i) := by simp [Table.get_modify]

theorem Table.get_modify_ne {n : Nat} (t : Table α n) {i j : Fin n} (h : i ≠ j) (f : α → α) :
    (t.modify i f).get j = t.get j := by simp [Table.get_modify, h]

@[simp] theorem Table.get_map {n : Nat} (f : α → β) (t : Table α n) (i : Fin n) : (t.map f).get i = f (t.get i) := by
  simp [Table.get, Table.map]

@[simp] theorem Table.get_fill {n : Nat} (a : α) (i : Fin n) : (Table.fill n a).get i = a := by
  simp [Table.get, Table.fill]

/-- Two tables with the same things are equal. -/
theorem Table.ext_get {n : Nat} {t u : Table α n} (h : ∀ i, t.get i = u.get i) : t = u := by
  rcases t with ⟨a, ha⟩
  rcases u with ⟨b, hb⟩
  congr
  apply List.ext_getElem (by rw [ha, hb])
  intro i h1 h2
  exact h ⟨i, by omega⟩

/-- The things of a table are those at its places. -/
theorem Table.mem_cells {n : Nat} {t : Table α n} {a : α} : a ∈ t.cells ↔ ∃ i : Fin n, t.get i = a := by
  rw [List.mem_iff_getElem]
  constructor
  · rintro ⟨i, h, e⟩
    exact ⟨⟨i, by rw [← t.size]; exact h⟩, e⟩
  · rintro ⟨i, e⟩
    exact ⟨i.val, by rw [t.size]; exact i.isLt, e⟩

/-- A property of everything in a table is a property of every place. -/
theorem Table.forall_cells {n : Nat} {t : Table α n} {P : α → Prop} : (∀ a ∈ t.cells, P a) ↔ ∀ i, P (t.get i) := by
  simp only [Table.mem_cells]
  constructor
  · intro h i; exact h _ ⟨i, rfl⟩
  · rintro h a ⟨i, rfl⟩; exact h i

/-- The things of a table in the order of their places. -/
theorem Table.cells_eq {n : Nat} (t : Table α n) : t.cells = (ascending n).map t.get := by
  apply List.ext_getElem
  · simp [ascending, t.size]
  · intro i h1 h2
    simp [ascending, Table.get]

@[simp] theorem Table.set_get {n : Nat} (t : Table α n) (i : Fin n) : t.set i (t.get i) = t := by
  apply Table.ext_get
  intro j
  rw [Table.get_set]
  split
  · rename_i h; rw [h]
  · rfl

@[simp] theorem Table.set_set {n : Nat} (t : Table α n) (i : Fin n) (a b : α) :
    (t.set i a).set i b = t.set i b := by
  apply Table.ext_get
  intro j
  simp only [Table.get_set]
  split <;> rfl

@[simp] theorem Table.modify_modify {n : Nat} (t : Table α n) (i : Fin n) (f g : α → α) :
    (t.modify i f).modify i g = t.modify i fun a => g (f a) := by
  simp [Table.modify]

@[simp] theorem Table.modify_id {n : Nat} (t : Table α n) (i : Fin n) : (t.modify i fun a => a) = t := by
  simp [Table.modify]

/-! ### Ascending numbers -/

@[simp] theorem mem_ascending {n : Nat} (i : Fin n) : i ∈ ascending n := by simp [ascending]

theorem ascending_nodup (n : Nat) : (ascending n).Nodup := by
  rw [ascending, List.nodup_ofFn]
  exact fun _ _ h => h

@[simp] theorem ascending_length (n : Nat) : (ascending n).length = n := by simp [ascending]

/-- The first number with a property is the lowest. -/
theorem find?_ascending {n : Nat} (P : Fin n → Bool) (i : Fin n) (h : P i = true) (hlow : ∀ j, j < i → P j = false) :
    (ascending n).find? P = some i := by
  rw [List.find?_eq_some_iff_getElem]
  refine ⟨h, i.val, by simp, by simp [ascending], ?_⟩
  intro j hj
  have hji : j < n := by omega
  have := hlow ⟨j, hji⟩ (by rw [Fin.lt_def]; exact hj)
  simp [ascending, this]

end Sys2Proof
end

