-- ==== Sys2Proof/Laws/Rows.lean ====
section
/-! SUPPORT. The commit path in closed form: what a commit, a landing, a blank commit and the release of a channel make
of the rows, the cells' counts and the events in flight (R14–R28, R37, R39). -/
namespace Sys2Proof.Machine

/-! ### Posting -/

theorem foldl_broadcast (x : Source) (except : Option Port) (e : Event) (l : List Port) (s : State) :
    (l.foldl (fun s p => if (s.sessions.get p).active && except != some p then s.post x (s.sidOf p) e else s) s).posted =
      s.posted ++ l.filterMap fun p =>
        if (s.sessions.get p).active && except != some p then
          some { source := x, addressee := .session (s.sidOf p), event := e }
        else none := by
  induction l generalizing s with
  | nil => simp
  | cons p rest ih =>
    rw [List.foldl_cons, ih, List.filterMap_cons]
    by_cases h : ((s.sessions.get p).active && except != some p) = true
    · rw [if_pos h, if_pos h]; simp [List.append_assoc]
    · rw [if_neg h, if_neg h]

/-- A broadcast posts to each ACTIVE session but one, in ascending port (R151). -/
theorem State.broadcast_posted (s : State) (x : Source) (except : Option Port) (e : Event) :
    (s.broadcast x except e).posted = s.posted ++ s.postsTo x except e := foldl_broadcast _ _ _ _ _

/-- Who is told of what a session does depends on the other sessions alone (R151). -/
theorem State.postsTo_others (s t : State) (x : Source) (p : Port) (v : Event)
    (h : ∀ q : Port, p ≠ q → t.sessions.get q = s.sessions.get q) :
    t.postsTo x (some p) v = s.postsTo x (some p) v := by
  unfold State.postsTo
  apply List.filterMap_congr
  intro q _
  by_cases hq : p = q
  · subst hq; simp
  · simp [h q hq, State.sidOf]

theorem State.postLanded_posted (s : State) (r : RowNo) :
    (s.postLanded r).posted = s.posted ++ (s.landedPost r).toList := by
  unfold State.postLanded State.landedPost
  cases (s.rows.get r).live.origin with
  | session i => dsimp only; split <;> simp
  | part => simp
  | ended => simp

/-! ### Cells -/

/-- A cell that loses m references (R39). -/
def Cell.dropRefs (k : Cell) (m : Nat) : Cell :=
  { k with
    refs := k.refs - m
    state := if k.state = .retiring ∧ 0 < m ∧ k.refs - m = 0 then .free else k.state }

@[simp] theorem Cell.dropRefs_zero (k : Cell) : k.dropRefs 0 = k := by simp [Cell.dropRefs]

theorem Cell.dropRefs_add (k : Cell) (a b : Nat) : (k.dropRefs a).dropRefs b = k.dropRefs (a + b) := by
  rcases k with ⟨st, bm, adv, refs⟩
  simp only [Cell.dropRefs, Cell.mk.injEq, true_and]
  refine ⟨?_, by omega⟩
  by_cases hs : st = .retiring
  · subst hs
    simp only [true_and]
    by_cases h1 : 0 < a ∧ refs - a = 0
    · have h3 : 0 < a + b ∧ refs - (a + b) = 0 := by omega
      simp [h1, h3]
    · by_cases h2 : 0 < b ∧ refs - a - b = 0
      · have h3 : 0 < a + b ∧ refs - (a + b) = 0 := by omega
        simp [h1, h2, h3]
      · have h3 : ¬ (0 < a + b ∧ refs - (a + b) = 0) := by omega
        simp only [h1, ↓reduceIte, true_and, h2, h3]
  · simp [hs]

theorem Cell.dropRef_eq (k : Cell) : k.dropRef = k.dropRefs 1 := by
  simp [Cell.dropRef, Cell.dropRefs]

@[simp] theorem positionsIn_nil (n : CellNo) : positionsIn [] n = 0 := rfl

theorem positionsIn_cons (q : Position) (rest : List Position) (n : CellNo) :
    positionsIn (q :: rest) n = positionsIn rest n + if q.cell = n then 1 else 0 := by
  simp [positionsIn, List.countP_cons]

/-- A resolve request counts every position once (R14, R37). -/
theorem State.addRefs_get (s : State) (text : List Position) (n : CellNo) :
    (s.addRefs text).cells.get n =
      { s.cells.get n with refs := (s.cells.get n).refs + positionsIn text n } := by
  unfold State.addRefs
  induction text generalizing s with
  | nil => simp
  | cons q rest ih =>
    rw [List.foldl_cons, ih, positionsIn_cons, State.modCell_cells, Table.get_modify]
    split
    · simp only [Cell.mk.injEq, true_and]; omega
    · simp

/-- A discard request takes one reference for every position (R20, R39). -/
theorem State.discardText_get (s : State) (text : List Position) (n : CellNo) :
    (s.discardText text).cells.get n = (s.cells.get n).dropRefs (positionsIn text n) := by
  unfold State.discardText
  induction text generalizing s with
  | nil => simp
  | cons q rest ih =>
    rw [List.foldl_cons, ih, positionsIn_cons, State.modCell_cells, Table.get_modify]
    split
    · rw [Cell.dropRef_eq, Cell.dropRefs_add, Nat.add_comm]
    · simp

/-! ### The sum of the references that rows hold (R37) -/

theorem sum_set (l : List Nat) (i : Nat) (h : i < l.length) (a : Nat) : (l.set i a).sum + l[i] = l.sum + a := by
  induction l generalizing i with
  | nil => simp at h
  | cons x rest ih =>
    cases i with
    | zero => simp; omega
    | succ i =>
      simp only [List.length_cons, Nat.add_lt_add_iff_right] at h
      have := ih i h
      simp only [List.set_cons_succ, List.sum_cons, List.getElem_cons_succ]
      omega

/-- A row that is written changes the positions that resolve to a cell by its own. -/
theorem State.refsTo_of_set (s t : State) (r : RowNo) (x : Row) (h : t.rows = s.rows.set r x) (n : CellNo) :
    t.refsTo n + (s.rows.get r).refsTo n = s.refsTo n + x.refsTo n := by
  unfold State.refsTo
  rw [h]
  have hl : r.val < (s.rows.cells.map fun x => x.refsTo n).length := by
    rw [List.length_map, s.rows.size]; exact r.isLt
  have := sum_set (s.rows.cells.map fun x => x.refsTo n) r.val hl (x.refsTo n)
  simp only [List.getElem_map] at this
  simp only [Table.set, List.map_set]
  exact this

theorem State.refsTo_of_rows (s t : State) (h : t.rows = s.rows) (n : CellNo) : t.refsTo n = s.refsTo n := by
  unfold State.refsTo; rw [h]

/-- From s to t, cells have lost the references that rows have lost, by discards (R20, R37, R39). -/
def Discarded (s t : State) : Prop :=
  ∀ n : CellNo, ∃ m, t.cells.get n = (s.cells.get n).dropRefs m ∧ t.refsTo n + m = s.refsTo n

theorem Discarded.refl {s t : State} (hc : t.cells = s.cells) (hr : t.rows = s.rows) : Discarded s t := fun n =>
  ⟨0, by rw [hc]; simp, by rw [State.refsTo_of_rows s t hr]; simp⟩

theorem Discarded.trans {s t u : State} (h1 : Discarded s t) (h2 : Discarded t u) : Discarded s u := by
  intro n
  obtain ⟨a, ha, ha'⟩ := h1 n
  obtain ⟨b, hb, hb'⟩ := h2 n
  exact ⟨a + b, by rw [hb, ha, Cell.dropRefs_add], by omega⟩

/-- Only the rows and the cells matter. -/
theorem Discarded.of_eq {s t s' t' : State} (h : Discarded s t) (hs : s'.cells = s.cells) (hs' : s'.rows = s.rows)
    (ht : t'.cells = t.cells) (ht' : t'.rows = t.rows) : Discarded s' t' := by
  intro n
  obtain ⟨m, h1, h2⟩ := h n
  exact ⟨m, by rw [hs, ht]; exact h1, by
    rw [State.refsTo_of_rows t t' ht', State.refsTo_of_rows s s' hs']; exact h2⟩

theorem Discarded.discardsOnly {s t : State} (h : Discarded s t) : DiscardsOnly s t := by
  intro n
  obtain ⟨m, h1, _⟩ := h n
  rw [h1]
  simp only [Cell.dropRefs]
  refine ⟨by omega, ?_⟩
  split
  · rename_i h; exact Or.inr ⟨h.1, rfl, h.2.2⟩
  · exact Or.inl rfl

theorem Discarded.glyphsKept {s t : State} (h : Discarded s t) : GlyphsKept s t := by
  intro n
  obtain ⟨m, h1, _⟩ := h n
  rw [h1]; exact ⟨rfl, rfl⟩

/-! ### The holding set of a commit -/

theorem foldl_named (channels : Four Channel) (c : Chan) (l : List Placement) (m : ChanSet) :
    (l.foldl (fun m q => if (channels.get q.chan).state.running then m.set q.chan true else m) m).get c =
      (m.get c || ((channels.get c).state.running && (l.find? fun q => q.chan == c).isSome)) := by
  induction l generalizing m with
  | nil => simp
  | cons q rest ih =>
    rw [List.foldl_cons, ih, List.find?_cons]
    by_cases hq : q.chan = c
    · subst hq
      by_cases hr : (channels.get q.chan).state.running = true <;> simp [hr]
    · have : (q.chan == c) = false := by simpa using hq
      rw [this]
      by_cases hr : (channels.get q.chan).state.running = true
      · simp [hr, Four.get_set_ne _ hq]
      · simp [hr]

theorem runningNamed_get (channels : Four Channel) (v : Version) (c : Chan) :
    (runningNamed channels v).get c = ((channels.get c).state.running && (placementOn c v).isSome) := by
  fin_cases c <;> rfl

/-- The holding set of a commit is the running channels that the old live version names (R16). -/
theorem State.holdingSet_eq (s : State) (v : Version) : s.holdingSet v = runningNamed s.channels v := by
  apply Four.ext_get
  intro c
  unfold State.holdingSet
  rw [foldl_named, runningNamed_get]
  simp [placementOn]

/-- Only the states of the channels decide it. -/
theorem runningNamed_congr {a b : Four Channel} (h : ∀ c, (a.get c).state = (b.get c).state) (v : Version) :
    runningNamed a v = runningNamed b v := by
  apply Four.ext_get
  intro c
  rw [runningNamed_get, runningNamed_get, h]

theorem Row.blanked_congr {a b : Four Channel} (h : ∀ c, (a.get c).state = (b.get c).state) (x : Row) :
    Row.blanked a x = Row.blanked b x := by
  unfold Row.blanked; rw [runningNamed_congr h]

theorem Row.without_congr {a b : Four Channel} (h : ∀ c, (a.get c).state = (b.get c).state) (c : Chan) (mark : Bool)
    (x : Row) : Row.without a c mark x = Row.without b c mark x := by
  unfold Row.without; simp only [Row.blanked_congr h]

/-! ### Commits and landings -/

theorem State.exchange_rows (s : State) (r : RowNo) (k : Content) (o : Origin) :
    (s.exchange r k o).rows = s.rows.set r
      { live := s.newVersion r k o,
        held := some { version := (s.rows.get r).live, holding := runningNamed s.channels (s.rows.get r).live } } := by
  unfold State.exchange
  simp only [State.modRow_rows, State.addRefs_rows, Table.modify, State.holdingSet_eq]

theorem State.exchange_cells (s : State) (r : RowNo) (k : Content) (o : Origin) :
    (s.exchange r k o).cells = (s.addRefs (s.resolveText k.codes)).cells := rfl

theorem State.settle_rows (s : State) (r : RowNo) :
    (s.settle r).rows = s.rows.set r { s.rows.get r with held := none } := by
  unfold State.settle
  split <;> simp [Table.modify]

/-- The text of a held version, or none. -/
def Row.heldText (x : Row) : List Position :=
  match x.held with
  | some h => h.version.text
  | none => []

theorem Row.refsTo_eq (x : Row) (n : CellNo) : x.refsTo n = positionsIn x.live.text n + positionsIn x.heldText n := by
  unfold Row.refsTo Row.heldText positionsIn
  cases x.held <;> simp

theorem State.settle_get (s : State) (r : RowNo) (n : CellNo) :
    (s.settle r).cells.get n = (s.cells.get n).dropRefs (positionsIn (s.rows.get r).heldText n) := by
  unfold State.settle Row.heldText
  cases (s.rows.get r).held <;> simp [State.discardText_get]

theorem State.landedPost_congr (s t : State) (r : RowNo) (h : (t.rows.get r).live = (s.rows.get r).live)
    (ha : ∀ i, t.isActive i = s.isActive i) : t.landedPost r = s.landedPost r := by
  unfold State.landedPost Row.generation
  rw [h]
  simp only [ha]

theorem State.settle_posted (s : State) (r : RowNo) :
    (s.settle r).posted = s.posted ++ (s.landedPost r).toList := by
  unfold State.settle
  split
  · rw [State.postLanded_posted, State.landedPost_congr s _ r (by simp) (by simp)]; simp
  · rw [State.postLanded_posted, State.landedPost_congr s _ r (by simp) (by simp)]; simp

theorem State.settle_discarded (s : State) (r : RowNo) : Discarded s (s.settle r) := by
  intro n
  refine ⟨_, State.settle_get s r n, ?_⟩
  have := State.refsTo_of_set s (s.settle r) r _ (State.settle_rows s r) n
  simp only [Row.refsTo_eq] at this
  have h0 : positionsIn (Row.heldText { s.rows.get r with held := none }) n = 0 := rfl
  rw [h0] at this
  omega

/-- The row that a commit leaves when it has been settled or holds back its old version. -/
theorem heldBack_of_not_empty {old : Version} {holds : ChanSet} (h : ChanSet.isEmpty holds = false) :
    heldBack old holds = some { version := old, holding := holds } := by simp [heldBack, h]

theorem State.blank_newVersion (s : State) (r : RowNo) :
    s.newVersion r Content.blank .part =
      { Version.empty with generation := nextGeneration (s.rows.get r).generation } := rfl

/-- A blank commit changes its row, takes back the references of a text that it discards at once, and posts nothing
(R25). -/
theorem State.blankCommit_rows (s : State) (r : RowNo) :
    (s.blankCommit r).rows = s.rows.set r (Row.blanked s.channels (s.rows.get r)) := by
  unfold State.blankCommit
  dsimp only
  have hx := State.exchange_rows s r Content.blank .part
  split
  · rename_i h
    rw [State.settle_rows, hx]
    rw [hx] at h
    simp only [Table.get_set_self, Row.holding] at h
    simp only [Table.get_set_self, Table.set_set, Row.blanked, heldBack, h, ↓reduceIte]
    rfl
  · rename_i h
    rw [hx] at h ⊢
    simp only [Table.get_set_self, Row.holding] at h
    simp only [Row.blanked, heldBack, h]
    rfl

theorem State.blankCommit_posted (s : State) (r : RowNo) : (s.blankCommit r).posted = s.posted := by
  unfold State.blankCommit
  dsimp only
  split
  · rw [State.settle_posted]
    have : (s.exchange r Content.blank .part).landedPost r = none := by
      unfold State.landedPost
      rw [State.exchange_rows]
      simp [State.blank_newVersion, Version.empty]
    rw [this]; simp
  · simp

theorem State.blankCommit_get (s : State) (r : RowNo) (n : CellNo) :
    (s.blankCommit r).cells.get n =
      (s.cells.get n).dropRefs
        (if ChanSet.isEmpty (runningNamed s.channels (s.rows.get r).live) then
          positionsIn (s.rows.get r).live.text n else 0) := by
  have hc : (s.exchange r Content.blank .part).cells = s.cells := rfl
  unfold State.blankCommit
  dsimp only
  have hx := State.exchange_rows s r Content.blank .part
  have hh : ((s.exchange r Content.blank .part).rows.get r).holding =
      runningNamed s.channels (s.rows.get r).live := by rw [hx]; simp [Row.holding]
  rw [hh]
  split
  · rw [State.settle_get, hc, hx]
    simp [Row.heldText]
  · rw [hc]; simp

theorem State.blankCommit_discarded (s : State) (r : RowNo) (h : (s.rows.get r).held = none) :
    Discarded s (s.blankCommit r) := by
  intro n
  refine ⟨_, State.blankCommit_get s r n, ?_⟩
  have := State.refsTo_of_set s (s.blankCommit r) r _ (State.blankCommit_rows s r) n
  simp only [Row.refsTo_eq] at this
  have h0 : positionsIn (s.rows.get r).heldText n = 0 := by simp [Row.heldText, h]
  have h1 : positionsIn (Row.blanked s.channels (s.rows.get r)).live.text n = 0 := rfl
  rw [h0, h1] at this
  split
  · rename_i he
    have h2 : positionsIn (Row.blanked s.channels (s.rows.get r)).heldText n = 0 := by
      simp [Row.blanked, heldBack, he, Row.heldText]
    rw [h2] at this; omega
  · rename_i he
    have h2 : positionsIn (Row.blanked s.channels (s.rows.get r)).heldText n = positionsIn (s.rows.get r).live.text n := by
      simp [Row.blanked, heldBack, he, Row.heldText]
    rw [h2] at this; omega

/-- The row, after a landing, with its blank-pending mark (R19). -/
def Row.landed (channels : Four Channel) (mark : Bool) (x : Row) : Row :=
  if mark then Row.blanked channels { x with held := none } else { x with held := none }

theorem rowLeased_row (l : LeasedNo) : rowLeased (LeasedNo.row l) = some l := by
  unfold rowLeased LeasedNo.row; rw [dif_pos l.isLt]

theorem rowLeased_some {r : RowNo} {l : LeasedNo} (h : rowLeased r = some l) : LeasedNo.row l = r := by
  unfold rowLeased at h
  split at h
  · cases h; rfl
  · cases h

theorem State.land_rows (s : State) (r : RowNo) :
    (s.land r).rows = s.rows.set r (Row.landed s.channels (s.rowMark r) (s.rows.get r)) := by
  unfold State.land State.rowMark
  cases hl : rowLeased r with
  | some l =>
    simp only [State.settle_leased]
    by_cases hm : (s.leased.get l).blankPending = true
    · simp only [hm, ↓reduceIte]
      rw [State.blankCommit_rows]
      simp [State.settle_rows, Row.landed]
    · simp only [hm, Bool.false_eq_true, ↓reduceIte]
      rw [State.settle_rows]
      simp [Row.landed]
  | none => simp [State.settle_rows, Row.landed]

theorem State.land_leased (s : State) (r : RowNo) (l : LeasedNo) :
    (s.land r).leased.get l =
      if LeasedNo.row l = r then { s.leased.get l with blankPending := false } else s.leased.get l := by
  unfold State.land
  dsimp only
  by_cases hr : LeasedNo.row l = r
  · subst hr
    rw [rowLeased_row]
    simp only [↓reduceIte]
    split
    · simp
    · rename_i h
      simp only [State.settle_leased] at h ⊢
      rw [Bool.not_eq_true] at h
      rw [← h]
  · rw [if_neg hr]
    split
    · rename_i l' hl
      have hne : l' ≠ l := by
        rintro rfl; exact hr (rowLeased_some hl)
      split
      · simp [Table.get_modify_ne _ hne]
      · simp
    · simp

theorem State.land_posted (s : State) (r : RowNo) : (s.land r).posted = s.posted ++ (s.landedPost r).toList := by
  unfold State.land
  dsimp only
  split
  · split
    · rw [State.blankCommit_posted, State.modLeased_posted, State.settle_posted]
    · rw [State.settle_posted]
  · rw [State.settle_posted]

theorem State.land_discarded (s : State) (r : RowNo) : Discarded s (s.land r) := by
  unfold State.land
  dsimp only
  split
  · split
    · refine (State.settle_discarded s r).trans ?_
      refine Discarded.of_eq (State.blankCommit_discarded _ r ?_) ?_ ?_ rfl rfl
      · simp [State.settle_rows]
      · simp
      · simp
    · exact State.settle_discarded s r
  · exact State.settle_discarded s r

/-! ### The release of a channel (R18, R28) -/

theorem State.releaseRow_rows (s : State) (c : Chan) (r : RowNo) :
    (s.releaseRow c r).rows = s.rows.set r (Row.without s.channels c (s.rowMark r) (s.rows.get r)) := by
  unfold State.releaseRow Row.without
  rcases hh : (s.rows.get r).held with _ | h
  · simp
  · simp only
    by_cases hc : h.holding.get c = true
    · simp only [hc, ↓reduceIte, Bool.not_true, Bool.false_eq_true, Row.landsWithout, hh, Bool.true_and]
      by_cases he : ChanSet.isEmpty (h.holding.set c false) = true
      · simp only [he, ↓reduceIte, Bool.not_true, Bool.false_eq_true]
        rw [State.land_rows]
        simp only [State.modRow_rows, Table.get_modify_self, Row.landed, State.modRow_channels]
        have hm : (s.modRow r fun x => { x with held := some { h with holding := h.holding.set c false } }).rowMark r =
            s.rowMark r := rfl
        rw [hm]
        have hb : ∀ y : Option Held, Row.blanked s.channels { s.rows.get r with held := y } =
            Row.blanked s.channels (s.rows.get r) := fun _ => rfl
        simp [Table.modify, hb]
      · simp [he, Table.modify]
    · simp [hc]

theorem State.releaseRow_get (s : State) (c : Chan) (r q : RowNo) :
    (s.releaseRow c r).rows.get q =
      if r = q then Row.without s.channels c (s.rowMark r) (s.rows.get r) else s.rows.get q := by
  rw [State.releaseRow_rows, Table.get_set]

theorem State.releaseRow_leased_get (s : State) (c : Chan) (r : RowNo) (l : LeasedNo) :
    (s.releaseRow c r).leased.get l =
      if LeasedNo.row l = r then
        { s.leased.get l with blankPending := (s.leased.get l).blankPending && !(s.rows.get r).landsWithout c }
      else s.leased.get l := by
  unfold State.releaseRow Row.landsWithout
  rcases hh : (s.rows.get r).held with _ | h
  · simp
  · simp only
    by_cases hc : h.holding.get c = true
    · by_cases he : ChanSet.isEmpty (h.holding.set c false) = true
      · simp [hc, he, State.land_leased]
      · simp [hc, he]
    · simp [hc]

theorem State.releaseRow_posted (s : State) (c : Chan) (r : RowNo) :
    (s.releaseRow c r).posted =
      s.posted ++ (if (s.rows.get r).landsWithout c then s.landedPost r else none).toList := by
  unfold State.releaseRow Row.landsWithout
  rcases hh : (s.rows.get r).held with _ | h
  · simp
  · simp only
    by_cases hc : h.holding.get c = true
    · by_cases he : ChanSet.isEmpty (h.holding.set c false) = true
      · simp only [hc, he, ↓reduceIte, Bool.and_self]
        rw [State.land_posted, State.landedPost_congr s _ r (by simp) (by simp)]
        simp
      · simp [hc, he]
    · simp [hc]

theorem State.releaseRow_discarded (s : State) (c : Chan) (r : RowNo) : Discarded s (s.releaseRow c r) := by
  unfold State.releaseRow
  rcases hh : (s.rows.get r).held with _ | h
  · exact Discarded.refl rfl rfl
  · simp only
    split
    · have h1 : Discarded s (s.modRow r fun x => { x with held := some { h with holding := h.holding.set c false } }) := by
        intro n
        refine ⟨0, by simp, ?_⟩
        have := State.refsTo_of_set s (s.modRow r fun x => { x with held := some { h with holding := h.holding.set c false } })
          r _ rfl n
        simp only [Row.refsTo_eq, Row.heldText, hh] at this
        omega
      split
      · exact h1.trans (State.land_discarded _ r)
      · exact h1
    · exact Discarded.refl rfl rfl

theorem foldl_releaseRow (c : Chan) (l : List RowNo) (hn : l.Nodup) (s : State) :
    let t := l.foldl (fun s r => s.releaseRow c r) s
    (∀ r, t.rows.get r =
      if r ∈ l then Row.without s.channels c (s.rowMark r) (s.rows.get r) else s.rows.get r) ∧
    (∀ k : LeasedNo, t.leased.get k =
      if LeasedNo.row k ∈ l then
        { s.leased.get k with
          blankPending := (s.leased.get k).blankPending && !(s.rows.get (LeasedNo.row k)).landsWithout c }
      else s.leased.get k) ∧
    t.posted = s.posted ++
      (l.filterMap fun r => if (s.rows.get r).landsWithout c then s.landedPost r else none) ∧
    Discarded s t := by
  induction l generalizing s with
  | nil => exact ⟨by simp, by simp, by simp, Discarded.refl rfl rfl⟩
  | cons r rest ih =>
    obtain ⟨hr, hn'⟩ := List.nodup_cons.mp hn
    obtain ⟨h1, h2, h3, h4⟩ := ih hn' (s.releaseRow c r)
    simp only [List.foldl_cons]
    have hmark : ∀ q, q ≠ r → (s.releaseRow c r).rowMark q = s.rowMark q := by
      intro q hq
      unfold State.rowMark
      split
      · rename_i l hl
        rw [State.releaseRow_leased_get, if_neg (by rw [rowLeased_some hl]; exact hq)]
      · rfl
    have hrow : ∀ q, q ≠ r → (s.releaseRow c r).rows.get q = s.rows.get q := by
      intro q hq; rw [State.releaseRow_get, if_neg (Ne.symm hq)]
    refine ⟨?_, ?_, ?_, (State.releaseRow_discarded s c r).trans h4⟩
    · intro q
      rw [h1]
      by_cases hq : q = r
      · subst hq; simp [hr, State.releaseRow_get]
      · simp [hq, hrow q hq, hmark q hq]
    · intro k
      rw [h2]
      by_cases hk : LeasedNo.row k = r
      · simp [hk, hr, State.releaseRow_leased_get]
      · simp [hk, State.releaseRow_leased_get, hrow _ hk]
    · rw [h3, State.releaseRow_posted, List.filterMap_cons]
      have : rest.filterMap (fun q => if ((s.releaseRow c r).rows.get q).landsWithout c then
          (s.releaseRow c r).landedPost q else none) =
          rest.filterMap fun q => if (s.rows.get q).landsWithout c then s.landedPost q else none := by
        apply List.filterMap_congr
        intro q hq
        have hne : q ≠ r := by rintro rfl; exact hr hq
        rw [hrow q hne, State.landedPost_congr s _ q (by rw [hrow q hne]) (by simp)]
      rw [this]
      cases (if (s.rows.get r).landsWithout c then s.landedPost r else none) <;> simp

/-- The release of a channel from every holding set: rows, marks, events and cells (R18, R28). -/
theorem State.releaseChannel_spec (s : State) (c : Chan) :
    RowsWithout c s (s.releaseChannel c) ∧ (s.releaseChannel c).posted = s.posted ++ s.landedPosts c ∧
      Discarded s (s.releaseChannel c) := by
  obtain ⟨h1, h2, h3, h4⟩ := foldl_releaseRow c (ascending 48) (ascending_nodup 48) s
  refine ⟨⟨?_, ?_⟩, h3, h4⟩
  · intro r
    have := h1 r
    rw [if_pos (mem_ascending r)] at this
    rw [State.releaseChannel_channels]
    exact this
  · intro l
    have := h2 l
    rw [if_pos (mem_ascending _)] at this
    exact this

end Sys2Proof.Machine
end

