-- ==== Sys2Proof/Laws/Channels.lean ====
section
/-! SUPPORT. Changes of signal state and frame starts in closed form (R27, R92–R96, R98, R103, R106, R107). -/
namespace Sys2Proof.Machine

theorem State.signal_channels (s : State) (c : Chan) (v : SignalState) :
    (s.signal c v).channels = s.channels.modify c fun k => { k with state := v } := by
  unfold State.signal; simp

theorem State.postsTo_congr (s t : State) (x : Source) (e : Option Port) (v : Event) (h : t.sessions = s.sessions) :
    t.postsTo x e v = s.postsTo x e v := by
  unfold State.postsTo State.sidOf; rw [h]

theorem State.signal_posted (s : State) (c : Chan) (v : SignalState) :
    (s.signal c v).posted = s.posted ++ s.signalPosts c v := by
  unfold State.signal State.signalPosts
  rw [State.broadcast_posted, State.postsTo_congr s _ _ _ _ (by simp)]
  simp

/-- A pending configuration becomes active (R103). -/
theorem State.activatePending_channels (s : State) (c : Chan) :
    (s.activatePending c).channels = s.channels.modify c fun k => { k with active := k.nextConfig, pending := none } := by
  have key : ∀ x, (s.channels.get c).pending = some x →
      s.channels.modify c (fun k => { k with active := x.config, pending := none }) =
        s.channels.modify c fun k => { k with active := k.nextConfig, pending := none } := by
    intro x h; unfold Four.modify Channel.nextConfig; dsimp only; rw [h]
  unfold State.activatePending
  cases h : (s.channels.get c).pending with
  | some x =>
    cases ha : x.applier with
    | some i =>
      by_cases hi : s.isActive i = true
      · simpa [ha, hi] using key x h
      · simpa [ha, hi] using key x h
    | none => simpa [ha] using key x h
  | none =>
    have : ({ s.channels.get c with active := (s.channels.get c).nextConfig, pending := none } : Channel) =
        s.channels.get c := by
      unfold Channel.nextConfig
      rw [h]
      generalize s.channels.get c = k at h
      cases k; simp_all
    unfold Four.modify
    simp only [this]
    rw [Four.set_get]

theorem State.activatePending_posted (s : State) (c : Chan) :
    (s.activatePending c).posted = s.posted ++ s.appliedPosts c := by
  unfold State.activatePending State.appliedPosts
  cases h : (s.channels.get c).pending with
  | none => simp
  | some x =>
    cases ha : x.applier with
    | none => simp [ha]
    | some i => by_cases hi : s.isActive i = true <;> simp [ha, hi]

theorem State.appliedPosts_congr (s t : State) (c : Chan)
    (hp : (t.channels.get c).pending = (s.channels.get c).pending) (ha : ∀ i, t.isActive i = s.isActive i) :
    t.appliedPosts c = s.appliedPosts c := by
  unfold State.appliedPosts; simp only [hp, ha]

/-- Stage 3 of a frame start (R27, R106, R107, R113). -/
theorem State.latchFrame_channels (s : State) (c : Chan) :
    (s.latchFrame c).channels = s.channels.modify c fun k =>
      { k with overbooked := droppedCount c (s.frameLatch c) != 0, dropped := droppedCount c (s.frameLatch c) } := by
  unfold State.latchFrame
  dsimp only
  split
  · split <;> simp
  · simp

theorem State.latchFrame_compositors (s : State) (c : Chan) :
    (s.latchFrame c).compositors = s.compositors.set c (some (s.frameLatch c)) := by
  unfold State.latchFrame
  dsimp only
  split
  · split <;> simp
  · simp

theorem State.latchFrame_posted (s : State) (c : Chan) :
    (s.latchFrame c).posted = s.posted ++ s.overbookedPosts c (droppedCount c (s.frameLatch c)) := by
  unfold State.latchFrame State.overbookedPosts
  by_cases h : (!(s.channels.get c).overbooked && droppedCount c (s.frameLatch c) != 0) = true
  · cases hk : (s.claims.get (chanResource c)).holder <;> simp [h, hk]
  · cases (s.claims.get (chanResource c)).holder <;> simp [h]

theorem State.landedPosts_congr (s t : State) (c : Chan) (hr : t.rows = s.rows)
    (ha : ∀ i, t.isActive i = s.isActive i) : t.landedPosts c = s.landedPosts c := by
  unfold State.landedPosts
  apply List.filterMap_congr
  intro r _
  rw [hr, State.landedPost_congr s t r (by rw [hr]) ha]

theorem State.rowMark_congr (s t : State) (h : t.leased = s.leased) (r : RowNo) : t.rowMark r = s.rowMark r := by
  unfold State.rowMark; rw [h]

theorem RowsWithout.of_eq {c : Chan} {s t s' t' : State} (h : RowsWithout c s t) (hs : s'.rows = s.rows)
    (hs' : s'.leased = s.leased) (ht : t'.rows = t.rows) (ht' : t'.leased = t.leased)
    (hc : ∀ d, (t'.channels.get d).state = (t.channels.get d).state) : RowsWithout c s' t' := by
  obtain ⟨h1, h2⟩ := h
  refine ⟨fun r => ?_, fun l => ?_⟩
  · rw [ht, hs, h1, State.rowMark_congr s s' hs', Row.without_congr hc]
  · rw [ht', hs, hs', h2]

/-- One frame start after a change of the channel's fields that keeps its configurations (R27, R98). -/
theorem State.frameStart_spec (s : State) (c : Chan) :
    FrameMade c [] s (s.frameStart c) ∧ Discarded s (s.frameStart c) ∧
      ∃ mark n, (s.frameStart c).channels = s.channels.modify c (fun k =>
        { k with active := k.nextConfig, pending := none, overbooked := mark, dropped := n }) := by
  obtain ⟨hw, hp, hd⟩ := State.releaseChannel_spec (s.activatePending c) c
  let u := (s.activatePending c).releaseChannel c
  have hu : u.channels = s.channels.modify c fun k => { k with active := k.nextConfig, pending := none } := by
    simp only [u, State.releaseChannel_channels]; exact State.activatePending_channels s c
  have hch : (s.frameStart c).channels = u.channels.modify c fun k =>
      { k with overbooked := droppedCount c (u.frameLatch c) != 0, dropped := droppedCount c (u.frameLatch c) } :=
    State.latchFrame_channels u c
  have hrows : (s.frameStart c).rows = u.rows := by unfold State.frameStart; simp [u]
  have hleased : (s.frameStart c).leased = u.leased := by unfold State.frameStart; simp [u]
  have hcells : (s.frameStart c).cells = u.cells := by unfold State.frameStart; simp [u]
  have hcfg : (u.frameLatch c).config = (s.channels.get c).nextConfig := by
    simp only [State.frameLatch, hu, Four.get_modify_self]
  have hstate : ∀ d, ((s.frameStart c).channels.get d).state = (u.channels.get d).state := by
    intro d; rw [hch, Four.get_modify]; split <;> rfl
  refine ⟨⟨u.frameLatch c, ?_, ⟨hcfg, ?_, ?_⟩, ?_, ?_, ?_, ?_, ?_, ?_, ?_⟩, ?_, droppedCount c (u.frameLatch c) != 0,
    droppedCount c (u.frameLatch c), ?_⟩
  · have := State.latchFrame_compositors u c
    have hcomp : u.compositors = s.compositors := by simp [u]
    rw [hcomp] at this
    exact this
  · intro r; rw [hrows]; simp [State.frameLatch]
  · simp only [State.frameLatch, hu, Four.get_modify_self]
  · rw [hch, hu]; simp
  · rw [hch, hu]; simp
  · rw [hch, hu]; simp
  · rw [hch, hu]; simp [droppedCount, Config.drawBudget]
  · rw [hch, hu]
    simp only [Four.get_modify_self, droppedCount, Config.drawBudget]
    rw [Bool.eq_iff_iff]
    simp
  · have h1 := State.latchFrame_posted u c
    have h2 : u.posted = s.posted ++ s.appliedPosts c ++ s.landedPosts c := by
      simp only [u]
      rw [hp, State.activatePending_posted, State.landedPosts_congr s _ c (by simp) (by simp)]
    have h3 : u.overbookedPosts c (droppedCount c (u.frameLatch c)) =
        s.overbookedPosts c ((s.frameStart c).channels.get c).dropped := by
      have ha : ((s.frameStart c).channels.get c).dropped = droppedCount c (u.frameLatch c) := by
        rw [hch]; simp
      have hb : (u.channels.get c).overbooked = (s.channels.get c).overbooked := by rw [hu]; simp
      have hcl : u.claims = s.claims := by simp [u]
      rw [ha]; unfold State.overbookedPosts; rw [hb, hcl]
    show (u.latchFrame c).posted = _
    rw [h1, h2, h3]; simp
  · refine RowsWithout.of_eq hw (by simp) (by simp) hrows hleased ?_
    exact hstate
  · refine Discarded.trans (Discarded.of_eq hd (by simp) (by simp) rfl rfl : Discarded s u) ?_
    exact Discarded.refl hcells hrows
  · rw [hch, hu]
    simp

/-- A frame in terms of a state that differs before it by events posted, and after it by the timers. -/
theorem FrameMade.of {c : Chan} {signals : List Posted} {s s' t t' : State} (h : FrameMade c [] s t)
    (hcomp : s'.compositors = s.compositors)
    (hnext : (s'.channels.get c).nextConfig = (s.channels.get c).nextConfig)
    (hstaged : (s'.channels.get c).staged = (s.channels.get c).staged) (hposted : s.posted = s'.posted ++ signals)
    (happlied : s.appliedPosts c = s'.appliedPosts c) (hlanded : s.landedPosts c = s'.landedPosts c)
    (hover : ∀ d, s.overbookedPosts c d = s'.overbookedPosts c d) (hrows : s'.rows = s.rows)
    (hleased : s'.leased = s.leased) (tcomp : t'.compositors = t.compositors) (trows : t'.rows = t.rows)
    (tleased : t'.leased = t.leased) (tposted : t'.posted = t.posted)
    (tchan : ∀ d, ∃ x y, t'.channels.get d = { t.channels.get d with loss := x, freeRun := y }) :
    FrameMade c signals s' t' := by
  obtain ⟨f, h1, h2, h3, h4, h5, h6, h7, h8, h9⟩ := h
  obtain ⟨x, y, hc⟩ := tchan c
  refine ⟨f, by rw [tcomp, h1, hcomp], ⟨by rw [hnext]; exact h2.1, by rw [trows]; exact h2.2.1,
    by rw [hnext]; exact h2.2.2⟩, ?_, ?_, ?_, ?_, ?_, ?_, ?_⟩
  · rw [hc, hnext]; exact h3
  · rw [hc]; exact h4
  · rw [hc, hstaged]; exact h5
  · rw [hc]; exact h6
  · rw [hc]; exact h7
  · rw [tposted, hc, h8, hposted, happlied, hlanded, hover]; simp
  · refine RowsWithout.of_eq h9 hrows hleased trows tleased ?_
    intro d; obtain ⟨x, y, h⟩ := tchan d; rw [h]

/-- What a frame start leaves alone, from the closed forms of the parts it changes. -/
theorem FrameFrame.of {c : Chan} {s t : State} (hd : Discarded s t)
    (h : t.crst = s.crst ∧ t.ports = s.ports ∧ t.sessions = s.sessions ∧ t.claims = s.claims ∧ t.waits = s.waits ∧
      t.map = s.map ∧ t.uploads = s.uploads ∧ t.pending = s.pending ∧ t.freeIndex = s.freeIndex)
    (hx : ∀ d : Chan, d ≠ c →
      t.channels.get d = s.channels.get d ∧ t.compositors.get d = s.compositors.get d) : FrameFrame c s t := by
  obtain ⟨a1, a2, a3, a4, a5, a6, a7, a8, a9⟩ := h
  exact ⟨a1, a2, a3, ⟨a4, a5⟩, a6, a7, a8, a9, hx, hd.glyphsKept, hd.discardsOnly⟩

/-- The release of a channel that stops drawing (R95, steps 4 and 5; R113). -/
theorem State.stopDrawing_spec (s : State) (c : Chan) :
    RowsWithout c s (s.stopDrawing c) ∧ (s.stopDrawing c).posted = s.posted ++ s.landedPosts c ∧
      Discarded s (s.stopDrawing c) ∧
      (s.stopDrawing c).channels = s.channels.modify c (fun k => { k with overbooked := false, dropped := 0 }) ∧
      (s.stopDrawing c).compositors = s.compositors.set c none := by
  obtain ⟨hw, hp, hd⟩ := State.releaseChannel_spec
    ((s.modChannel c fun k => { k with overbooked := false, dropped := 0 }).setCompositor c none) c
  refine ⟨RowsWithout.of_eq hw rfl rfl rfl rfl (fun _ => rfl), ?_, Discarded.of_eq hd rfl rfl rfl rfl, ?_, ?_⟩
  · unfold State.stopDrawing
    rw [hp, State.landedPosts_congr s _ c (by simp) (by simp)]; simp
  · unfold State.stopDrawing; simp
  · unfold State.stopDrawing; simp

end Sys2Proof.Machine
end

