-- ==== Sys2Proof/Laws/Commit.lean ====
section
/-! SUPPORT. A taken commit in closed form: what it leaves in the row, the cells and the events in flight, and the
clipped-channel mask that it answers (R14–R17, R21, R83, R128). -/
namespace Sys2Proof.Machine

/-! ### The end of a commit (R16) -/

theorem State.landIfFree_rows (t : State) (r : RowNo) (hm : t.rowMark r = false) :
    (t.landIfFree r).rows =
      t.rows.set r
        (if ChanSet.isEmpty (t.rows.get r).holding then { t.rows.get r with held := none } else t.rows.get r) := by
  unfold State.landIfFree
  by_cases h : ChanSet.isEmpty (t.rows.get r).holding = true
  · simp [h, State.land_rows, Row.landed, hm]
  · simp [h]

theorem State.landIfFree_leased (t : State) (r : RowNo) (hm : t.rowMark r = false) :
    (t.landIfFree r).leased = t.leased := by
  unfold State.landIfFree
  split
  · apply Table.ext_get
    intro l
    rw [State.land_leased]
    split
    · rename_i hr
      have : (t.leased.get l).blankPending = false := by
        subst hr
        simpa [State.rowMark, rowLeased_row] using hm
      rw [← this]
    · rfl
  · rfl

theorem State.landIfFree_posted (t : State) (r : RowNo) :
    (t.landIfFree r).posted =
      t.posted ++ if ChanSet.isEmpty (t.rows.get r).holding then (t.landedPost r).toList else [] := by
  unfold State.landIfFree
  by_cases h : ChanSet.isEmpty (t.rows.get r).holding = true
  · simp [h, State.land_posted]
  · simp [h]

theorem State.land_cells (t : State) (r : RowNo) (hm : t.rowMark r = false) : (t.land r).cells = (t.settle r).cells := by
  unfold State.land
  dsimp only
  cases hl : rowLeased r with
  | none => rfl
  | some l =>
    have : (t.leased.get l).blankPending = false := by
      simpa [State.rowMark, hl] using hm
    simp [this]

theorem State.landIfFree_get (t : State) (r : RowNo) (hm : t.rowMark r = false) (n : CellNo) :
    (t.landIfFree r).cells.get n =
      (t.cells.get n).dropRefs
        (if ChanSet.isEmpty (t.rows.get r).holding then positionsIn (t.rows.get r).heldText n else 0) := by
  unfold State.landIfFree
  by_cases h : ChanSet.isEmpty (t.rows.get r).holding = true
  · simp [h, State.land_cells _ _ hm, State.settle_get]
  · simp [h]

/-- Counts and states after a commit, from a closed form of each cell (R14, R16, R20, R39). -/
theorem CountsCommitted.of_get {s t : State} {new old : List Position} {atOnce : Bool}
    (h : ∀ n, t.cells.get n =
      ({ s.cells.get n with refs := (s.cells.get n).refs + positionsIn new n } : Cell).dropRefs
        (if atOnce then positionsIn old n else 0)) : CountsCommitted s t new old atOnce := by
  intro n
  cases atOnce
  · simp [h, Cell.dropRefs]
  · simp [h, Cell.dropRefs]

theorem GlyphsKept.of_get {s t : State} {f g : CellNo → Nat}
    (h : ∀ n, t.cells.get n = ({ s.cells.get n with refs := f n } : Cell).dropRefs (g n)) : GlyphsKept s t := by
  intro n
  rw [h n]; exact ⟨rfl, rfl⟩

/-! ### The clipped-channel mask (R17, R128) -/

theorem foldl_mask (P : Placement → Bool) (c : Chan) (l : List Placement) (m : ChanSet) :
    (l.foldl (fun m q => if P q then m.set q.chan true else m) m).get c = true ↔
      m.get c = true ∨ ∃ q ∈ l, q.chan = c ∧ P q = true := by
  induction l generalizing m with
  | nil => simp
  | cons q rest ih =>
    rw [List.foldl_cons, ih]
    by_cases hp : P q = true
    · simp only [hp, ↓reduceIte, Four.get_set, List.mem_cons, exists_eq_or_imp, and_true]
      by_cases hc : q.chan = c <;> simp [hc]
    · simp [hp]

theorem clippedMask_get (channels : Four Channel) (cells : Table Cell 256) (v : Version) (c : Chan) :
    (clippedMask channels cells v).get c = true ↔
      ∃ q ∈ v.placements, q.chan = c ∧ placementClipped (channels.get c).active cells v q = true := by
  unfold clippedMask
  rw [foldl_mask (fun q => placementClipped (channels.get q.chan).active cells v q)]
  simp only [Four.get_fill, Bool.false_eq_true, false_or]
  constructor
  · rintro ⟨q, h1, h2, h3⟩; exact ⟨q, h1, h2, by rw [← h2]; exact h3⟩
  · rintro ⟨q, h1, h2, h3⟩; exact ⟨q, h1, h2, by rw [h2]; exact h3⟩

/-- The mask looks at the advances of the cells alone. -/
theorem placementClipped_congr {a b : Table Cell 256} (h : ∀ n, (a.get n).advance = (b.get n).advance)
    (k : ChanConfig) (v : Version) (q : Placement) : placementClipped k a v q = placementClipped k b v q := by
  have hs : ∀ text, advanceSum a text = advanceSum b text := by
    intro text; unfold advanceSum; simp only [h]
  unfold placementClipped boxOrigin boxWidth
  simp only [hs]

end Sys2Proof.Machine
end

