-- ==== Sys2Proof/Laws/Composition.lean ====
section
/-! SUPPORT. What the composition of a frame draws, one lemma for each part: text, tiles and rows (R111, R119–R126). -/
namespace Sys2Proof.Machine

theorem Scale.factor_pos (s : Scale) : 0 < s.factor := by cases s <;> decide

/-- Right of its last advance a text draws nothing (R120). -/
theorem textCode_beyond (s : Nat) (cells : Table Cell 256) (text : List Position) (dx dy : Nat)
    (h : s * advanceSum cells text ≤ dx) : textCode s cells text dx dy = 0#2 := by
  induction text generalizing dx with
  | nil => rfl
  | cons q rest ih =>
    have hs : advanceSum cells (q :: rest) = (cells.get q.cell).advance + advanceSum cells rest := by simp [advanceSum]
    rw [hs, Nat.mul_add] at h
    rw [textCode, if_neg (by omega)]
    exact ih _ (by omega)

/-- The pixel code of a text in column j of position n, in each of that column's s pixels (R120). -/
theorem textCode_at (s : Nat) (cells : Table Cell 256) (text : List Position) (n j dx dy : Nat) (u : Position)
    (hu : text[n]? = some u) (hj : j < (cells.get u.cell).advance)
    (h1 : s * advanceSum cells (text.take n) + s * j ≤ dx)
    (h2 : dx < s * advanceSum cells (text.take n) + s * (j + 1)) :
    textCode s cells text dx dy = cellCode (cells.get u.cell) (dy / s) j := by
  induction text generalizing dx n with
  | nil => simp at hu
  | cons q rest ih =>
    cases n with
    | zero =>
      simp only [List.getElem?_cons_zero, Option.some.injEq] at hu
      subst hu
      simp only [List.take_zero, advanceSum, List.map_nil, List.sum_nil, Nat.mul_zero, Nat.zero_add] at h1 h2
      have : s * (j + 1) ≤ s * (cells.get q.cell).advance := Nat.mul_le_mul_left s hj
      rw [textCode, if_pos (by omega)]
      have : dx / s = j := Nat.div_eq_of_lt_le (by rwa [Nat.mul_comm]) (by rwa [Nat.mul_comm])
      rw [this]
    | succ n =>
      have hs : advanceSum cells ((q :: rest).take (n + 1)) =
          (cells.get q.cell).advance + advanceSum cells (rest.take n) := by simp [advanceSum]
      rw [hs, Nat.mul_add] at h1 h2
      rw [textCode, if_neg (by omega)]
      exact ih n _ hu (by omega) (by omega)

theorem Rect.has_iff (r : Rect) (x y : Int) :
    r.has x y = true ↔ r.left ≤ x ∧ x ≤ r.right ∧ r.top ≤ y ∧ y ≤ r.bottom := by
  simp [Rect.has, and_assoc]

theorem inPlane_iff (k : ChanConfig) (x y : Int) :
    inPlane k x y = true ↔ 0 ≤ x ∧ x < k.raster.width ∧ 0 ≤ y ∧ y < k.raster.height := by
  simp [inPlane, and_assoc]

/-- No pixel lies in two tiles of a layout (R111). -/
theorem tile_unique (k : ChanConfig) (t u : Nat) (x y : Int) (ht : t < k.layout.tileCount)
    (hu : u < k.layout.tileCount) (h : (tileRect k t).has x y = true) (h' : (tileRect k u).has x y = true) : u = t := by
  rw [Rect.has_iff] at h h'
  unfold tileRect at h h'
  cases hl : k.layout <;> simp only [hl, Layout.tileCount, Layout.columns, Layout.tileRows] at ht hu h h' <;>
    cases hr : k.raster <;> simp only [hr, Raster.width, Raster.height] at h h' <;> omega

/-- The tile of a pixel is the one that has it (R111). -/
theorem tileAt_eq (k : ChanConfig) (t : Nat) (x y : Int) (ht : t < k.layout.tileCount)
    (h : (tileRect k t).has x y = true) : tileAt k x y = t := by
  unfold tileAt
  cases hf : (List.range k.layout.tileCount).find? fun t => (tileRect k t).has x y with
  | none => exact absurd h (by simpa using List.find?_eq_none.mp hf t (List.mem_range.mpr ht))
  | some u =>
    have := List.find?_some hf
    exact tile_unique k t u x y ht (List.mem_range.mp (List.mem_of_find?_eq_some hf)) h this

/-- One row at one pixel: beneath outside its clip rectangle and its box, and inside the box's blend and then the blend
of the colour of the text's pixel code there (R119–R126). -/
theorem drawRow_eq (k : ChanConfig) (cells : Table Cell 256) (v : Version) (q : Placement) (x y : Int)
    (beneath : Colour) (dx dy : Int) (hx : dx = x - (boxOrigin k cells v q).1)
    (hy : dy = y - (boxOrigin k cells v q).2) :
    drawRow k cells v q x y beneath =
      let margin := if v.style.box then 2 * k.scale.factor else 0
      let boxed := if v.style.box then blendOver v.style.blend v.style.shade beneath else beneath
      if (clipRect k q.tile.val).has x y = true ∧ 0 ≤ dx ∧ dx < boxWidth k cells v ∧ 0 ≤ dy ∧ dy < boxHeight k then
        if dx < margin then boxed
        else
          match codeColour v.style (textCode k.scale.factor cells v.text (dx.toNat - margin) dy.toNat) with
          | some colour => blendOver v.style.blend colour boxed
          | none => boxed
      else beneath := by
  subst hx hy
  unfold drawRow
  simp only [Bool.and_eq_true, decide_eq_true_eq, and_assoc] <;> rfl

end Sys2Proof.Machine
end

