-- ==== Sys2Proof/Laws/GlyphMap.lean ====
section
/-! SUPPORT. The glyph map as data: its canonical form is kept by every write, and what each write makes of the entry of
a code (R35, R46, R51, R53). -/
namespace Sys2Proof.Machine

/-- The canonical form, as an order on all pairs. -/
theorem mapSorted_iff (m : List MapEntry) :
    mapSorted m = true ↔ m.Pairwise fun a b => a.code.toNat < b.code.toNat := by
  induction m with
  | nil => simp [mapSorted]
  | cons x rest ih =>
    cases rest with
    | nil => simp [mapSorted]
    | cons y rest =>
      simp only [mapSorted, Bool.and_eq_true, decide_eq_true_eq, ih, List.pairwise_cons]
      constructor
      · rintro ⟨h1, h2, h3⟩
        refine ⟨?_, h2, h3⟩
        intro b hb
        rcases List.mem_cons.mp hb with rfl | hb
        · exact h1
        · exact Nat.lt_trans h1 (h2 b hb)
      · rintro ⟨h1, h2, h3⟩
        exact ⟨h1 y (by simp), h2, h3⟩

theorem mapErase_sorted {m : List MapEntry} (h : mapSorted m = true) (code : Half) :
    mapSorted (mapErase m code) = true := by
  rw [mapSorted_iff] at h ⊢
  exact h.filter _

theorem mapEndSession_sorted {m : List MapEntry} (h : mapSorted m = true) (i : Sid) :
    mapSorted (mapEndSession m i) = true := by
  rw [mapSorted_iff] at h ⊢
  unfold mapEndSession
  rw [List.pairwise_map]
  refine (h.filter _).imp ?_
  intro a b hab
  split <;> split <;> exact hab

theorem mem_mapInsert {e x : MapEntry} {m : List MapEntry} (h : x ∈ mapInsert e m) : x = e ∨ x ∈ m := by
  induction m with
  | nil => simpa [mapInsert] using h
  | cons y rest ih =>
    unfold mapInsert at h
    split at h
    · rcases List.mem_cons.mp h with h | h
      · exact .inl h
      · exact .inr (by simp [h])
    · split at h
      · rcases List.mem_cons.mp h with h | h
        · exact .inl h
        · exact .inr h
      · rcases List.mem_cons.mp h with h | h
        · exact .inr (by simp [h])
        · rcases ih h with h | h
          · exact .inl h
          · exact .inr (by simp [h])

theorem mapInsert_sorted {m : List MapEntry} (h : mapSorted m = true) (e : MapEntry) :
    mapSorted (mapInsert e m) = true := by
  rw [mapSorted_iff] at h ⊢
  induction m with
  | nil => simp [mapInsert]
  | cons y rest ih =>
    obtain ⟨h1, h2⟩ := List.pairwise_cons.mp h
    unfold mapInsert
    split
    · rename_i he
      refine List.pairwise_cons.mpr ⟨?_, h2⟩
      intro b hb; rw [he]; exact h1 b hb
    · rename_i he
      split
      · rename_i hlt
        refine List.pairwise_cons.mpr ⟨?_, h⟩
        intro b hb
        rcases List.mem_cons.mp hb with rfl | hb
        · exact hlt
        · exact Nat.lt_trans hlt (h1 b hb)
      · rename_i hlt
        refine List.pairwise_cons.mpr ⟨?_, ih h2⟩
        intro b hb
        rcases mem_mapInsert hb with rfl | hb
        · have : b.code.toNat ≠ y.code.toNat := fun hc => he (BitVec.eq_of_toNat_eq hc)
          omega
        · exact h1 b hb

/-- The entry of a code after an entry has been put in the map; the map need not be in its canonical form (R46). -/
theorem mapFind_mapInsert (m : List MapEntry) (e : MapEntry) (code : Half) :
    mapFind (mapInsert e m) code = if code = e.code then some e else mapFind m code := by
  induction m with
  | nil =>
    by_cases h : code = e.code
    · simp [mapInsert, mapFind, h]
    · simp [mapInsert, mapFind, h, Ne.symm h]
  | cons y rest ih =>
    unfold mapInsert
    split
    · rename_i he
      by_cases h : code = e.code
      · simp [mapFind, h]
      · have h' : ¬ y.code = code := fun hc => h (by rw [← hc, he])
        simp [mapFind, h, Ne.symm h, h']
    · rename_i he
      split
      · by_cases h : code = e.code
        · simp [mapFind, h]
        · simp [mapFind, h, Ne.symm h]
      · unfold mapFind at ih ⊢
        rw [List.find?_cons, List.find?_cons, ih]
        by_cases hy : y.code = code
        · have : ¬ code = e.code := fun hc => he (by rw [← hc, hy])
          simp [hy, this]
        · have : (y.code == code) = false := by simpa using hy
          simp [this]

/-- The four lines of a fragment, from byte 1 of the payload on (R44, R188). -/
theorem writeLines_written (f : Fin 6) (payload : List Byte) (b : Table Line 24) :
    FragmentWritten f.val payload b (writeLines b f (payload.drop 1)) := by
  intro i
  have hb : ∀ j, byteAt (payload.drop 1) j = payload.getD (1 + j) 0#8 := by
    intro j; unfold byteAt
    rw [List.getD_eq_getElem?_getD, List.getD_eq_getElem?_getD, List.getElem?_drop]
  have e : ∀ j : Fin 4, lineNo f j = i ↔ (i.val / 4 = f.val ∧ i.val % 4 = j.val) := by
    intro j; rw [Fin.ext_iff]; simp only [lineNo]; omega
  have hl : ∀ j, lineAt (payload.drop 1) j = payload.getD (1 + j) 0#8 ++ payload.getD (2 + j) 0#8 ++
      payload.getD (3 + j) 0#8 ++ payload.getD (4 + j) 0#8 := by
    intro j; unfold lineAt
    rw [hb, hb, hb, hb, ← Nat.add_assoc, show 1 + j + 1 = 2 + j by omega, show 1 + (j + 2) = 3 + j by omega,
      show 1 + (j + 3) = 4 + j by omega]
  unfold writeLines
  simp only [Table.get_set, e]
  by_cases h : i.val / 4 = f.val
  · simp only [h, true_and, ↓reduceIte, hl]
    have : i.val % 4 = 0 ∨ i.val % 4 = 1 ∨ i.val % 4 = 2 ∨ i.val % 4 = 3 := by omega
    rcases this with h | h | h | h <;> simp [h]
  · simp [h]

end Sys2Proof.Machine
end

