-- ==== Sys2Proof/Laws/Payload.lean ====
section
/-! SUPPORT. Reading back what was spelled: the wire forms of R185–R187 and their readers are inverse. -/
namespace Sys2Proof.Machine

theorem byteAt_append_left {a b : List Byte} {i : Nat} (h : i < a.length) : byteAt (a ++ b) i = byteAt a i := by
  unfold byteAt; rw [List.getD_append _ _ _ _ h]

/-- A flag byte is read by its value (R185). -/
theorem flag?_of_lt (b : Byte) (h : b.toNat < 2) : flag? b = some (decide (b = 0x01#8)) := by
  have : b = 0#8 ∨ b = 1#8 := by
    rcases (by omega : b.toNat = 0 ∨ b.toNat = 1) with h | h
    · left; exact BitVec.eq_of_toNat_eq (by simpa using h)
    · right; exact BitVec.eq_of_toNat_eq (by simpa using h)
  rcases this with rfl | rfl <;> rfl

theorem flag?_of_ge (b : Byte) (h : 2 ≤ b.toNat) : flag? b = none := by
  unfold flag?
  split
  · omega
  · omega
  · rfl

@[simp] theorem flag?_flagByte (b : Bool) : flag? (flagByte b) = some b := by cases b <;> rfl

theorem classes?_of_lt (b : Byte) (h : b.toNat < 64) : classes? b = some (b.setWidth 6) := by
  unfold classes?; rw [if_pos h]

theorem classes?_of_ge (b : Byte) (h : 64 ≤ b.toNat) : classes? b = none := by
  unfold classes?; rw [if_neg (by omega)]

@[simp] theorem setByte_setWidth (b : Byte) (h : b.toNat < 64) : setByte (b.setWidth 6) = b := by
  unfold setByte
  apply BitVec.eq_of_toNat_eq
  simp only [BitVec.toNat_setWidth]
  omega

@[simp] theorem classes?_setByte (m : BitVec 6) : classes? (setByte m) = some m := by
  unfold classes? setByte
  have := m.isLt
  rw [if_pos (by simp only [BitVec.toNat_setWidth]; omega)]
  congr 1
  apply BitVec.eq_of_toNat_eq
  simp only [BitVec.toNat_setWidth]
  omega

/-- The two bytes of a field are the field (R185). -/
theorem half_of_bytes (h : Half) : h.extractLsb' 8 8 ++ h.extractLsb' 0 8 = h := by
  rw [BitVec.extractLsb'_append_extractLsb'_eq_extractLsb' (by rfl)]; simp

@[simp] theorem halfAt_halfBytes (h : Half) (rest : List Byte) : halfAt (halfBytes h ++ rest) 0 = h := by
  exact half_of_bytes h

@[simp] theorem halfBytes_length (h : Half) : (halfBytes h).length = 2 := rfl

/-- A text is read back (R186). -/
theorem codesOf_flatMap (codes : List Half) : codesOf (codes.flatMap halfBytes) = codes := by
  induction codes with
  | nil => rfl
  | cons c rest ih =>
    show (c.extractLsb' 8 8 ++ c.extractLsb' 0 8) :: codesOf (rest.flatMap halfBytes) = _
    rw [ih, half_of_bytes]

theorem flatMap_halfBytes_length (codes : List Half) : (codes.flatMap halfBytes).length = 2 * codes.length := by
  induction codes with
  | nil => rfl
  | cons c rest ih => simp [ih]; omega

/-- An offset is read back (R186). -/
theorem offset?_ofInt {x : Int} (h : -1023 ≤ x ∧ x ≤ 1023) : offset? (BitVec.ofInt 16 x) = some x := by
  have : (BitVec.ofInt 16 x).toInt = x := by
    rw [BitVec.toInt_ofInt]
    simp only [Int.bmod]
    omega
  unfold offset?
  rw [this, if_pos h]

@[simp] theorem placementBytes_length (q : Placement) : (placementBytes q).length = 7 := rfl

theorem byte_toNat {n : Nat} (h : n < 256) : (BitVec.ofNat 8 n).toNat = n := by
  rw [BitVec.toNat_ofNat, Nat.mod_eq_of_lt h]

/-- The offsets that R5 admits. -/
abbrev OffsetsOk (q : Placement) : Prop := -1023 ≤ q.x ∧ q.x ≤ 1023 ∧ -1023 ≤ q.y ∧ q.y ≤ 1023

/-- A placement is read back (R186). -/
theorem placement?_bytes (q : Placement) (h : OffsetsOk q) : placement? (placementBytes q) = some q := by
  obtain ⟨c, t, a, x, y⟩ := q
  have hc : chan? (byteAt (placementBytes ⟨c, t, a, x, y⟩) 0) = some c := by
    show chan? (BitVec.ofNat 8 c.val) = _
    unfold chan?
    rw [dif_pos (by rw [byte_toNat (by omega)]; exact c.isLt)]
    congr 1
    exact Fin.ext (byte_toNat (by omega))
  have hx : halfAt (placementBytes ⟨c, t, a, x, y⟩) 3 = BitVec.ofInt 16 x := half_of_bytes _
  have hy : halfAt (placementBytes ⟨c, t, a, x, y⟩) 5 = BitVec.ofInt 16 y := half_of_bytes _
  have ht : (byteAt (placementBytes ⟨c, t, a, x, y⟩) 1).toNat = t.val := byte_toNat (by omega)
  have ha : (byteAt (placementBytes ⟨c, t, a, x, y⟩) 2).toNat = a.val := byte_toNat (by omega)
  unfold placement?
  rw [hc, hx, hy, offset?_ofInt ⟨h.1, h.2.1⟩, offset?_ofInt ⟨h.2.2.1, h.2.2.2⟩]
  simp only [ht, ha]
  rw [dif_pos ⟨t.isLt, a.isLt⟩]

theorem flatMap_placementBytes_length (list : List Placement) :
    (list.flatMap placementBytes).length = 7 * list.length := by
  induction list with
  | nil => rfl
  | cons q rest ih => simp [ih]; omega

/-- Placement records are read back, whatever follows them (R186). -/
theorem placementRecords?_bytes (list : List Placement) (rest : List Byte) (h : ∀ q ∈ list, OffsetsOk q) :
    placementRecords? list.length (list.flatMap placementBytes ++ rest) = some list := by
  induction list with
  | nil => rfl
  | cons q qs ih =>
    have h1 : ((q :: qs).flatMap placementBytes ++ rest).take 7 = placementBytes q := by
      simp [List.take_append]
    have h2 : ((q :: qs).flatMap placementBytes ++ rest).drop 7 = qs.flatMap placementBytes ++ rest := by
      rw [List.flatMap_cons, List.append_assoc]
      rw [List.drop_append_of_le_length (by simp)]
      simp
    rw [List.length_cons, placementRecords?, h1, h2, placement?_bytes q (h q (by simp)),
      ih fun q hq => h q (by simp [hq])]

theorem chansDistinct_iff (list : List Placement) : chansDistinct list = true ↔ (list.map Placement.chan).Nodup := by
  induction list with
  | nil => simp [chansDistinct]
  | cons q qs ih =>
    simp only [chansDistinct, Bool.and_eq_true, List.all_eq_true, bne_iff_ne, List.map_cons, List.nodup_cons, ih,
      List.mem_map, not_exists, not_and]

theorem placements?_bytes (list : List Placement) (rest : List Byte) (hl : list.length ≤ 4)
    (h : ∀ q ∈ list, OffsetsOk q) :
    placements? list.length (list.flatMap placementBytes ++ rest) =
      if (list.map Placement.chan).Nodup then some list else none := by
  unfold placements?
  rw [if_pos hl, placementRecords?_bytes list rest h]
  dsimp only
  by_cases hn : (list.map Placement.chan).Nodup
  · rw [if_pos hn, if_pos ((chansDistinct_iff list).mpr hn)]
  · rw [if_neg hn, if_neg (fun hc => hn ((chansDistinct_iff list).mp hc))]

/-- A style record is read back, whatever follows it (R186). -/
theorem style?_bytes (x : Style) (rest : List Byte) : style? (styleBytes x ++ rest) = some x := by
  obtain ⟨⟨a0, a1, a2⟩, ⟨a3, a4, a5⟩, ⟨a6, a7, a8⟩, blend, box, pr⟩ := x
  have hpr : (byteAt (styleBytes ⟨⟨a0, a1, a2⟩, ⟨a3, a4, a5⟩, ⟨a6, a7, a8⟩, blend, box, pr⟩ ++ rest) 11).toNat = pr.val :=
    byte_toNat (by omega)
  have hbox : flag? (byteAt (styleBytes ⟨⟨a0, a1, a2⟩, ⟨a3, a4, a5⟩, ⟨a6, a7, a8⟩, blend, box, pr⟩ ++ rest) 10) =
      some box := flag?_flagByte box
  have hblend : blend? (byteAt (styleBytes ⟨⟨a0, a1, a2⟩, ⟨a3, a4, a5⟩, ⟨a6, a7, a8⟩, blend, box, pr⟩ ++ rest) 9) =
      some blend := by cases blend <;> rfl
  unfold style?
  rw [hbox, hblend]
  simp only [hpr]
  rw [dif_pos pr.isLt]
  rfl

/-! ### Channel configuration (R187) -/

theorem fieldBytes_length (bit : Fin 10) (k : ChanConfig) : (fieldBytes bit k).length = fieldWidth bit := by
  fin_cases bit <;> rfl

/-- One field is read back (R187). -/
theorem writeField_bytes (bit : Fin 10) (k c : ChanConfig) (h : 1000 ≤ k.period ∧ k.period ≤ 5000) :
    writeField bit (fieldBytes bit k) c = some (copyField bit k c) := by
  have hp : (BitVec.ofNat 16 k.period).toNat = k.period := by rw [BitVec.toNat_ofNat]; omega
  have hh : halfAt (halfBytes (BitVec.ofNat 16 k.period)) 0 = BitVec.ofNat 16 k.period := half_of_bytes _
  have hb : (BitVec.ofNat 8 k.border.val).toNat = k.border.val := byte_toNat (by omega)
  have hra : raster? k.raster.byte = some k.raster := by cases k.raster <;> rfl
  have hla : layout? k.layout.byte = some k.layout := by cases k.layout <;> rfl
  have hsc : scale? k.scale.byte = some k.scale := by cases k.scale <;> rfl
  fin_cases bit
  · simp [writeField, fieldBytes, copyField, byteAt]
  · simp [writeField, fieldBytes, copyField, byteAt]
  · simp [writeField, fieldBytes, copyField, byteAt, hra]
  · simp [writeField, fieldBytes, copyField, hh, hp, h]
  · simp [writeField, fieldBytes, copyField, byteAt, hla]
  · simp [writeField, fieldBytes, copyField, byteAt, hsc]
  · simp [writeField, fieldBytes, copyField, byteAt, hb, k.border.isLt]
  · simp [writeField, fieldBytes, copyField, colourAt, Colour.bytes, byteAt]
  · simp [writeField, fieldBytes, copyField, colourAt, Colour.bytes, byteAt]
  · simp [writeField, fieldBytes, copyField, byteAt]

/-- The selected fields are read back (R187). -/
theorem writeFields_bytes (bits : List (Fin 10)) (k c : ChanConfig) (h : 1000 ≤ k.period ∧ k.period ≤ 5000) :
    writeFields bits (bits.flatMap fun bit => fieldBytes bit k) c =
      some (bits.foldl (fun c bit => copyField bit k c) c) := by
  induction bits generalizing c with
  | nil => rfl
  | cons bit rest ih =>
    rw [List.flatMap_cons, writeFields, List.take_left' (fieldBytes_length bit k),
      List.drop_left' (fieldBytes_length bit k), writeField_bytes bit k c h]
    exact ih _

theorem flatMap_fieldBytes_length (bits : List (Fin 10)) (k : ChanConfig) :
    (bits.flatMap fun bit => fieldBytes bit k).length = fieldsWidth bits := by
  induction bits with
  | nil => rfl
  | cons bit rest ih =>
    rw [List.flatMap_cons, List.length_append, ih, fieldBytes_length]
    simp [fieldsWidth]

/-! ### What is refused -/

theorem byteAt_take {bs : List Byte} {i n : Nat} (h : i < n) : byteAt (bs.take n) i = bs.getD i 0#8 := by
  unfold byteAt
  rw [List.getD_eq_getElem?_getD, List.getElem?_take, if_pos h, ← List.getD_eq_getElem?_getD]

theorem offset?_none {h : Half} (ho : h.toInt < -1023 ∨ 1023 < h.toInt) : offset? h = none := by
  unfold offset?
  rw [if_neg (by omega)]

/-- Seven bytes with a field outside its accepted values spell no placement (R186). -/
theorem placement?_none {bs : List Byte} (h : SpellsNoPlacement bs) : placement? (bs.take 7) = none := by
  have e : ∀ i, i < 7 → byteAt (bs.take 7) i = bs.getD i 0#8 := fun i hi => byteAt_take hi
  unfold placement? halfAt
  simp only [e 0 (by omega), e 1 (by omega), e 2 (by omega), e 3 (by omega), e (3 + 1) (by omega), e 5 (by omega),
    e (5 + 1) (by omega)]
  rcases h with h | h | h | h | h | h | h
  · have : chan? (bs.getD 0 0#8) = none := by unfold chan?; rw [dif_neg (by omega)]
    rw [this]
  · split
    · rw [dif_neg (by omega)]
    · rfl
  · split
    · rw [dif_neg (by omega)]
    · rfl
  · rw [offset?_none (.inl h)]
    split <;> simp_all
  · rw [offset?_none (.inr h)]
    split <;> simp_all
  · rw [offset?_none (.inl h)]
    split <;> simp_all
  · rw [offset?_none (.inr h)]
    split <;> simp_all

/-- One record that spells no placement spoils the list (R11, R186). -/
theorem placementRecords?_none {n i : Nat} {bs : List Byte} (hi : i < n) (h : SpellsNoPlacement (bs.drop (7 * i))) :
    placementRecords? n bs = none := by
  induction n generalizing i bs with
  | zero => omega
  | succ n ih =>
    rw [placementRecords?]
    cases i with
    | zero =>
      rw [placement?_none (by simpa using h)]
    | succ i =>
      rw [ih (i := i) (by omega) (by rw [List.drop_drop]; exact (by ring : 7 * (i + 1) = 7 + 7 * i) ▸ h)]
      split <;> simp_all

theorem placements?_none {n i : Nat} {bs : List Byte} (hi : i < n) (h : SpellsNoPlacement (bs.drop (7 * i))) :
    placements? n bs = none := by
  unfold placements?
  rw [placementRecords?_none hi h]
  exact ite_self none

/-- A value outside a field's spelling writes nothing (R99, R187). -/
theorem writeField_none {bit : Fin 10} {bs : List Byte} (k : ChanConfig) (h : SpellsNoField bit bs) :
    writeField bit bs k = none := by
  fin_cases bit
  · have : flag? (byteAt bs 0) = none := flag?_of_ge _ h
    simp [writeField, this]
  · have : flag? (byteAt bs 0) = none := flag?_of_ge _ h
    simp [writeField, this]
  · have h : 4 ≤ (byteAt bs 0).toNat := h
    have : raster? (byteAt bs 0) = none := by unfold raster?; split <;> first | omega | rfl
    simp [writeField, this]
  · have h : (halfAt bs 0).toNat < 1000 ∨ 5000 < (halfAt bs 0).toNat := h
    simp only [writeField]
    rw [if_neg (by omega)]
  · have h : 4 ≤ (byteAt bs 0).toNat := h
    have : layout? (byteAt bs 0) = none := by unfold layout?; split <;> first | omega | rfl
    simp [writeField, this]
  · have h : (byteAt bs 0).toNat = 0 ∨ 3 ≤ (byteAt bs 0).toNat := h
    have : scale? (byteAt bs 0) = none := by unfold scale?; split <;> first | omega | rfl
    simp [writeField, this]
  · have h : 16 ≤ (byteAt bs 0).toNat := h
    simp only [writeField]
    rw [dif_neg (by omega)]
  · exact absurd h (by simp [SpellsNoField])
  · exact absurd h (by simp [SpellsNoField])
  · have : classes? (byteAt bs 0) = none := classes?_of_ge _ h
    simp [writeField, this]

/-- One value outside its spelling spoils the selected fields (R100). -/
theorem writeFields_none {bits : List (Fin 10)} {value : Fin 10 → List Byte} (k : ChanConfig)
    (hl : ∀ bit, (value bit).length = fieldWidth bit) (h : ∃ bit ∈ bits, SpellsNoField bit (value bit)) :
    writeFields bits (bits.flatMap value) k = none := by
  induction bits generalizing k with
  | nil => simp at h
  | cons bit rest ih =>
    rw [List.flatMap_cons, writeFields, List.take_left' (hl bit), List.drop_left' (hl bit)]
    obtain ⟨x, hx, hs⟩ := h
    rcases List.mem_cons.mp hx with rfl | hx
    · rw [writeField_none k hs]
    · cases writeField bit (value bit) k with
      | none => rfl
      | some k' => exact ih k' ⟨x, hx, hs⟩

end Sys2Proof.Machine
end

