-- ==== Sys2Proof/Laws/PerInstr.lean ====
section
/-! SUPPORT. Facts about every step as syntax, made one lemma per constructor. -/

/-- The command code that a step's row gives is the code that the wire reads back as that step (R168, R172). -/
def Sys2Proof.Laws.CodeNames.Statement (i : Sys2Proof.Instr) : Prop :=
  i.wf = true → ∀ (p : Sys2Proof.Port) (code sid : Sys2Proof.Byte) (payload : List Sys2Proof.Byte),
    i.commandParts = some (p, code, sid, payload) → Sys2Proof.Instr.ofCode p code sid payload = i

namespace Sys2Proof.Laws.CodeNames

theorem attach (p : Port) (sid : Byte) (payload : List Byte) : Statement (.attach p sid payload) := by
  intro _ p' code' sid' payload' h
  simp only [Instr.commandParts, Option.some.injEq, Prod.mk.injEq] at h
  obtain ⟨rfl, rfl, rfl, rfl⟩ := h
  rfl

theorem detach (p : Port) (sid : Byte) (payload : List Byte) : Statement (.detach p sid payload) := by
  intro _ p' code' sid' payload' h
  simp only [Instr.commandParts, Option.some.injEq, Prod.mk.injEq] at h
  obtain ⟨rfl, rfl, rfl, rfl⟩ := h
  rfl

theorem renew (p : Port) (sid : Byte) (payload : List Byte) : Statement (.renew p sid payload) := by
  intro _ p' code' sid' payload' h
  simp only [Instr.commandParts, Option.some.injEq, Prod.mk.injEq] at h
  obtain ⟨rfl, rfl, rfl, rfl⟩ := h
  rfl

theorem setEventMask (p : Port) (sid : Byte) (payload : List Byte) : Statement (.setEventMask p sid payload) := by
  intro _ p' code' sid' payload' h
  simp only [Instr.commandParts, Option.some.injEq, Prod.mk.injEq] at h
  obtain ⟨rfl, rfl, rfl, rfl⟩ := h
  rfl

theorem readEvents (p : Port) (sid : Byte) (payload : List Byte) : Statement (.readEvents p sid payload) := by
  intro _ p' code' sid' payload' h
  simp only [Instr.commandParts, Option.some.injEq, Prod.mk.injEq] at h
  obtain ⟨rfl, rfl, rfl, rfl⟩ := h
  rfl

theorem claim (p : Port) (sid : Byte) (payload : List Byte) : Statement (.claim p sid payload) := by
  intro _ p' code' sid' payload' h
  simp only [Instr.commandParts, Option.some.injEq, Prod.mk.injEq] at h
  obtain ⟨rfl, rfl, rfl, rfl⟩ := h
  rfl

theorem release (p : Port) (sid : Byte) (payload : List Byte) : Statement (.release p sid payload) := by
  intro _ p' code' sid' payload' h
  simp only [Instr.commandParts, Option.some.injEq, Prod.mk.injEq] at h
  obtain ⟨rfl, rfl, rfl, rfl⟩ := h
  rfl

theorem cancelWait (p : Port) (sid : Byte) (payload : List Byte) : Statement (.cancelWait p sid payload) := by
  intro _ p' code' sid' payload' h
  simp only [Instr.commandParts, Option.some.injEq, Prod.mk.injEq] at h
  obtain ⟨rfl, rfl, rfl, rfl⟩ := h
  rfl

theorem readClaim (p : Port) (sid : Byte) (payload : List Byte) : Statement (.readClaim p sid payload) := by
  intro _ p' code' sid' payload' h
  simp only [Instr.commandParts, Option.some.injEq, Prod.mk.injEq] at h
  obtain ⟨rfl, rfl, rfl, rfl⟩ := h
  rfl

theorem editText (p : Port) (sid : Byte) (payload : List Byte) : Statement (.editText p sid payload) := by
  intro _ p' code' sid' payload' h
  simp only [Instr.commandParts, Option.some.injEq, Prod.mk.injEq] at h
  obtain ⟨rfl, rfl, rfl, rfl⟩ := h
  rfl

theorem setStyle (p : Port) (sid : Byte) (payload : List Byte) : Statement (.setStyle p sid payload) := by
  intro _ p' code' sid' payload' h
  simp only [Instr.commandParts, Option.some.injEq, Prod.mk.injEq] at h
  obtain ⟨rfl, rfl, rfl, rfl⟩ := h
  rfl

theorem setPlacements (p : Port) (sid : Byte) (payload : List Byte) : Statement (.setPlacements p sid payload) := by
  intro _ p' code' sid' payload' h
  simp only [Instr.commandParts, Option.some.injEq, Prod.mk.injEq] at h
  obtain ⟨rfl, rfl, rfl, rfl⟩ := h
  rfl

theorem commit (p : Port) (sid : Byte) (payload : List Byte) : Statement (.commit p sid payload) := by
  intro _ p' code' sid' payload' h
  simp only [Instr.commandParts, Option.some.injEq, Prod.mk.injEq] at h
  obtain ⟨rfl, rfl, rfl, rfl⟩ := h
  rfl

theorem readRow (p : Port) (sid : Byte) (payload : List Byte) : Statement (.readRow p sid payload) := by
  intro _ p' code' sid' payload' h
  simp only [Instr.commandParts, Option.some.injEq, Prod.mk.injEq] at h
  obtain ⟨rfl, rfl, rfl, rfl⟩ := h
  rfl

theorem writeCommon (p : Port) (sid : Byte) (payload : List Byte) : Statement (.writeCommon p sid payload) := by
  intro _ p' code' sid' payload' h
  simp only [Instr.commandParts, Option.some.injEq, Prod.mk.injEq] at h
  obtain ⟨rfl, rfl, rfl, rfl⟩ := h
  rfl

theorem glyphBegin (p : Port) (sid : Byte) (payload : List Byte) : Statement (.glyphBegin p sid payload) := by
  intro _ p' code' sid' payload' h
  simp only [Instr.commandParts, Option.some.injEq, Prod.mk.injEq] at h
  obtain ⟨rfl, rfl, rfl, rfl⟩ := h
  rfl

theorem glyphLines (p : Port) (sid : Byte) (payload : List Byte) : Statement (.glyphLines p sid payload) := by
  intro _ p' code' sid' payload' h
  simp only [Instr.commandParts, Option.some.injEq, Prod.mk.injEq] at h
  obtain ⟨rfl, rfl, rfl, rfl⟩ := h
  rfl

theorem glyphAbort (p : Port) (sid : Byte) (payload : List Byte) : Statement (.glyphAbort p sid payload) := by
  intro _ p' code' sid' payload' h
  simp only [Instr.commandParts, Option.some.injEq, Prod.mk.injEq] at h
  obtain ⟨rfl, rfl, rfl, rfl⟩ := h
  rfl

theorem glyphDelete (p : Port) (sid : Byte) (payload : List Byte) : Statement (.glyphDelete p sid payload) := by
  intro _ p' code' sid' payload' h
  simp only [Instr.commandParts, Option.some.injEq, Prod.mk.injEq] at h
  obtain ⟨rfl, rfl, rfl, rfl⟩ := h
  rfl

theorem readGlyph (p : Port) (sid : Byte) (payload : List Byte) : Statement (.readGlyph p sid payload) := by
  intro _ p' code' sid' payload' h
  simp only [Instr.commandParts, Option.some.injEq, Prod.mk.injEq] at h
  obtain ⟨rfl, rfl, rfl, rfl⟩ := h
  rfl

theorem readStore (p : Port) (sid : Byte) (payload : List Byte) : Statement (.readStore p sid payload) := by
  intro _ p' code' sid' payload' h
  simp only [Instr.commandParts, Option.some.injEq, Prod.mk.injEq] at h
  obtain ⟨rfl, rfl, rfl, rfl⟩ := h
  rfl

theorem channelSet (p : Port) (sid : Byte) (payload : List Byte) : Statement (.channelSet p sid payload) := by
  intro _ p' code' sid' payload' h
  simp only [Instr.commandParts, Option.some.injEq, Prod.mk.injEq] at h
  obtain ⟨rfl, rfl, rfl, rfl⟩ := h
  rfl

theorem channelApply (p : Port) (sid : Byte) (payload : List Byte) : Statement (.channelApply p sid payload) := by
  intro _ p' code' sid' payload' h
  simp only [Instr.commandParts, Option.some.injEq, Prod.mk.injEq] at h
  obtain ⟨rfl, rfl, rfl, rfl⟩ := h
  rfl

theorem readChannel (p : Port) (sid : Byte) (payload : List Byte) : Statement (.readChannel p sid payload) := by
  intro _ p' code' sid' payload' h
  simp only [Instr.commandParts, Option.some.injEq, Prod.mk.injEq] at h
  obtain ⟨rfl, rfl, rfl, rfl⟩ := h
  rfl

theorem unknownCommand (p : Port) (code : Byte) (sid : Byte) (payload : List Byte) : Statement (.unknownCommand p code sid payload) := by
  intro hw p' code' sid' payload' h
  simp only [Instr.commandParts, Option.some.injEq, Prod.mk.injEq] at h
  obtain ⟨rfl, rfl, rfl, rfl⟩ := h
  have hu : codeUnknown code = true := by
    simp only [Instr.wf, Bool.and_eq_true] at hw
    exact hw.1
  have h0 : Instr.ofCode p code sid payload = .unknownCommand p code sid payload ∨ codeUnknown code = false := by
    unfold codeUnknown Instr.ofCode
    split <;> simp
  rcases h0 with h0 | h0
  · exact h0
  · rw [hu] at h0; cases h0

theorem badFrame (p : Port) (f : RawFrame) : Statement (.badFrame p f) := by
  intro _ p' code' sid' payload' h; cases h

theorem fetchFrame (p : Port) (clocked : Nat) : Statement (.fetchFrame p clocked) := by
  intro _ p' code' sid' payload' h; cases h

theorem frameIgnored (p : Port) : Statement (.frameIgnored p) := by
  intro _ p' code' sid' payload' h; cases h

theorem powerOn (csn : Four Bool) : Statement (.powerOn csn) := by
  intro _ p' code' sid' payload' h; cases h

theorem crstAsserted (windows : Four Window) : Statement (.crstAsserted windows) := by
  intro _ p' code' sid' payload' h; cases h

theorem crstDeasserted (csn : Four Bool) : Statement (.crstDeasserted csn) := by
  intro _ p' code' sid' payload' h; cases h

theorem prstAsserted (p : Port) (window : Window) : Statement (.prstAsserted p window) := by
  intro _ p' code' sid' payload' h; cases h

theorem prstDeasserted (p : Port) (csn : Bool) : Statement (.prstDeasserted p csn) := by
  intro _ p' code' sid' payload' h; cases h

theorem inputFrameStart (c : Chan) : Statement (.inputFrameStart c) := by
  intro _ p' code' sid' payload' h; cases h

theorem lossTimerExpiry (c : Chan) : Statement (.lossTimerExpiry c) := by
  intro _ p' code' sid' payload' h; cases h

theorem freeRunTimerExpiry (c : Chan) : Statement (.freeRunTimerExpiry c) := by
  intro _ p' code' sid' payload' h; cases h

theorem leaseLow (p : Port) : Statement (.leaseLow p) := by
  intro _ p' code' sid' payload' h; cases h

theorem leaseExpiry (p : Port) : Statement (.leaseExpiry p) := by
  intro _ p' code' sid' payload' h; cases h

theorem eventFiling (source : Source) (p : Port) : Statement (.eventFiling source p) := by
  intro _ p' code' sid' payload' h; cases h

end Sys2Proof.Laws.CodeNames
end

