-- ==== Sys2Proof/Laws/Ports.lean ====
section
/-! SUPPORT. What a whole chip-select window does to its port: command frames, bad frames and fetch frames. -/
namespace Sys2Proof.Machine

/-! ### The bytes of a command frame (R168, R169) -/

theorem wireFrame_length (code sid : Byte) (pl : List Byte) : (wireFrame code sid pl).bytes.length = pl.length + 5 := by
  simp [wireFrame]

theorem wireFrame_take (code sid : Byte) (pl : List Byte) (h : pl.length ≤ Config.payloadBytes) :
    (wireFrame code sid pl).bytes.take Config.bufferBytes = (wireFrame code sid pl).bytes := by
  apply List.take_of_length_le
  rw [wireFrame_length]
  simp only [Config.payloadBytes, Config.bufferBytes] at *
  omega

/-- A command frame of at most 200 payload bytes is good (R168, R169). -/
theorem judge_wireFrame (code sid : Byte) (pl : List Byte) (h : pl.length ≤ Config.payloadBytes) :
    judge (wireFrame code sid pl).bytes 0 = none := by
  have hl : (BitVec.ofNat 8 pl.length).toNat = pl.length := by
    simp only [Config.payloadBytes] at h
    rw [BitVec.toNat_ofNat, Nat.mod_eq_of_lt (by omega)]
  have h3 : (wireFrame code sid pl).bytes.getD 3 0#8 = BitVec.ofNat 8 pl.length := rfl
  have hdrop : ((wireFrame code sid pl).bytes.drop 1).dropLast = code :: sid :: BitVec.ofNat 8 pl.length :: pl := by
    simp only [wireFrame, List.drop_succ_cons, List.drop_zero]
    exact List.dropLast_concat
  have hlast : (wireFrame code sid pl).bytes.getLastD 0#8 = crc8 (code :: sid :: BitVec.ofNat 8 pl.length :: pl) := by
    have : (wireFrame code sid pl).bytes = (commandMarker :: code :: sid :: BitVec.ofNat 8 pl.length :: pl) ++
        [crc8 (code :: sid :: BitVec.ofNat 8 pl.length :: pl)] := rfl
    rw [this, List.getLastD_eq_getLast?, List.getLast?_concat]; rfl
  unfold judge
  rw [h3, hl, hdrop, hlast, wireFrame_length]
  rw [if_neg (by simp [wireFrame, wrongMarker]), if_neg (by omega), if_neg (by omega), if_neg (by omega), if_neg (by omega),
    if_neg (by omega), if_neg (by simp)]

/-! ### Receiving -/

/-- The state of a port while a frame that does not open with the fetch marker comes in. -/
theorem clockBytes_command (q : PortIf) (bs : List Byte) (hq : q.recv = .command) :
    bs.foldl PortIf.clockByte q =
      { q with sdo := q.sdo ++ List.replicate bs.length filler,
               buffer := if q.buffer.length ≤ Config.bufferBytes then (q.buffer ++ bs).take Config.bufferBytes
                         else q.buffer } := by
  induction bs generalizing q with
  | nil =>
    cases q
    simp only [List.foldl_nil, List.length_nil, List.replicate_zero, List.append_nil, PortIf.mk.injEq, true_and,
      and_true]
    split
    · rename_i h; exact (List.take_of_length_le h).symm
    · rfl
  | cons b rest ih =>
    rw [List.foldl_cons]
    have hstep : q.clockByte b =
        { q with sdo := q.sdo ++ [filler],
                 buffer := if q.buffer.length < Config.bufferBytes then q.buffer ++ [b] else q.buffer } := by
      unfold PortIf.clockByte; rw [hq]
    rw [hstep, ih _ (by simpa using hq)]
    cases q
    rename_i buffer _ _ _ _ _ _ _ _
    simp only [PortIf.mk.injEq, true_and, and_true, List.append_assoc]
    refine ⟨?_, by simp [List.replicate_succ]⟩
    by_cases h1 : buffer.length < Config.bufferBytes
    · simp [h1, Nat.le_of_lt h1, Nat.succ_le_of_lt h1]
    · by_cases h2 : buffer.length ≤ Config.bufferBytes
      · have h3 : buffer.length = Config.bufferBytes := by omega
        simp [h3]
      · simp [h1, h2]

/-- What a window that carried a frame which is not a fetch leaves in its port, just before its close. -/
theorem receive_command (q : PortIf) (first : Byte) (rest : List Byte) (bits : Nat) (h : first ≠ fetchMarker) :
    q.receive ⟨first :: rest, bits⟩ =
      { q with recv := .command, buffer := (first :: rest).take Config.bufferBytes, bits := bits, delivered := 0,
               shifting := [], csn := true, sdo := List.replicate (rest.length + 1) filler,
               sdoTail := topBits filler bits } := by
  unfold PortIf.receive
  rw [List.foldl_cons]
  have hstep : q.openWindow.clockByte first =
      { q.openWindow with recv := .command, sdo := [filler], buffer := [first] } := by
    simp [PortIf.clockByte, PortIf.openWindow, h]
  rw [hstep, clockBytes_command _ _ rfl]
  cases q
  simp [PortIf.clockBits, PortIf.openWindow, Config.bufferBytes, List.replicate_succ]

/-- A window of fewer than eight bits. -/
theorem receive_bits (q : PortIf) (bits : Nat) :
    q.receive ⟨[], bits⟩ =
      { q with recv := .opening, buffer := [], bits := bits, delivered := 0, shifting := [], csn := true, sdo := [],
               sdoTail := topBits filler bits } := by
  cases q; simp [PortIf.receive, PortIf.clockBits, PortIf.openWindow]

/-! ### A whole window of a command frame -/

theorem closeFrame_ignored (s : State) (p : Port) (f : RawFrame) (taken : State → State × Reply)
    (h : s.inReset p = true) : s.closeFrame p f taken = s.modPort p PortIf.ignoreWindow := by
  unfold State.closeFrame; rw [if_pos h]

/-- A good command frame on a port that is not in reset is taken, and its response placed (R167, R171, R175). -/
theorem closeFrame_good (s : State) (p : Port) (code sid : Byte) (pl : List Byte) (taken : State → State × Reply)
    (h : s.inReset p = false) (hl : pl.length ≤ Config.payloadBytes) :
    s.closeFrame p (wireFrame code sid pl) taken =
      (taken (s.windowed p (pl.length + 5))).1.place p (taken (s.windowed p (pl.length + 5))).2 := by
  have hr := receive_command (s.ports.get p) commandMarker
    ((code :: sid :: BitVec.ofNat 8 pl.length :: pl) ++ [crc8 (code :: sid :: BitVec.ofNat 8 pl.length :: pl)]) 0
    (by decide)
  have hw : wireFrame code sid pl = ⟨commandMarker ::
    ((code :: sid :: BitVec.ofNat 8 pl.length :: pl) ++ [crc8 (code :: sid :: BitVec.ofNat 8 pl.length :: pl)]), 0⟩ := rfl
  have ht := wireFrame_take code sid pl hl
  have hj := judge_wireFrame code sid pl hl
  have hlen := wireFrame_length code sid pl
  rw [hw] at ht hj hlen
  simp only at ht hj hlen
  unfold State.closeFrame
  rw [if_neg (by simp [h]), hw, hr]
  simp only [ht, hj]
  have hclosed : (s.modPort p fun _ => PortIf.closeWindow
      { s.ports.get p with
        recv := .command, buffer := (commandMarker ::
          ((code :: sid :: BitVec.ofNat 8 pl.length :: pl) ++ [crc8 (code :: sid :: BitVec.ofNat 8 pl.length :: pl)])),
        bits := 0, delivered := 0, shifting := [], csn := true,
        sdo := List.replicate (((code :: sid :: BitVec.ofNat 8 pl.length :: pl) ++
          [crc8 (code :: sid :: BitVec.ofNat 8 pl.length :: pl)]).length + 1) filler,
        sdoTail := topBits filler 0 }) = s.windowed p (pl.length + 5) := by
    simp [State.modPort, State.windowed, Four.modify, PortIf.closeWindow, topBits]
  rw [hclosed]

/-- A command other than ATTACH whose session check passes and whose payload has an accepted length (R171, steps 3–5).
The window leaves the port as `windowed` says, the lease is renewed, and the owning block acts. -/
theorem commandFrame_taken (s : State) (p : Port) (code sid : Byte) (pl : List Byte) (lo hi : Nat)
    (own : Sid → State → State × Reply) (hc : Callable s p sid) (hl : pl.length ≤ Config.payloadBytes)
    (hlo : lo ≤ pl.length) (hhi : pl.length ≤ hi) :
    s.commandFrame p code sid pl lo hi own =
      (own (s.sidOf p) ((s.windowed p (pl.length + 5)).renewLease p)).1.place p
        (own (s.sidOf p) ((s.windowed p (pl.length + 5)).renewLease p)).2 := by
  unfold State.commandFrame
  rw [closeFrame_good s p code sid pl _ hc.1 hl]
  have hs : (s.windowed p (pl.length + 5)).sessionCheck p sid = true := hc.2
  have hsid : (s.windowed p (pl.length + 5)).sidOf p = s.sidOf p := rfl
  have hlen : (decide (pl.length < lo) || decide (pl.length > hi)) = false := by
    simp only [Bool.or_eq_false_iff, decide_eq_false_iff_not]; omega
  unfold State.takeCommand
  rw [if_pos hs, hsid]
  simp only [hlen, Bool.false_eq_true, ↓reduceIte]

/-- A taken command answers what its owning block answers, once that block is known to leave the port alone (R171). -/
theorem commandFrame_answer (s : State) (p : Port) (code sid : Byte) (pl : List Byte) (lo hi : Nat)
    (own : Sid → State → State × Reply) (hc : Callable s p sid) (hl : pl.length ≤ Config.payloadBytes)
    (hlo : lo ≤ pl.length) (hhi : pl.length ≤ hi) (t : State) (r : Reply)
    (h : own (s.sidOf p) ((s.windowed p (pl.length + 5)).renewLease p) = (t.windowed p (pl.length + 5), r)) :
    s.commandFrame p code sid pl lo hi own = t.answer p pl.length r := by
  rw [commandFrame_taken s p code sid pl lo hi own hc hl hlo hhi, h]; rfl

/-- A command with a payload length outside those accepted renews the lease and is refused (R173). -/
theorem commandFrame_length (s : State) (p : Port) (code sid : Byte) (pl : List Byte) (lo hi : Nat)
    (own : Sid → State → State × Reply) (hc : Callable s p sid) (hl : pl.length ≤ Config.payloadBytes)
    (hb : pl.length < lo ∨ hi < pl.length) :
    s.commandFrame p code sid pl lo hi own =
      (s.renewLease p).answer p pl.length { status := .badArg, payload := [stageLength] } := by
  unfold State.commandFrame
  rw [closeFrame_good s p code sid pl _ hc.1 hl]
  have hs : (s.windowed p (pl.length + 5)).sessionCheck p sid = true := hc.2
  have hlen : (decide (pl.length < lo) || decide (pl.length > hi)) = true := by
    simp only [Bool.or_eq_true, decide_eq_true_eq]; omega
  unfold State.takeCommand
  rw [if_pos hs]
  simp only [hlen, ↓reduceIte]
  rfl

/-- A command that fails the session check changes nothing but its port (R133). -/
theorem commandFrame_stale (s : State) (p : Port) (code sid : Byte) (pl : List Byte) (lo hi : Nat)
    (own : Sid → State → State × Reply) (hr : s.inReset p = false) (hs : s.sessionCheck p sid = false)
    (hl : pl.length ≤ Config.payloadBytes) :
    s.commandFrame p code sid pl lo hi own = s.answer p pl.length { status := .stale, payload := [] } := by
  unfold State.commandFrame
  rw [closeFrame_good s p code sid pl _ hr hl]
  have hs' : (s.windowed p (pl.length + 5)).sessionCheck p sid = false := hs
  unfold State.takeCommand
  rw [if_neg (by simp [hs'])]
  rfl

/-! ### A whole window of a bad frame -/

/-- A bad frame is answered with its reason and changes nothing but its port (R169, R175). -/
theorem closeFrame_bad (s : State) (p : Port) (f : RawFrame) (taken : State → State × Reply) (reason : BadReason)
    (h : s.inReset p = false) (hm : f.bytes.head? ≠ some fetchMarker)
    (hj : judge (f.bytes.take Config.bufferBytes) f.bits = some reason) :
    s.closeFrame p f taken =
      (s.modPort p fun q =>
        { q with recv := .idle, buffer := [], bits := 0, delivered := 0, shifting := [], csn := false,
                 sdo := List.replicate f.bytes.length filler, sdoTail := topBits filler f.bits }).place p
        { status := .badFrame, payload := [reason.byte] } := by
  rcases f with ⟨bytes, bits⟩
  unfold State.closeFrame
  rw [if_neg (by simp [h])]
  cases bytes with
  | nil =>
    rw [receive_bits]
    simp only [List.take_nil] at hj
    simp only [hj]
    simp [State.modPort, Four.modify, PortIf.closeWindow]
  | cons first rest =>
    have hf : first ≠ fetchMarker := by simpa using hm
    rw [receive_command _ _ _ _ hf]
    simp only at hj
    simp only [hj]
    simp [State.modPort, Four.modify, PortIf.closeWindow]

/-! ### A whole window of a fetch frame -/

/-- A fetch with nothing more to shift out carries filler (R176). -/
theorem fetchBytes_done (q : PortIf) (n : Nat) (hq : q.recv = .fetch) (hs : q.shifting = []) :
    (List.replicate n (0#8 : Byte)).foldl PortIf.clockByte q = { q with sdo := q.sdo ++ List.replicate n filler } := by
  induction n generalizing q with
  | zero => cases q; simp
  | succ n ih =>
    rw [List.replicate_succ, List.foldl_cons]
    have hstep : q.clockByte 0#8 = { q with sdo := q.sdo ++ [filler] } := by
      unfold PortIf.clockByte PortIf.fetchByte; simp only [hq, hs]
    rw [hstep, ih { q with sdo := q.sdo ++ [filler] } hq hs]
    cases q; simp [List.replicate_succ]

/-- n byte times of a fetch after byte 0 (R176, R177): the first n bytes of what is left to shift out, and filler after
them; the slot empties when the last of them has been shifted out. -/
theorem fetchBytes (q : PortIf) (n : Nat) (hq : q.recv = .fetch) (hs : q.shifting ≠ []) :
    let t := (List.replicate n (0#8 : Byte)).foldl PortIf.clockByte q
    t.recv = .fetch ∧ t.buffer = q.buffer ∧ t.bits = q.bits ∧ t.csn = q.csn ∧ t.prst = q.prst ∧
      t.sdoTail = q.sdoTail ∧ t.shifting = q.shifting.drop n ∧
      t.sdo = q.sdo ++ (q.shifting ++ List.replicate n filler).take n ∧
      t.slot = if q.shifting.length ≤ n then none else q.slot := by
  induction n generalizing q with
  | zero =>
    have : 0 < q.shifting.length := List.length_pos_iff.mpr hs
    simp only [List.replicate_zero, List.foldl_nil, List.take_zero, List.append_nil, List.drop_zero, true_and, hq]
    rw [if_neg (by omega)]
  | succ n ih =>
    rw [List.replicate_succ, List.foldl_cons]
    obtain ⟨b, rest, hbr⟩ := List.exists_cons_of_ne_nil hs
    have hstep : q.clockByte 0#8 =
        { q with sdo := q.sdo ++ [b], shifting := rest, slot := if rest.isEmpty then none else q.slot,
                 delivered := if rest.isEmpty || q.slot.isNone then 0 else q.delivered + 1 } := by
      unfold PortIf.clockByte PortIf.fetchByte; simp only [hq, hbr]
    rw [hstep]
    by_cases hr : rest = []
    · rw [fetchBytes_done { q with
        sdo := q.sdo ++ [b], shifting := rest, slot := if rest.isEmpty then none else q.slot,
        delivered := if rest.isEmpty || q.slot.isNone then 0 else q.delivered + 1 } n hq hr]
      simp only [hbr, hr, hq, List.isEmpty_nil, ↓reduceIte, List.length_cons, List.length_nil, List.drop_succ_cons,
        List.drop_nil, List.cons_append, List.nil_append, List.take_succ_cons, List.append_assoc, true_and]
      rw [List.take_replicate, if_pos (by omega)]
      simp
    · have hre : rest.isEmpty = false := by simpa using hr
      have := ih { q with sdo := q.sdo ++ [b], shifting := rest, slot := if rest.isEmpty then none else q.slot,
                          delivered := if rest.isEmpty || q.slot.isNone then 0 else q.delivered + 1 } hq hr
      simp only at this
      obtain ⟨h1, h2, h3, h4, h5, h6, h7, h8, h9⟩ := this
      refine ⟨h1, h2, h3, h4, h5, h6, ?_, ?_, ?_⟩
      · rw [h7, hbr]; rfl
      · rw [h8, hbr, List.append_assoc]
        congr 1
        simp only [List.cons_append, List.take_succ_cons, List.cons.injEq, true_and, List.nil_append]
        rw [List.take_append, List.take_append, List.take_replicate, List.take_replicate]
        congr 2; omega
      · rw [h9, hbr, hre]; simp

theorem Response.bytes_ne_nil (r : Response) : r.bytes ≠ [] := by simp [Response.bytes]

/-- A fetch on a port that is not in reset (R176, R177). -/
theorem fetchFrame_spec (s : State) (p : Port) (n : Nat) (h : s.inReset p = false) :
    s.fetchFrame p n =
      s.modPort p fun q =>
        let out := (q.slot.getD Response.empty).bytes
        { q with recv := .idle, buffer := [], bits := 0, delivered := 0, shifting := [], csn := false,
                 slot := if out.length ≤ n / 8 then none else q.slot,
                 sdo := filler :: (out ++ List.replicate (n / 8) filler).take (n / 8),
                 sdoTail := topBits ((out.drop (n / 8)).headD filler) (n % 8) } := by
  unfold State.fetchFrame
  rw [if_neg (by simp [h])]
  unfold State.modPort
  congr 1
  unfold Four.modify
  congr 1
  generalize s.ports.get p = q
  unfold PortIf.receive
  simp only [List.foldl_cons]
  have hstep : q.openWindow.clockByte fetchMarker =
      { q.openWindow with recv := .fetch, sdo := [filler], shifting := (q.slot.getD Response.empty).bytes } := by
    simp [PortIf.clockByte, PortIf.openWindow]
  rw [hstep]
  have := fetchBytes { q.openWindow with recv := .fetch, sdo := [filler],
                                         shifting := (q.slot.getD Response.empty).bytes } (n / 8) rfl
    (Response.bytes_ne_nil _)
  simp only at this
  generalize List.foldl PortIf.clockByte _ _ = t at this ⊢
  obtain ⟨h1, h2, h3, h4, h5, h6, h7, h8, h9⟩ := this
  cases t
  simp only at h1 h2 h3 h4 h5 h6 h7 h8 h9
  subst h1
  cases q
  simp_all [PortIf.clockBits, PortIf.closeWindow, PortIf.openWindow]

/-- A window that has opened keeps CSn asserted until it closes (R167). -/
theorem receive_csn (q : PortIf) (f : RawFrame) : (q.receive f).csn = true := by
  have h1 : ∀ (q : PortIf) b, (q.clockByte b).csn = q.csn := by
    intro q b; unfold PortIf.clockByte PortIf.fetchByte; (repeat' split) <;> rfl
  have h2 : ∀ (l : List Byte) (q : PortIf), (l.foldl PortIf.clockByte q).csn = q.csn := by
    intro l; induction l with
    | nil => intro q; rfl
    | cons b r ih => intro q; rw [List.foldl_cons, ih, h1]
  unfold PortIf.receive PortIf.clockBits
  split <;> simp [h2] <;> rfl

/-- What a port makes of a command code is the step that the code names (R172). -/
theorem exec_ofCode (p : Port) (code sid : Byte) (payload : List Byte) (s : State) :
    exec (Instr.ofCode p code sid payload) s = execCode p code sid payload s := by
  unfold Instr.ofCode execCode
  split <;> simp_all [exec, execUnknownCommand, execCode]

end Sys2Proof.Machine
end

