-- ==== Sys2Proof/Laws/SessionEnd.lean ====
section
/-! SUPPORT. The end of a session in closed form: what it leaves of the claims, the waits, the rows, the map, the uploads
and the events in flight (R22, R53, R66–R72, R103, R142–R144). -/
namespace Sys2Proof.Machine

/-! ### Resources and leased rows -/

theorem resourceRow_some {r : Resource} {l : LeasedNo} : resourceRow r = some l ↔ rowResource l = r := by
  unfold resourceRow rowResource
  split
  · rename_i h
    simp only [Option.some.injEq, Fin.ext_iff]
    omega
  · rename_i h
    simp only [reduceCtorEq, false_iff]
    rintro rfl
    exact h l.isLt

@[simp] theorem resourceRow_row (l : LeasedNo) : resourceRow (rowResource l) = some l := resourceRow_some.mpr rfl

theorem rowResource_injective {a b : LeasedNo} (h : rowResource a = rowResource b) : a = b := by
  have := congrArg Fin.val h
  exact Fin.ext this

theorem LeasedNo.row_injective {a b : LeasedNo} (h : LeasedNo.row a = LeasedNo.row b) : a = b := by
  have := congrArg Fin.val h
  exact Fin.ext this

/-! ### Leaving one resource (R66, R67) -/

theorem State.leaveBlank_rows (s : State) (l : LeasedNo) :
    (s.leaveBlank l).rows =
      if (s.rows.get (LeasedNo.row l)).swapping then s.rows
      else s.rows.set (LeasedNo.row l) (Row.blanked s.channels (s.rows.get (LeasedNo.row l))) := by
  unfold State.leaveBlank
  dsimp only
  by_cases h : (s.rows.get (LeasedNo.row l)).swapping = true
  · simp [h]
  · simp [h, State.blankCommit_rows]

theorem State.leaveBlank_leased (s : State) (l : LeasedNo) :
    (s.leaveBlank l).leased = s.leased.set l
      { edit := EditBuffer.empty,
        blankPending := (s.leased.get l).blankPending || (s.rows.get (LeasedNo.row l)).swapping } := by
  unfold State.leaveBlank
  dsimp only
  by_cases h : (s.rows.get (LeasedNo.row l)).swapping = true
  · simp [h, Table.modify]
  · simp [h, Table.modify]

theorem State.leaveBlank_posted (s : State) (l : LeasedNo) : (s.leaveBlank l).posted = s.posted := by
  unfold State.leaveBlank
  dsimp only
  split
  · rfl
  · rw [State.blankCommit_posted]; rfl

theorem State.leaveBlank_discarded (s : State) (l : LeasedNo) : Discarded s (s.leaveBlank l) := by
  unfold State.leaveBlank
  dsimp only
  by_cases h : (s.rows.get (LeasedNo.row l)).swapping = true
  · rw [if_pos h]; exact Discarded.refl rfl rfl
  · rw [if_neg h]
    refine Discarded.of_eq (State.blankCommit_discarded (s.modLeased l fun x => { x with edit := EditBuffer.empty }) _ ?_)
      rfl rfl rfl rfl
    simpa [Row.swapping] using h

theorem State.leaveResource_claims (s : State) (r : Resource) (p : Port) (keep : Bool) :
    (s.leaveResource r p keep).claims = s.claims.set r
      { holder := (s.claims.get r).waiters.head?, waiters := (s.claims.get r).waiters.tail } := by
  unfold State.leaveResource
  cases hw : (s.claims.get r).waiters with
  | cons w rest => simp [Table.modify]
  | nil =>
    dsimp only
    have h0 : (s.claims.modify r fun x => { x with holder := none }) = s.claims.set r { holder := none, waiters := [] } := by
      simp [Table.modify, hw]
    split
    · split <;> simp [h0]
    · simp [h0]

theorem State.leaveResource_waits (s : State) (r : Resource) (p : Port) (keep : Bool) (q : Port) :
    (s.leaveResource r p keep).waits.get q =
      s.waits.get q - if ((s.claims.get r).waiters.head?.any fun w => w.port == q) then 1 else 0 := by
  unfold State.leaveResource
  cases hw : (s.claims.get r).waiters with
  | cons w rest =>
    simp only [State.post_waits, State.grant_waits, State.modWait_waits, State.modClaim_waits, Four.get_modify,
      List.head?_cons, Option.any_some, beq_iff_eq]
    split <;> simp
  | nil =>
    dsimp only
    split
    · split <;> simp
    · simp

theorem State.leaveResource_posted (s : State) (r : Resource) (p : Port) (keep : Bool) :
    (s.leaveResource r p keep).posted = s.posted ++
      ((s.claims.get r).waiters.head?.map fun w =>
        ({ source := .claimTable, addressee := .session w, event := grantedEvent r p } : Posted)).toList := by
  unfold State.leaveResource
  cases hw : (s.claims.get r).waiters with
  | cons w rest => simp
  | nil =>
    dsimp only
    split
    · split
      · simp
      · rw [State.leaveBlank_posted]; simp
    · simp

theorem State.leaveResource_rows_get (s : State) (r : Resource) (p : Port) (x : RowNo) :
    (s.leaveResource r p false).rows.get x =
      if (rowLeased x).map rowResource = some r ∧ (s.claims.get r).waiters = [] ∧ (s.rows.get x).held = none then
        Row.blanked s.channels (s.rows.get x)
      else s.rows.get x := by
  unfold State.leaveResource
  cases hw : (s.claims.get r).waiters with
  | cons w rest => simp
  | nil =>
    dsimp only
    cases hr : resourceRow r with
    | none =>
      have : ¬ (rowLeased x).map rowResource = some r := by
        intro h
        rw [Option.map_eq_some_iff] at h
        obtain ⟨l, _, h⟩ := h
        rw [← h, resourceRow_row] at hr
        cases hr
      simp [this]
    | some l =>
      have hl := resourceRow_some.mp hr
      simp only [Bool.false_eq_true, ↓reduceIte, true_and]
      rw [State.leaveBlank_rows]
      simp only [State.modClaim_rows, State.modClaim_channels]
      by_cases hx : LeasedNo.row l = x
      · subst hx
        rw [rowLeased_row]
        simp only [Option.map_some, hl, true_and]
        by_cases hs : (s.rows.get (LeasedNo.row l)).held = none
        · simp [Row.swapping, hs]
        · have : (s.rows.get (LeasedNo.row l)).held.isSome = true := by
            rwa [Option.isSome_iff_ne_none]
          simp [Row.swapping, this, hs]
      · have : ¬ (rowLeased x).map rowResource = some r := by
          intro h
          rw [Option.map_eq_some_iff] at h
          obtain ⟨l', hl', h⟩ := h
          rw [← hl] at h
          have := rowResource_injective h
          subst this
          exact hx (rowLeased_some hl')
        rw [if_neg (fun h => this h.1)]
        by_cases hs : (s.rows.get (LeasedNo.row l)).swapping = true
        · simp [hs]
        · simp [hs, Table.get_set_ne _ hx]

theorem State.leaveResource_leased_get (s : State) (r : Resource) (p : Port) (l : LeasedNo) :
    (s.leaveResource r p false).leased.get l =
      if rowResource l = r then
        (if (s.claims.get r).waiters = [] then
          { edit := EditBuffer.empty,
            blankPending := (s.leased.get l).blankPending || (s.rows.get (LeasedNo.row l)).swapping }
        else { edit := editCopy (s.rows.get (LeasedNo.row l)).live, blankPending := false })
      else s.leased.get l := by
  unfold State.leaveResource
  cases hw : (s.claims.get r).waiters with
  | cons w rest =>
    simp only [State.post_leased, reduceCtorEq, ↓reduceIte]
    unfold State.grant
    by_cases hl : rowResource l = r
    · rw [if_pos hl, resourceRow_some.mpr hl]
      simp [State.grantRow]
    · rw [if_neg hl]
      cases hr : resourceRow r with
      | none => simp
      | some l' =>
        have hl' := resourceRow_some.mp hr
        have hne : l' ≠ l := by rintro rfl; exact hl hl'
        simp [State.grantRow, Table.get_modify, hne]
  | nil =>
    dsimp only
    by_cases hl : rowResource l = r
    · rw [if_pos hl, resourceRow_some.mpr hl]
      simp [State.leaveBlank_leased]
    · rw [if_neg hl]
      cases hr : resourceRow r with
      | none => simp
      | some l' =>
        have hl' := resourceRow_some.mp hr
        have hne : l' ≠ l := by rintro rfl; exact hl hl'
        simp [State.leaveBlank_leased, Table.get_set, hne]

theorem State.leaveResource_discarded (s : State) (r : Resource) (p : Port) (keep : Bool) :
    Discarded s (s.leaveResource r p keep) := by
  unfold State.leaveResource
  split
  · exact Discarded.refl (by simp) (by simp)
  · dsimp only
    split
    · split
      · exact Discarded.refl (by simp) (by simp)
      · exact Discarded.of_eq
          (State.leaveBlank_discarded (s.modClaim r fun x => { x with holder := none }) _) rfl rfl rfl rfl
    · exact Discarded.refl (by simp) (by simp)

/-! ### Leaving every holding (R72) -/

/-- What the claim table leaves in one record (R66, R67). -/
def Claim.left (k : Claim) : Claim := { holder := k.waiters.head?, waiters := k.waiters.tail }

theorem foldl_leaveHoldings (i : Sid) (l : List Resource) (hn : l.Nodup) (s : State) :
    let t := l.foldl (fun s r => if (s.claims.get r).holder = some i then s.leaveResource r i.port false else s) s
    let held := fun r : Resource => (s.claims.get r).holder = some i
    (∀ r, t.claims.get r = if r ∈ l ∧ held r then (s.claims.get r).left else s.claims.get r) ∧
    (∀ q, t.waits.get q = s.waits.get q - l.countP fun r =>
      decide (held r) && (s.claims.get r).waiters.head?.any fun w => w.port == q) ∧
    (∀ x, t.rows.get x =
      if (∃ k, rowLeased x = some k ∧ rowResource k ∈ l ∧ held (rowResource k) ∧
          (s.claims.get (rowResource k)).waiters = []) ∧ (s.rows.get x).held = none then
        Row.blanked s.channels (s.rows.get x)
      else s.rows.get x) ∧
    (∀ k : LeasedNo, t.leased.get k =
      if rowResource k ∈ l ∧ held (rowResource k) then
        (if (s.claims.get (rowResource k)).waiters = [] then
          { edit := EditBuffer.empty,
            blankPending := (s.leased.get k).blankPending || (s.rows.get (LeasedNo.row k)).swapping }
        else { edit := editCopy (s.rows.get (LeasedNo.row k)).live, blankPending := false })
      else s.leased.get k) ∧
    t.posted = s.posted ++ (l.filterMap fun r =>
      if held r then (s.claims.get r).waiters.head?.map fun w =>
        ({ source := .claimTable, addressee := .session w, event := grantedEvent r i.port } : Posted)
      else none) ∧
    Discarded s t := by
  induction l generalizing s with
  | nil => exact ⟨by simp, by simp, by simp, by simp, by simp, Discarded.refl rfl rfl⟩
  | cons r rest ih =>
    obtain ⟨hr, hn'⟩ := List.nodup_cons.mp hn
    simp only [List.foldl_cons]
    by_cases hh : (s.claims.get r).holder = some i
    · simp only [hh, ↓reduceIte]
      have hcl : ∀ q, q ≠ r → (s.leaveResource r i.port false).claims.get q = s.claims.get q := by
        intro q hq; rw [State.leaveResource_claims, Table.get_set_ne _ (Ne.symm hq)]
      have hmem : ∀ q ∈ rest, q ≠ r := by rintro q hq rfl; exact hr hq
      obtain ⟨h1, h2, h3, h4, h5, h6⟩ := ih hn' (s.leaveResource r i.port false)
      refine ⟨?_, ?_, ?_, ?_, ?_, (State.leaveResource_discarded s r i.port false).trans h6⟩
      · intro q
        rw [h1]
        by_cases hq : q = r
        · subst hq
          simp [hr, hh, State.leaveResource_claims, Claim.left]
        · simp [hq, hcl q hq]
      · intro q
        rw [h2, State.leaveResource_waits, List.countP_cons]
        have : rest.countP (fun r' => decide (((s.leaveResource r i.port false).claims.get r').holder = some i) &&
            ((s.leaveResource r i.port false).claims.get r').waiters.head?.any fun w => w.port == q) =
            rest.countP fun r' => decide ((s.claims.get r').holder = some i) &&
              (s.claims.get r').waiters.head?.any fun w => w.port == q := by
          apply List.countP_congr
          intro r' hr'
          rw [hcl r' (hmem r' hr')]
        rw [this]
        simp only [hh, decide_true, Bool.true_and]
        rw [Nat.sub_sub, Nat.add_comm]
      · intro x
        rw [h3]
        by_cases hx : ∃ k, rowLeased x = some k ∧ rowResource k = r
        · obtain ⟨k, hk, hkr⟩ := hx
          have hrow : (s.leaveResource r i.port false).rows.get x = if (s.claims.get r).waiters = [] ∧
              (s.rows.get x).held = none then Row.blanked s.channels (s.rows.get x) else s.rows.get x := by
            rw [State.leaveResource_rows_get, hk]; simp [hkr]
          have hno : ¬ ∃ k, rowLeased x = some k ∧ rowResource k ∈ rest ∧
              ((s.leaveResource r i.port false).claims.get (rowResource k)).holder = some i ∧
              ((s.leaveResource r i.port false).claims.get (rowResource k)).waiters = [] := by
            rintro ⟨k', hk', hm, _⟩
            rw [hk] at hk'; cases hk'
            rw [hkr] at hm; exact hr hm
          rw [if_neg (fun h => hno h.1), hrow]
          simp only [hk, Option.some.injEq, exists_eq_left', hkr, hh, List.mem_cons, true_or, true_and]
        · have hrow : (s.leaveResource r i.port false).rows.get x = s.rows.get x := by
            rw [State.leaveResource_rows_get, if_neg]
            rintro ⟨h, _⟩
            rw [Option.map_eq_some_iff] at h
            obtain ⟨k, hk, hkr⟩ := h
            exact hx ⟨k, hk, hkr⟩
          rw [hrow]
          simp only [State.leaveResource_channels]
          have : (∃ k, rowLeased x = some k ∧ rowResource k ∈ rest ∧
              ((s.leaveResource r i.port false).claims.get (rowResource k)).holder = some i ∧
              ((s.leaveResource r i.port false).claims.get (rowResource k)).waiters = []) ↔
              ∃ k, rowLeased x = some k ∧ rowResource k ∈ r :: rest ∧
              (s.claims.get (rowResource k)).holder = some i ∧ (s.claims.get (rowResource k)).waiters = [] := by
            constructor
            · rintro ⟨k, hk, hm, ha, hb⟩
              rw [hcl _ (hmem _ hm)] at ha hb
              exact ⟨k, hk, List.mem_cons_of_mem _ hm, ha, hb⟩
            · rintro ⟨k, hk, hm, ha, hb⟩
              rcases List.mem_cons.mp hm with h | h
              · exact absurd ⟨k, hk, h⟩ hx
              · refine ⟨k, hk, h, ?_, ?_⟩ <;> rw [hcl _ (hmem _ h)] <;> assumption
          simp only [this]
      · intro k
        rw [h4]
        by_cases hk : rowResource k = r
        · have hnm : rowResource k ∉ rest := by rw [hk]; exact hr
          rw [if_neg (fun h => hnm h.1), State.leaveResource_leased_get, if_pos hk]
          simp [hk, hh]
        · have hl : (s.leaveResource r i.port false).leased.get k = s.leased.get k := by
            rw [State.leaveResource_leased_get, if_neg hk]
          have hrw : (s.leaveResource r i.port false).rows.get (LeasedNo.row k) = s.rows.get (LeasedNo.row k) := by
            rw [State.leaveResource_rows_get, if_neg]
            rintro ⟨h, _⟩
            rw [rowLeased_row] at h
            exact hk (Option.some.inj h)
          simp only [hl, hrw, hcl _ hk]
          simp [hk]
      · rw [h5, State.leaveResource_posted, List.filterMap_cons]
        have : rest.filterMap (fun r' => if ((s.leaveResource r i.port false).claims.get r').holder = some i then
            ((s.leaveResource r i.port false).claims.get r').waiters.head?.map fun w =>
              ({ source := .claimTable, addressee := .session w, event := grantedEvent r' i.port } : Posted) else none) =
            rest.filterMap fun r' => if (s.claims.get r').holder = some i then
              (s.claims.get r').waiters.head?.map fun w =>
                ({ source := .claimTable, addressee := .session w, event := grantedEvent r' i.port } : Posted)
              else none := by
          apply List.filterMap_congr
          intro r' hr'
          rw [hcl r' (hmem r' hr')]
        rw [this, if_pos hh]
        cases (s.claims.get r).waiters.head? <;> simp
    · simp only [hh, ↓reduceIte]
      obtain ⟨h1, h2, h3, h4, h5, h6⟩ := ih hn' s
      refine ⟨?_, ?_, ?_, ?_, ?_, h6⟩
      · intro q
        rw [h1]
        by_cases hq : q = r
        · subst hq; simp [hh]
        · simp [hq]
      · intro q; rw [h2, List.countP_cons]; simp [hh]
      · intro x
        rw [h3]
        have : (∃ k, rowLeased x = some k ∧ rowResource k ∈ rest ∧ (s.claims.get (rowResource k)).holder = some i ∧
            (s.claims.get (rowResource k)).waiters = []) ↔
            ∃ k, rowLeased x = some k ∧ rowResource k ∈ r :: rest ∧
            (s.claims.get (rowResource k)).holder = some i ∧ (s.claims.get (rowResource k)).waiters = [] := by
          constructor
          · rintro ⟨k, hk, hm, ha, hb⟩; exact ⟨k, hk, List.mem_cons_of_mem _ hm, ha, hb⟩
          · rintro ⟨k, hk, hm, ha, hb⟩
            rcases List.mem_cons.mp hm with h | h
            · rw [h] at ha; exact absurd ha hh
            · exact ⟨k, hk, h, ha, hb⟩
        simp only [this]
      · intro k
        rw [h4]
        by_cases hk : rowResource k = r
        · simp [hk, hh]
        · simp [hk]
      · rw [h5, List.filterMap_cons]; simp [hh]

/-! ### The whole end (R143) -/

theorem State.uploadOf_congr (s t : State) (i : Sid) (h : t.uploads = s.uploads) : t.uploadOf i = s.uploadOf i := by
  unfold State.uploadOf; rw [h]

theorem State.dropUpload_uploads (s : State) (i : Sid) :
    (s.dropUpload i).uploads = if (s.uploadOf i).isSome then s.uploads.set i.port none else s.uploads := by
  unfold State.dropUpload
  cases s.uploadOf i <;> simp

theorem State.dropUpload_get (s : State) (i : Sid) (n : CellNo) :
    (s.dropUpload i).cells.get n =
      if (s.uploadOf i).any (fun u => u.cell == n) then { s.cells.get n with state := .free } else s.cells.get n := by
  unfold State.dropUpload
  cases s.uploadOf i with
  | none => simp
  | some u => simp [Table.get_modify]

/-- The map lets go of the cells of the volatile entries of a session (R53). -/
theorem foldl_releaseVolatile (i : Sid) (m : List MapEntry) (s : State) (n : CellNo) :
    (m.foldl (fun t e => if e.holder = some i ∧ e.isVolatile then t.releaseCell e.cell else t) s).cells.get n =
      if m.any (fun e => e.cell == n && e.holder == some i && e.isVolatile) then
        { s.cells.get n with state := releasedState (s.cells.get n) }
      else s.cells.get n := by
  induction m generalizing s with
  | nil => simp
  | cons e rest ih =>
    rw [List.foldl_cons, ih]
    by_cases h : e.holder = some i ∧ e.isVolatile = true
    · rw [if_pos h]
      simp only [State.releaseCell, State.modCell_cells, Table.get_modify, List.any_cons, h.1, h.2, BEq.rfl,
        Bool.and_true]
      by_cases hc : e.cell = n
      · simp [hc, releasedState]
      · simp [hc]
    · rw [if_neg h]
      have : (e.cell == n && e.holder == some i && e.isVolatile) = false := by
        simp only [Bool.and_eq_false_iff, beq_eq_false_iff_ne]
        by_cases h1 : e.holder = some i
        · right
          cases hv : e.isVolatile
          · rfl
          · exact absurd ⟨h1, hv⟩ h
        · left; right; exact h1
      simp [this]

theorem filter_head_tail {α : Type} (l : List α) : (l.head?, l.tail) = (l.head?, l.tail) := rfl

/-- The state when the claim table begins to leave the holdings of session i (R143). -/
def State.beforeLeaving (s : State) (i : Sid) : State :=
  (({ s with
      posted := s.posted.map (Posted.endAddressee i)
      rows := s.rows.map (Row.endOrigin i)
      channels := s.channels.map (Channel.endApplier i) } : State).endGlyphs i).removeWaits i

theorem State.endNotice_eq (s : State) (i : Sid) : s.endNotice i = (s.beforeLeaving i).leaveHoldings i := rfl

/-- A cell when the claim table begins to leave the holdings of session i: its upload's cell is FREE and the cells of its
volatile entries are let go (R53). -/
theorem State.beforeLeaving_get (s : State) (i : Sid) (n : CellNo) :
    (s.beforeLeaving i).cells.get n =
      let x := if (s.uploadOf i).any (fun u => u.cell == n) then { s.cells.get n with state := .free } else s.cells.get n
      if s.map.any (fun e => e.cell == n && e.holder == some i && e.isVolatile) then { x with state := releasedState x }
      else x := by
  unfold State.beforeLeaving State.endGlyphs State.releaseVolatile
  simp only [State.removeWaits_cells, State.setMap_cells]
  rw [foldl_releaseVolatile]
  have hmap : ∀ v : State, (v.dropUpload i).map = v.map := by
    intro v; unfold State.dropUpload; cases v.uploadOf i <;> rfl
  rw [hmap, State.dropUpload_get, State.uploadOf_congr s
    { s with
      posted := s.posted.map (Posted.endAddressee i)
      rows := s.rows.map (Row.endOrigin i)
      channels := s.channels.map (Channel.endApplier i) } i rfl]

theorem State.beforeLeaving_claims (s : State) (i : Sid) :
    (s.beforeLeaving i).claims = s.claims.map fun k => { k with waiters := k.waiters.filter fun w => w != i } := by
  unfold State.beforeLeaving State.removeWaits; simp

@[simp] theorem Row.endOrigin_held (i : Sid) (x : Row) : (Row.endOrigin i x).held = x.held := by
  unfold Row.endOrigin; split <;> rfl

theorem Row.endOrigin_editCopy (i : Sid) (x : Row) : editCopy (Row.endOrigin i x).live = editCopy x.live := by
  unfold Row.endOrigin; split <;> rfl

@[simp] theorem Row.endOrigin_swapping (i : Sid) (x : Row) : (Row.endOrigin i x).swapping = x.swapping := by
  unfold Row.swapping; simp

theorem Row.endOrigin_refsTo (i : Sid) (x : Row) (n : CellNo) : (Row.endOrigin i x).refsTo n = x.refsTo n := by
  unfold Row.endOrigin; split <;> rfl

theorem Channel.endApplier_state (i : Sid) (k : Channel) : (Channel.endApplier i k).state = k.state := by
  unfold Channel.endApplier
  split
  · split <;> rfl
  · rfl

theorem Claim.heir_eq (i : Sid) (k : Claim) :
    k.heir i = if k.holder = some i then (k.waiters.filter fun w => w != i).head? else none := by
  unfold Claim.heir Claim.afterEnd; split <;> simp_all

/-- The work of the other blocks at the end of a session (R22, R53, R71, R72, R103, R143). -/
theorem State.endNotice_spec (s : State) (i : Sid) :
    EndNoticed i s (s.endNotice i) ∧ Discarded (s.beforeLeaving i) (s.endNotice i) := by
  obtain ⟨h1, h2, h3, h4, h5, h6⟩ := foldl_leaveHoldings i (ascending 48) (ascending_nodup 48) (s.beforeLeaving i)
  rw [State.endNotice_eq]
  have hcl := State.beforeLeaving_claims s i
  have hget : ∀ r, (s.beforeLeaving i).claims.get r =
      { s.claims.get r with waiters := (s.claims.get r).waiters.filter fun w => w != i } := by
    intro r; rw [hcl, Table.get_map]
  have hrows : (s.beforeLeaving i).rows = s.rows.map (Row.endOrigin i) := by
    unfold State.beforeLeaving; simp
  have hleased : (s.beforeLeaving i).leased = s.leased := by unfold State.beforeLeaving; simp
  have hchan : (s.beforeLeaving i).channels = s.channels.map (Channel.endApplier i) := by
    unfold State.beforeLeaving; simp
  have hposted : (s.beforeLeaving i).posted = s.posted.map (Posted.endAddressee i) := by
    unfold State.beforeLeaving; simp
  have hblank : ∀ x, Row.blanked (s.beforeLeaving i).channels x = Row.blanked s.channels x := by
    intro x; apply Row.blanked_congr; intro c; rw [hchan, Four.get_map, Channel.endApplier_state]
  refine ⟨⟨?_, ?_, ?_, ?_, ?_, ?_, ?_, ?_, ?_, ?_, ?_, ?_, ?_⟩, h6⟩
  · apply Table.ext_get
    intro r
    have := h1 r
    simp only [mem_ascending, true_and, hget] at this
    rw [Table.get_map]
    unfold Claim.afterEnd
    exact this
  · intro q
    have := h2 q
    simp only [hget] at this
    have hw : (s.beforeLeaving i).waits.get q = if q = i.port then 0 else s.waits.get q := by
      unfold State.beforeLeaving State.removeWaits
      simp only [State.modWait_waits, Four.get_modify, State.endGlyphs_waits, eq_comm]
    have hcount : (ascending 48).countP (fun r => decide ((s.claims.get r).holder = some i) &&
        ((s.claims.get r).waiters.filter fun w => w != i).head?.any fun w => w.port == q) =
        (ascending 48).countP fun r => ((s.claims.get r).heir i).any fun w => w.port == q := by
      apply List.countP_congr
      intro r _
      rw [Claim.heir_eq]
      by_cases hh : (s.claims.get r).holder = some i <;> simp [hh]
    rw [hcount, hw] at this
    unfold State.leaveHoldings
    rw [this]
    split
    · simp
    · rfl
  · intro x
    have := h3 x
    simp only [mem_ascending, true_and, hget, hrows, Table.get_map, Row.endOrigin_held, hblank] at this
    unfold State.rowAfterEnd State.leftBlank
    unfold State.leaveHoldings
    rw [this]
    dsimp only
    rw [Row.endOrigin_swapping]
    cases hx : rowLeased x with
    | none => simp
    | some k =>
      simp only [Option.some.injEq, exists_eq_left', Claim.heir_eq, Row.swapping]
      by_cases hh : (s.claims.get (rowResource k)).holder = some i
      · cases hw : (s.claims.get (rowResource k)).waiters.filter (fun w => w != i) with
        | nil => cases hd : (s.rows.get x).held <;> simp [hh]
        | cons a b => simp [hh]
      · simp [hh]
  · intro k
    have := h4 k
    simp only [mem_ascending, true_and, hget, hrows, hleased, Table.get_map, Row.endOrigin_editCopy,
      Row.endOrigin_swapping] at this
    unfold State.leasedAfterEnd State.leftBlank State.leaveHoldings
    rw [this, rowLeased_row]
    simp only [Claim.heir_eq]
    by_cases hh : (s.claims.get (rowResource k)).holder = some i
    · cases hw : (s.claims.get (rowResource k)).waiters.filter (fun w => w != i) with
      | nil => simp [hh]
      | cons a b => simp [hh]
    · simp [hh]
  · unfold State.leaveHoldings
    rw [h5, hposted]
    unfold State.grantPosts
    refine congrArg (fun l => s.posted.map (Posted.endAddressee i) ++ l) (List.filterMap_congr fun r _ => ?_)
    rw [Claim.heir_eq]
    simp only [hget]
    by_cases hh : (s.claims.get r).holder = some i
    · simp only [hh, ↓reduceIte]
    · simp only [hh, ↓reduceIte, Option.map_none]
  · rw [State.leaveHoldings_map]; unfold State.beforeLeaving State.endGlyphs; simp
  · rw [State.leaveHoldings_uploads]
    unfold State.beforeLeaving State.endGlyphs
    simp only [State.removeWaits_uploads, State.setMap_uploads, State.releaseVolatile_uploads]
    rw [State.dropUpload_uploads]
    rfl
  · rw [State.leaveHoldings_channels, hchan]
  · simp [State.beforeLeaving]
  · simp [State.beforeLeaving]
  · simp [State.beforeLeaving]
  · simp [State.beforeLeaving]
  · intro n
    have h7 : GlyphsKept (s.beforeLeaving i) ((s.beforeLeaving i).leaveHoldings i) := h6.glyphsKept
    rw [(h7 n).1, (h7 n).2]
    unfold State.beforeLeaving State.endGlyphs
    simp only [State.removeWaits_cells, State.setMap_cells]
    unfold State.releaseVolatile
    rw [foldl_releaseVolatile, State.dropUpload_get]
    split <;> split <;> exact ⟨rfl, rfl⟩

/-- The work of the other blocks does not depend on the ports or the session records. -/
theorem EndNoticed.congr {i j : Sid} {s t s' t' : State} (h : EndNoticed i s t) (hj : j = i)
    (hs : s'.claims = s.claims ∧ s'.waits = s.waits ∧ s'.rows = s.rows ∧ s'.leased = s.leased ∧ s'.posted = s.posted ∧
      s'.map = s.map ∧ s'.uploads = s.uploads ∧ s'.channels = s.channels ∧ s'.compositors = s.compositors ∧
      s'.crst = s.crst ∧ s'.pending = s.pending ∧ s'.freeIndex = s.freeIndex ∧ s'.cells = s.cells)
    (ht : t'.claims = t.claims ∧ t'.waits = t.waits ∧ t'.rows = t.rows ∧ t'.leased = t.leased ∧ t'.posted = t.posted ∧
      t'.map = t.map ∧ t'.uploads = t.uploads ∧ t'.channels = t.channels ∧ t'.compositors = t.compositors ∧
      t'.crst = t.crst ∧ t'.pending = t.pending ∧ t'.freeIndex = t.freeIndex ∧ t'.cells = t.cells) :
    EndNoticed j s' t' := by
  obtain ⟨a1, a2, a3, a4, a5, a6, a7, a8, a9, a10, a11, a12, a13⟩ := hs
  obtain ⟨b1, b2, b3, b4, b5, b6, b7, b8, b9, b10, b11, b12, b13⟩ := ht
  subst hj
  unfold EndNoticed State.rowAfterEnd State.leasedAfterEnd State.leftBlank State.grantPosts State.uploadOf
    GlyphsKept at *
  rw [a1, a2, a3, a4, a5, a6, a7, a8, a9, a10, a11, a12, a13, b1, b2, b3, b4, b5, b6,
    b7, b8, b9, b10, b11, b12, b13]
  exact h

/-- The end of the ACTIVE session of a port, as the other blocks see it (R142, R143). -/
theorem State.endSession_noticed (s : State) (p : Port) (cause : EndCause) :
    EndNoticed (s.sidOf p) s (s.endSession p cause) :=
  (State.endNotice_spec (s.modSession p fun r => r.ended cause) (s.sidOf p)).1

@[simp] theorem State.endSession_sessions (s : State) (p : Port) (cause : EndCause) :
    (s.endSession p cause).sessions = s.sessions.modify p fun r => r.ended cause := by
  simp [State.endSession]

end Sys2Proof.Machine
end

