-- ==== Sys2Proof/Tests/Slice0.lean ====
section
/-! SUPPORT. Checks on small states: ill-formed terms that the check refuses, values worked out in the spec's own examples,
and for every statement with hypotheses a state and operands that meet them. -/
namespace Sys2Proof.Machine.Tests

set_option Elab.async false

/-! ### Small states -/

/-- An ACTIVE session in its first epoch, term 10, all classes in its mask. -/
def opened : Session :=
  { Session.reset with active := true, epoch := 1#6, term := 10#8, remaining := 600, armed := true, mask := 0x3F#6 }

/-- Sessions 0x01 on P0 and 0x41 on P1. -/
def two : State := { State.reset with sessions := ⟨opened, opened, Session.reset, Session.reset⟩ }

def p0 : Sid := { port := 0, epoch := 1#6 }

def p1 : Sid := { port := 1, epoch := 1#6 }

/-- The holder and waiters of resource r set. -/
def claimed (s : State) (r : Resource) (holder : Sid) (waiters : List Sid) : State :=
  { s with claims := s.claims.set r { holder := some holder, waiters := waiters } }

/-- Row 5, row 43 and channel C3 held by P0. -/
def held : State := claimed (claimed (claimed two 5 p0 []) 43 p0 []) 47 p0 []

/-- A placement at the centre of tile 0. -/
def centre (c : Chan) : Placement := { chan := c, tile := 0, anchor := 4, x := 0, y := 0 }

/-- Row r with a live version of generation g placed on channel c. -/
def placed (s : State) (r : RowNo) (c : Chan) (g : Half) : State :=
  s.modRow r fun _ => { live := { Version.empty with placements := [centre c], generation := g }, held := none }

/-- Channel c in a state, with mode ON. -/
def inState (s : State) (c : Chan) (x : SignalState) : State :=
  { s with channels := s.channels.modify c fun k => { k with state := x, active := { k.active with on := true } } }

/-- Row r SWAPPING, held back for C0. -/
def swapping (s : State) (r : RowNo) : State :=
  s.modRow r fun x => { x with held := some { version := x.live, holding := ⟨true, false, false, false⟩ } }

/-- The code 0x0041 mapped to cell 7 for a holder. -/
def mapped (s : State) (holder : Option Sid) : State :=
  { s with
    map := [{ code := 0x0041#16, cell := 7, holder := holder, isVolatile := false }]
    cells := s.cells.modify 7 fun k => { k with state := .ready } }

/-- An upload of P0 into cell 9 that waits for fragment f. -/
def loading (s : State) (f : Fin 6) : State :=
  { s with
    uploads := s.uploads.set 0 (some { session := p0, code := 0x0041#16, cell := 9, next := f, isVolatile := false })
    cells := s.cells.modify 9 fun k => { k with state := .loading } }

/-- No cell FREE. -/
def full (s : State) : State := { s with cells := s.cells.map fun k => { k with state := .ready } }

/-- Port p held in reset, its session ended. -/
def inPrst (s : State) (p : Port) : State :=
  (s.modPort p fun q => { q with prst := true, recv := .ignore }).modSession p fun _ => Session.reset

/-- A response waits on port p. -/
def answered (s : State) (p : Port) (r : Response) : State := s.modPort p fun q => { q with slot := some r }

/-- The lease of port p with n ms left. -/
def leaseAt (s : State) (p : Port) (n : Nat) : State := s.modSession p fun r => { r with remaining := n }

/-- The state after a step, or the state itself where the step stops. -/
def after (i : Instr) (s : State) : State :=
  match exec i s with
  | .next t => t
  | .fault _ => s
  | .refused _ => s

def slotOf (s : State) (p : Port) : Option (Status × List Byte) :=
  (s.ports.get p).slot.map fun r => (r.status, r.payload)

/-! ### The check refuses an ill-formed term -/

theorem test_wf_unknown_code : (Instr.unknownCommand 0 0x10#8 0x01#8 []).wf = false := by decide +kernel

theorem test_wf_payload : (Instr.claim 0 0x01#8 (List.replicate 201 0#8)).wf = false ∧
    (Instr.unknownCommand 0 0x60#8 0x01#8 (List.replicate 201 0#8)).wf = false := by decide +kernel

theorem test_wf_good_frame_is_not_bad : (Instr.badFrame 0 (wireFrame 0x03#8 0x81#8 [])).wf = false := by decide +kernel

theorem test_wf_fetch_is_not_bad : (Instr.badFrame 0 ⟨[0x5D#8, 0#8], 0⟩).wf = false := by decide +kernel

theorem test_wf_empty_window_is_not_bad : (Instr.badFrame 0 ⟨[], 0⟩).wf = false := by decide +kernel

theorem test_wf_bits : (Instr.badFrame 0 ⟨[0x5C#8], 8⟩).wf = false ∧
    (Instr.crstAsserted ⟨.closed, .closed, .closed, .opened ⟨[], 8⟩⟩).wf = false ∧
    (Instr.prstAsserted 0 (.opened ⟨[0x5C#8], 8⟩)).wf = false := by decide +kernel

theorem test_wf_taken : (Instr.unknownCommand 0 0x60#8 0x01#8 (List.replicate 200 0#8)).wf = true ∧
    (Instr.badFrame 0 ⟨[0x5C#8], 7⟩).wf = true ∧
    (Instr.prstAsserted 0 (.opened ⟨[0x5C#8], 7⟩)).wf = true := by decide +kernel

/-! ### The wire (R168, R170, R176; 10, Example) -/

theorem test_check_bytes : crc8 [0x03#8, 0x81#8, 0x00#8] = 0x1E#8 ∧ crc8 [0x00#8, 0x00#8, 0x01#8, 0x14#8] = 0x79#8 ∧
    crc8 [0x1F#8, 0x00#8, 0x00#8] = 0xE5#8 := by decide +kernel

theorem test_claim_frame :
    (wireFrame 0x10#8 0x81#8 [0x09#8, 0x01#8]).bytes =
      [0x5C#8, 0x10#8, 0x81#8, 0x02#8, 0x09#8, 0x01#8, 0x79#8] := by decide +kernel

theorem test_frame_is_claim :
    Instr.ofFrame 2 ⟨[0x5C#8, 0x10#8, 0x81#8, 0x02#8, 0x09#8, 0x01#8, 0x79#8], 0⟩ =
      some (.claim 2 0x81#8 [0x09#8, 0x01#8]) := by decide +kernel

theorem test_claim_answer :
    ((after (.fetchFrame 2 48)
      (answered two 2 { status := .queued, discarded := false, payload := [0x01#8, 0x00#8] })).ports.get 2).sdo =
      [0xFF#8, 0x01#8, 0x00#8, 0x02#8, 0x01#8, 0x00#8, 0xA1#8] := by decide +kernel

theorem test_fetch_short_keeps_the_response :
    slotOf (after (.fetchFrame 2 47) (answered two 2 { status := .ok, discarded := false, payload := [0x01#8, 0x00#8] }))
      2 = some (.ok, [0x01#8, 0x00#8]) ∧
    slotOf (after (.fetchFrame 2 48) (answered two 2 { status := .ok, discarded := false, payload := [0x01#8, 0x00#8] }))
      2 = none := by decide +kernel

/-! ### Text and numbers (R6, R9, R130) -/

theorem test_run_lengths :
    (writeRun (List.replicate 5 0x41#16) 5 (List.replicate 4 0x42#16) false).length = 9 ∧
    (writeRun (List.replicate 9 0x41#16) 2 (List.replicate 3 0x42#16) false).length = 9 ∧
    (writeRun (List.replicate 9 0x41#16) 2 (List.replicate 3 0x42#16) true).length = 5 ∧
    (writeRun (List.replicate 9 0x41#16) 4 [] true).length = 4 ∧
    (writeRun (List.replicate 9 0x41#16) 0 [] true).length = 0 ∧
    (writeRun (List.replicate 9 0x41#16) 0 [] false).length = 9 := by decide +kernel

theorem test_edit_text_start_beyond :
    slotOf (after (.editText 0 0x01#8 [5#8, 1#8, 0#8, 0#8]) held) 0 = some (.badArg, [0x02#8]) := by decide +kernel

theorem test_generation_wraps : nextGeneration 0xFFFF#16 = 1#16 ∧ nextGeneration 0#16 = 1#16 := by decide +kernel

theorem test_epoch_wraps : nextEpoch 63#6 = 1#6 ∧ nextEpoch 0#6 = 1#6 := by decide +kernel

theorem test_replacement_glyph : cellCode Cell.replacement 4 1 = 1#2 ∧ cellCode Cell.replacement 19 8 = 1#2 ∧
    cellCode Cell.replacement 5 2 = 0#2 ∧ cellCode Cell.replacement 18 1 = 1#2 ∧ cellCode Cell.replacement 3 1 = 0#2 ∧
    cellCode Cell.replacement 10 9 = 0#2 := by decide +kernel

/-! ### Geometry (06, Examples) -/

def quad : ChanConfig := { ChanConfig.default with raster := .r1280x720, layout := .quad, border := 2, scale := .two }

def six : ChanConfig := { ChanConfig.default with raster := .r720x576, layout := .six, border := 3, scale := .one }

/-- Cells whose advances are those of "CAM 1" in cells 1–5 and of one letter of "ALARM" in cell 6. -/
def lettered : Table Cell 256 :=
  (((((State.reset.cells.modify 1 fun k => { k with advance := 10 }).modify 2 fun k => { k with advance := 10 }).modify 3
    fun k => { k with advance := 12 }).modify 4 fun k => { k with advance := 6 }).modify 5
    fun k => { k with advance := 8 }).modify 6 fun k => { k with advance := 9 }

def camera : Version :=
  { Version.empty with
    text := [⟨0x43#16, 1⟩, ⟨0x41#16, 2⟩, ⟨0x4D#16, 3⟩, ⟨0x20#16, 4⟩, ⟨0x31#16, 5⟩]
    style := { Style.default with box := true } }

def alarm : Version := { Version.empty with text := List.replicate 5 ⟨0x41#16, 6⟩ }

def cameraPlace : Placement := { chan := 0, tile := 3, anchor := 8, x := -8, y := -6 }

def alarmPlace : Placement := { chan := 1, tile := 4, anchor := 7, x := 0, y := 10 }

theorem test_tiles : clipRect quad 3 = ⟨642, 1277, 362, 717⟩ ∧ clipRect six 4 = ⟨243, 476, 291, 572⟩ := by decide +kernel

theorem test_boxes : boxWidth quad lettered camera = 100 ∧ boxOrigin quad lettered camera cameraPlace = (1170, 664) ∧
    boxWidth six lettered alarm = 45 ∧ boxOrigin six lettered alarm alarmPlace = (337, 559) := by decide +kernel

theorem test_clipped : placementClipped quad lettered camera cameraPlace = false ∧
    placementClipped six lettered alarm alarmPlace = true ∧
    placementClipped { six with layout := .quad } lettered alarm alarmPlace = false := by decide +kernel

theorem test_half : blendOver .halfInk ⟨16#8, 128#8, 128#8⟩ ⟨100#8, 110#8, 140#8⟩ = ⟨58#8, 119#8, 134#8⟩ ∧
    blendOver .halfInk ⟨235#8, 128#8, 128#8⟩ ⟨58#8, 119#8, 134#8⟩ = ⟨146#8, 123#8, 131#8⟩ := by decide +kernel

/-! ### One step -/

theorem test_attach : slotOf (after (.attach 2 0x00#8 [20#8, 0x3F#8]) State.reset) 2 =
    some (.ok, [0x81#8, 0x01#8, 0x01#8]) := by decide +kernel

/-- A RENEW that reaches the record before an expiry in the queue (R140). -/
theorem test_renewed_lease_does_not_expire :
    let renewed := after (.renew 0 0x01#8 []) (leaseAt two 0 0)
    ((after (.leaseExpiry 0) renewed).sessions.get 0).active = true ∧
    ((after (.leaseExpiry 0) (leaseAt two 0 0)).sessions.get 0).active = false ∧
    (after (.leaseLow 0) (after (.renew 0 0x01#8 []) (leaseAt two 0 250))).posted = [] := by decide +kernel

theorem test_commit_lands_at_once :
    slotOf (after (.commit 0 0x01#8 [5#8]) held) 0 = some (.ok, [0#8, 1#8, 0#8, 0#8, 0#8]) ∧
    (after (.commit 0 0x01#8 [5#8]) held).posted.map (fun x => x.event.kind) = [.commitLanded] := by decide +kernel

theorem test_commit_swaps :
    let t := after (.commit 0 0x01#8 [5#8]) (inState (placed held 5 1 8#16) 1 .locked)
    slotOf t 0 = some (.ok, [0#8, 9#8, 0#8, 0#8, 2#8]) ∧ t.posted = [] ∧ (t.rows.get 5).swapping = true := by
  decide +kernel

theorem test_frame_start_lands :
    let t := after (.inputFrameStart 0) (swapping (inState (placed two 5 0 8#16) 0 .locked) 5)
    (t.rows.get 5).swapping = false ∧ (t.compositors.get 0).isSome = true := by decide +kernel

theorem test_leave_blank_while_swapping :
    (after (.release 0 0x01#8 [5#8, 0#8]) (swapping held 5)).leased.get 5 =
      { edit := EditBuffer.empty, blankPending := true } := by decide +kernel

theorem test_empty_queue_lets_time_pass :
    (match step State.reset with
      | .next t => t
      | .fault _ => two
      | .refused _ => two) = State.reset := by decide +kernel

/-! ### States that meet the statements' hypotheses

One theorem for each statement with hypotheses, at the ends of their ranges, one part for each clause. -/

def signal : Event := { kind := .channelSignal, subject := 0x80#16, value := 1#16, port := none }

/-- An event of channel c for a session. -/
def signalFor (c : Chan) (i : Sid) : Posted := { source := .channelEngine c, addressee := .session i, event := signal }

/-- Events of C1 for P0, of C0 for P1, of C0 for P0 and of C0 for P0 in flight. -/
def inFlight : State := { two with posted := [signalFor 1 p0, signalFor 0 p1, signalFor 0 p0, signalFor 0 p0] }

/-- All 44 leased rows and the channels held by a session. -/
def heldBy (i : Sid) : State := { two with claims := Table.fill 48 { holder := some i, waiters := [] } }

/-- The edit buffer of row 5 holds n codes. -/
def lettersIn (s : State) (n : Nat) : State :=
  { s with leased := s.leased.modify 5 fun x => { x with edit := { x.edit with text := List.replicate n 0x41#16 } } }

/-- Channel c with a staged mode. -/
def staging (s : State) (c : Chan) (on : Bool) : State :=
  { s with channels := s.channels.modify c fun k => { k with staged := { k.staged with on := on } } }

/-- Channel c with its loss timer run out. -/
def lossOut (s : State) (c : Chan) : State :=
  { s with channels := s.channels.modify c fun k => { k with loss := .running 6674 0 } }

/-- Channel c with its free-run timer run out. -/
def freeRunOut (s : State) (c : Chan) : State :=
  { s with channels := s.channels.modify c fun k => { k with freeRun := .running 5000 0 } }

/-- Channel c without free-run. -/
def noFreeRun (s : State) (c : Chan) : State :=
  { s with channels := s.channels.modify c fun k => { k with active := { k.active with freeRunPermitted := false } } }

/-- P0 with an upload into cell 9 and a volatile entry for cell 7, which row 5 shows, and cell 8 RETIRING in row 6. -/
def glyphsInUse : State :=
  let s := (loading two 2).modRow 5 fun x => { x with live := { x.live with text := [⟨0x0041#16, 7⟩] } }
  let s := s.modRow 6 fun x => { x with live := { x.live with text := [⟨0x0042#16, 8⟩] } }
  { s with
    map := [{ code := 0x0041#16, cell := 7, holder := some p0, isVolatile := true }]
    cells := (s.cells.modify 7 fun k => { k with state := .ready, refs := 1 }).modify 8 fun k =>
      { k with state := .retiring, refs := 1 } }

theorem witness_EmptyQueueFilesOrLetsTimePass :
    (inFlight.pending = [] ∧ inFlight.posted ≠ []) ∧ two.pending = [] ∧ two.posted = [] := by decide +kernel

theorem witness_PortResetEndsTheSession :
    (two.sessions.get 0).active = true ∧ (two.sessions.get 1).active = true ∧ (two.sessions.get 2).active = false ∧
    (two.sessions.get 3).active = false := by decide +kernel

theorem witness_FramesInResetAreIgnored :
    (inPrst two 0).inReset 0 = true ∧ State.inReset { two with crst := true } 3 = true ∧
    (Instr.claim 0 0x01#8 [0x05#8, 0x00#8]).commandParts = some (0, 0x10#8, 0x01#8, [0x05#8, 0x00#8]) ∧
    (Instr.badFrame 0 ⟨[0x00#8], 0⟩).wf = true ∧ (Instr.badFrame 0 ⟨[], 1⟩).wf = true := by decide +kernel

theorem witness_CommonChecks :
    ((Instr.claim 0 0x01#8 [0x05#8]).commandParts = some (0, 0x10#8, 0x01#8, [0x05#8]) ∧
      payloadLengths 0x10#8 = some (2, 2) ∧ two.inReset 0 = false ∧ two.sessionCheck 0 0x01#8 = true) ∧
    ((Instr.editText 1 0x41#8 (List.replicate 85 0#8)).commandParts =
        some (1, 0x20#8, 0x41#8, List.replicate 85 0#8) ∧
      payloadLengths 0x20#8 = some (4, 84) ∧ two.inReset 1 = false ∧ two.sessionCheck 1 0x41#8 = true) ∧
    (payloadLengths 0x28#8 = some (17, 125) ∧ payloadLengths 0x42#8 = some (1, 1)) ∧
    (two.sessionCheck 0 0x02#8 = false ∧ two.sessionCheck 0 0x41#8 = false ∧ two.inReset 2 = false ∧
      two.sessionCheck 2 0x80#8 = false) := by decide +kernel

theorem witness_BadFrameIsAnswered :
    judge [0x00#8] 3 = some .marker ∧ judge [] 1 = some .bits ∧ judge [0x5C#8, 0x03#8, 0x01#8] 0 = some .short ∧
    judge [0x5C#8, 0x03#8, 0x01#8, 0xC9#8] 0 = some .length ∧ judge [0x5C#8, 0x03#8, 0x01#8, 0xC8#8] 0 = some .short ∧
    judge [0x5C#8, 0x03#8, 0x01#8, 0x00#8, 0x00#8, 0x00#8] 0 = some .long ∧
    judge [0x5C#8, 0x03#8, 0x81#8, 0x00#8, 0x1F#8] 0 = some .check ∧
    judge [0x5C#8, 0x03#8, 0x81#8, 0x00#8, 0x1E#8] 0 = none ∧
    judge ((0x5C#8 :: List.replicate 300 0#8).take 206) 0 = some .long ∧ two.inReset 2 = false := by decide +kernel

theorem witness_UnknownCommandIsAnswered :
    two.inReset 2 = false ∧ (Instr.unknownCommand 2 0x00#8 0x00#8 []).wf = true ∧
    (Instr.unknownCommand 2 0xFF#8 0xFF#8 (List.replicate 200 0#8)).wf = true := by decide +kernel

theorem witness_FetchShiftsTheResponse : two.inReset 0 = false ∧ two.inReset 3 = false ∧ slotOf two 0 = none ∧
    slotOf (answered two 0 { status := .ok, discarded := false, payload := [] }) 0 = some (.ok, []) := by
  decide +kernel

theorem witness_WireRoundTrip :
    ((Instr.renew 2 0x81#8 []).wf = true ∧ (Instr.renew 2 0x81#8 []).commandParts = some (2, 0x03#8, 0x81#8, [])) ∧
    ((Instr.unknownCommand 3 0x60#8 0#8 (List.replicate 200 0#8)).wf = true ∧
      (Instr.unknownCommand 3 0x60#8 0#8 (List.replicate 200 0#8)).commandParts =
        some (3, 0x60#8, 0#8, List.replicate 200 0#8)) := by decide +kernel

theorem witness_WindowIsItsStep :
    Instr.ofFrame 0 ⟨[0x5D#8, 0#8], 3⟩ = some (.fetchFrame 0 11) ∧ Instr.ofFrame 0 ⟨[], 0⟩ = none := by decide +kernel

theorem witness_AttachOpensASession :
    two.inReset 2 = false ∧ (two.sessions.get 2).active = false ∧ 0x01#8 ≠ 0#8 ∧ (0x3F#8).toNat < 64 := by
  decide +kernel

theorem witness_AttachReplacesASession :
    two.inReset 1 = false ∧ (two.sessions.get 1).active = true ∧ 0xFF#8 ≠ 0#8 ∧ (0x00#8).toNat < 64 := by
  decide +kernel

theorem witness_RefusedAttachChangesNothing : two.inReset 2 = false ∧
    [0x01#8].length ≠ 2 ∧ [0x01#8, 0x00#8, 0x00#8].length ≠ 2 ∧ (0x01#8 : Byte) ≠ 0x00#8 ∧
    [0x00#8, 0x3F#8].getD 0 0#8 = 0x00#8 ∧ 64 ≤ ([0x01#8, 0x40#8].getD 1 0#8).toNat := by decide +kernel

theorem witness_DetachEndsTheSession : Callable two 0 0x01#8 ∧ Callable two 1 0x41#8 := by decide +kernel

theorem witness_RenewRestoresTheLease : Callable two 0 0x01#8 ∧ Callable two 1 0x41#8 := by decide +kernel

theorem witness_LeaseExpiryEndsTheSession :
    (let s := leaseAt two 1 0
     (s.sessions.get 1).active = true ∧ (s.sessions.get 1).remaining = 0) ∧
    (two.sessions.get 2).active = false ∧ (two.sessions.get 0).remaining ≠ 0 ∧
    ((leaseAt two 0 1).sessions.get 0).remaining ≠ 0 := by decide +kernel

theorem witness_SessionEndSettlesTheCells :
    let s := leaseAt glyphsInUse 0 0
    (s.sessions.get 0).active = true ∧ StoreOk s ∧ (s.sessions.get 0).remaining = 0 ∧ Callable s 0 0x01#8 ∧
    s.inReset 0 = false ∧ 0xFF#8 ≠ 0#8 ∧ (0x3F#8).toNat < 64 ∧
    (s.uploadOf (s.sidOf 0)).any (fun u => u.cell == 9) = true ∧ (s.cells.get 8).state = .retiring := by
  decide +kernel

theorem witness_SetEventMaskReplacesTheMask :
    Callable two 0 0x01#8 ∧ (0x3F#8).toNat < 64 ∧ 64 ≤ (0x40#8).toNat := by decide +kernel

theorem witness_ReadEventsDrainsTheQueue : Callable two 0 0x01#8 ∧
    (1 ≤ (0x01#8).toNat ∧ (0x01#8).toNat ≤ 8) ∧ (1 ≤ (0x08#8).toNat ∧ (0x08#8).toNat ≤ 8) ∧ (0x00#8).toNat = 0 ∧
    8 < (0x09#8).toNat := by decide +kernel

theorem witness_LeaseLowWarnsOnce :
    (let s := leaseAt two 0 250
     (s.sessions.get 0).active = true ∧ (s.sessions.get 0).armed = true ∧
      (s.sessions.get 0).remaining = 25 * (s.sessions.get 0).term.toNat) ∧
    ((two.sessions.get 2).active = false ∧ (two.sessions.get 2).armed = false) ∧
    (two.sessions.get 0).remaining ≠ 25 * (two.sessions.get 0).term.toNat := by decide +kernel

theorem witness_FilingFollowsTheFourSteps :
    inFlight.posted = [signalFor 1 p0, signalFor 0 p1] ++ signalFor 0 p0 :: [signalFor 0 p0] ∧
    Posted.fromTo (.channelEngine 0) 0 (signalFor 0 p0) = true ∧
    ∀ y ∈ [signalFor 1 p0, signalFor 0 p1], Posted.fromTo (.channelEngine 0) 0 y = false := by decide +kernel

theorem witness_ClaimTakesAnUnheldResource : Callable two 0 0x01#8 ∧ (0x01#8).toNat < 2 ∧
    (resource? 0x00#8 = some 0 ∧ (two.claims.get 0).holder = none ∧ resourceRow 0 = some 0) ∧
    (resource? 0x2B#8 = some 43 ∧ (two.claims.get 43).holder = none ∧ resourceRow 43 = some 43) ∧
    (resource? 0x80#8 = some 44 ∧ (two.claims.get 44).holder = none ∧ resourceChan 44 = some 0) ∧
    (resource? 0x83#8 = some 47 ∧ (two.claims.get 47).holder = none ∧ resourceChan 47 = some 3) := by decide +kernel

theorem witness_ClaimJoinsTheWaiters :
    let s := { held with waits := ⟨0, 7, 0, 0⟩ }
    Callable s 1 0x41#8 ∧ resource? 0x83#8 = some 47 ∧ (s.claims.get 47).holder = some p0 ∧ p0 ≠ s.sidOf 1 ∧
    s.sidOf 1 ∉ (s.claims.get 47).waiters ∧ s.waits.get 1 < 8 := by decide +kernel

theorem witness_ClaimThatChangesNothing :
    (Callable held 0 0x01#8 ∧ resource? 0x2C#8 = none ∧ resource? 0x7F#8 = none ∧ resource? 0x84#8 = none ∧
      2 ≤ (0x02#8).toNat) ∧
    (resource? 0x2B#8 = some 43 ∧ (held.claims.get 43).holder = some (held.sidOf 0)) ∧
    (Callable held 1 0x41#8 ∧ resource? 0x83#8 = some 47 ∧ (held.claims.get 47).holder = some p0 ∧
      p0 ≠ held.sidOf 1) ∧
    (let s := claimed two 0 p0 [p1]
     Callable s 1 0x41#8 ∧ (s.claims.get 0).holder = some p0 ∧ p0 ≠ s.sidOf 1 ∧ s.sidOf 1 ∈ (s.claims.get 0).waiters) ∧
    (let s := { held with waits := ⟨0, 8, 0, 0⟩ }
     Callable s 1 0x41#8 ∧ (s.claims.get 5).holder = some p0 ∧ s.sidOf 1 ∉ (s.claims.get 5).waiters ∧
      8 ≤ s.waits.get 1) := by decide +kernel

theorem witness_ReleasePassesOnOrLeaves :
    (Callable held 0 0x01#8 ∧ resource? 0x2C#8 = none ∧ 2 ≤ (0x02#8).toNat) ∧
    (Callable held 1 0x41#8 ∧ resource? 0x05#8 = some 5 ∧ (held.claims.get 5).holder ≠ some (held.sidOf 1) ∧
      (held.claims.get 0).holder ≠ some (held.sidOf 1)) ∧
    (let s := claimed two 43 p0 [p1]
     Callable s 0 0x01#8 ∧ resource? 0x2B#8 = some 43 ∧ (s.claims.get 43).holder = some (s.sidOf 0) ∧
      (s.claims.get 43).waiters = [p1]) ∧
    ((held.claims.get 47).holder = some (held.sidOf 0) ∧ (held.claims.get 47).waiters = [] ∧ resourceRow 47 = none) ∧
    ((held.claims.get 5).holder = some (held.sidOf 0) ∧ (held.claims.get 5).waiters = [] ∧ resourceRow 5 = some 5 ∧
      (held.rows.get (LeasedNo.row 5)).held = none) ∧
    (let s := swapping held 5
     (s.claims.get 5).holder = some (s.sidOf 0) ∧ (s.claims.get 5).waiters = [] ∧
      (s.rows.get (LeasedNo.row 5)).held.isSome = true) := by decide +kernel

theorem witness_CancelWaitLeavesTheList :
    (let s := claimed two 47 p0 [p1]
     Callable s 1 0x41#8 ∧ resource? 0x83#8 = some 47 ∧ s.sidOf 1 ∈ (s.claims.get 47).waiters) ∧
    (Callable two 1 0x41#8 ∧ resource? 0x84#8 = none) ∧
    resource? 0x00#8 = some 0 ∧ two.sidOf 1 ∉ (two.claims.get 0).waiters := by decide +kernel

theorem witness_ReadsReportAndChangeNothing : Callable two 0 0x01#8 ∧
    (row? 0x30#8 = none ∧ resource? 0x2C#8 = none ∧ chan? 0x80#8 = none ∧ chan? 0x04#8 = none) ∧
    (row? 0x00#8 = some 0 ∧ row? 0x2F#8 = some 47) ∧ (0x0001#16 ≠ 0x0000#16 ∧ 0xFFFE#16 ≠ 0xFFFF#16) ∧
    (resource? 0x00#8 = some 0 ∧ resource? 0x83#8 = some 47) ∧ chan? 0x00#8 = some 0 ∧ chan? 0x03#8 = some 3 := by
  decide +kernel

theorem witness_EditTextWritesARun :
    let s := lettersIn held 39
    let text := (s.leased.get 5).edit.text
    Callable s 0 0x01#8 ∧ leasedRow? 0x05#8 = some 5 ∧ (s.claims.get (rowResource 5)).holder = some (s.sidOf 0) ∧
    ((0x27#8).toNat ≤ text.length ∧ (0x01#8).toNat = [0xFFFE#16].length ∧ (0x27#8).toNat + [0xFFFE#16].length ≤ 40 ∧
      [0xFFFE#16].all fun c => c != 0x0000#16 && c != 0xFFFF#16) ∧
    ((0x00#8).toNat ≤ text.length ∧ (0x28#8).toNat = (List.replicate 40 0x0001#16).length ∧
      (List.replicate 40 0x0001#16).all fun c => c != 0x0000#16 && c != 0xFFFF#16) ∧
    text.length < (0x28#8).toNat ∧ (0x01#8).toNat ≠ ([] : List Half).length ∧
    40 < (0x27#8).toNat + [0x41#16, 0x41#16].length ∧ [0xFFFF#16].any (fun c => c == 0x0000#16 || c == 0xFFFF#16) := by
  decide +kernel

theorem witness_SetStyleReplacesTheStyle : Callable held 0 0x01#8 ∧ leasedRow? 0x2B#8 = some 43 ∧
    (held.claims.get (rowResource 43)).holder = some (held.sidOf 0) ∧
    ((0x01#8).toNat < 2 ∧ (0x07#8).toNat = (7 : Fin 8).val ∧ (0x00#8).toNat = (0 : Fin 8).val) ∧
    2 ≤ (0x02#8).toNat ∧ 8 ≤ (0x08#8).toNat := by decide +kernel

/-- Four placements, one on each channel, at the ends of the offsets. -/
def corners : List Placement :=
  [{ chan := 0, tile := 0, anchor := 0, x := -1023, y := 1023 }, { chan := 1, tile := 5, anchor := 8, x := 1023, y := -1023 },
   centre 2, centre 3]

theorem witness_SetPlacementsReplacesTheList : Callable held 0 0x01#8 ∧ leasedRow? 0x2B#8 = some 43 ∧
    (held.claims.get (rowResource 43)).holder = some (held.sidOf 0) ∧
    (corners.length ≤ 4 ∧ (∀ q ∈ corners, -1023 ≤ q.x ∧ q.x ≤ 1023 ∧ -1023 ≤ q.y ∧ q.y ≤ 1023) ∧
      (corners.map Placement.chan).Nodup) ∧
    (([] : List Placement).map Placement.chan).Nodup ∧ ¬ ([centre 1, centre 1].map Placement.chan).Nodup ∧
    ((List.replicate 28 0#8).length ≤ 28 ∧ 4 < (0x05#8).toNat) ∧
    ((List.replicate 8 0#8).length ≠ 7 * (0x01#8).toNat ∧ ([] : List Byte).length ≠ 7 * (0x04#8).toNat) ∧
    1 < (0x02#8).toNat ∧ SpellsNoPlacement ((List.replicate 7 0#8 ++ [0x04#8, 0#8, 0#8, 0#8, 0#8, 0#8, 0#8]).drop 7) := by
  decide +kernel

/-- Each field of a placement record just outside its accepted values, and the offsets just inside them (R5, R186). -/
theorem test_placement_bounds :
    SpellsNoPlacement [0x04#8, 0x00#8, 0x00#8, 0x00#8, 0x00#8, 0x00#8, 0x00#8] ∧
    SpellsNoPlacement [0x00#8, 0x06#8, 0x00#8, 0x00#8, 0x00#8, 0x00#8, 0x00#8] ∧
    SpellsNoPlacement [0x00#8, 0x00#8, 0x09#8, 0x00#8, 0x00#8, 0x00#8, 0x00#8] ∧
    SpellsNoPlacement [0x00#8, 0x00#8, 0x00#8, 0xFC#8, 0x00#8, 0x00#8, 0x00#8] ∧
    SpellsNoPlacement [0x00#8, 0x00#8, 0x00#8, 0x04#8, 0x00#8, 0x00#8, 0x00#8] ∧
    SpellsNoPlacement [0x00#8, 0x00#8, 0x00#8, 0x00#8, 0x00#8, 0xFC#8, 0x00#8] ∧
    SpellsNoPlacement [0x00#8, 0x00#8, 0x00#8, 0x00#8, 0x00#8, 0x04#8, 0x00#8] ∧
    ¬ SpellsNoPlacement [0x03#8, 0x05#8, 0x08#8, 0xFC#8, 0x01#8, 0x03#8, 0xFF#8] := by decide +kernel

theorem witness_OnlyTheHolderChanges : Callable held 1 0x41#8 ∧ (leasedRow? 0x2C#8 = none ∧ leasedRow? 0xFF#8 = none) ∧
    (leasedRow? 0x05#8 = some 5 ∧ (held.claims.get (rowResource 5)).holder ≠ some (held.sidOf 1)) ∧
    (leasedRow? 0x00#8 = some 0 ∧ (held.claims.get (rowResource 0)).holder ≠ some (held.sidOf 1)) ∧
    (chan? 0x80#8 = none ∧ chan? 0x04#8 = none) ∧
    chan? 0x03#8 = some 3 ∧ (held.claims.get (chanResource 3)).holder ≠ some (held.sidOf 1) := by decide +kernel

theorem witness_CommitExchangesTheVersions :
    let s := inState (placed held 43 1 0xFFFF#16) 1 .freeRun
    Callable s 0 0x01#8 ∧ leasedRow? 0x2B#8 = some 43 ∧ (s.claims.get (rowResource 43)).holder = some (s.sidOf 0) ∧
    (s.rows.get (LeasedNo.row 43)).held = none ∧ (s.leased.get 43).blankPending = false ∧
    (held.rows.get (LeasedNo.row 43)).held = none := by decide +kernel

theorem witness_CommitOfASwappingRowIsHeld :
    let s := swapping held 5
    Callable s 0 0x01#8 ∧ leasedRow? 0x05#8 = some 5 ∧ (s.claims.get (rowResource 5)).holder = some (s.sidOf 0) ∧
    (s.rows.get (LeasedNo.row 5)).held.isSome = true := by decide +kernel

/-- A WRITE_COMMON payload without placements and codes, with one byte changed. -/
def commonWith (i : Nat) (b : Byte) : List Byte := (0x2C#8 :: List.replicate 16 0#8).set i b

theorem witness_WriteCommonCommitsThePayload : Callable two 0 0x01#8 ∧
    ((commonWith 12 0x02#8).length = 17 ∧ 2 ≤ ((commonWith 12 0x02#8).getD 12 0#8).toNat ∧
      2 ≤ ((commonWith 13 0x02#8).getD 13 0#8).toNat ∧ 8 ≤ ((commonWith 14 0x08#8).getD 14 0#8).toNat ∧
      4 < ((commonWith 15 0x05#8).getD 15 0#8).toNat ∧ 40 < ((commonWith 16 0x29#8).getD 16 0#8).toNat) ∧
    (commonWith 16 0x01#8).length ≠ 17 + 7 * 0 + 2 * ((commonWith 16 0x01#8).getD 16 0#8).toNat ∧
    (let payload := commonWith 15 0x01#8 ++ [0x00#8, 0x06#8, 0x00#8, 0x00#8, 0x00#8, 0x00#8, 0x00#8]
     payload.length = 24 ∧ 0 < (payload.getD 15 0#8).toNat ∧ SpellsNoPlacement (payload.drop (17 + 7 * 0))) ∧
    ((0x2B#8).toNat < 44 ∧ 48 ≤ (0x30#8).toNat ∧ ¬ ([centre 1, centre 1].map Placement.chan).Nodup) ∧
    (corners.length ≤ 4 ∧ (∀ q ∈ corners, -1023 ≤ q.x ∧ q.x ≤ 1023 ∧ -1023 ≤ q.y ∧ q.y ≤ 1023) ∧
      (corners.map Placement.chan).Nodup ∧ (List.replicate 40 0xFFFE#16).length ≤ 40 ∧
      (List.replicate 40 0xFFFE#16).all fun c => c != 0x0000#16 && c != 0xFFFF#16) ∧
    ((0x2C#8).toNat = (44 : RowNo).val ∧ (0x2F#8).toNat = (47 : RowNo).val) ∧
    (Callable (swapping two 44) 0 0x01#8 ∧ ((swapping two 44).rows.get 44).held.isSome = true) ∧
    ((two.rows.get 47).held = none ∧ 1#16 ≠ (two.rows.get 47).live.generation ∧
      0#16 = (two.rows.get 47).live.generation) := by decide +kernel

theorem witness_GlyphBeginTakesTheLowestFreeCell :
    (Callable (loading two 0) 0 0x01#8 ∧ ((loading two 0).uploadOf ((loading two 0).sidOf 0)).isSome = true) ∧
    (Callable two 0 0x01#8 ∧ two.uploadOf (two.sidOf 0) = none) ∧
    ((1 ≤ (0x01#8).toNat ∧ (0x10#8).toNat ≤ 16) ∧ ¬ (1 ≤ (0x00#8).toNat) ∧ ¬ ((0x11#8).toNat ≤ 16) ∧
      ¬ ((0x02#8).toNat < 2)) ∧
    ((two.cells.get 1).state = .free ∧ ∀ m : CellNo, m < 1 → (two.cells.get m).state ≠ .free) ∧
    (let s := mapped two (some p1)
     s.uploadOf (s.sidOf 0) = none ∧ (s.map.find? fun e => e.code == 0x0041#16).any fun e =>
       e.holder == some p1 && p1 != s.sidOf 0) ∧
    (let s := full (mapped two (some p0))
     (s.map.find? fun e => e.code == 0x0041#16).any (fun e => e.holder == some (s.sidOf 0)) ∧
      ∀ n : CellNo, (s.cells.get n).state ≠ .free) := by decide +kernel

/-- A GLYPH_LINES payload for fragment f. -/
def fragment (f : Byte) : List Byte := f :: List.replicate 16 0x1B#8

theorem witness_GlyphLinesWritesAFragment : (fragment 0x04#8).length = 17 ∧
    (let s := loading two 0
     Callable s 0 0x01#8 ∧ (s.uploadOf (s.sidOf 0)).any fun u =>
       ((fragment 0x00#8).getD 0 0#8).toNat == u.next.val && u.next.val < 5) ∧
    (let s := loading two 4
     Callable s 0 0x01#8 ∧ (s.uploadOf (s.sidOf 0)).any fun u =>
       ((fragment 0x04#8).getD 0 0#8).toNat == u.next.val && u.next.val < 5) := by decide +kernel

theorem witness_LastFragmentInstallsTheGlyph :
    (fragment 0x05#8).length = 17 ∧ (fragment 0x05#8).getD 0 0#8 = 0x05#8 ∧
    (let s := loading two 5
     Callable s 0 0x01#8 ∧ (s.uploadOf (s.sidOf 0)).any (fun u => u.next == 5) ∧
      s.map.find? (fun e => e.code == 0x0041#16) = none) ∧
    (let s := mapped (loading two 5) (some p1)
     Callable s 0 0x01#8 ∧ (s.uploadOf (s.sidOf 0)).any (fun u => u.next == 5 && u.code == 0x0041#16 && u.cell == 9) ∧
      (s.map.find? (fun e => e.code == 0x0041#16)).any fun e =>
        e.cell != 9 && e.holder == some p1 && p1 != s.sidOf 0) ∧
    (let s := mapped (loading two 5) none
     Callable s 0 0x01#8 ∧ (s.uploadOf (s.sidOf 0)).any (fun u => u.next == 5 && u.code == 0x0041#16 && u.cell == 9) ∧
      (s.map.find? (fun e => e.code == 0x0041#16)).any fun e => e.cell != 9 && e.holder == none) := by decide +kernel

theorem witness_WrongFragmentEndsTheUpload : (fragment 0x06#8).length = 17 ∧
    (let s := loading two 5
     Callable s 0 0x01#8 ∧ (s.uploadOf (s.sidOf 0)).any fun u =>
       ((fragment 0x06#8).getD 0 0#8).toNat != u.next.val) ∧
    Callable two 0 0x01#8 ∧ two.uploadOf (two.sidOf 0) = none := by decide +kernel

theorem witness_GlyphAbortFreesTheCell :
    (Callable (loading two 3) 0 0x01#8 ∧
      ((loading two 3).uploadOf ((loading two 3).sidOf 0)).any fun u => u.cell == 9) ∧
    Callable two 0 0x01#8 ∧ two.uploadOf (two.sidOf 0) = none := by decide +kernel

theorem witness_GlyphDeleteRemovesTheEntry :
    (Callable (mapped two none) 0 0x01#8 ∧ Callable (mapped two (some p0)) 0 0x01#8 ∧
      ((mapped two (some p0)).map.find? fun e => e.code == 0x0041#16).any fun e =>
        e.holder == some ((mapped two (some p0)).sidOf 0)) ∧
    (((mapped two none).map.find? fun e => e.code == 0x0041#16).any fun e => e.holder == none) ∧
    (Callable (mapped two (some p1)) 0 0x01#8 ∧
      ((mapped two (some p1)).map.find? fun e => e.code == 0x0041#16).any fun e =>
        e.holder == some p1 && p1 != (mapped two (some p1)).sidOf 0) ∧
    Callable two 0 0x01#8 ∧ two.map.find? (fun e => e.code == 0x0041#16) = none := by decide +kernel

/-- Values of all ten fields, of which the field of one selector bit has the bytes given. -/
def valuesWith (bad : Fin 10) (bytes : List Byte) (bit : Fin 10) : List Byte :=
  if bit = bad then bytes else fieldBytes bit ChanConfig.default

theorem witness_ChannelSetStagesFields : Callable held 0 0x01#8 ∧ chan? 0x03#8 = some 3 ∧
    (held.claims.get (chanResource 3)).holder = some (held.sidOf 0) ∧
    ((0x03FF#16).toNat < 1024 ∧ (0x0000#16).toNat < 1024 ∧ 1000 ≤ ChanConfig.default.period ∧
      { ChanConfig.default with period := 5000 }.period ≤ 5000) ∧
    (1024 ≤ (0x0400#16).toNat ∧
      [0x00#8].length ≠ (((ascending 10).filter fun bit => (0x0008#16).getLsbD bit.val).map fieldWidth).sum) ∧
    ((∀ bit, (valuesWith 6 [0x10#8] bit).length = (fieldBytes bit (held.channels.get 3).staged).length) ∧
      (6 : Fin 10) ∈ (ascending 10).filter fun bit => (0x03FF#16).getLsbD bit.val) := by decide +kernel

/-- Each field of a configuration just outside its spelling (R187). -/
theorem test_field_bounds :
    SpellsNoField 0 [0x02#8] ∧ SpellsNoField 1 [0x02#8] ∧ SpellsNoField 2 [0x04#8] ∧
    SpellsNoField 3 [0x03#8, 0xE7#8] ∧ SpellsNoField 3 [0x13#8, 0x89#8] ∧ SpellsNoField 4 [0x04#8] ∧
    SpellsNoField 5 [0x00#8] ∧ SpellsNoField 5 [0x03#8] ∧ SpellsNoField 6 [0x10#8] ∧ SpellsNoField 9 [0x40#8] :=
  ⟨(by decide : 2 ≤ (0x02#8).toNat), (by decide : 2 ≤ (0x02#8).toNat), (by decide : 4 ≤ (0x04#8).toNat),
    .inl (by decide : (0x03#8 ++ 0xE7#8).toNat < 1000), .inr (by decide : 5000 < (0x13#8 ++ 0x89#8).toNat),
    (by decide : 4 ≤ (0x04#8).toNat), .inl (by decide : (0x00#8).toNat = 0), .inr (by decide : 3 ≤ (0x03#8).toNat),
    (by decide : 16 ≤ (0x10#8).toNat), (by decide : 64 ≤ (0x40#8).toNat)⟩

theorem witness_ChannelApplyActsAtOnce : chan? 0x03#8 = some 3 ∧
    (∀ on : Bool, Callable (staging held 3 on) 0 0x01#8 ∧
      ((staging held 3 on).claims.get (chanResource 3)).holder = some ((staging held 3 on).sidOf 0) ∧
      ((staging held 3 on).channels.get 3).state = .off ∧ ((staging held 3 on).channels.get 3).staged.on = on) ∧
    (∀ on : Bool, Callable (staging (inState held 3 .seeking) 3 on) 0 0x01#8 ∧
      ((staging (inState held 3 .seeking) 3 on).channels.get 3).state = .seeking ∧
      ((staging (inState held 3 .seeking) 3 on).channels.get 3).staged.on = on) := by decide +kernel

theorem witness_ChannelApplyWhileRunning : chan? 0x03#8 = some 3 ∧
    (∀ on : Bool, Callable (staging (inState held 3 .locked) 3 on) 0 0x01#8 ∧
      ((staging (inState held 3 .locked) 3 on).claims.get (chanResource 3)).holder =
        some ((staging (inState held 3 .locked) 3 on).sidOf 0) ∧
      ((staging (inState held 3 .locked) 3 on).channels.get 3).state = .locked ∧
      ((staging (inState held 3 .locked) 3 on).channels.get 3).staged.on = on) ∧
    ((staging (inState held 3 .freeRun) 3 true).channels.get 3).state = .freeRun := by decide +kernel

theorem witness_InputFrameStartMakesAFrame : (two.channels.get 0).state = .off ∧
    ((inState two 0 .seeking).channels.get 0).state ≠ .off ∧ ((inState two 3 .locked).channels.get 3).state ≠ .off ∧
    ((inState two 3 .freeRun).channels.get 3).state ≠ .off := by decide +kernel

theorem witness_LossTimerExpiryEntersFreeRunOrSeeking :
    (∀ x : SignalState, ((lossOut (inState two 0 x) 0).channels.get 0).loss = .running 6674 0 ∧
      ((lossOut (inState two 0 x) 0).channels.get 0).state = x ∧
      ((lossOut (inState two 0 x) 0).channels.get 0).active.freeRunPermitted = true) ∧
    ∀ x : SignalState, ((lossOut (noFreeRun (inState two 3 x) 3) 3).channels.get 3).loss = .running 6674 0 ∧
      ((lossOut (noFreeRun (inState two 3 x) 3) 3).channels.get 3).state = x ∧
      ((lossOut (noFreeRun (inState two 3 x) 3) 3).channels.get 3).active.freeRunPermitted = false :=
  ⟨fun x => by cases x <;> decide +kernel, fun x => by cases x <;> decide +kernel⟩

theorem witness_FreeRunTimerExpiryMakesAFrame :
    (((freeRunOut (inState two 0 .freeRun) 0).channels.get 0).freeRun = .running 5000 0 ∧
      ((freeRunOut (inState two 0 .freeRun) 0).channels.get 0).state = .freeRun) ∧
    ((freeRunOut (inState two 3 .freeRun) 3).channels.get 3).freeRun = .running 5000 0 ∧
    ((freeRunOut (inState two 3 .freeRun) 3).channels.get 3).state = .freeRun := by decide +kernel

/-- Timers that have not run out: the expiry does not happen (R97). -/
theorem witness_expiries_that_do_not_happen :
    (∀ d, (two.channels.get 0).loss ≠ .running d 0) ∧ (∀ d, (two.channels.get 3).freeRun ≠ .running d 0) ∧
    ∀ d, Timer.running 6674 1 ≠ .running d 0 := by
  have e : (two.channels.get 0).loss = .stopped ∧ (two.channels.get 3).freeRun = .stopped := by decide +kernel
  rw [e.1, e.2]
  exact ⟨nofun, nofun, fun d h => by injection h with _ h; cases h⟩

theorem witness_DrawListKeepsTheHighest :
    let latched := Table.fill 48 { Version.empty with placements := [centre 0] }
    (drawables 0 ChanConfig.default latched).length = 48 ∧ (drawList 0 ChanConfig.default latched).length = 32 ∧
    (drawList 0 ChanConfig.default latched).any (fun d => d.row == 15) = false ∧
    (drawList 0 ChanConfig.default latched).any (fun d => d.row == 16) = true := by decide +kernel

theorem witness_TilesCoverThePlaneOnce : inPlane six 0 0 = true ∧ inPlane six 719 575 = true ∧
    inPlane six 720 0 = false ∧ inPlane six 0 576 = false ∧ 2 < six.layout.columns ∧ 1 < six.layout.tileRows ∧
    5 < six.layout.tileCount ∧ (tileRect six 5).has 719 575 = true := by decide +kernel

/-- The replacement glyph in a boxed row at scale 1 in the centre of one tile: its box is 14 by 24. -/
def boxedRow (blend : Blend) : Version :=
  { Version.empty with text := [⟨0x41#16, 0⟩], style := { Style.default with box := true, blend := blend } }

def black : Colour := ⟨0x00#8, 0x00#8, 0x00#8⟩

def drawn (blend : Blend) (dx dy : Int) : Colour :=
  let (x, y) := boxOrigin ChanConfig.default State.reset.cells (boxedRow blend) (centre 0)
  drawRow ChanConfig.default State.reset.cells (boxedRow blend) (centre 0) (x + dx) (y + dy) black

/-- Outside the box, in its margin, at a code 0 pixel and at a code 1 pixel of its glyph (R120, R124, R125, R126). -/
theorem test_row_pixels :
    let style := Style.default
    drawn .opaqueInk (-1) 4 = black ∧ drawn .opaqueInk 14 4 = black ∧ drawn .opaqueInk 1 24 = black ∧
    drawn .opaqueInk 1 4 = style.shade ∧ drawn .opaqueInk 12 4 = style.shade ∧ drawn .opaqueInk 2 4 = style.shade ∧
    drawn .opaqueInk 3 4 = style.ink ∧
    drawn .halfInk 1 4 = blendOver .halfInk style.shade black ∧
    drawn .halfInk 3 4 = blendOver .halfInk style.ink (blendOver .halfInk style.shade black) := by decide +kernel

/-- Channel c in a state, with a frame in progress that draws nothing. -/
def composing (c : Chan) (x : SignalState) : State :=
  (inState two c x).setCompositor c (some { config := six, latched := Table.fill 48 Version.empty, drawList := [] })

theorem witness_RowsDrawInsideTheirClip :
    (let k := ChanConfig.default
     let cells := State.reset.cells
     let v := boxedRow .opaqueInk
     let q := centre 0
     let (x, y) := boxOrigin k cells v q
     (clipRect k 0).has (x + 3) (y + 4) = true ∧ 3 < boxWidth k cells v ∧ 4 < boxHeight k ∧
     (clipRect k 0).has (x - 1) (y + 4) = true ∧ (clipRect k 0).has (-1) 0 = false ∧
     v.text[0]? = some ⟨0x41#16, 0⟩ ∧ 1 < (cells.get 0).advance ∧ k.scale.factor = 1) ∧
    ((composing 0 .locked).channels.get 0).state = .locked ∧ ((composing 0 .locked).compositors.get 0).isSome = true ∧
    ((composing 3 .freeRun).channels.get 3).state = .freeRun ∧
    ((composing 3 .freeRun).compositors.get 3).isSome = true ∧ (two.channels.get 0).state = .off ∧
    ((inState two 1 .seeking).channels.get 1).state = .seeking := by decide +kernel

/-- The steps that the invariants' premises speak of: one from `two`, and one of a command. -/
theorem witness_steps : (∃ t, step two = .next t) ∧ ∃ t, step { two with pending := [.renew 0 0x01#8 []] } = .next t :=
  ⟨⟨_, rfl⟩, _, rfl⟩

theorem witness_StepsKeepPortsLegal : (∀ p : Port, PortOk two p) ∧ ∀ p : Port, PortOk (inPrst two 3) p := by
  decide +kernel

theorem witness_StepsKeepSessionsLegal : ∀ p : Port, SessionOk (two.sessions.get p) := by decide +kernel

theorem witness_StepsKeepChannelsLegal : ∀ c : Chan, ChannelOk two c := by decide +kernel

theorem witness_StepsKeepClaimsLegal : ClaimsOk held := by decide +kernel

theorem witness_StepsKeepRowsLegal : RowsOk held ∧ RowsOk (swapping (inState (placed two 5 0 8#16) 0 .locked) 5) := by
  decide +kernel

theorem witness_StepsKeepTheStoreLegal : StoreOk glyphsInUse ∧ HoldersOk glyphsInUse := by decide +kernel

end Sys2Proof.Machine.Tests
end

/-! SUPPORT. SET_STYLE: reading the style record, the row its caller holds, and the edit buffer it leaves (R4, R8, R10,
R12, R186). -/
namespace Sys2Proof.Machine

/-! ### Reading a style record (R186) -/

theorem blend?_of_lt (b : Byte) (h : b.toNat < 2) :
    blend? b = some (if b = 0x00#8 then .opaqueInk else .halfInk) := by
  rcases (by omega : b.toNat = 0 ∨ b.toNat = 1) with h | h
  · obtain rfl : b = 0x00#8 := BitVec.eq_of_toNat_eq h
    rfl
  · obtain rfl : b = 0x01#8 := BitVec.eq_of_toNat_eq h
    rfl

theorem blend?_of_ge (b : Byte) (h : 2 ≤ b.toNat) : blend? b = none := by
  unfold blend?
  split
  · omega
  · omega
  · rfl

/-- Blend, box and priority within their values spell a style, whatever the nine colour components are. -/
theorem style?_of_values {bs : List Byte} {n : Fin 8} (hblend : (byteAt bs 9).toNat < 2)
    (hbox : (byteAt bs 10).toNat < 2) (hprio : (byteAt bs 11).toNat = n.val) :
    style? bs = some
      { ink := colourAt bs 0, edge := colourAt bs 3, shade := colourAt bs 6,
        blend := if byteAt bs 9 = 0x00#8 then .opaqueInk else .halfInk,
        box := decide (byteAt bs 10 = 0x01#8), priority := n } := by
  unfold style?
  rw [blend?_of_lt _ hblend, flag?_of_lt _ hbox]
  simp only [hprio, n.isLt, ↓reduceDIte]

theorem style?_none {bs : List Byte}
    (h : 2 ≤ (byteAt bs 9).toNat ∨ 2 ≤ (byteAt bs 10).toNat ∨ 8 ≤ (byteAt bs 11).toNat) : style? bs = none := by
  unfold style?
  rcases h with hblend | hbox | hprio
  · rw [blend?_of_ge _ hblend]
  · rw [flag?_of_ge _ hbox]
    cases blend? (byteAt bs 9) <;> rfl
  · split
    · exact dif_neg (by omega)
    · rfl

/-! ### The lease and the claims behind a closed window -/

theorem State.renewLease_windowed (s : State) (p q : Port) (n : Nat) :
    (s.windowed p n).renewLease q = (s.renewLease q).windowed p n := rfl

@[simp] theorem State.windowed_claims (s : State) (p : Port) (n : Nat) : (s.windowed p n).claims = s.claims := rfl

/-! ### A command on a row that its caller holds (R8) -/

theorem State.withHeldRow_holder {s : State} {payload : List Byte} {caller : Sid} {l : LeasedNo}
    (act : LeasedNo → State × Reply) (hrow : leasedRow? (byteAt payload 0) = some l)
    (hholder : (s.claims.get (rowResource l)).holder = some caller) : s.withHeldRow payload caller act = act l := by
  unfold State.withHeldRow
  rw [hrow]
  exact if_pos hholder

/-- A command with an accepted payload length on a row that its caller holds does what `act` does, once `act` is known to
leave the port alone (R8, R171). -/
theorem commandFrame_heldRow {s : State} {p : Port} {sid : Byte} {pl : List Byte} {l : LeasedNo} {t : State} {r : Reply}
    (code : Byte) (lo hi : Nat) (act : Sid → State → LeasedNo → State × Reply) (hc : Callable s p sid)
    (hl : pl.length ≤ Config.payloadBytes) (hlo : lo ≤ pl.length) (hhi : pl.length ≤ hi)
    (hrow : leasedRow? (byteAt pl 0) = some l) (hholder : (s.claims.get (rowResource l)).holder = some (s.sidOf p))
    (h : act (s.sidOf p) ((s.renewLease p).windowed p (pl.length + 5)) l = (t.windowed p (pl.length + 5), r)) :
    s.commandFrame p code sid pl lo hi (fun caller u => u.withHeldRow pl caller (act caller u)) =
      t.answer p pl.length r :=
  commandFrame_answer s p code sid pl lo hi _ hc hl hlo hhi t r (by
    rw [State.renewLease_windowed, State.withHeldRow_holder _ hrow (by simpa using hholder), h])

/-! ### SET_STYLE (R10) -/

theorem State.setStyle_of_some {s : State} {payload : List Byte} {l : LeasedNo} {x : Style}
    (h : style? (payload.drop 1) = some x) :
    s.setStyle payload l = (s.modEdit l fun b => { b with style := x }, okReply []) := by
  unfold State.setStyle
  rw [h]

theorem State.setStyle_of_none {s : State} {payload : List Byte} {l : LeasedNo}
    (h : style? (payload.drop 1) = none) : s.setStyle payload l = (s, badValue) := by
  unfold State.setStyle
  rw [h]

/-- SET_STYLE with a payload of 13 bytes on a row that its caller holds answers what its owning block answers. -/
theorem exec_setStyle_heldRow {s : State} {p : Port} {sid : Byte} {payload : List Byte} {l : LeasedNo} {t : State}
    {r : Reply} (hc : Callable s p sid) (hlen : payload.length = 13) (hrow : leasedRow? (byteAt payload 0) = some l)
    (hholder : (s.claims.get (rowResource l)).holder = some (s.sidOf p))
    (h : ((s.renewLease p).windowed p (payload.length + 5)).setStyle payload l =
      (t.windowed p (payload.length + 5), r)) :
    exec (.setStyle p sid payload) s = .next (t.answer p payload.length r) := by
  have hmax : payload.length ≤ Config.payloadBytes := hlen ▸ by decide
  exact congrArg Host.Outcome.next
    (commandFrame_heldRow 0x21#8 13 13 (fun _ u => u.setStyle payload) hc hmax hlen.ge hlen.le hrow hholder h)

/-- Settles O33: the style record reads back within its values and spells no style outside them, and the owning block
acts on the renewed state with the port's window closed. -/
theorem setStyleReplacesTheStyle : Obligations.SetStyleReplacesTheStyle := by
  unfold Obligations.SetStyleReplacesTheStyle
  intro s p sid row a0 a1 a2 a3 a4 a5 a6 a7 a8 blend box priority l hc hrow hholder
  constructor
  · intro n hblend hbox hprio
    have hstyle := style?_of_values (bs := [a0, a1, a2, a3, a4, a5, a6, a7, a8, blend, box, priority])
      hblend hbox hprio
    exact exec_setStyle_heldRow hc rfl hrow hholder (State.setStyle_of_some hstyle)
  · intro hbad
    have hstyle : style? [a0, a1, a2, a3, a4, a5, a6, a7, a8, blend, box, priority] = none := style?_none hbad
    exact exec_setStyle_heldRow hc rfl hrow hholder (State.setStyle_of_none hstyle)

end Sys2Proof.Machine

/-! SUPPORT. GLYPH_ABORT: the upload of a session that the port's window and the lease leave as it was, and what its end
leaves (R41, R48). -/
namespace Sys2Proof.Machine

/-! ### Uploads behind a closed window and a renewed lease -/

@[simp] theorem State.uploadOf_windowed (s : State) (p : Port) (n : Nat) (i : Sid) :
    (s.windowed p n).uploadOf i = s.uploadOf i := State.uploadOf_congr s _ i rfl

@[simp] theorem State.uploadOf_renewLease (s : State) (p : Port) (i : Sid) :
    (s.renewLease p).uploadOf i = s.uploadOf i := State.uploadOf_congr s _ i (State.renewLease_uploads s p)

theorem State.dropUpload_windowed (s : State) (p : Port) (n : Nat) (i : Sid) :
    (s.windowed p n).dropUpload i = (s.dropUpload i).windowed p n := State.dropUpload_modPort s p _ i

/-- The whole state after an open upload ends without installing (R43, R45, R48, R53). -/
theorem State.dropUpload_of_some {s : State} {i : Sid} {u : Upload} (h : s.uploadOf i = some u) :
    s.dropUpload i =
      { s with
        cells := s.cells.modify u.cell fun k => { k with state := .free }
        uploads := s.uploads.set i.port none } := by
  unfold State.dropUpload
  rw [h]
  rfl

/-! ### GLYPH_ABORT (R48) -/

theorem State.takeGlyphAbort_of_some {s : State} {i : Sid} {u : Upload} (h : s.uploadOf i = some u) :
    s.takeGlyphAbort i = (s.dropUpload i, okReply [BitVec.ofNat 8 u.cell.val]) := by
  unfold State.takeGlyphAbort
  rw [h]

theorem State.takeGlyphAbort_of_none {s : State} {i : Sid} (h : s.uploadOf i = none) :
    s.takeGlyphAbort i = (s, { status := .noUpload, payload := [] }) := by
  unfold State.takeGlyphAbort
  rw [h]

/-- A taken GLYPH_ABORT answers what the glyph store answers, once its work is known to leave the port alone (R171). -/
theorem exec_glyphAbort_answer {s t : State} {p : Port} {sid : Byte} {r : Reply} (hc : Callable s p sid)
    (h : ((s.renewLease p).windowed p 5).takeGlyphAbort (s.sidOf p) = (t.windowed p 5, r)) :
    exec (.glyphAbort p sid []) s = .next (t.answer p 0 r) :=
  congrArg Host.Outcome.next
    (commandFrame_answer s p 0x32#8 sid [] 0 0 State.takeGlyphAbort hc (Nat.zero_le _) le_rfl le_rfl t r h)

/-- Settles O43: the case split is on the caller's upload, which the window and the renewed lease leave as it was. -/
theorem glyphAbortFreesTheCell : Obligations.GlyphAbortFreesTheCell := by
  unfold Obligations.GlyphAbortFreesTheCell
  intro s p sid hc
  constructor
  · intro u hu
    have hrenewed : (s.renewLease p).uploadOf (s.sidOf p) = some u := by simpa using hu
    refine exec_glyphAbort_answer hc ?_
    rw [State.takeGlyphAbort_of_some (by simpa using hu), State.dropUpload_windowed,
      State.dropUpload_of_some hrenewed]
    rfl
  · intro hnone
    exact exec_glyphAbort_answer hc (State.takeGlyphAbort_of_none (by simpa using hnone))

end Sys2Proof.Machine

/-! SUPPORT. CANCEL_WAIT: its own checks on the resource id and the waiter list, and the claim table that a cancelled
wait leaves (R57, R70). -/
namespace Sys2Proof.Machine

/-! ### CANCEL_WAIT's own checks and effect (R70) -/

/-- The caller leaves the list, so the response counts one waiter fewer than the list had. -/
theorem State.takeCancelWait_of_waiting {s : State} {payload : List Byte} {caller : Sid} {r : Resource}
    (hres : resource? (byteAt payload 0) = some r) (hwait : caller ∈ (s.claims.get r).waiters) :
    s.takeCancelWait payload caller =
      ((s.modClaim r fun k => { k with waiters := k.waiters.erase caller }).modWait caller.port fun n => n - 1,
       okReply [BitVec.ofNat 8 ((s.claims.get r).waiters.length - 1)]) := by
  have hleft := List.length_erase_of_mem hwait
  unfold State.takeCancelWait
  simp only [hres, if_pos hwait, hleft]
  rfl

theorem State.takeCancelWait_of_not_waiting {s : State} {payload : List Byte} {caller : Sid} {r : Resource}
    (hres : resource? (byteAt payload 0) = some r) (hout : caller ∉ (s.claims.get r).waiters) :
    s.takeCancelWait payload caller = (s, badValue) := by
  unfold State.takeCancelWait
  simp only [hres, if_neg hout]

theorem State.takeCancelWait_of_no_resource {s : State} {payload : List Byte} {caller : Sid}
    (hres : resource? (byteAt payload 0) = none) : s.takeCancelWait payload caller = (s, badValue) := by
  unfold State.takeCancelWait
  rw [hres]

/-! ### The whole command -/

/-- A taken CANCEL_WAIT answers what the claim table answers, once its work is known to leave the port alone (R171). -/
theorem exec_cancelWait_answer {s t : State} {p : Port} {sid id : Byte} {r : Reply} (hc : Callable s p sid)
    (h : ((s.renewLease p).windowed p 6).takeCancelWait [id] (s.sidOf p) = (t.windowed p 6, r)) :
    exec (.cancelWait p sid [id]) s = .next (t.answer p 1 r) :=
  have hmax : 1 ≤ Config.payloadBytes := by decide
  congrArg Host.Outcome.next
    (commandFrame_answer s p 0x12#8 sid [id] 1 1 (State.takeCancelWait [id]) hc hmax le_rfl le_rfl t r h)

/-- Settles O30: the case split is on the two checks of R70, made on a claim table that the window and the renewed lease
leave as it was. -/
theorem cancelWaitLeavesTheList : Obligations.CancelWaitLeavesTheList := by
  unfold Obligations.CancelWaitLeavesTheList
  intro s p sid id hc
  have hclaims : ((s.renewLease p).windowed p 6).claims = s.claims := by simp
  constructor
  · intro r hres hwait
    refine exec_cancelWait_answer hc ?_
    rw [State.takeCancelWait_of_waiting (payload := [id]) hres (hclaims ▸ hwait), hclaims]
    rfl
  · rintro (hnone | ⟨r, hres, hout⟩)
    · exact exec_cancelWait_answer hc (State.takeCancelWait_of_no_resource hnone)
    · exact exec_cancelWait_answer hc (State.takeCancelWait_of_not_waiting hres (hclaims ▸ hout))

end Sys2Proof.Machine

/-! SUPPORT. RENEW: the lease record that the session check leaves, and the term that the response carries (R129, R134,
R135). -/
namespace Sys2Proof.Machine

/-! ### What a renewal writes (R134) -/

/-- The whole state after a renewal: the lease is at its full length of R129, 100 ms times the term, and armed. -/
theorem State.renewLease_eq (s : State) (p : Port) :
    s.renewLease p =
      { s with sessions := s.sessions.modify p fun r =>
          { r with remaining := 100 * r.term.toNat, fraction := 0, armed := true } } := rfl

/-- A renewal does not touch the term it takes the full length from (R129, R134). -/
@[simp] theorem State.renewLease_term (s : State) (p : Port) :
    ((s.renewLease p).sessions.get p).term = (s.sessions.get p).term := by
  rw [State.renewLease_eq, Four.get_modify_self]

/-! ### RENEW (R135) -/

/-- RENEW's own work is only its reply: the renewal is that of the session check (R134, R135). -/
theorem exec_renew_taken {s : State} {p : Port} {sid : Byte} (hc : Callable s p sid) :
    exec (.renew p sid []) s =
      .next ((s.renewLease p).answer p 0 (okReply [((s.renewLease p).sessions.get p).term])) :=
  congrArg Host.Outcome.next
    (commandFrame_answer s p 0x03#8 sid [] 0 0 (fun caller t => (t, okReply [(t.sessions.get caller.port).term])) hc
      (Nat.zero_le _) le_rfl le_rfl (s.renewLease p) _ rfl)

/-- Settles O21: a taken RENEW answers from the renewed record, whose term is the one the session had. -/
theorem renewRestoresTheLease : Obligations.RenewRestoresTheLease := by
  unfold Obligations.RenewRestoresTheLease
  intro s p sid hc
  rw [exec_renew_taken hc, State.renewLease_term, State.renewLease_eq]
  rfl

end Sys2Proof.Machine

/-! SUPPORT. Filing an event: which event in flight is the oldest of its block, the session it is filed against, and
what the record keeps of it (R144, R152, R154, R155, R156). -/
namespace Sys2Proof.Machine

/-! ### Taking the oldest event of a block out of flight (R156) -/

/-- The event of a block with no event of that block before it is the one that is filed, and the others stay in flight
in their order. -/
theorem State.fileOldest_of_split {s : State} {source : Source} {p : Port} {before after : List Posted} {x : Posted}
    (hposted : s.posted = before ++ x :: after) (hx : Posted.fromTo source p x = true)
    (hbefore : ∀ y ∈ before, Posted.fromTo source p y = false) :
    s.fileOldest source p = ({ s with posted := before ++ after } : State).fileEvent x := by
  have hfind : s.posted.find? (Posted.fromTo source p) = some x :=
    List.find?_eq_some_iff_append.mpr ⟨hx, before, after, hposted, by simpa using hbefore⟩
  have herase : s.posted.eraseP (Posted.fromTo source p) = before ++ after := by
    rw [hposted, List.eraseP_append_right _ (by simpa using hbefore), List.eraseP_cons_of_pos hx]
  unfold State.fileOldest
  rw [hfind, herase]

/-! ### Step 1: the session that an event is filed against (R144) -/

theorem State.isActive_iff (s : State) (i : Sid) :
    s.isActive i = true ↔ i = s.sidOf i.port ∧ (s.sessions.get i.port).active = true := by
  obtain ⟨port, epoch⟩ := i
  simp only [State.isActive, State.sidOf, Bool.and_eq_true, beq_iff_eq, Sid.mk.injEq, true_and]
  rw [and_comm, eq_comm]

/-- Filing writes to the session record of the addressee's port alone, and only if its ACTIVE session is the
addressee. -/
theorem State.fileEvent_eq (s : State) (x : Posted) :
    s.fileEvent x =
      { s with
        sessions :=
          if x.addressee = .session (s.sidOf x.addressee.port) ∧ (s.sessions.get x.addressee.port).active = true then
            s.sessions.modify x.addressee.port fun r => r.file x.event
          else s.sessions } := by
  obtain ⟨source, addressee, event⟩ := x
  cases addressee with
  | session i =>
    simp only [State.fileEvent, Addressee.port, Addressee.session.injEq, State.isActive_iff]
    split
    · rfl
    · rfl
  | ended q => simp [State.fileEvent]

/-! ### Steps 2 to 4: what the record keeps of an event (R154, R155) -/

theorem Session.file_eq (r : Session) (e : Event) :
    r.file e =
      if maskHas r.mask e.kind.cls = false then r
      else if 24 ≤ r.queue.length then { r with lost := if r.lost = 255#8 then 255#8 else r.lost + 1#8 }
      else { r with queue := r.queue ++ [{ seq := r.nextSeq, event := e }], nextSeq := r.nextSeq + 1#8 } := by
  simp only [Session.file, Config.queueCapacity, Bool.not_eq_true', ge_iff_le]

/-! ### EVENT_FILING (R152) -/

/-- Settles O25: the oldest event of the block leaves the list in flight, which no session record sees, and the four
steps are decided by the record of the port that it goes to. -/
theorem filingFollowsTheFourSteps : Obligations.FilingFollowsTheFourSteps := by
  unfold Obligations.FilingFollowsTheFourSteps
  intro s source p before after x hposted hx hbefore
  obtain rfl : x.addressee.port = p := by
    obtain ⟨-, hport⟩ := Bool.and_eq_true_iff.mp hx
    exact eq_of_beq hport
  have hfiled := State.fileOldest_of_split hposted hx hbefore
  simp only [State.fileEvent_eq, Session.file_eq] at hfiled
  exact congrArg Host.Outcome.next hfiled

end Sys2Proof.Machine

/-! SUPPORT. READ_EVENTS: the queue and the lost count that the session check leaves, the count that is accepted, and
the records that are taken (R134, R157, R160, R192). -/
namespace Sys2Proof.Machine

/-! ### The queue behind a closed window and a renewed lease (R134) -/

@[simp] theorem State.windowed_sessions (s : State) (p : Port) (n : Nat) : (s.windowed p n).sessions = s.sessions := rfl

@[simp] theorem State.renewLease_queue (s : State) (p : Port) :
    ((s.renewLease p).sessions.get p).queue = (s.sessions.get p).queue := by
  rw [State.renewLease_eq, Four.get_modify_self]

@[simp] theorem State.renewLease_lost (s : State) (p : Port) :
    ((s.renewLease p).sessions.get p).lost = (s.sessions.get p).lost := by
  rw [State.renewLease_eq, Four.get_modify_self]

/-! ### READ_EVENTS' own check and effect (R157) -/

/-- A count of 1 to 8 takes the head of the queue; the record of eight bytes of each event is that of R192. -/
theorem State.takeReadEvents_of_count {s : State} {caller : Sid} {n : Byte} (hleast : 1 ≤ n.toNat)
    (hmost : n.toNat ≤ 8) :
    s.takeReadEvents [n] caller =
      (s.modSession caller.port fun r => { r with queue := r.queue.drop n.toNat, lost := 0#8 },
       okReply (BitVec.ofNat 8 (min n.toNat (s.sessions.get caller.port).queue.length) ::
         BitVec.ofNat 8 ((s.sessions.get caller.port).queue.length - n.toNat) ::
         (s.sessions.get caller.port).lost ::
         ((s.sessions.get caller.port).queue.take n.toNat).flatMap EventRecord.bytes)) := by
  have hcount : ¬((n.toNat = 0 || n.toNat > 8) = true) := by
    simp only [Bool.or_eq_true, decide_eq_true_eq]
    omega
  unfold State.takeReadEvents
  rw [← List.length_take, ← List.length_drop]
  exact if_neg hcount

theorem State.takeReadEvents_of_bad_count {s : State} {caller : Sid} {n : Byte} (h : n.toNat = 0 ∨ 8 < n.toNat) :
    s.takeReadEvents [n] caller = (s, badValue) := by
  have hcount : (n.toNat = 0 || n.toNat > 8) = true := by simpa using h
  unfold State.takeReadEvents
  exact if_pos hcount

/-! ### The whole command -/

/-- A taken READ_EVENTS answers what the session block answers, once its work is known to leave the port alone
(R171). -/
theorem exec_readEvents_answer {s t : State} {p : Port} {sid n : Byte} {r : Reply} (hc : Callable s p sid)
    (h : ((s.renewLease p).windowed p 6).takeReadEvents [n] (s.sidOf p) = (t.windowed p 6, r)) :
    exec (.readEvents p sid [n]) s = .next (t.answer p 1 r) :=
  have hmax : 1 ≤ Config.payloadBytes := by decide
  congrArg Host.Outcome.next
    (commandFrame_answer s p 0x05#8 sid [n] 1 1 (State.takeReadEvents [n]) hc hmax le_rfl le_rfl t r h)

/-- Settles O23: the case split is on the count; the queue and the lost count are those that the window and the renewed
lease leave as they were. -/
theorem readEventsDrainsTheQueue : Obligations.ReadEventsDrainsTheQueue := by
  unfold Obligations.ReadEventsDrainsTheQueue
  intro s p sid n hc
  have hport : (s.sidOf p).port = p := rfl
  constructor
  · rintro ⟨hleast, hmost⟩
    refine exec_readEvents_answer hc ?_
    rw [State.takeReadEvents_of_count hleast hmost, hport, State.windowed_sessions, State.renewLease_queue,
      State.renewLease_lost]
    rfl
  · intro hbad
    exact exec_readEvents_answer hc (State.takeReadEvents_of_bad_count hbad)

end Sys2Proof.Machine

/-! SUPPORT. What a step can do, said once: the work of the block that owns a command, with the checks it has passed,
and the effect of every step (R167, R169, R171). What every step keeps is a case split over these two. -/
namespace Sys2Proof.Machine

/-! ### The work of a command (R171, step 5) -/

/-- What the block that owns a command does for its caller, under the checks that the command has passed. -/
inductive Work (caller : Sid) (s : State) : State → Prop
  | nothing : Work caller s s
  | detach : Work caller s (s.endSession caller.port .detach)
  | setMask (mask : BitVec 6) : Work caller s (s.modSession caller.port fun r => { r with mask := mask })
  | drain (n : Nat) :
      Work caller s (s.modSession caller.port fun r => { r with queue := r.queue.drop n, lost := 0#8 })
  | take (r : Resource) (hfree : (s.claims.get r).holder = none) : Work caller s (s.takeResource r caller)
  | join (r : Resource) (holder : Sid) (hheld : (s.claims.get r).holder = some holder) (hne : holder ≠ caller)
      (hout : caller ∉ (s.claims.get r).waiters) (hlimit : s.waits.get caller.port < 8) :
      Work caller s (s.joinWaiters r caller)
  | leave (r : Resource) (keep : Bool) (hheld : (s.claims.get r).holder = some caller) :
      Work caller s (s.leaveResource r caller.port keep)
  | cancel (r : Resource) (hin : caller ∈ (s.claims.get r).waiters) :
      Work caller s
        ((s.modClaim r fun k => { k with waiters := (s.claims.get r).waiters.erase caller }).modWait caller.port
          fun n => n - 1)
  | edit (l : LeasedNo) (f : EditBuffer → EditBuffer) (hheld : (s.claims.get (rowResource l)).holder = some caller)
      (hlegal : ContentOk (s.leased.get l).edit.text.length (s.leased.get l).edit.placements →
        ContentOk (f (s.leased.get l).edit).text.length (f (s.leased.get l).edit).placements) :
      Work caller s (s.modEdit l f)
  | commit (l : LeasedNo) (hheld : (s.claims.get (rowResource l)).holder = some caller)
      (hsettled : (s.rows.get (LeasedNo.row l)).held = none) :
      Work caller s ((s.exchange (LeasedNo.row l) (s.leased.get l).edit.content (.session caller)).landIfFree
        (LeasedNo.row l))
  | writeCommon (r : RowNo) (k : Content) (e : Event) (hcommon : rowLeased r = none)
      (hsettled : (s.rows.get r).held = none) (hlegal : ContentOk k.codes.length k.placements) :
      Work caller s (((s.exchange r k (.session caller)).broadcast .rowTable (some caller.port) e).landIfFree r)
  | openUpload (n : CellNo) (code : Half) (advance : Nat) (isVolatile : Bool) (hnone : s.uploadOf caller = none)
      (hfree : (s.cells.get n).state = .free) : Work caller s (s.openUpload caller n code advance isVolatile)
  | nextFragment (u : Upload) (f : Fin 6) (b : Table Line 24 → Table Line 24) (hu : s.uploadOf caller = some u) :
      Work caller s ((s.modCell u.cell fun k => { k with bitmap := b k.bitmap }).setUpload caller.port
        (some { u with next := f }))
  | install (u : Upload) (b : Table Line 24 → Table Line 24) (hu : s.uploadOf caller = some u) :
      Work caller s ((s.modCell u.cell fun k => { k with bitmap := b k.bitmap }).install caller u).1
  | dropUpload (u : Upload) (b : Table Line 24 → Table Line 24) (hu : s.uploadOf caller = some u) :
      Work caller s ((s.modCell u.cell fun k => { k with bitmap := b k.bitmap }).dropUpload caller)
  | delete (code : Half) (x : MapEntry) (e : Event) (hfind : mapFind s.map code = some x) :
      Work caller s (((s.setMap (mapErase s.map code)).releaseCell x.cell).broadcast .glyphStore (some caller.port) e)
  | stage (c : Chan) (k : ChanConfig) : Work caller s (s.modChannel c fun x => { x with staged := k })
  | apply (c : Chan) : Work caller s (s.applyChannel caller c).1

/-! ### Each command's work -/

theorem State.takeDetach_work (s : State) (caller : Sid) : Work caller s (s.takeDetach caller).1 := by
  unfold State.takeDetach
  dsimp only
  exact .detach

theorem State.takeSetEventMask_work (s : State) (payload : List Byte) (caller : Sid) :
    Work caller s (s.takeSetEventMask payload caller).1 := by
  unfold State.takeSetEventMask
  split
  · exact .setMask _
  · exact .nothing

theorem State.takeReadEvents_work (s : State) (payload : List Byte) (caller : Sid) :
    Work caller s (s.takeReadEvents payload caller).1 := by
  unfold State.takeReadEvents
  dsimp only
  split
  · exact .nothing
  · exact .drain (byteAt payload 0).toNat

theorem State.claimHeld_work (s : State) (r : Resource) (wait : Bool) (holder caller : Sid)
    (hheld : (s.claims.get r).holder = some holder) : Work caller s (s.claimHeld r wait holder caller).1 := by
  unfold State.claimHeld
  dsimp only
  split
  · exact .nothing
  · rename_i hne
    split
    · exact .nothing
    · split
      · exact .nothing
      · rename_i hout
        split
        · exact .nothing
        · rename_i hlimit
          exact .join r holder hheld hne hout (by simpa [Config.waitLimit] using hlimit)

theorem State.takeClaim_work (s : State) (payload : List Byte) (caller : Sid) :
    Work caller s (s.takeClaim payload caller).1 := by
  unfold State.takeClaim
  split
  · split
    · exact .take _ ‹_›
    · exact State.claimHeld_work s _ _ _ caller ‹_›
  · exact .nothing

theorem State.takeRelease_work (s : State) (payload : List Byte) (caller : Sid) :
    Work caller s (s.takeRelease payload caller).1 := by
  unfold State.takeRelease
  split
  · split
    · exact .leave _ _ ‹_›
    · exact .nothing
  · exact .nothing

theorem State.takeCancelWait_work (s : State) (payload : List Byte) (caller : Sid) :
    Work caller s (s.takeCancelWait payload caller).1 := by
  unfold State.takeCancelWait
  split
  · dsimp only
    split
    · exact .cancel _ ‹_›
    · exact .nothing
  · exact .nothing

theorem State.withHeldRow_work (s : State) (payload : List Byte) (caller : Sid) (act : LeasedNo → State × Reply)
    (h : ∀ l, (s.claims.get (rowResource l)).holder = some caller → Work caller s (act l).1) :
    Work caller s (s.withHeldRow payload caller act).1 := by
  unfold State.withHeldRow
  split
  · split
    · exact h _ ‹_›
    · exact .nothing
  · exact .nothing

theorem writeRun_length_le (text codes : List Half) (start : Nat) (truncate : Bool) (htext : text.length ≤ 40)
    (hrun : start + codes.length ≤ 40) : (writeRun text start codes truncate).length ≤ 40 := by
  unfold writeRun
  cases truncate
  · simp; omega
  · simp; omega

theorem codesOf_length_le (bs : List Byte) : 2 * (codesOf bs).length ≤ bs.length := by
  induction bs using codesOf.induct with
  | case1 hi lo rest ih => simp only [codesOf, List.length_cons]; omega
  | case2 b => simp [codesOf]
  | case3 => simp [codesOf]

theorem State.editText_work (s : State) (payload : List Byte) (caller : Sid) (l : LeasedNo)
    (hheld : (s.claims.get (rowResource l)).holder = some caller) :
    Work caller s (s.editText payload l).1 := by
  unfold State.editText
  dsimp only
  split
  · split
    · exact .nothing
    · rename_i truncate _ hchecks
      simp only [Bool.or_eq_true, decide_eq_true_eq, not_or, gt_iff_lt, not_lt, ne_eq, not_not] at hchecks
      obtain ⟨⟨⟨⟨_, _⟩, hlen⟩, _⟩, hend⟩ := hchecks
      have hcodes := codesOf_length_le (payload.drop 4)
      rw [List.length_drop] at hcodes
      have hrun : (byteAt payload 1).toNat + (codesOf (payload.drop 4)).length ≤ 40 := by omega
      exact .edit l
        (fun b =>
          { b with
            text := writeRun (s.leased.get l).edit.text (byteAt payload 1).toNat (codesOf (payload.drop 4)) truncate })
        hheld fun ⟨htext, hplaced⟩ => ⟨writeRun_length_le _ _ _ truncate htext hrun, hplaced⟩
  · exact .nothing

theorem State.setStyle_work (s : State) (payload : List Byte) (caller : Sid) (l : LeasedNo)
    (hheld : (s.claims.get (rowResource l)).holder = some caller) :
    Work caller s (s.setStyle payload l).1 := by
  unfold State.setStyle
  split
  · rename_i style _
    exact .edit l (fun b => { b with style := style }) hheld id
  · exact .nothing

theorem placementRecords?_length {n : Nat} {bs : List Byte} {list : List Placement}
    (h : placementRecords? n bs = some list) : list.length = n := by
  induction n generalizing bs list with
  | zero => cases h; rfl
  | succ n ih =>
    rw [placementRecords?] at h
    split at h
    · rename_i hrest
      cases h
      rw [List.length_cons, ih hrest]
    · cases h

/-- A placement list that is read is legal: at most 4 entries, no two on one channel (R3, R11). -/
theorem placements?_legal {n : Nat} {bs : List Byte} {list : List Placement} (h : placements? n bs = some list) :
    list.length ≤ 4 ∧ chansDistinct list = true := by
  unfold placements? at h
  split at h
  · rename_i hn
    split at h
    · rename_i hrecords
      split at h
      · rename_i hdistinct
        cases h
        exact ⟨(placementRecords?_length hrecords).trans_le hn, hdistinct⟩
      · cases h
    · cases h
  · cases h

theorem State.setPlacements_work (s : State) (payload : List Byte) (caller : Sid) (l : LeasedNo)
    (hheld : (s.claims.get (rowResource l)).holder = some caller) :
    Work caller s (s.setPlacements payload l).1 := by
  unfold State.setPlacements
  dsimp only
  split
  · rename_i list hlist
    split
    · exact .nothing
    · exact .edit l (fun b => { b with placements := list }) hheld fun ⟨htext, _⟩ => ⟨htext, placements?_legal hlist⟩
  · exact .nothing

theorem Row.held_eq_none {x : Row} (h : ¬ x.swapping = true) : x.held = none := by
  simpa [Row.swapping] using h

theorem State.commitRow_work (s : State) (caller : Sid) (l : LeasedNo)
    (hheld : (s.claims.get (rowResource l)).holder = some caller) :
    Work caller s (s.commitRow caller l).1 := by
  unfold State.commitRow
  dsimp only
  split
  · exact .nothing
  · exact .commit l hheld (Row.held_eq_none ‹_›)

/-- The content of a WRITE_COMMON payload that passes its checks is legal (R3, R80). -/
theorem commonContent?_legal {payload : List Byte} {k : Content} (h : commonContent? payload = some k) :
    ContentOk k.codes.length k.placements := by
  unfold commonContent? at h
  dsimp only at h
  split at h
  · rename_i hlist
    split at h
    · cases h
    · rename_i hchecks
      simp only [Bool.or_eq_true, decide_eq_true_eq, not_or, gt_iff_lt, not_lt, ne_eq, not_not] at hchecks
      obtain ⟨⟨hm, hlen⟩, _⟩ := hchecks
      cases h
      have hcodes := codesOf_length_le (payload.drop (17 + 7 * (byteAt payload 15).toNat))
      rw [List.length_drop] at hcodes
      exact ⟨by dsimp only; omega, placements?_legal hlist⟩
  · cases h

theorem rowLeased_common {b : Byte} {r : RowNo} (h : commonRow? b = some r) : rowLeased r = none := by
  unfold commonRow? at h
  split at h
  · rename_i hb
    cases h
    exact dif_neg (by simp only [not_lt]; exact hb.1)
  · cases h

theorem State.takeWriteCommon_work (s : State) (payload : List Byte) (caller : Sid) :
    Work caller s (s.takeWriteCommon payload caller).1 := by
  unfold State.takeWriteCommon
  split
  · rename_i r k hrow hcontent
    unfold State.writeCommon
    dsimp only
    split
    · exact .nothing
    · rename_i hsettled
      split
      · exact .nothing
      · exact .writeCommon r k _ (rowLeased_common hrow) (Row.held_eq_none hsettled) (commonContent?_legal hcontent)
  · exact .nothing

theorem State.lowestFree_free {s : State} {n : CellNo} (h : s.lowestFree = some n) :
    (s.cells.get n).state = .free := by
  simpa using List.find?_some h

theorem State.takeGlyphBegin_work (s : State) (payload : List Byte) (caller : Sid) :
    Work caller s (s.takeGlyphBegin payload caller).1 := by
  unfold State.takeGlyphBegin
  dsimp only
  split
  · exact .nothing
  · rename_i hnone
    split
    · exact .nothing
    · split
      · exact .nothing
      · split
        · exact .nothing
        · split
          · exact .nothing
          · exact .openUpload _ _ _ _ hnone (State.lowestFree_free ‹_›)

theorem State.modCell_bitmap_id (s : State) (n : CellNo) :
    (s.modCell n fun k => { k with bitmap := id k.bitmap }) = s := by
  unfold State.modCell
  simp

theorem State.takeFragment_work (s : State) (caller : Sid) (u : Upload) (lines : List Byte)
    (hu : s.uploadOf caller = some u) : Work caller s (s.takeFragment caller u lines).1 := by
  unfold State.takeFragment
  dsimp only
  split
  · split
    · exact .dropUpload u (fun b => writeLines b u.next lines) hu
    · exact .install u (fun b => writeLines b u.next lines) hu
  · exact .nextFragment u _ (fun b => writeLines b u.next lines) hu

theorem State.dropUpload_work (s : State) (caller : Sid) (u : Upload) (hu : s.uploadOf caller = some u) :
    Work caller s (s.dropUpload caller) := by
  have hwork := Work.dropUpload u id hu
  rwa [State.modCell_bitmap_id] at hwork

theorem State.takeGlyphLines_work (s : State) (payload : List Byte) (caller : Sid) :
    Work caller s (s.takeGlyphLines payload caller).1 := by
  unfold State.takeGlyphLines
  split
  · exact .nothing
  · split
    · exact State.dropUpload_work s caller _ ‹_›
    · exact State.takeFragment_work s caller _ _ ‹_›

theorem State.takeGlyphAbort_work (s : State) (caller : Sid) : Work caller s (s.takeGlyphAbort caller).1 := by
  unfold State.takeGlyphAbort
  split
  · exact .nothing
  · exact State.dropUpload_work s caller _ ‹_›

theorem State.takeGlyphDelete_work (s : State) (payload : List Byte) (caller : Sid) :
    Work caller s (s.takeGlyphDelete payload caller).1 := by
  unfold State.takeGlyphDelete
  dsimp only
  split
  · exact .nothing
  · split
    · exact .nothing
    · split
      · exact .nothing
      · exact .delete _ _ _ ‹_›

theorem State.withHeldChannel_work (s : State) (payload : List Byte) (caller : Sid) (act : Chan → State × Reply)
    (h : ∀ c, Work caller s (act c).1) : Work caller s (s.withHeldChannel payload caller act).1 := by
  unfold State.withHeldChannel
  split
  · split
    · exact h _
    · exact .nothing
  · exact .nothing

theorem State.stageFields_work (s : State) (payload : List Byte) (caller : Sid) (c : Chan) :
    Work caller s (s.stageFields payload c).1 := by
  unfold State.stageFields
  split
  · exact .stage c _
  · exact .nothing

theorem State.takeReadClaim_work (s : State) (payload : List Byte) (caller : Sid) :
    Work caller s (s.takeReadClaim payload caller).1 := by
  unfold State.takeReadClaim
  split <;> exact .nothing

theorem State.takeReadRow_work (s : State) (payload : List Byte) (caller : Sid) :
    Work caller s (s.takeReadRow payload caller).1 := by
  unfold State.takeReadRow
  split <;> exact .nothing

theorem State.takeReadGlyph_work (s : State) (payload : List Byte) (caller : Sid) :
    Work caller s (s.takeReadGlyph payload caller).1 := by
  unfold State.takeReadGlyph
  dsimp only
  split
  · exact .nothing
  · split <;> exact .nothing

theorem State.takeReadChannel_work (s : State) (payload : List Byte) (caller : Sid) :
    Work caller s (s.takeReadChannel payload caller).1 := by
  unfold State.takeReadChannel
  split <;> exact .nothing

/-! ### The effect of a step -/

/-- A port between windows: IDLE, with nothing assembled and nothing left to shift out (R165, R167). -/
structure PortIf.Closed (q : PortIf) : Prop where
  recv : q.recv = .idle
  buffer : q.buffer = []
  bits : q.bits = 0
  delivered : q.delivered = 0
  shifting : q.shifting = []

/-- What a step makes of the state. A window of port p leaves the port interface q behind. -/
inductive Effect (s : State) : State → Prop
  | nothing : Effect s s
  | ignored (p : Port) (hreset : s.inReset p = true) : Effect s (s.modPort p PortIf.ignoreWindow)
  | window (p : Port) (q : PortIf) (hreset : s.inReset p = false) (hclosed : q.Closed)
      (hprst : q.prst = (s.ports.get p).prst) : Effect s (s.modPort p fun _ => q)
  | command (p : Port) (q : PortIf) (t : State) (r : Reply) (hreset : s.inReset p = false) (hclosed : q.Closed)
      (hprst : q.prst = (s.ports.get p).prst) (hactive : (s.sessions.get p).active = true)
      (hwork : Work (s.sidOf p) ((s.modPort p fun _ => q).renewLease p) t) : Effect s (t.place p r)
  | attach (p : Port) (q : PortIf) (term : Byte) (mask : BitVec 6) (r : Reply) (hreset : s.inReset p = false)
      (hclosed : q.Closed) (hprst : q.prst = (s.ports.get p).prst) (hterm : term ≠ 0#8) :
      Effect s (((s.modPort p fun _ => q).openSession p term mask).1.place p r)
  | frameIgnored (p : Port) : Effect s ((s.modPort p fun q => { q with csn := false }).leaveIgnore p)
  | powerOn (csn : Four Bool) : Effect s { s.resetBlocks .power with crst := false, ports := csn.map PortIf.powered }
  | crstAsserted (ports : Four PortIf)
      (hports : ∀ p, ∃ w, ports.get p = (s.ports.get p).assertReset (s.inReset p) w) :
      Effect s { s.resetBlocks .chipReset with crst := true, ports := ports }
  | crstDeasserted (csn : Four Bool) :
      Effect s ((ascending 4).foldl (fun t p => (t.seeCsn p (csn.get p)).leaveIgnore p) { s with crst := false })
  | prstAsserted (p : Port) (w : Window) (t : State)
      (ht : t = (s.modPort p fun q => { q.assertReset (s.inReset p) w with prst := true }).modSession p fun r =>
        { r with causes := r.causes ||| EndCause.portReset.bit }) :
      Effect s (if (s.sessions.get p).active then t.endSession p .portReset else t)
  | prstDeasserted (p : Port) (csn : Bool) :
      Effect s (((s.modPort p fun q => { q with prst := false }).seeCsn p csn).leaveIgnore p)
  | inputArrives (c : Chan) : Effect s (s.inputArrives c)
  | lossExpires (c : Chan) : Effect s (s.lossExpires c)
  | freeRunExpires (c : Chan) : Effect s (s.freeRunExpires c)
  | leaseLow (p : Port) (e : Event) (hdue : (s.sessions.get p).lowDue = true) :
      Effect s ((s.modSession p fun r => { r with armed := false }).post .sessionBlock (s.sidOf p) e)
  | leaseExpiry (p : Port) (hdue : (s.sessions.get p).expiryDue = true) : Effect s (s.endSession p .lease)
  | filing (source : Source) (p : Port) : Effect s (s.fileOldest source p)

/-- A step that has a next state, with the effect on it. -/
def Runs (s : State) (o : Host.Outcome State Fault Refusal) : Prop := ∃ t, o = .next t ∧ Effect s t

theorem Runs.next {s t : State} (h : Effect s t) : Runs s (.next t) := ⟨t, rfl, h⟩

/-! ### Windows -/

theorem PortIf.clockByte_prst (q : PortIf) (b : Byte) : (q.clockByte b).prst = q.prst := by
  unfold PortIf.clockByte
  split
  · rfl
  · rfl
  · split <;> rfl
  · rfl
  · unfold PortIf.fetchByte
    split <;> rfl

theorem PortIf.foldl_clockByte_prst (bs : List Byte) (q : PortIf) : (bs.foldl PortIf.clockByte q).prst = q.prst := by
  induction bs generalizing q with
  | nil => rfl
  | cons b rest ih => rw [List.foldl_cons, ih, PortIf.clockByte_prst]

/-- What a window carries does not reach the PRSTn pin. -/
@[simp] theorem PortIf.receive_prst (q : PortIf) (f : RawFrame) : (q.receive f).prst = q.prst := by
  have hbytes := PortIf.foldl_clockByte_prst f.bytes q.openWindow
  unfold PortIf.receive PortIf.clockBits
  split <;> exact hbytes

theorem PortIf.closeWindow_closed (q : PortIf) : q.closeWindow.Closed := ⟨rfl, rfl, rfl, rfl, rfl⟩

theorem State.modPort_modPort (s : State) (p : Port) (f g : PortIf → PortIf) :
    (s.modPort p f).modPort p g = s.modPort p fun q => g (f q) := by
  unfold State.modPort
  simp

/-- A response placed after a window that changed nothing else. -/
theorem Effect.answered {s : State} {p : Port} {q : PortIf} (r : Reply) (hreset : s.inReset p = false)
    (hclosed : q.Closed) (hprst : q.prst = (s.ports.get p).prst) : Effect s ((s.modPort p fun _ => q).place p r) := by
  unfold State.place
  rw [State.modPort_modPort]
  exact .window p _ hreset ⟨hclosed.recv, hclosed.buffer, hclosed.bits, hclosed.delivered, hclosed.shifting⟩ hprst

/-- A whole window that carries a frame: ignored, bad, or taken behind the closed window (R167, R169, R171). -/
theorem State.closeFrame_effect (s : State) (p : Port) (f : RawFrame) (taken : State → State × Reply)
    (h : ∀ q : PortIf, s.inReset p = false → q.Closed → q.prst = (s.ports.get p).prst →
      Effect s ((taken (s.modPort p fun _ => q)).1.place p (taken (s.modPort p fun _ => q)).2)) :
    Effect s (s.closeFrame p f taken) := by
  unfold State.closeFrame
  dsimp only
  split
  · exact .ignored p ‹_›
  · rename_i hreset
    rw [Bool.not_eq_true] at hreset
    split
    · exact Effect.answered _ hreset (PortIf.closeWindow_closed _) (PortIf.receive_prst _ f)
    · exact h _ hreset (PortIf.closeWindow_closed _) (PortIf.receive_prst _ f)

/-- A command frame is the work of its owning block behind the window and the renewal, or a refusal (R171, R173). -/
theorem State.commandFrame_effect (s : State) (p : Port) (code sid : Byte) (payload : List Byte) (lo hi : Nat)
    (own : Sid → State → State × Reply) (h : ∀ caller t, Work caller t (own caller t).1) :
    Effect s (s.commandFrame p code sid payload lo hi own) := by
  refine State.closeFrame_effect s p _ _ fun q hreset hclosed hprst => ?_
  unfold State.takeCommand
  split
  · rename_i hcheck
    obtain ⟨hactive, -⟩ := Bool.and_eq_true_iff.mp hcheck
    dsimp only
    split
    · exact .command p q _ _ hreset hclosed hprst hactive .nothing
    · exact .command p q _ _ hreset hclosed hprst hactive (h _ _)
  · exact Effect.answered _ hreset hclosed hprst

theorem State.attachFrame_effect (s : State) (p : Port) (f : RawFrame) (sid : Byte) (payload : List Byte) :
    Effect s (s.closeFrame p f fun t => t.takeAttach p sid payload) := by
  refine State.closeFrame_effect s p _ _ fun q hreset hclosed hprst => ?_
  unfold State.takeAttach
  split
  · exact Effect.answered _ hreset hclosed hprst
  · split
    · exact Effect.answered _ hreset hclosed hprst
    · rename_i hchecks
      have hterm : byteAt payload 0 ≠ 0#8 := fun h => hchecks (by simp [h])
      split
      · exact .attach p q _ _ _ hreset hclosed hprst hterm
      · exact Effect.answered _ hreset hclosed hprst

theorem State.unknownFrame_effect (s : State) (p : Port) (f : RawFrame) :
    Effect s (s.closeFrame p f fun t => (t, unknownReply)) :=
  State.closeFrame_effect s p _ _ fun _ hreset hclosed hprst => Effect.answered _ hreset hclosed hprst

theorem State.fetchFrame_effect (s : State) (p : Port) (n : Nat) : Effect s (s.fetchFrame p n) := by
  unfold State.fetchFrame
  split
  · exact .ignored p ‹_›
  · rename_i hreset
    rw [Bool.not_eq_true] at hreset
    exact .window p _ hreset (PortIf.closeWindow_closed _) (PortIf.receive_prst _ _)

/-! ### Every step -/

theorem execAttach_runs (p : Port) (sid : Byte) (payload : List Byte) (s : State) :
    Runs s (execAttach p sid payload s) := .next (State.attachFrame_effect s p _ sid payload)

theorem execCode_runs (p : Port) (code sid : Byte) (payload : List Byte) (s : State) :
    Runs s (execCode p code sid payload s) := by
  have command : ∀ (code : Byte) (lo hi : Nat) (own : Sid → State → State × Reply),
      (∀ caller t, Work caller t (own caller t).1) → Runs s (.next (s.commandFrame p code sid payload lo hi own)) :=
    fun code lo hi own h => .next (State.commandFrame_effect s p code sid payload lo hi own h)
  unfold execCode
  split
  · exact execAttach_runs p sid payload s
  · exact command _ _ _ _ fun caller t => t.takeDetach_work caller
  · exact command _ _ _ _ fun _ _ => .nothing
  · exact command _ _ _ _ fun caller t => t.takeSetEventMask_work payload caller
  · exact command _ _ _ _ fun caller t => t.takeReadEvents_work payload caller
  · exact command _ _ _ _ fun caller t => t.takeClaim_work payload caller
  · exact command _ _ _ _ fun caller t => t.takeRelease_work payload caller
  · exact command _ _ _ _ fun caller t => t.takeCancelWait_work payload caller
  · exact command _ _ _ _ fun caller t => t.takeReadClaim_work payload caller
  · exact command _ _ _ _ fun caller t => t.withHeldRow_work payload caller _ fun l => t.editText_work payload caller l
  · exact command _ _ _ _ fun caller t => t.withHeldRow_work payload caller _ fun l => t.setStyle_work payload caller l
  · exact command _ _ _ _ fun caller t =>
      t.withHeldRow_work payload caller _ fun l => t.setPlacements_work payload caller l
  · exact command _ _ _ _ fun caller t => t.withHeldRow_work payload caller _ fun l => t.commitRow_work caller l
  · exact command _ _ _ _ fun caller t => t.takeReadRow_work payload caller
  · exact command _ _ _ _ fun caller t => t.takeWriteCommon_work payload caller
  · exact command _ _ _ _ fun caller t => t.takeGlyphBegin_work payload caller
  · exact command _ _ _ _ fun caller t => t.takeGlyphLines_work payload caller
  · exact command _ _ _ _ fun caller t => t.takeGlyphAbort_work caller
  · exact command _ _ _ _ fun caller t => t.takeGlyphDelete_work payload caller
  · exact command _ _ _ _ fun caller t => t.takeReadGlyph_work payload caller
  · exact command _ _ _ _ fun _ _ => .nothing
  · exact command _ _ _ _ fun caller t =>
      t.withHeldChannel_work payload caller _ fun c => t.stageFields_work payload caller c
  · exact command _ _ _ _ fun caller t => t.withHeldChannel_work payload caller _ fun c => .apply c
  · exact command _ _ _ _ fun caller t => t.takeReadChannel_work payload caller
  · exact .next (State.unknownFrame_effect s p _)

theorem execBadFrame_runs (p : Port) (f : RawFrame) (s : State) : Runs s (execBadFrame p f s) := by
  unfold execBadFrame
  split
  · split
    · exact .next .nothing
    · exact .next (State.unknownFrame_effect s p f)
  · split
    · exact .next (State.fetchFrame_effect s p _)
    · split
      · exact execCode_runs p _ _ _ s
      · exact .next (State.unknownFrame_effect s p f)

/-- A command runs as its code does (R172). -/
theorem exec_command_runs (i : Instr) (s : State) {p : Port} {code sid : Byte} {payload : List Byte}
    (h : exec i s = execCode p code sid payload s) : Runs s (exec i s) := h ▸ execCode_runs p code sid payload s

theorem execLeaseLow_runs (p : Port) (s : State) : Runs s (execLeaseLow p s) := by
  unfold execLeaseLow
  dsimp only
  split
  · exact .next (.leaseLow p _ ‹_›)
  · exact .next .nothing

theorem execLeaseExpiry_runs (p : Port) (s : State) : Runs s (execLeaseExpiry p s) := by
  unfold execLeaseExpiry
  split
  · exact .next (.leaseExpiry p ‹_›)
  · exact .next .nothing

theorem Four.get_mk {α : Type} (f : Fin 4 → α) (p : Fin 4) : (Four.mk (f 0) (f 1) (f 2) (f 3)).get p = f p := by
  fin_cases p <;> rfl

theorem execCrstAsserted_runs (windows : Four Window) (s : State) : Runs s (execCrstAsserted windows s) :=
  .next (.crstAsserted _ fun p =>
    ⟨windows.get p, Four.get_mk (fun p => (s.ports.get p).assertReset (s.inReset p) (windows.get p)) p⟩)

/-- Every step has a next state, and one of the effects above on it. -/
theorem exec_runs (i : Instr) (s : State) : Runs s (exec i s) := by
  cases i with
  | attach p sid payload => exact execAttach_runs p sid payload s
  | detach p sid payload => exact exec_command_runs _ s (code := 0x02#8) rfl
  | renew p sid payload => exact exec_command_runs _ s (code := 0x03#8) rfl
  | setEventMask p sid payload => exact exec_command_runs _ s (code := 0x04#8) rfl
  | readEvents p sid payload => exact exec_command_runs _ s (code := 0x05#8) rfl
  | claim p sid payload => exact exec_command_runs _ s (code := 0x10#8) rfl
  | release p sid payload => exact exec_command_runs _ s (code := 0x11#8) rfl
  | cancelWait p sid payload => exact exec_command_runs _ s (code := 0x12#8) rfl
  | readClaim p sid payload => exact exec_command_runs _ s (code := 0x13#8) rfl
  | editText p sid payload => exact exec_command_runs _ s (code := 0x20#8) rfl
  | setStyle p sid payload => exact exec_command_runs _ s (code := 0x21#8) rfl
  | setPlacements p sid payload => exact exec_command_runs _ s (code := 0x22#8) rfl
  | commit p sid payload => exact exec_command_runs _ s (code := 0x23#8) rfl
  | readRow p sid payload => exact exec_command_runs _ s (code := 0x24#8) rfl
  | writeCommon p sid payload => exact exec_command_runs _ s (code := 0x28#8) rfl
  | glyphBegin p sid payload => exact exec_command_runs _ s (code := 0x30#8) rfl
  | glyphLines p sid payload => exact exec_command_runs _ s (code := 0x31#8) rfl
  | glyphAbort p sid payload => exact exec_command_runs _ s (code := 0x32#8) rfl
  | glyphDelete p sid payload => exact exec_command_runs _ s (code := 0x33#8) rfl
  | readGlyph p sid payload => exact exec_command_runs _ s (code := 0x34#8) rfl
  | readStore p sid payload => exact exec_command_runs _ s (code := 0x35#8) rfl
  | channelSet p sid payload => exact exec_command_runs _ s (code := 0x40#8) rfl
  | channelApply p sid payload => exact exec_command_runs _ s (code := 0x41#8) rfl
  | readChannel p sid payload => exact exec_command_runs _ s (code := 0x42#8) rfl
  | unknownCommand p code sid payload => exact execCode_runs p code sid payload s
  | badFrame p f => exact execBadFrame_runs p f s
  | fetchFrame p n => exact .next (State.fetchFrame_effect s p n)
  | frameIgnored p => exact .next (.frameIgnored p)
  | powerOn csn => exact .next (.powerOn csn)
  | crstAsserted windows => exact execCrstAsserted_runs windows s
  | crstDeasserted csn => exact .next (.crstDeasserted csn)
  | prstAsserted p window => exact .next (.prstAsserted p window _ rfl)
  | prstDeasserted p csn => exact .next (.prstDeasserted p csn)
  | inputFrameStart c => exact .next (.inputArrives c)
  | lossTimerExpiry c => exact .next (.lossExpires c)
  | freeRunTimerExpiry c => exact .next (.freeRunExpires c)
  | leaseLow p => exact execLeaseLow_runs p s
  | leaseExpiry p => exact execLeaseExpiry_runs p s
  | eventFiling source p => exact .next (.filing source p)

/-- What every effect keeps, every step keeps, once the queue of steps, the index of the free choices and the passing
of 10 µs keep it too. -/
theorem step_keeps {P : State → Prop} (hqueue : ∀ s l, P s → P { s with pending := l })
    (hindex : ∀ s n, P s → P { s with freeIndex := n }) (htick : ∀ s : State, P s → P s.tick)
    (heffect : ∀ s t, Effect s t → P s → P t) {s t : State} (hs : P s) (h : step s = .next t) : P t := by
  unfold step at h
  split at h
  · cases h
    unfold State.idle
    split
    · exact htick s hs
    · exact hindex _ _ (heffect s _ (.filing _ _) hs)
  · rename_i i rest _
    obtain ⟨u, hu, heff⟩ := exec_runs i { s with pending := rest }
    rw [hu] at h
    cases h
    exact heffect _ _ heff (hqueue s rest hs)

end Sys2Proof.Machine

/-! SUPPORT. What every step leaves alone: the queue of steps and the free choices in all of them, the pins and the port
interfaces in the work of a command, all but the rows, the cells and the channels in a frame (R171, R174, R179). -/
namespace Sys2Proof.Machine

/-! ### Steps of the channels -/

/-- From s to t nothing has changed but the rows, the cells, the channels, the compositors and the events in flight. -/
structure DrawsOnly (s t : State) : Prop where
  crst : t.crst = s.crst
  ports : t.ports = s.ports
  sessions : t.sessions = s.sessions
  claims : t.claims = s.claims
  waits : t.waits = s.waits
  map : t.map = s.map
  uploads : t.uploads = s.uploads
  pending : t.pending = s.pending
  freeIndex : t.freeIndex = s.freeIndex

theorem DrawsOnly.refl (s : State) : DrawsOnly s s := ⟨rfl, rfl, rfl, rfl, rfl, rfl, rfl, rfl, rfl⟩

theorem State.inputArrives_drawsOnly (s : State) (c : Chan) : DrawsOnly s (s.inputArrives c) := by
  unfold State.inputArrives State.inputFrame
  split <;> constructor <;> simp

theorem State.lossExpires_drawsOnly (s : State) (c : Chan) : DrawsOnly s (s.lossExpires c) := by
  unfold State.lossExpires State.lossTaken
  dsimp only
  split
  · split
    · exact .refl s
    · split <;> constructor <;> simp
    · split <;> constructor <;> simp
    · exact .refl s
  · exact .refl s

theorem State.freeRunExpires_drawsOnly (s : State) (c : Chan) : DrawsOnly s (s.freeRunExpires c) := by
  unfold State.freeRunExpires State.freeRunTaken
  split
  · split
    · exact .refl s
    · exact .refl s
    · exact .refl s
    · constructor <;> simp
  · exact .refl s

theorem State.applyInRunning_drawsOnly (s : State) (caller : Sid) (c : Chan) :
    DrawsOnly s (s.applyInRunning caller c).1 := by
  unfold State.applyInRunning
  dsimp only
  split <;> constructor <;> simp

theorem State.applyChannel_drawsOnly (s : State) (caller : Sid) (c : Chan) : DrawsOnly s
    (s.applyChannel caller c).1 := by
  unfold State.applyChannel
  split
  · unfold State.applyInOff
    dsimp only
    split <;> constructor <;> simp
  · unfold State.applyInSeeking
    dsimp only
    split <;> constructor <;> simp
  · exact State.applyInRunning_drawsOnly s caller c
  · exact State.applyInRunning_drawsOnly s caller c

/-! ### The work of a command -/

/-- From s to t the pins, the port interfaces, the queue of steps and the free choices are as they were. -/
structure PinsKept (s t : State) : Prop where
  crst : t.crst = s.crst
  ports : t.ports = s.ports
  pending : t.pending = s.pending
  freeIndex : t.freeIndex = s.freeIndex

theorem DrawsOnly.pinsKept {s t : State} (h : DrawsOnly s t) : PinsKept s t := ⟨h.crst, h.ports, h.pending, h.freeIndex⟩

theorem State.install_pinsKept (s : State) (caller : Sid) (u : Upload) : PinsKept s (s.install caller u).1 := by
  unfold State.install
  dsimp only
  split <;> constructor <;> simp

theorem Work.pinsKept {caller : Sid} {s t : State} (w : Work caller s t) : PinsKept s t := by
  cases w with
  | nothing => exact ⟨rfl, rfl, rfl, rfl⟩
  | detach => constructor <;> simp
  | setMask mask => exact ⟨rfl, rfl, rfl, rfl⟩
  | drain n => exact ⟨rfl, rfl, rfl, rfl⟩
  | take r hfree => unfold State.takeResource; constructor <;> simp
  | join r holder hheld hne hout hlimit => exact ⟨rfl, rfl, rfl, rfl⟩
  | leave r keep hheld => constructor <;> simp
  | cancel r hin => exact ⟨rfl, rfl, rfl, rfl⟩
  | edit l f hheld hlegal => exact ⟨rfl, rfl, rfl, rfl⟩
  | commit l hheld hsettled => constructor <;> simp
  | writeCommon r k e hcommon hsettled hlegal => constructor <;> simp
  | openUpload n code advance isVolatile hnone hfree => exact ⟨rfl, rfl, rfl, rfl⟩
  | nextFragment u f b hu => exact ⟨rfl, rfl, rfl, rfl⟩
  | install u b hu =>
    obtain ⟨hcrst, hports, hpending, hindex⟩ :=
      State.install_pinsKept (s.modCell u.cell fun k => { k with bitmap := b k.bitmap }) caller u
    exact ⟨hcrst, hports, hpending, hindex⟩
  | dropUpload u b hu => constructor <;> simp
  | delete code x e hfind => constructor <;> simp
  | stage c k => exact ⟨rfl, rfl, rfl, rfl⟩
  | apply c => exact (State.applyChannel_drawsOnly s caller c).pinsKept

theorem State.inReset_congr {s t : State} (h : PinsKept s t) (p : Port) : t.inReset p = s.inReset p := by
  unfold State.inReset; rw [h.crst, h.ports]

/-- What the work of a command can make of a session record. -/
inductive SessionWork : (Session → Session) → Prop
  | nothing : SessionWork id
  | detach : SessionWork fun r => r.ended .detach
  | setMask (mask : BitVec 6) : SessionWork fun r => { r with mask := mask }
  | drain (n : Nat) : SessionWork fun r => { r with queue := r.queue.drop n, lost := 0#8 }

theorem State.install_sessions (s : State) (caller : Sid) (u : Upload) :
    (s.install caller u).1.sessions = s.sessions := by
  unfold State.install
  dsimp only
  split <;> simp

/-- The work of a command changes its caller's session record alone. -/
theorem Work.sessions {caller : Sid} {s t : State} (w : Work caller s t) :
    ∃ f, SessionWork f ∧ t.sessions = s.sessions.modify caller.port f := by
  have same : t.sessions = s.sessions → ∃ f, SessionWork f ∧ t.sessions = s.sessions.modify caller.port f :=
    fun h => ⟨id, .nothing, h.trans (Four.modify_id s.sessions caller.port).symm⟩
  cases w with
  | nothing => exact same rfl
  | detach => exact ⟨_, .detach, State.endSession_sessions s caller.port .detach⟩
  | setMask mask => exact ⟨_, .setMask mask, rfl⟩
  | drain n => exact ⟨_, .drain n, rfl⟩
  | take r hfree => exact same (by simp [State.takeResource])
  | join r holder hheld hne hout hlimit => exact same rfl
  | leave r keep hheld => exact same (by simp)
  | cancel r hin => exact same rfl
  | edit l f hheld hlegal => exact same rfl
  | commit l hheld hsettled => exact same (by simp)
  | writeCommon r k e hcommon hsettled hlegal => exact same (by simp)
  | openUpload n code advance isVolatile hnone hfree => exact same rfl
  | nextFragment u f b hu => exact same rfl
  | install u b hu => exact same (State.install_sessions _ caller u)
  | dropUpload u b hu => exact same (by simp)
  | delete code x e hfind => exact same (by simp)
  | stage c k => exact same rfl
  | apply c => exact same (State.applyChannel_drawsOnly s caller c).sessions

/-! ### Resets of the ports (R167, R181, R182) -/

/-- A port as a reset input is released with CSn at a level: it leaves IGNORE when CSn is deasserted and no other reset
is held (R167). -/
def PortIf.freed (free : Bool) (csn : Bool) (q : PortIf) : PortIf :=
  { q with csn := csn, recv := if q.recv = .ignore ∧ free = true ∧ csn = false then .idle else q.recv }

theorem State.seeCsn_leaveIgnore (s : State) (p : Port) (csn : Bool) :
    (s.seeCsn p csn).leaveIgnore p = s.modPort p (PortIf.freed (!s.inReset p) csn) := by
  have hreset : (s.seeCsn p csn).inReset p = s.inReset p := by
    simp [State.seeCsn, State.inReset]
  unfold State.leaveIgnore
  rw [hreset]
  have hq : (s.seeCsn p csn).ports.get p = { s.ports.get p with csn := csn } := by simp [State.seeCsn]
  rw [hq]
  unfold State.seeCsn
  rw [State.modPort_modPort]
  unfold State.modPort Four.modify PortIf.freed
  by_cases h : (s.ports.get p).recv = .ignore ∧ (!s.inReset p) = true ∧ csn = false
  · obtain ⟨hrecv, hfree, hcsn⟩ := h
    simp [hrecv, hcsn, (Bool.not_eq_true' _).mp hfree]
  · have hno : ¬((s.ports.get p).recv == .ignore && !s.inReset p && !csn) = true := by
      simpa [and_assoc] using h
    simp only [if_neg h, if_neg hno]

end Sys2Proof.Machine

/-! SUPPORT. Nothing stops the part, and no command touches the queue of steps (R171, R174, R179; logs 10, 20). -/
namespace Sys2Proof.Machine

theorem foldl_leaveIgnore_pins (csn : Four Bool) (l : List Port) (s : State) :
    let t := l.foldl (fun t p => (t.seeCsn p (csn.get p)).leaveIgnore p) s
    t.pending = s.pending ∧ t.freeIndex = s.freeIndex :=
  ⟨foldl_keeps (g := State.pending) (fun t p => by simp [State.seeCsn]) l s,
    foldl_keeps (g := State.freeIndex) (fun t p => by simp [State.seeCsn]) l s⟩

/-- The state that opens a session has the pins and the queue of the state before it (R132). -/
theorem State.openSession_pinsKept (s : State) (p : Port) (term : Byte) (mask : BitVec 6) :
    PinsKept s (s.openSession p term mask).1 := by
  unfold State.openSession
  dsimp only
  split <;> constructor <;> simp

/-- No step touches the queue of waiting steps or the index of the free choices (logs 10, 20). -/
theorem Effect.queueKept {s t : State} (h : Effect s t) : t.pending = s.pending ∧ t.freeIndex = s.freeIndex := by
  have draws : ∀ {t}, DrawsOnly s t → t.pending = s.pending ∧ t.freeIndex = s.freeIndex :=
    fun h => ⟨h.pending, h.freeIndex⟩
  cases h with
  | nothing => exact ⟨rfl, rfl⟩
  | ignored p hreset => exact ⟨rfl, rfl⟩
  | window p q hreset hclosed hprst => exact ⟨rfl, rfl⟩
  | command p q t r hreset hclosed hprst hactive hwork =>
    exact ⟨hwork.pinsKept.pending, hwork.pinsKept.freeIndex⟩
  | attach p q term mask r hreset hclosed hprst hterm =>
    have hpins := State.openSession_pinsKept (s.modPort p fun _ => q) p term mask
    exact ⟨hpins.pending, hpins.freeIndex⟩
  | frameIgnored p => simp
  | powerOn csn => exact ⟨rfl, rfl⟩
  | crstAsserted ports hports => exact ⟨rfl, rfl⟩
  | crstDeasserted csn => exact foldl_leaveIgnore_pins csn (ascending 4) { s with crst := false }
  | prstAsserted p w t ht =>
    subst ht
    split <;> simp
  | prstDeasserted p csn => simp [State.seeCsn]
  | inputArrives c => exact draws (s.inputArrives_drawsOnly c)
  | lossExpires c => exact draws (s.lossExpires_drawsOnly c)
  | freeRunExpires c => exact draws (s.freeRunExpires_drawsOnly c)
  | leaseLow p e hdue => exact ⟨rfl, rfl⟩
  | leaseExpiry p hdue => simp
  | filing source p => simp

/-- Settles O3: every step runs to one of the effects, and none of them touches the queue. -/
theorem nothingStopsThePart : Obligations.NothingStopsThePart := by
  unfold Obligations.NothingStopsThePart
  constructor
  · intro i s
    obtain ⟨t, ht, heffect⟩ := exec_runs i s
    exact ⟨t, ht, heffect.queueKept⟩
  · intro s
    unfold step
    split
    · exact ⟨_, rfl⟩
    · obtain ⟨t, ht, _⟩ := exec_runs _ _
      exact ⟨t, ht⟩

end Sys2Proof.Machine

/-! SUPPORT. What every step makes of one session record, and that it keeps the record legal (R129, R130, R153). -/
namespace Sys2Proof.Machine

/-! ### Session records -/

/-- What a step can make of one session record. -/
inductive SessionStep (r : Session) : Session → Prop
  | kept : SessionStep r r
  | worked (hactive : r.active = true) (f : Session → Session) (hf : SessionWork f) :
      SessionStep r (f { r with remaining := r.fullLease, fraction := 0, armed := true })
  | opened (term : Byte) (mask : BitVec 6) (hterm : term ≠ 0#8) :
      SessionStep r { r.opened term mask with causes := 0#6 }
  | reset (causes : BitVec 6) : SessionStep r { Session.reset with causes := causes }
  | noted (causes : BitVec 6) : SessionStep r { r with causes := causes }
  | ended (cause : EndCause) (causes : BitVec 6) : SessionStep r { r.ended cause with causes := causes }
  | disarmed (hactive : r.active = true) : SessionStep r { r with armed := false }
  | filed (hactive : r.active = true) (e : Event) : SessionStep r (r.file e)

/-- The record of a session that opens is the same over an ACTIVE session, which ends first, and over none (R132). -/
theorem State.openSession_sessions (s : State) (p : Port) (term : Byte) (mask : BitVec 6) :
    (s.openSession p term mask).1.sessions =
      s.sessions.modify p fun r => { r.opened term mask with causes := 0#6 } := by
  unfold State.openSession
  dsimp only
  split <;> simp [Session.opened, Session.ended]

/-- Filing writes to the record of an ACTIVE session, if to any (R144, R152). -/
theorem State.fileOldest_sessions (s : State) (source : Source) (p : Port) :
    (s.fileOldest source p).sessions = s.sessions ∨
      ∃ q e, (s.sessions.get q).active = true ∧
        (s.fileOldest source p).sessions = s.sessions.modify q fun r => r.file e := by
  unfold State.fileOldest
  split
  · rw [State.fileEvent_eq]
    dsimp only
    split
    · rename_i h
      exact .inr ⟨_, _, h.2, rfl⟩
    · exact .inl rfl
  · exact .inl rfl

theorem SessionStep.modify {s : Four Session} {q : Port} {f : Session → Session}
    (h : SessionStep (s.get q) (f (s.get q))) (p : Port) : SessionStep (s.get p) ((s.modify q f).get p) := by
  rw [Four.get_modify]
  split
  · rename_i hp; subst hp; exact h
  · exact .kept

theorem Effect.sessionStep {s t : State} (h : Effect s t) (p : Port) :
    SessionStep (s.sessions.get p) (t.sessions.get p) := by
  have same : ∀ {t : State}, t.sessions = s.sessions → SessionStep (s.sessions.get p) (t.sessions.get p) :=
    fun h => h ▸ .kept
  cases h with
  | nothing => exact .kept
  | ignored q hreset => exact .kept
  | window q x hreset hclosed hprst => exact .kept
  | command q x t r hreset hclosed hprst hactive hwork =>
    obtain ⟨f, hf, hsessions⟩ := hwork.sessions
    have hboth : t.sessions = s.sessions.modify q fun r =>
        f { r with remaining := r.fullLease, fraction := 0, armed := true } :=
      hsessions.trans (Four.modify_modify s.sessions q _ f)
    rw [State.place_sessions, hboth]
    exact SessionStep.modify (.worked hactive f hf) p
  | attach q x term mask r hreset hclosed hprst hterm =>
    rw [State.place_sessions, State.openSession_sessions]
    exact SessionStep.modify (.opened term mask hterm) p
  | frameIgnored q => exact same (by simp)
  | powerOn csn => simpa [State.resetBlocks] using SessionStep.reset EndCause.power.bit
  | crstAsserted ports hports => simpa [State.resetBlocks] using SessionStep.reset EndCause.chipReset.bit
  | crstDeasserted csn =>
    exact same (foldl_keeps (g := State.sessions) (fun t p => by simp [State.seeCsn]) _ _)
  | prstAsserted q w t ht =>
    subst ht
    split
    · rw [State.endSession_sessions, State.modSession_sessions, Four.modify_modify]
      exact SessionStep.modify (.ended .portReset _) p
    · exact SessionStep.modify (.noted _) p
  | prstDeasserted q csn => exact same (by simp [State.seeCsn])
  | inputArrives c => exact same (s.inputArrives_drawsOnly c).sessions
  | lossExpires c => exact same (s.lossExpires_drawsOnly c).sessions
  | freeRunExpires c => exact same (s.freeRunExpires_drawsOnly c).sessions
  | leaseLow q e hdue =>
    have hactive : (s.sessions.get q).active = true := by
      simp only [Session.lowDue, Bool.and_eq_true] at hdue
      exact hdue.1.1
    exact SessionStep.modify (.disarmed hactive) p
  | leaseExpiry q hdue =>
    rw [State.endSession_sessions]
    exact SessionStep.modify (.ended .lease _) p
  | filing source q =>
    rcases s.fileOldest_sessions source q with h | ⟨i, e, hactive, h⟩
    · exact same h
    · rw [h]
      exact SessionStep.modify (.filed hactive e) p

/-! ### Legal records -/

theorem nextEpoch_ne_zero (e : BitVec 6) : nextEpoch e ≠ 0#6 := by
  unfold nextEpoch
  split
  · decide
  · bv_omega

theorem SessionOk.file {r : Session} (h : SessionOk r) (hactive : r.active = true) (e : Event) :
    SessionOk (r.file e) := by
  obtain ⟨hqueue, -, hlease⟩ := h
  rw [Session.file_eq]
  split
  · exact ⟨hqueue, by simp [hactive], hlease⟩
  · split
    · exact ⟨hqueue, by simp [hactive], hlease⟩
    · refine ⟨?_, by simp [hactive], hlease⟩
      rw [List.length_append, List.length_singleton]
      omega

theorem SessionOk.renewed {r : Session} (h : SessionOk r) (hactive : r.active = true) :
    SessionOk { r with remaining := r.fullLease, fraction := 0, armed := true } := by
  obtain ⟨hqueue, -, hlease⟩ := h
  obtain ⟨hepoch, hterm, -⟩ := hlease hactive
  exact ⟨hqueue, by simp [hactive], fun _ => ⟨hepoch, hterm, le_rfl⟩⟩

theorem SessionOk.ended (r : Session) (cause : EndCause) (causes : BitVec 6) :
    SessionOk { r.ended cause with causes := causes } :=
  ⟨Nat.zero_le _, fun _ => ⟨rfl, rfl, rfl, rfl, rfl⟩, fun h => by cases h⟩

theorem SessionOk.worked {r : Session} (h : SessionOk r) (hactive : r.active = true) {f : Session → Session}
    (hf : SessionWork f) : SessionOk (f r) := by
  obtain ⟨hqueue, -, hlease⟩ := h
  cases hf with
  | nothing => exact ⟨hqueue, by simp [hactive], hlease⟩
  | detach => exact SessionOk.ended r .detach _
  | setMask mask => exact ⟨hqueue, by simp [hactive], hlease⟩
  | drain n => exact ⟨by rw [List.length_drop]; omega, by simp [hactive], hlease⟩

theorem SessionOk.step {r r' : Session} (h : SessionOk r) (hstep : SessionStep r r') : SessionOk r' := by
  cases hstep with
  | kept => exact h
  | worked hactive f hf => exact (h.renewed hactive).worked hactive hf
  | opened term mask hterm =>
    refine ⟨Nat.zero_le _, fun hnone => ?_, fun _ => ⟨nextEpoch_ne_zero _, hterm, le_rfl⟩⟩
    cases (hnone : true = false)
  | reset causes => exact ⟨Nat.zero_le _, fun _ => ⟨rfl, rfl, rfl, rfl, rfl⟩, fun h => by cases h⟩
  | noted causes => exact h
  | ended cause causes => exact SessionOk.ended r cause causes
  | disarmed hactive =>
    obtain ⟨hqueue, -, hlease⟩ := h
    exact ⟨hqueue, by simp [hactive], hlease⟩
  | filed hactive e => exact h.file hactive e

theorem SessionOk.tick {r : Session} (h : SessionOk r) : SessionOk r.tick := by
  obtain ⟨hqueue, hnone, hlease⟩ := h
  unfold Session.tick
  split
  · exact ⟨hqueue, hnone, hlease⟩
  · rename_i hactive
    rw [Bool.not_eq_true', Bool.not_eq_false] at hactive
    split
    · exact ⟨hqueue, by simp [hactive], hlease⟩
    · obtain ⟨hepoch, hterm, hfull⟩ := hlease hactive
      exact ⟨hqueue, by simp [hactive], fun _ => ⟨hepoch, hterm, by dsimp only; omega⟩⟩

theorem State.tick_sessions (s : State) : s.tick.sessions = s.sessions.map Session.tick := rfl

/-- Settles O56: a step makes one of the records of `SessionStep` of each record, and each of them is legal. -/
theorem stepsKeepSessionsLegal : Obligations.StepsKeepSessionsLegal := by
  unfold Obligations.StepsKeepSessionsLegal
  intro s t
  refine step_keeps (P := fun s => ∀ p, SessionOk (s.sessions.get p)) (fun _ _ h => h) (fun _ _ h => h) ?_ ?_
  · intro s h p
    rw [State.tick_sessions, Four.get_map]
    exact (h p).tick
  · intro s t heffect h p
    exact (h p).step (heffect.sessionStep p)

end Sys2Proof.Machine

/-! SUPPORT. Supply and resets: what each of their steps leaves in the ports and in the other blocks (R7, R34, R60, R90,
R147, R148, R165, R167, R181, R182). -/
namespace Sys2Proof.Machine

/-! ### The values after power-on -/

theorem boxBitmap_code : ∀ i j : Fin 24, j.val < 16 →
    cellCode Cell.replacement i.val j.val =
      if (1 ≤ j.val ∧ j.val ≤ 8 ∧ (i.val = 4 ∨ i.val = 19)) ∨
          (4 ≤ i.val ∧ i.val ≤ 19 ∧ (j.val = 1 ∨ j.val = 8)) then 1#2 else 0#2 := by decide +kernel

theorem State.reset_cell_zero : State.reset.cells.get 0 = Cell.replacement := Table.get_set_self _ _ _

theorem State.reset_cell_ne_zero {n : CellNo} (h : n ≠ 0) : State.reset.cells.get n = Cell.unused :=
  (Table.get_set_ne _ (Ne.symm h) _).trans (Table.get_fill _ _)

theorem State.reset_port (p : Port) : State.reset.ports.get p = PortIf.reset := Four.get_fill _ _

theorem State.reset_session (p : Port) : State.reset.sessions.get p = Session.reset := Four.get_fill _ _

theorem State.reset_claim (r : Resource) : State.reset.claims.get r = { holder := none, waiters := [] } :=
  Table.get_fill _ _

theorem State.reset_row (r : RowNo) : State.reset.rows.get r = { live := Version.empty, held := none } :=
  Table.get_fill _ _

theorem State.reset_leased (l : LeasedNo) :
    State.reset.leased.get l = { edit := EditBuffer.empty, blankPending := false } := Table.get_fill _ _

theorem State.reset_channel (c : Chan) : State.reset.channels.get c = Channel.reset := Four.get_fill _ _

theorem State.reset_compositor (c : Chan) : State.reset.compositors.get c = none := Four.get_fill _ _

theorem State.reset_wait (p : Port) : State.reset.waits.get p = 0 := Four.get_fill _ _

theorem State.reset_upload (p : Port) : State.reset.uploads.get p = none := Four.get_fill _ _

/-- Settles O4: each block is a fill of its record after power-on, and cell 0 is the replacement glyph. -/
theorem resetValues : Obligations.ResetValues := by
  unfold Obligations.ResetValues
  refine ⟨fun p => ⟨?_, ?_, State.reset_wait p, State.reset_upload p, ?_⟩, fun r => ?_, fun r => ?_, fun l => ?_, rfl,
    ?_, ?_, fun n hn => ?_, fun c => ?_⟩
  · rw [State.reset_port]
    exact ⟨rfl, rfl, rfl, rfl, rfl⟩
  · rw [State.reset_session]
    exact ⟨rfl, rfl, rfl, rfl, rfl, rfl, rfl, rfl, rfl⟩
  · unfold State.attn
    rw [State.reset_session]
    exact Bool.and_false _
  · rw [State.reset_claim]
    exact ⟨rfl, rfl⟩
  · rw [State.reset_row]
    exact ⟨rfl, rfl⟩
  · rw [State.reset_leased]
    exact ⟨rfl, rfl⟩
  · rw [State.reset_cell_zero]
    exact ⟨rfl, rfl, rfl⟩
  · rw [State.reset_cell_zero]
    exact boxBitmap_code
  · rw [State.reset_cell_ne_zero hn]
    exact ⟨rfl, rfl⟩
  · rw [State.reset_channel, State.reset_compositor]
    exact ⟨rfl, rfl, rfl, rfl, rfl, rfl, rfl, rfl, rfl⟩

/-! ### POWER_ON and CRST_ASSERTED -/

/-- Nothing of a window stays in a port at the assertion of a reset; its CSn stays as the window has it (R181, R182). -/
theorem PortIf.assertReset_spec (q : PortIf) (inReset : Bool) (w : Window) :
    (q.assertReset inReset w).recv = .ignore ∧ (q.assertReset inReset w).buffer = [] ∧
      (q.assertReset inReset w).bits = 0 ∧ (q.assertReset inReset w).slot = none ∧
      (q.assertReset inReset w).delivered = 0 ∧ (q.assertReset inReset w).shifting = [] ∧
      (q.assertReset inReset w).prst = q.prst ∧
      (q.assertReset inReset w).csn = (match w with | .closed => false | .opened _ => true) := by
  refine ⟨rfl, rfl, rfl, rfl, rfl, rfl, ?_, ?_⟩
  · unfold PortIf.assertReset
    cases w with
    | closed => rfl
    | opened f =>
      dsimp only
      split
      · rfl
      · exact PortIf.receive_prst q f
  · unfold PortIf.assertReset
    cases w with
    | closed => rfl
    | opened f =>
      dsimp only
      split
      · rfl
      · exact receive_csn q f

/-- Settles O5: POWER_ON is State.reset with the ports its operands say; CRST_ASSERTED is State.reset with every port as
the assertion of a reset leaves it. -/
theorem powerOnAndChipResetClearThePart : Obligations.PowerOnAndChipResetClearThePart := by
  unfold Obligations.PowerOnAndChipResetClearThePart
  refine ⟨fun s csn => rfl, fun s windows => ⟨_, rfl, rfl, fun p => ?_⟩⟩
  dsimp only
  rw [Four.get_mk fun p => (s.ports.get p).assertReset (s.inReset p) (windows.get p)]
  obtain ⟨hrecv, hbuffer, hbits, hslot, hdelivered, hshifting, hprst, hcsn⟩ :=
    PortIf.assertReset_spec (s.ports.get p) (s.inReset p) (windows.get p)
  exact ⟨hrecv, hbuffer, hbits, hslot, hdelivered, hshifting, hprst, hcsn, rfl⟩

/-! ### The ports leave IGNORE (R167, R181, R182) -/

theorem State.inReset_modPort_ne (s : State) {p q : Port} (h : p ≠ q) (f : PortIf → PortIf) :
    (s.modPort p f).inReset q = s.inReset q := by
  simp [State.inReset, Four.get_modify_ne _ h]

/-- Each port of a list sees its CSn and leaves IGNORE by its own pins alone. -/
theorem foldl_leaveIgnore (csn : Four Bool) (l : List Port) (hn : l.Nodup) (s : State) :
    let t := l.foldl (fun t p => (t.seeCsn p (csn.get p)).leaveIgnore p) s
    t = { s with ports := t.ports } ∧
      ∀ q, t.ports.get q =
        if q ∈ l then PortIf.freed (!s.inReset q) (csn.get q) (s.ports.get q) else s.ports.get q := by
  induction l generalizing s with
  | nil => exact ⟨rfl, by simp⟩
  | cons p rest ih =>
    obtain ⟨hp, hrest⟩ := List.nodup_cons.mp hn
    dsimp only
    rw [List.foldl_cons, State.seeCsn_leaveIgnore]
    obtain ⟨hstate, hports⟩ := ih hrest (s.modPort p (PortIf.freed (!s.inReset p) (csn.get p)))
    refine ⟨hstate, fun q => ?_⟩
    rw [hports q]
    by_cases hq : q = p
    · subst hq
      simp [hp]
    · simp [hq, State.inReset_modPort_ne s (Ne.symm hq), Four.get_modify_ne _ (Ne.symm hq)]

theorem PortIf.freed_eq (free csn : Bool) :
    PortIf.freed free csn = fun q =>
      { q with csn := csn, recv := if q.recv = .ignore ∧ free = true ∧ csn = false then .idle else q.recv } := rfl

/-- CRST_DEASSERTED: the level of CRST, and each port by its own pins (R182). -/
theorem exec_crstDeasserted (s : State) (csn : Four Bool) :
    ∃ t, exec (.crstDeasserted csn) s = .next t ∧ t = { s with crst := false, ports := t.ports } ∧
      ∀ p, t.ports.get p = PortIf.freed (!(s.ports.get p).prst) (csn.get p) (s.ports.get p) := by
  obtain ⟨hstate, hports⟩ := foldl_leaveIgnore csn (ascending 4) (ascending_nodup 4) { s with crst := false }
  exact ⟨_, rfl, hstate, fun p => by rw [hports p, if_pos (mem_ascending p)]; rfl⟩

/-- PRST_DEASSERTED: the port leaves IGNORE when CRST is not held and its CSn is deasserted (R181). -/
theorem State.prstDeasserted_eq (s : State) (p : Port) (csn : Bool) :
    ((s.modPort p fun q => { q with prst := false }).seeCsn p csn).leaveIgnore p =
      s.modPort p fun q => PortIf.freed (!s.crst) csn { q with prst := false } := by
  have hreset : (s.modPort p fun q => { q with prst := false }).inReset p = s.crst := by simp [State.inReset]
  rw [State.seeCsn_leaveIgnore, hreset, State.modPort_modPort]

/-- FRAME_IGNORED: the ignored window closes (R167). -/
theorem State.frameIgnored_eq (s : State) (p : Port) :
    (s.modPort p fun q => { q with csn := false }).leaveIgnore p = s.modPort p (PortIf.freed (!s.inReset p) false) :=
  State.seeCsn_leaveIgnore s p false

/-- Settles O6: all three steps are `PortIf.freed` of the ports that they reach. -/
theorem portsLeaveIgnore : Obligations.PortsLeaveIgnore := by
  unfold Obligations.PortsLeaveIgnore
  refine ⟨fun s csn => ?_, fun s p csn => ?_, fun s p => ?_⟩
  · obtain ⟨t, hexec, hstate, hports⟩ := exec_crstDeasserted s csn
    refine ⟨t, hexec, hstate, fun p => ?_⟩
    rw [hports p]
    simp [PortIf.freed]
  · refine (congrArg Host.Outcome.next (State.prstDeasserted_eq s p csn)).trans ?_
    simp [State.modPort, PortIf.freed_eq]
  · refine (congrArg Host.Outcome.next (State.frameIgnored_eq s p)).trans ?_
    simp [State.modPort, PortIf.freed_eq]

/-! ### PRST_ASSERTED (R147, R181) -/

theorem State.attn_eq_false {s : State} {p : Port} (h : (s.sessions.get p).queue = []) : s.attn p = false := by
  simp [State.attn, h]

/-- The causes already hold PORT_RESET when the session ends, and hold it after (R142, R147). -/
theorem Session.noted_ended (r : Session) :
    ({ r with causes := r.causes ||| EndCause.portReset.bit } : Session).ended .portReset = r.ended .portReset := by
  unfold Session.ended
  simp only [BitVec.or_assoc, BitVec.or_self]

/-- The state of a port reset before the session of the port ends. -/
def State.portReset (s : State) (p : Port) (w : Window) : State :=
  (s.modPort p fun q => { q.assertReset (s.inReset p) w with prst := true }).modSession p fun r =>
    { r with causes := r.causes ||| EndCause.portReset.bit }

theorem State.portReset_sessions (s : State) (p : Port) (w : Window) :
    (s.portReset p w).sessions =
      s.sessions.modify p fun r => { r with causes := r.causes ||| EndCause.portReset.bit } := rfl

theorem exec_prstAsserted (s : State) (p : Port) (w : Window) :
    exec (.prstAsserted p w) s =
      .next (if (s.sessions.get p).active then (s.portReset p w).endSession p .portReset else s.portReset p w) := rfl

theorem State.prstAsserted_ports (s : State) (p : Port) (w : Window) :
    (if (s.sessions.get p).active then (s.portReset p w).endSession p .portReset else s.portReset p w).ports =
      s.ports.modify p fun q => { q.assertReset (s.inReset p) w with prst := true } := by
  split
  · exact State.endSession_ports _ p .portReset
  · rfl

/-- Settles O7: the port is as the assertion of a reset leaves it, and an ACTIVE session ends as all sessions do. -/
theorem portResetEndsTheSession : Obligations.PortResetEndsTheSession := by
  unfold Obligations.PortResetEndsTheSession
  intro s p w
  refine ⟨_, exec_prstAsserted s p w, fun q hq => ?_, ?_, fun hnone => ?_, fun hactive => ?_⟩
  · rw [State.prstAsserted_ports, Four.get_modify_ne _ (Ne.symm hq)]
  · rw [State.prstAsserted_ports, Four.get_modify_self]
    obtain ⟨hrecv, hbuffer, hbits, hslot, hdelivered, hshifting, -, hcsn⟩ :=
      PortIf.assertReset_spec (s.ports.get p) (s.inReset p) w
    exact ⟨hrecv, hbuffer, hbits, hslot, hdelivered, hshifting, rfl, hcsn⟩
  · rw [if_neg (by simp [hnone])]
    rfl
  · rw [if_pos hactive]
    have hsessions : ((s.portReset p w).endSession p .portReset).sessions =
        s.sessions.modify p fun r => r.ended .portReset := by
      rw [State.endSession_sessions, State.portReset_sessions, Four.modify_modify]
      simp only [Session.noted_ended]
    refine ⟨hsessions, State.attn_eq_false (by rw [hsessions, Four.get_modify_self]; rfl), ?_⟩
    refine EndNoticed.congr (State.endSession_noticed (s.portReset p w) p .portReset) ?_
      ⟨rfl, rfl, rfl, rfl, rfl, rfl, rfl, rfl, rfl, rfl, rfl, rfl, rfl⟩
      ⟨rfl, rfl, rfl, rfl, rfl, rfl, rfl, rfl, rfl, rfl, rfl, rfl, rfl⟩
    simp [State.sidOf, State.portReset]

/-! ### Windows on a port in reset (R167) -/

theorem State.commandFrame_ignored {s : State} {p : Port} (h : s.inReset p = true) (code sid : Byte)
    (payload : List Byte) (lo hi : Nat) (own : Sid → State → State × Reply) :
    s.commandFrame p code sid payload lo hi own = s.modPort p PortIf.ignoreWindow := closeFrame_ignored _ _ _ _ h

theorem execCode_ignored {s : State} {p : Port} (h : s.inReset p = true) (code sid : Byte) (payload : List Byte) :
    execCode p code sid payload s = .next (s.modPort p PortIf.ignoreWindow) := by
  have command : ∀ (code : Byte) (lo hi : Nat) (own : Sid → State → State × Reply),
      Host.Outcome.next (s.commandFrame p code sid payload lo hi own) =
        (.next (s.modPort p PortIf.ignoreWindow) : Host.Outcome State Fault Refusal) :=
    fun code lo hi own => congrArg _ (State.commandFrame_ignored h code sid payload lo hi own)
  have frame : ∀ (f : RawFrame) (taken : State → State × Reply),
      Host.Outcome.next (s.closeFrame p f taken) =
        (.next (s.modPort p PortIf.ignoreWindow) : Host.Outcome State Fault Refusal) :=
    fun f taken => congrArg _ (closeFrame_ignored s p f taken h)
  unfold execCode
  split
  case h_1 => exact frame _ _
  case h_25 => exact frame _ _
  all_goals exact command _ _ _ _

/-- A command's step does what a port makes of its code (R172). -/
theorem exec_command {i : Instr} {p : Port} {code sid : Byte} {payload : List Byte}
    (h : i.commandParts = some (p, code, sid, payload)) (s : State) : exec i s = execCode p code sid payload s := by
  cases i <;> cases h <;> rfl

theorem State.fetchFrame_ignored {s : State} {p : Port} (h : s.inReset p = true) (n : Nat) :
    s.fetchFrame p n = s.modPort p PortIf.ignoreWindow := if_pos h

/-- A window that R169 judges bad is neither empty nor a fetch nor a command. -/
theorem execBadFrame_of_wf {p : Port} {f : RawFrame} (hwf : (Instr.badFrame p f).wf = true) (s : State) :
    execBadFrame p f s = .next (s.badFrame p f) := by
  simp only [Instr.wf, Bool.and_eq_true, decide_eq_true_eq] at hwf
  obtain ⟨-, hframe⟩ := hwf
  unfold Instr.ofFrame at hframe
  unfold execBadFrame
  split
  · rename_i hbytes
    rw [hbytes] at hframe
    by_cases hbits : f.bits = 0
    · simp [hbits] at hframe
    · rw [if_neg hbits]
  · rename_i first rest hbytes
    rw [hbytes] at hframe
    by_cases hfetch : first = fetchMarker
    · simp [hfetch] at hframe
    · rw [if_neg hfetch]
      split
      · rename_i code sid _ tail hgood
        rw [hbytes] at hgood
        simp only [hfetch, ↓reduceIte, hgood, Option.some.injEq] at hframe
        have hcode : (Instr.ofCode p code sid tail.dropLast).commandParts = none := by rw [hframe]; rfl
        unfold Instr.ofCode at hcode
        split at hcode <;> cases hcode
      · rfl

/-- Settles O8: a window in reset is one `ignoreWindow`, whatever it carries. -/
theorem framesInResetAreIgnored : Obligations.FramesInResetAreIgnored := by
  unfold Obligations.FramesInResetAreIgnored
  intro s p hreset
  refine ⟨fun i code sid payload hparts => ?_, fun f hwf => ?_, fun n => ?_⟩
  · rw [exec_command hparts, execCode_ignored hreset]
    rfl
  · refine (execBadFrame_of_wf hwf s).trans ?_
    exact congrArg _ (closeFrame_ignored s p f _ hreset)
  · exact congrArg _ (State.fetchFrame_ignored hreset n)

end Sys2Proof.Machine

/-! SUPPORT. Every step keeps the port interfaces legal (R147, R148, R165, R167, R181, R182). -/
namespace Sys2Proof.Machine

/-- `PortOk` as a property of a port interface, with whether it is in reset and whether its session is ACTIVE. -/
structure PortIf.Legal (q : PortIf) (inReset active : Bool) : Prop where
  recv : q.recv = .idle ∨ q.recv = .ignore
  buffer : q.buffer = []
  bits : q.bits = 0
  delivered : q.delivered = 0
  shifting : q.shifting = []
  reset : inReset = true → q.recv = .ignore ∧ q.slot = none ∧ active = false

theorem portOk_iff (s : State) (p : Port) :
    PortOk s p ↔ (s.ports.get p).Legal (s.inReset p) (s.sessions.get p).active :=
  ⟨fun ⟨h1, h2, h3, h4, h5, h6⟩ => ⟨h1, h2, h3, h4, h5, h6⟩, fun ⟨h1, h2, h3, h4, h5, h6⟩ => ⟨h1, h2, h3, h4, h5, h6⟩⟩

theorem PortIf.Closed.legal {q : PortIf} (h : q.Closed) (active : Bool) : q.Legal false active :=
  ⟨.inl h.recv, h.buffer, h.bits, h.delivered, h.shifting, fun hreset => by cases hreset⟩

theorem PortIf.Legal.mono {q : PortIf} {r r' a a' : Bool} (h : q.Legal r a) (hr : r' = true → r = true)
    (ha : a' = true → a = true) : q.Legal r' a' := by
  refine ⟨h.recv, h.buffer, h.bits, h.delivered, h.shifting, fun hreset => ?_⟩
  obtain ⟨hrecv, hslot, hactive⟩ := h.reset (hr hreset)
  exact ⟨hrecv, hslot, Bool.eq_false_iff.mpr fun hc => by simp [hactive] at ha; simp [ha] at hc⟩

theorem PortIf.Legal.freed {q : PortIf} {r a : Bool} (h : q.Legal r a) (csn : Bool) :
    (PortIf.freed (!r) csn q).Legal r a := by
  refine ⟨?_, h.buffer, h.bits, h.delivered, h.shifting, fun hreset => ?_⟩
  · unfold PortIf.freed
    dsimp only
    split
    · exact .inl rfl
    · exact h.recv
  · obtain ⟨hrecv, hslot, hactive⟩ := h.reset hreset
    exact ⟨by simp [PortIf.freed, hreset, hrecv], hslot, hactive⟩

theorem PortIf.Legal.setPrst {q : PortIf} {r a : Bool} (h : q.Legal r a) (prst : Bool) :
    ({ q with prst := prst } : PortIf).Legal r a := ⟨h.recv, h.buffer, h.bits, h.delivered, h.shifting, h.reset⟩

theorem PortIf.assertReset_legal (q : PortIf) (inReset : Bool) (w : Window) (r : Bool) :
    (q.assertReset inReset w).Legal r false :=
  ⟨.inr rfl, rfl, rfl, rfl, rfl, fun _ => ⟨rfl, rfl, rfl⟩⟩

/-- A port and its pins that a step leaves as they were stay legal, if the step opens no session there. -/
theorem PortOk.of_kept {s t : State} {p : Port} (h : PortOk s p) (hcrst : t.crst = s.crst)
    (hport : t.ports.get p = s.ports.get p)
    (hactive : (t.sessions.get p).active = true → (s.sessions.get p).active = true) : PortOk t p := by
  rw [portOk_iff] at h ⊢
  have hreset : t.inReset p = s.inReset p := by unfold State.inReset; rw [hcrst, hport]
  rw [hreset, hport]
  exact h.mono id hactive

/-- A write of one port keeps all ports legal, if it leaves that port legal. -/
theorem portsOk_modPort {s : State} {p : Port} {f : PortIf → PortIf} (h : ∀ q, PortOk s q)
    (hf : (f (s.ports.get p)).Legal (s.crst || (f (s.ports.get p)).prst) (s.sessions.get p).active) (q : Port) :
    PortOk (s.modPort p f) q := by
  by_cases hq : p = q
  · subst hq
    rw [portOk_iff]
    simpa [State.inReset] using hf
  · exact (h q).of_kept rfl (Four.get_modify_ne _ hq f) id

/-- A step that leaves the pins and the ports as they were and opens no session keeps the ports legal. -/
theorem portsOk_of_kept {s t : State} (h : ∀ p, PortOk s p) (hcrst : t.crst = s.crst) (hports : t.ports = s.ports)
    (hactive : ∀ p, (t.sessions.get p).active = true → (s.sessions.get p).active = true) (p : Port) : PortOk t p :=
  (h p).of_kept hcrst (by rw [hports]) (hactive p)

theorem DrawsOnly.portsOk {s t : State} (hd : DrawsOnly s t) (h : ∀ p, PortOk s p) : ∀ p, PortOk t p :=
  portsOk_of_kept h hd.crst hd.ports fun p => by rw [hd.sessions]; exact id

/-- A whole window with what its command changed: port p is closed and not in reset, and the others are as before. -/
theorem portsOk_of_window {s t : State} {p : Port} {q : PortIf} (h : ∀ x, PortOk s x) (hreset : s.inReset p = false)
    (hclosed : q.Closed) (hprst : q.prst = (s.ports.get p).prst) (hcrst : t.crst = s.crst)
    (hports : t.ports = s.ports.modify p fun _ => q)
    (hsessions : ∀ x, p ≠ x → t.sessions.get x = s.sessions.get x) (x : Port) : PortOk t x := by
  by_cases hx : p = x
  · subst hx
    have hopen : t.inReset p = false := by
      rw [← hreset]
      unfold State.inReset
      rw [hcrst, hports, Four.get_modify_self, hprst]
    rw [portOk_iff, hports, Four.get_modify_self, hopen]
    exact hclosed.legal _
  · exact (h x).of_kept hcrst (by rw [hports, Four.get_modify_ne _ hx]) (by rw [hsessions x hx]; exact id)

theorem PortIf.Closed.answered {q : PortIf} (h : q.Closed) (slot : Option Response) :
    ({ q with slot := slot } : PortIf).Closed := ⟨h.recv, h.buffer, h.bits, h.delivered, h.shifting⟩

theorem Four.modify_const {α : Type} (t : Four α) (i : Fin 4) (f : α → α) (a : α) (h : f (t.get i) = a) :
    t.modify i f = t.modify i fun _ => a := by
  unfold Four.modify; rw [h]

/-- The response placed behind a window (R175). -/
theorem State.place_ports_of_window {s t : State} {p : Port} {q : PortIf}
    (hports : t.ports = s.ports.modify p fun _ => q) (r : Reply) :
    (t.place p r).ports = s.ports.modify p fun _ =>
      { q with slot := some { status := r.status, discarded := q.slot.isSome, payload := r.payload } } := by
  unfold State.place
  rw [State.modPort_ports, hports, Four.modify_modify]

theorem State.fileOldest_active (s : State) (source : Source) (q p : Port) :
    ((s.fileOldest source q).sessions.get p).active = (s.sessions.get p).active := by
  have hfile : ∀ (r : Session) e, (r.file e).active = r.active := by
    intro r e
    rw [Session.file_eq]
    split
    · rfl
    · split <;> rfl
  rcases s.fileOldest_sessions source q with h | ⟨x, e, -, h⟩
  · rw [h]
  · rw [h, Four.get_modify]
    split
    · exact hfile _ e
    · rfl

theorem Session.endedAt_active {s : Four Session} {q : Port} {cause : EndCause} {p : Port}
    (h : ((s.modify q fun r => r.ended cause).get p).active = true) : (s.get p).active = true := by
  rw [Four.get_modify] at h
  split at h
  · cases h
  · exact h

/-- The ports as CRST is released: each leaves IGNORE if its own PRSTn is not held (R182). -/
theorem portsOk_crstDeasserted {s t : State} (h : ∀ p, PortOk s p) (csn : Four Bool)
    (hstate : t = { s with crst := false, ports := t.ports })
    (hports : ∀ p, t.ports.get p = PortIf.freed (!(s.ports.get p).prst) (csn.get p) (s.ports.get p)) (p : Port) :
    PortOk t p := by
  have hp := ((portOk_iff s p).mp (h p)).mono (r' := (s.ports.get p).prst) (a' := (s.sessions.get p).active)
    (fun hprst => by simp [State.inReset, hprst]) id
  have hfreed := hp.freed (csn.get p)
  have hcrst : t.crst = false := congrArg State.crst hstate
  have hsessions : t.sessions = s.sessions := (congrArg State.sessions hstate :)
  have hreset : t.inReset p = (s.ports.get p).prst := by
    unfold State.inReset
    rw [hcrst, hports p]
    rfl
  rw [portOk_iff, hreset, hsessions, hports p]
  exact hfreed

/-- The port of a reset is as its assertion leaves it, with no session, and the others are as before (R181). -/
theorem portsOk_prstAsserted {s : State} (h : ∀ p, PortOk s p) {p : Port} (w : Window) (x : Port) :
    PortOk (if (s.sessions.get p).active then (s.portReset p w).endSession p .portReset else s.portReset p w) x := by
  have hports := State.prstAsserted_ports s p w
  by_cases hx : p = x
  · subst hx
    have hnone : ((if (s.sessions.get p).active then (s.portReset p w).endSession p .portReset
        else s.portReset p w).sessions.get p).active = false := by
      split
      · rw [State.endSession_sessions, Four.get_modify_self]
        rfl
      · rename_i hinactive
        simpa [State.portReset_sessions] using hinactive
    rw [portOk_iff, hports, Four.get_modify_self, hnone]
    exact (PortIf.assertReset_legal _ _ w _).setPrst true
  · refine (h x).of_kept ?_ (by rw [hports, Four.get_modify_ne _ hx]) ?_
    · split
      · exact State.endSession_crst _ p .portReset
      · rfl
    · split
      · rw [State.endSession_sessions, Four.get_modify_ne _ hx, State.portReset_sessions, Four.get_modify_ne _ hx]
        exact id
      · rw [State.portReset_sessions, Four.get_modify_ne _ hx]
        exact id

theorem Effect.portsOk {s t : State} (heffect : Effect s t) (h : ∀ p, PortOk s p) : ∀ p, PortOk t p := by
  cases heffect with
  | nothing => exact h
  | ignored p hreset =>
    refine portsOk_modPort h ?_
    have hp := (portOk_iff s p).mp (h p)
    exact ⟨.inr rfl, hp.buffer, hp.bits, hp.delivered, hp.shifting, fun _ =>
      ⟨rfl, (hp.reset hreset).2⟩⟩
  | window p q hreset hclosed hprst => exact portsOk_of_window h hreset hclosed hprst rfl rfl fun _ _ => rfl
  | command p q t r hreset hclosed hprst hactive hwork =>
    obtain ⟨f, -, hsessions⟩ := hwork.sessions
    refine portsOk_of_window h hreset (hclosed.answered (some ⟨r.status, q.slot.isSome, r.payload⟩)) hprst
      hwork.pinsKept.crst (State.place_ports_of_window (s := s) hwork.pinsKept.ports r) fun x hx => ?_
    rw [State.place_sessions, hsessions]
    exact (Four.get_modify_ne _ hx f).trans (Four.get_modify_ne _ hx _)
  | attach p q term mask r hreset hclosed hprst hterm =>
    have hpins := State.openSession_pinsKept (s.modPort p fun _ => q) p term mask
    refine portsOk_of_window h hreset (hclosed.answered (some ⟨r.status, q.slot.isSome, r.payload⟩)) hprst
      hpins.crst (State.place_ports_of_window (s := s) hpins.ports r) fun x hx => ?_
    rw [State.place_sessions, State.openSession_sessions]
    exact Four.get_modify_ne _ hx _
  | frameIgnored p =>
    rw [State.frameIgnored_eq]
    exact portsOk_modPort h (((portOk_iff s p).mp (h p)).freed false)
  | powerOn csn =>
    intro p
    rw [portOk_iff]
    refine ⟨?_, ?_, ?_, ?_, ?_, fun hreset => ?_⟩ <;> simp only [Four.get_map, State.inReset] at *
    · cases csn.get p <;> simp [PortIf.powered]
    · rfl
    · rfl
    · rfl
    · rfl
    · cases (hreset : (false || false) = true)
  | crstAsserted ports hports =>
    intro p
    obtain ⟨w, hw⟩ := hports p
    rw [portOk_iff]
    dsimp only
    rw [hw]
    have hnone : ((s.resetBlocks .chipReset).sessions.get p).active = false := by
      simp [State.resetBlocks, Session.reset]
    exact hnone ▸ PortIf.assertReset_legal _ _ _ _
  | crstDeasserted csn =>
    obtain ⟨t, hexec, hstate, hports⟩ := exec_crstDeasserted s csn
    cases hexec
    exact portsOk_crstDeasserted h csn hstate hports
  | prstAsserted p w t ht =>
    subst ht
    exact portsOk_prstAsserted h w
  | prstDeasserted p csn =>
    rw [State.prstDeasserted_eq]
    refine portsOk_modPort h ?_
    have hp := ((portOk_iff s p).mp (h p)).mono (r' := s.crst) (a' := (s.sessions.get p).active)
      (fun hcrst => by simp [State.inReset, hcrst]) id
    have hfreed := (hp.setPrst false).freed csn
    rw [← Bool.or_false s.crst] at hfreed
    simpa [PortIf.freed] using hfreed
  | inputArrives c => exact (s.inputArrives_drawsOnly c).portsOk h
  | lossExpires c => exact (s.lossExpires_drawsOnly c).portsOk h
  | freeRunExpires c => exact (s.freeRunExpires_drawsOnly c).portsOk h
  | leaseLow p e hdue =>
    refine portsOk_of_kept h rfl rfl fun x => ?_
    rw [State.post_sessions, State.modSession_sessions, Four.get_modify]
    split <;> exact id
  | leaseExpiry p hdue =>
    refine portsOk_of_kept h (by simp) (by simp) fun x => ?_
    rw [State.endSession_sessions]
    exact Session.endedAt_active
  | filing source p =>
    refine portsOk_of_kept h (by simp) (by simp) fun x => ?_
    rw [State.fileOldest_active]
    exact id

/-- A session that lets 10 µs pass stays what it was. -/
theorem Session.tick_active (r : Session) : r.tick.active = r.active := by
  unfold Session.tick
  split
  · rfl
  · split <;> rfl

/-- Settles O55: a case split over the effects of a step; each leaves a port as it was, closed, freed or reset. -/
theorem stepsKeepPortsLegal : Obligations.StepsKeepPortsLegal := by
  unfold Obligations.StepsKeepPortsLegal
  intro s t
  refine step_keeps (P := fun s => ∀ p, PortOk s p) (fun _ _ h => h) (fun _ _ h => h) ?_ ?_
  · intro s h
    refine portsOk_of_kept h rfl rfl fun p => ?_
    rw [State.tick_sessions, Four.get_map, Session.tick_active]
    exact id
  · intro s t heffect h
    exact heffect.portsOk h

end Sys2Proof.Machine

/-! SUPPORT. Every step keeps the channel engines and their compositors legal (R89, R99, R106, R107, R113). -/
namespace Sys2Proof.Machine

/-- `ChannelOk` as a property of a channel engine and of what its compositor holds. -/
structure Channel.Legal (k : Channel) (frame : Option FrameLatch) : Prop where
  mode : k.active.on = false ↔ k.state = .off
  pending : k.pending.isSome = true → k.state.running = true
  pendingOn : ∀ x ∈ k.pending, x.config.on = true
  loss : k.loss.isRunning = true ↔ k.state = .seeking ∨ k.state = .locked
  freeRun : k.freeRun.isRunning = true ↔ k.state = .freeRun
  overbooked : k.overbooked = true ↔ k.dropped ≠ 0
  dropped : k.dropped ≤ 16
  drawing : frame.isSome = k.state.running
  drawn : ∀ f ∈ frame, f.drawList.length ≤ 32

theorem channelOk_iff (s : State) (c : Chan) : ChannelOk s c ↔ (s.channels.get c).Legal (s.compositors.get c) :=
  ⟨fun ⟨h1, h2, h3, h4, h5, h6, h7, h8, h9⟩ => ⟨h1, h2, h3, h4, h5, h6, h7, h8, h9⟩,
    fun ⟨h1, h2, h3, h4, h5, h6, h7, h8, h9⟩ => ⟨h1, h2, h3, h4, h5, h6, h7, h8, h9⟩⟩

theorem Channel.reset_legal : Channel.reset.Legal none := by
  constructor <;> simp [Channel.reset, ChanConfig.default, SignalState.running, Timer.isRunning]

/-- Only the channels and the compositors matter. -/
theorem channelsOk_of_kept {s t : State} (h : ∀ c, ChannelOk s c) (hc : t.channels = s.channels)
    (hf : t.compositors = s.compositors) (c : Chan) : ChannelOk t c := by
  rw [channelOk_iff, hc, hf]
  exact (channelOk_iff s c).mp (h c)

/-- A change of one channel and of its compositor keeps all of them legal, if it leaves that one legal. -/
theorem channelsOk_of_modify {s t : State} {c : Chan} {f : Channel → Channel} {g : Option FrameLatch}
    (h : ∀ d, ChannelOk s d) (hc : t.channels = s.channels.modify c f) (hg : t.compositors = s.compositors.set c g)
    (hlegal : (f (s.channels.get c)).Legal g) (d : Chan) : ChannelOk t d := by
  rw [channelOk_iff, hc, hg]
  by_cases hd : c = d
  · subst hd
    rw [Four.get_modify_self, Four.get_set_self]
    exact hlegal
  · rw [Four.get_modify_ne _ hd, Four.get_set_ne _ hd]
    exact (channelOk_iff s d).mp (h d)

/-- A change of one channel that leaves the compositor alone. -/
theorem channelsOk_of_modChannel {s t : State} {c : Chan} {f : Channel → Channel} (h : ∀ d, ChannelOk s d)
    (hc : t.channels = s.channels.modify c f) (hg : t.compositors = s.compositors)
    (hlegal : (s.channels.get c).Legal (s.compositors.get c) →
      (f (s.channels.get c)).Legal (s.compositors.get c)) : ∀ d, ChannelOk t d :=
  channelsOk_of_modify h hc (hg.trans (Four.set_get s.compositors c).symm) (hlegal ((channelOk_iff s c).mp (h c)))

/-! ### Frames (R106, R107) -/

theorem drawables_length_le (c : Chan) (k : ChanConfig) (latched : Table Version 48) :
    (drawables c k latched).length ≤ 48 :=
  (List.length_filterMap_le _ _).trans_eq (ascending_length 48)

theorem drawList_length_le (c : Chan) (k : ChanConfig) (latched : Table Version 48) :
    (drawList c k latched).length ≤ 32 := by
  unfold drawList
  dsimp only
  rw [List.length_drop, Config.drawBudget]
  omega

/-- A frame start gives the compositor a frame and the channel its marks, and makes a pending configuration active. -/
theorem State.frameStart_channel (s : State) (c : Chan) :
    ∃ f mark n, (s.frameStart c).compositors = s.compositors.set c (some f) ∧ f.drawList.length ≤ 32 ∧
      (s.frameStart c).channels = s.channels.modify c (fun k =>
        { k with active := k.nextConfig, pending := none, overbooked := mark, dropped := n }) ∧
      (mark = true ↔ n ≠ 0) ∧ n ≤ 16 := by
  obtain ⟨⟨f, hcompositors, ⟨-, -, hlist⟩, -, -, -, hdropped, hmark, -, -⟩, -, mark, n, hchannels⟩ :=
    s.frameStart_spec c
  rw [hchannels, Four.get_modify_self] at hdropped hmark
  dsimp only at hdropped hmark
  have hcount := drawables_length_le c f.config f.latched
  refine ⟨f, mark, n, hcompositors, by rw [hlist]; exact drawList_length_le _ _ _, hchannels, ?_, by omega⟩
  rw [hmark, decide_eq_true_iff]

/-- The configuration that a frame start makes active has mode ON in every state but OFF (R99, R103). -/
theorem Channel.Legal.nextConfig_on {k : Channel} {g : Option FrameLatch} (h : k.Legal g) (hstate : k.state ≠ .off) :
    k.nextConfig.on = true := by
  unfold Channel.nextConfig
  cases hp : k.pending with
  | some x => exact h.pendingOn x hp
  | none => exact (Bool.not_eq_false _).mp fun hoff => hstate (h.mode.mp hoff)

/-- A channel with a frame in progress, by its timers. -/
theorem Channel.legal_framed {k : Channel} {f : FrameLatch} (hon : k.active.on = true) (hpending : k.pending = none)
    (hstate : k.state = .locked ∧ k.loss.isRunning = true ∧ k.freeRun.isRunning = false ∨
      k.state = .freeRun ∧ k.loss.isRunning = false ∧ k.freeRun.isRunning = true)
    (hmark : k.overbooked = true ↔ k.dropped ≠ 0) (hdropped : k.dropped ≤ 16) (hlist : f.drawList.length ≤ 32) :
    k.Legal (some f) := by
  have hdrawn : ∀ g ∈ some f, g.drawList.length ≤ 32 := fun g hg => by cases hg; exact hlist
  rcases hstate with ⟨hs, hl, hr⟩ | ⟨hs, hl, hr⟩
  · constructor <;> simp [hs, hl, hr, hon, hpending, hmark, hdropped, hlist, SignalState.running]
  · constructor <;> simp [hs, hl, hr, hon, hpending, hmark, hdropped, hlist, SignalState.running]

/-- A channel that draws nothing, by its timers. -/
theorem Channel.legal_still {k : Channel} (hpending : k.pending = none)
    (hstate : k.state = .off ∧ k.active.on = false ∧ k.loss.isRunning = false ∧ k.freeRun.isRunning = false ∨
      k.state = .seeking ∧ k.active.on = true ∧ k.loss.isRunning = true ∧ k.freeRun.isRunning = false)
    (hmark : k.overbooked = true ↔ k.dropped ≠ 0) (hdropped : k.dropped ≤ 16) : k.Legal none := by
  rcases hstate with ⟨hs, hon, hl, hr⟩ | ⟨hs, hon, hl, hr⟩
  · constructor <;> simp [hs, hl, hr, hon, hpending, hmark, hdropped, SignalState.running]
  · constructor <;> simp [hs, hl, hr, hon, hpending, hmark, hdropped, SignalState.running]

/-! ### Steps of the channels -/

/-- A channel that a frame start leaves in a running state: `before` is what comes before the frame, `after` what comes
after it, both on the channel's state and timers alone. -/
theorem channelsOk_framed {s u t : State} {c : Chan} {before after : Channel → Channel} (h : ∀ d, ChannelOk s d)
    (hu : u.channels = s.channels.modify c before) (hucomp : u.compositors = s.compositors)
    (ht : t.channels = (u.frameStart c).channels.modify c after) (htcomp : t.compositors = (u.frameStart c).compositors)
    (hstate : (s.channels.get c).state ≠ .off)
    (hbefore : (before (s.channels.get c)).nextConfig = (s.channels.get c).nextConfig)
    (hafter : ∀ k, (after k).active = k.active ∧ (after k).pending = k.pending ∧ (after k).overbooked = k.overbooked ∧
      (after k).dropped = k.dropped)
    (hend : ∀ config mark n,
      let k := after { before (s.channels.get c) with
        active := config, pending := none, overbooked := mark, dropped := n }
      k.state = .locked ∧ k.loss.isRunning = true ∧ k.freeRun.isRunning = false ∨
        k.state = .freeRun ∧ k.loss.isRunning = false ∧ k.freeRun.isRunning = true) : ∀ d, ChannelOk t d := by
  obtain ⟨f, mark, n, hcomp, hlist, hchannels, hmark, hn⟩ := u.frameStart_channel c
  have hlegal := (channelOk_iff s c).mp (h c)
  rw [hchannels, hu, Four.modify_modify, Four.modify_modify] at ht
  refine channelsOk_of_modify h ht (htcomp.trans (by rw [hcomp, hucomp])) ?_
  obtain ⟨hactive, hpending, hover, hdropped⟩ := hafter { before (s.channels.get c) with
    active := (before (s.channels.get c)).nextConfig, pending := none, overbooked := mark, dropped := n }
  refine Channel.legal_framed ?_ hpending (hend _ mark n) ?_ ?_ hlist
  · rw [hactive]
    dsimp only
    rw [hbefore]
    exact hlegal.nextConfig_on hstate
  · rw [hover, hdropped]
    exact hmark
  · rw [hdropped]
    exact hn

theorem Channel.Legal.freeRun_stopped {k : Channel} {g : Option FrameLatch} (h : k.Legal g)
    (hstate : k.state ≠ .freeRun) : k.freeRun.isRunning = false :=
  Bool.eq_false_iff.mpr fun hrun => hstate (h.freeRun.mp hrun)

theorem State.inputArrives_channelsOk {s : State} (h : ∀ c, ChannelOk s c) (c : Chan) :
    ∀ d, ChannelOk (s.inputArrives c) d := by
  have hlegal := (channelOk_iff s c).mp (h c)
  unfold State.inputArrives State.inputFrame
  split
  · exact h
  · rename_i hstate
    refine channelsOk_framed h (s.signal_channels c .locked) (by simp) rfl rfl (by simp [hstate]) rfl
      (fun k => ⟨rfl, rfl, rfl, rfl⟩) fun config mark n => .inl ⟨rfl, rfl, hlegal.freeRun_stopped (by simp [hstate])⟩
  · rename_i hstate
    refine channelsOk_framed h (Four.modify_id _ c).symm rfl rfl rfl (by simp [hstate]) rfl
      (fun k => ⟨rfl, rfl, rfl, rfl⟩) fun config mark n =>
      .inl ⟨hstate, rfl, hlegal.freeRun_stopped (by simp [hstate])⟩
  · rename_i hstate
    refine channelsOk_framed (before := fun k => { k with state := .locked, freeRun := .stopped }) h ?_
        (by simp) rfl rfl
      (by simp [hstate]) rfl (fun k => ⟨rfl, rfl, rfl, rfl⟩) fun config mark n => .inl ⟨rfl, rfl, rfl⟩
    rw [State.modChannel_channels, State.signal_channels, Four.modify_modify]

theorem State.enterFreeRun_channelsOk {s : State} (h : ∀ c, ChannelOk s c) (c : Chan)
    (hstate : (s.channels.get c).state ≠ .off) : ∀ d, ChannelOk (s.enterFreeRun c) d := by
  unfold State.enterFreeRun
  refine channelsOk_framed (before := fun k => { k with state := .freeRun, loss := .stopped }) h ?_ (by simp) rfl rfl
    hstate rfl (fun k => ⟨rfl, rfl, rfl, rfl⟩) fun config mark n => .inr ⟨rfl, rfl, rfl⟩
  rw [State.modChannel_channels, State.signal_channels, Four.modify_modify]

theorem State.enterSeeking_channels (s : State) (c : Chan) :
    (s.enterSeeking c).channels = s.channels.modify c fun k =>
      { k with state := .seeking, active := k.nextConfig, pending := none, freeRun := .stopped,
               loss := .running (2 * k.nextConfig.period) (2 * k.nextConfig.period), overbooked := false,
               dropped := 0 } := by
  unfold State.enterSeeking
  obtain ⟨-, -, -, hchannels, -⟩ := State.stopDrawing_spec
    ((((s.signal c .seeking).activatePending c).modChannel c fun k => { k with freeRun := .stopped }).modChannel c
      Channel.startLoss) c
  rw [hchannels, State.modChannel_channels, State.modChannel_channels, State.activatePending_channels,
    State.signal_channels]
  simp only [Four.modify_modify]
  rfl

theorem State.enterSeeking_compositors (s : State) (c : Chan) :
    (s.enterSeeking c).compositors = s.compositors.set c none := by
  unfold State.enterSeeking
  obtain ⟨-, -, -, -, hcompositors⟩ := State.stopDrawing_spec
    ((((s.signal c .seeking).activatePending c).modChannel c fun k => { k with freeRun := .stopped }).modChannel c
      Channel.startLoss) c
  simpa using hcompositors

theorem State.lossExpires_channelsOk {s : State} (h : ∀ c, ChannelOk s c) (c : Chan) :
    ∀ d, ChannelOk (s.lossExpires c) d := by
  have hlegal := (channelOk_iff s c).mp (h c)
  unfold State.lossExpires State.lossTaken
  dsimp only
  split
  · split
    · exact h
    · rename_i hstate
      split
      · exact State.enterFreeRun_channelsOk h c (by simp [hstate])
      · refine channelsOk_of_modChannel h rfl rfl fun hlegal => ?_
        exact { hlegal with loss := by simp [Channel.startLoss, Timer.isRunning, hstate] }
    · rename_i hstate
      split
      · exact State.enterFreeRun_channelsOk h c (by simp [hstate])
      · refine channelsOk_of_modify h (s.enterSeeking_channels c) (s.enterSeeking_compositors c) ?_
        exact Channel.legal_still rfl (.inr ⟨rfl, hlegal.nextConfig_on (by simp [hstate]), rfl, rfl⟩) (by simp)
            (by simp)
    · exact h
  · exact h

theorem State.freeRunExpires_channelsOk {s : State} (h : ∀ c, ChannelOk s c) (c : Chan) :
    ∀ d, ChannelOk (s.freeRunExpires c) d := by
  have hlegal := (channelOk_iff s c).mp (h c)
  unfold State.freeRunExpires State.freeRunTaken
  split
  · split
    · exact h
    · exact h
    · exact h
    · rename_i hstate
      have hloss : (s.channels.get c).loss.isRunning = false :=
        Bool.eq_false_iff.mpr fun hrun => by simpa [hstate] using hlegal.loss.mp hrun
      exact channelsOk_framed h (Four.modify_id _ c).symm rfl rfl rfl (by simp [hstate]) rfl
        (fun k => ⟨rfl, rfl, rfl, rfl⟩) fun config mark n => .inr ⟨hstate, hloss, rfl⟩
  · exact h

/-! ### CHANNEL_SET and CHANNEL_APPLY (R100–R102) -/

/-- No pending configuration and no frame where the channel is not running (R89, R113). -/
theorem Channel.Legal.still {k : Channel} {g : Option FrameLatch} (h : k.Legal g) (hstate : k.state.running = false) :
    k.pending = none ∧ g = none := by
  constructor
  · by_contra hp
    simp [h.pending (Option.isSome_iff_ne_none.mpr hp)] at hstate
  · have hdrawing := h.drawing
    rw [hstate] at hdrawing
    simpa using hdrawing

theorem State.stage_channelsOk {s : State} (h : ∀ c, ChannelOk s c) (c : Chan) (k : ChanConfig) :
    ∀ d, ChannelOk (s.modChannel c fun x => { x with staged := k }) d :=
  channelsOk_of_modChannel (c := c) (f := fun x => { x with staged := k }) h rfl rfl fun hlegal =>
    ⟨hlegal.mode, hlegal.pending, hlegal.pendingOn, hlegal.loss, hlegal.freeRun, hlegal.overbooked, hlegal.dropped,
      hlegal.drawing, hlegal.drawn⟩

theorem State.applyInOff_channelsOk {s : State} (h : ∀ c, ChannelOk s c) {c : Chan}
    (hstate : (s.channels.get c).state = .off) : ∀ d, ChannelOk (s.applyInOff c).1 d := by
  have hlegal := (channelOk_iff s c).mp (h c)
  obtain ⟨hpending, hframe⟩ := hlegal.still (by simp [hstate, SignalState.running])
  have hfree := hlegal.freeRun_stopped (by simp [hstate])
  have hloss : (s.channels.get c).loss.isRunning = false :=
    Bool.eq_false_iff.mpr fun hrun => by simpa [hstate] using hlegal.loss.mp hrun
  unfold State.applyInOff
  dsimp only
  split
  · rename_i hon
    refine channelsOk_of_modChannel (c := c) (f := fun k => { k.applyStaged.startLoss with state := .seeking }) h
      (by rw [State.modChannel_channels, State.modChannel_channels, Four.modify_modify]) rfl fun _ => ?_
    rw [hframe]
    exact Channel.legal_still hpending (.inr ⟨rfl, hon, rfl, hfree⟩) hlegal.overbooked hlegal.dropped
  · rename_i hon
    refine channelsOk_of_modChannel h rfl rfl fun _ => ?_
    rw [hframe]
    exact Channel.legal_still hpending (.inl ⟨hstate, (Bool.not_eq_true _).mp hon, hloss, hfree⟩) hlegal.overbooked
      hlegal.dropped

theorem State.applyInSeeking_channelsOk {s : State} (h : ∀ c, ChannelOk s c) {c : Chan}
    (hstate : (s.channels.get c).state = .seeking) : ∀ d, ChannelOk (s.applyInSeeking c).1 d := by
  have hlegal := (channelOk_iff s c).mp (h c)
  obtain ⟨hpending, hframe⟩ := hlegal.still (by simp [hstate, SignalState.running])
  have hfree := hlegal.freeRun_stopped (by simp [hstate])
  have hloss : (s.channels.get c).loss.isRunning = true := hlegal.loss.mpr (.inl hstate)
  unfold State.applyInSeeking
  dsimp only
  split
  · rename_i hon
    refine channelsOk_of_modChannel h rfl rfl fun _ => ?_
    rw [hframe]
    exact Channel.legal_still hpending (.inr ⟨hstate, hon, hloss, hfree⟩) hlegal.overbooked hlegal.dropped
  · rename_i hon
    refine channelsOk_of_modChannel h (Four.modify_modify s.channels c _ _) rfl fun _ => ?_
    rw [hframe]
    exact Channel.legal_still hpending (.inl ⟨rfl, (Bool.not_eq_true _).mp hon, rfl, rfl⟩) hlegal.overbooked
        hlegal.dropped

theorem State.applyInRunning_channelsOk {s : State} (h : ∀ c, ChannelOk s c) (caller : Sid) {c : Chan}
    (hstate : (s.channels.get c).state.running = true) : ∀ d, ChannelOk (s.applyInRunning caller c).1 d := by
  unfold State.applyInRunning
  dsimp only
  split
  · rename_i hon
    refine channelsOk_of_modChannel (c := c) (f := fun k => { k with
      pending := some { config := k.staged, applier := some caller } }) h rfl rfl fun hlegal => ?_
    exact ⟨hlegal.mode, fun _ => hstate, fun x hx => by cases hx; exact hon, hlegal.loss, hlegal.freeRun,
      hlegal.overbooked, hlegal.dropped, hlegal.drawing, hlegal.drawn⟩
  · rename_i hon
    obtain ⟨-, -, -, hchannels, hcompositors⟩ := State.stopDrawing_spec
      ((s.modChannel c fun k => { k.applyStaged with pending := none }).modChannel c Channel.turnOff) c
    rw [State.modChannel_channels, State.modChannel_channels, Four.modify_modify, Four.modify_modify] at hchannels
    refine channelsOk_of_modify h hchannels hcompositors ?_
    exact Channel.legal_still rfl (.inl ⟨rfl, (Bool.not_eq_true _).mp hon, rfl, rfl⟩) (by simp)
      (by simp)

theorem State.applyChannel_channelsOk {s : State} (h : ∀ c, ChannelOk s c) (caller : Sid) (c : Chan) :
    ∀ d, ChannelOk (s.applyChannel caller c).1 d := by
  unfold State.applyChannel
  split
  · exact State.applyInOff_channelsOk h ‹_›
  · exact State.applyInSeeking_channelsOk h ‹_›
  · rename_i hstate
    exact State.applyInRunning_channelsOk h caller (by simp [hstate, SignalState.running])
  · rename_i hstate
    exact State.applyInRunning_channelsOk h caller (by simp [hstate, SignalState.running])

/-! ### Sessions that end, and time that passes -/

theorem Channel.Legal.endApplier {k : Channel} {g : Option FrameLatch} (h : k.Legal g) (i : Sid) :
    (Channel.endApplier i k).Legal g := by
  unfold Channel.endApplier
  split
  · rename_i x hx
    split
    · refine ⟨h.mode, fun _ => h.pending (by simp [hx]), fun y hy => ?_, h.loss, h.freeRun, h.overbooked, h.dropped,
        h.drawing, h.drawn⟩
      cases hy
      exact h.pendingOn x hx
    · exact h
  · exact h

theorem State.endSession_channels (s : State) (p : Port) (cause : EndCause) :
    (s.endSession p cause).channels = s.channels.map (Channel.endApplier (s.sidOf p)) := by
  obtain ⟨-, -, -, -, -, -, -, hchannels, -⟩ := s.endSession_noticed p cause
  exact hchannels

theorem State.endSession_channelsOk {s : State} (h : ∀ c, ChannelOk s c) (p : Port) (cause : EndCause) (c : Chan) :
    ChannelOk (s.endSession p cause) c := by
  rw [channelOk_iff, State.endSession_channels, Four.get_map, State.endSession_compositors]
  exact ((channelOk_iff s c).mp (h c)).endApplier _

/-- The state in which a taken ATTACH opens its session: a session of the port's has ended (R132). -/
def State.vacated (s : State) (p : Port) : State :=
  if (s.sessions.get p).active then s.endSession p .reattach else s

/-- Opening the session itself writes to the port's session record alone (R132). -/
theorem State.openSession_eq (s : State) (p : Port) (term : Byte) (mask : BitVec 6) :
    (s.openSession p term mask).1 =
      { s.vacated p with
        sessions := (s.vacated p).sessions.modify p fun r => { r.opened term mask with causes := 0#6 } } := by
  unfold State.openSession State.vacated State.modSession
  dsimp only
  rw [Four.modify_modify]

theorem State.vacated_channelsOk {s : State} (h : ∀ c, ChannelOk s c) (p : Port) (c : Chan) :
    ChannelOk (s.vacated p) c := by
  unfold State.vacated
  split
  · exact State.endSession_channelsOk h p .reattach c
  · exact h c

theorem State.openSession_channelsOk {s : State} (h : ∀ c, ChannelOk s c) (p : Port) (term : Byte)
    (mask : BitVec 6) (c : Chan) : ChannelOk (s.openSession p term mask).1 c := by
  rw [State.openSession_eq]
  exact channelsOk_of_kept (s := s.vacated p) (State.vacated_channelsOk h p) (by dsimp only) (by dsimp only) c

@[simp] theorem Timer.tick_isRunning (t : Timer) : t.tick.isRunning = t.isRunning := by cases t <;> rfl

theorem Channel.Legal.tick {k : Channel} {g : Option FrameLatch} (h : k.Legal g) : k.tick.Legal g :=
  ⟨h.mode, h.pending, h.pendingOn, by simpa [Channel.tick] using h.loss, by simpa [Channel.tick] using h.freeRun,
    h.overbooked, h.dropped, h.drawing, h.drawn⟩

/-! ### Every step -/

theorem State.install_channels (s : State) (caller : Sid) (u : Upload) :
    (s.install caller u).1.channels = s.channels ∧ (s.install caller u).1.compositors = s.compositors := by
  unfold State.install
  dsimp only
  split <;> constructor <;> simp

theorem Work.channelsOk {caller : Sid} {s t : State} (w : Work caller s t) (h : ∀ c, ChannelOk s c) :
    ∀ c, ChannelOk t c := by
  cases w with
  | nothing => exact h
  | detach => exact State.endSession_channelsOk h caller.port .detach
  | setMask mask => exact h
  | drain n => exact h
  | take r hfree => exact channelsOk_of_kept h (by simp [State.takeResource]) (by simp [State.takeResource])
  | join r holder hheld hne hout hlimit => exact h
  | leave r keep hheld => exact channelsOk_of_kept h (by simp) (by simp)
  | cancel r hin => exact h
  | edit l f hheld hlegal => exact h
  | commit l hheld hsettled => exact channelsOk_of_kept h (by simp) (by simp)
  | writeCommon r k e hcommon hsettled hlegal => exact channelsOk_of_kept h (by simp) (by simp)
  | openUpload n code advance isVolatile hnone hfree => exact h
  | nextFragment u f b hu => exact h
  | install u b hu =>
    obtain ⟨hchannels, hcompositors⟩ := State.install_channels
        (s.modCell u.cell fun k => { k with bitmap := b k.bitmap }) caller u
    exact channelsOk_of_kept h hchannels hcompositors
  | dropUpload u b hu => exact channelsOk_of_kept h (by simp) (by simp)
  | delete code x e hfind => exact channelsOk_of_kept h (by simp) (by simp)
  | stage c k => exact State.stage_channelsOk h c k
  | apply c => exact State.applyChannel_channelsOk h caller c

/-- After POWER_ON and CRST every channel is as after power-on (R90). -/
theorem channelsOk_of_reset {t : State} (hc : t.channels = Four.fill Channel.reset)
    (hf : t.compositors = Four.fill none) (c : Chan) : ChannelOk t c := by
  rw [channelOk_iff, hc, hf, Four.get_fill, Four.get_fill]
  exact Channel.reset_legal

theorem Effect.channelsOk {s t : State} (heffect : Effect s t) (h : ∀ c, ChannelOk s c) : ∀ c, ChannelOk t c := by
  cases heffect with
  | nothing => exact h
  | ignored p hreset => exact h
  | window p q hreset hclosed hprst => exact h
  | command p q t r hreset hclosed hprst hactive hwork =>
    exact channelsOk_of_kept (hwork.channelsOk (channelsOk_of_kept h (by simp) (by simp))) (by simp) (by simp)
  | attach p q term mask r hreset hclosed hprst hterm =>
    have hq : ∀ d, ChannelOk (s.modPort p fun _ => q) d := channelsOk_of_kept h rfl rfl
    exact channelsOk_of_kept (State.openSession_channelsOk hq p term mask) (State.place_channels ..)
      (State.place_compositors ..)
  | frameIgnored p => exact channelsOk_of_kept h (by simp) (by simp)
  | powerOn csn => exact channelsOk_of_reset rfl rfl
  | crstAsserted ports hports => exact channelsOk_of_reset rfl rfl
  | crstDeasserted csn =>
    exact channelsOk_of_kept h (foldl_keeps (g := State.channels) (fun t p => by simp [State.seeCsn]) _ _)
      (foldl_keeps (g := State.compositors) (fun t p => by simp [State.seeCsn]) _ _)
  | prstAsserted p w t ht =>
    have hbefore : ∀ d, ChannelOk t d := channelsOk_of_kept h (by rw [ht]; rfl) (by rw [ht]; rfl)
    split
    · exact State.endSession_channelsOk hbefore p .portReset
    · exact hbefore
  | prstDeasserted p csn => exact channelsOk_of_kept h (by simp [State.seeCsn]) (by simp [State.seeCsn])
  | inputArrives c => exact State.inputArrives_channelsOk h c
  | lossExpires c => exact State.lossExpires_channelsOk h c
  | freeRunExpires c => exact State.freeRunExpires_channelsOk h c
  | leaseLow p e hdue => exact h
  | leaseExpiry p hdue => exact State.endSession_channelsOk h p .lease
  | filing source p => exact channelsOk_of_kept h (by simp) (by simp)

/-- Settles O57: a case split over the effects of a step; a channel draws after each frame start, and is still after
each end of a frame. -/
theorem stepsKeepChannelsLegal : Obligations.StepsKeepChannelsLegal := by
  unfold Obligations.StepsKeepChannelsLegal
  intro s t
  refine step_keeps (P := fun s => ∀ c, ChannelOk s c) (fun _ _ h => h) (fun _ _ h => h) ?_ ?_
  · intro s h c
    have hchannels : s.tick.channels = s.channels.map Channel.tick := rfl
    have hcompositors : s.tick.compositors = s.compositors := rfl
    rw [channelOk_iff, hchannels, hcompositors, Four.get_map]
    exact ((channelOk_iff s c).mp (h c)).tick
  · intro s t heffect h
    exact heffect.channelsOk h

end Sys2Proof.Machine

/-! SUPPORT. Every step keeps the claim table legal (R58, R59). -/
namespace Sys2Proof.Machine

/-- A claim record has a waiter of port p. -/
def Claim.awaits (p : Port) (k : Claim) : Bool := k.waiters.any fun w => w.port == p

theorem State.waitsIn_eq (s : State) (p : Port) :
    s.waitsIn p = (ascending 48).countP fun r => (s.claims.get r).awaits p := by
  unfold State.waitsIn
  rw [Table.cells_eq, List.countP_map]
  rfl

theorem waitsIn_congr {s t : State} (h : t.claims = s.claims) (p : Port) : t.waitsIn p = s.waitsIn p := by
  unfold State.waitsIn
  rw [h]

/-- The number of lists after a change of one record. -/
theorem State.waitsIn_set {s t : State} {r : Resource} {k : Claim} (h : t.claims = s.claims.set r k) (p : Port) :
    t.waitsIn p + ((s.claims.get r).awaits p).toNat = s.waitsIn p + (k.awaits p).toNat := by
  have hr : r.val < s.claims.cells.length := by rw [s.claims.size]; exact r.isLt
  have hle : (if (s.claims.get r).awaits p then 1 else 0) ≤ s.waitsIn p := List.boole_getElem_le_countP hr
  have hset : t.waitsIn p = s.waitsIn p - (if (s.claims.get r).awaits p then 1 else 0) +
      (if k.awaits p then 1 else 0) := by
    unfold State.waitsIn
    rw [h]
    exact List.countP_set hr
  rw [hset]
  unfold Bool.toNat
  rw [Bool.cond_eq_ite, Bool.cond_eq_ite]
  omega

theorem State.isActive_congr {s t : State} (h : t.sessions = s.sessions) (i : Sid) : t.isActive i = s.isActive i := by
  unfold State.isActive
  rw [h]

/-- A legal record stays legal while its sessions stay ACTIVE. -/
theorem claimOk_of_active {s t : State} {k : Claim} (h : ClaimOk s k)
    (hactive : ∀ i, s.isActive i = true → t.isActive i = true) : ClaimOk t k := by
  obtain ⟨hholder, hwaiters, hrest⟩ := h
  exact ⟨fun i hi => hactive i (hholder i hi), fun w hw => ⟨hactive w (hwaiters w hw).1, (hwaiters w hw).2⟩, hrest⟩

/-- A claim table that is as it was stays legal while the ACTIVE sessions stay ACTIVE. -/
theorem claimsOk_of_active {s t : State} (h : ClaimsOk s) (hclaims : t.claims = s.claims) (hwaits : t.waits = s.waits)
    (hactive : ∀ i, s.isActive i = true → t.isActive i = true) : ClaimsOk t := by
  refine ⟨fun k hk => claimOk_of_active (h.1 k (hclaims ▸ hk)) hactive, fun p => ?_⟩
  rw [hwaits, waitsIn_congr hclaims]
  exact h.2 p

theorem claimsOk_of_kept {s t : State} (h : ClaimsOk s) (hclaims : t.claims = s.claims) (hwaits : t.waits = s.waits)
    (hsessions : t.sessions = s.sessions) : ClaimsOk t :=
  claimsOk_of_active h hclaims hwaits fun i hi => (State.isActive_congr hsessions i).trans hi

/-- A change of one record and of the wait counts. -/
theorem claimsOk_of_set {s t : State} {r : Resource} {k : Claim} (h : ClaimsOk s)
    (hclaims : t.claims = s.claims.set r k)
    (hsessions : t.sessions = s.sessions) (hk : ClaimOk s k)
    (hwaits : ∀ p, t.waits.get p + ((s.claims.get r).awaits p).toNat = s.waits.get p + (k.awaits p).toNat ∧
      t.waits.get p ≤ 8) : ClaimsOk t := by
  constructor
  · rw [hclaims, Table.forall_cells]
    intro q
    rw [Table.get_set]
    split
    · exact claimOk_of_active hk fun i hi => (State.isActive_congr hsessions i).trans hi
    · exact claimOk_of_active (Table.forall_cells.mp h.1 q) fun i hi => (State.isActive_congr hsessions i).trans hi
  · intro p
    have hin := State.waitsIn_set hclaims p
    obtain ⟨hcount, hle⟩ := hwaits p
    exact ⟨by have := (h.2 p).1; omega, hle⟩

theorem ClaimsOk.get {s : State} (h : ClaimsOk s) (r : Resource) : ClaimOk s (s.claims.get r) :=
  Table.forall_cells.mp h.1 r

/-- One ACTIVE session for each port (R130). -/
theorem State.active_port_inj {s : State} {i j : Sid} (hi : s.isActive i = true) (hj : s.isActive j = true)
    (hport : i.port = j.port) : i = j := by
  rw [((s.isActive_iff i).mp hi).1, ((s.isActive_iff j).mp hj).1, hport]

/-- Distinct ACTIVE sessions are at most four. -/
theorem State.active_length_le {s : State} {l : List Sid} (hnodup : l.Nodup) (h : ∀ i ∈ l, s.isActive i = true) :
    l.length ≤ 4 := by
  have hports : (l.map Sid.port).Nodup :=
    hnodup.map_on fun i hi j hj hport => State.active_port_inj (h i hi) (h j hj) hport
  simpa using hports.length_le_card

/-- A waiter of the port of an ACTIVE session is that session. -/
theorem Claim.awaits_iff_mem {s : State} {k : Claim} (hk : ClaimOk s k) {i : Sid} (hi : s.isActive i = true) :
    k.awaits i.port = true ↔ i ∈ k.waiters := by
  unfold Claim.awaits
  rw [List.any_eq_true]
  constructor
  · rintro ⟨w, hw, hport⟩
    exact State.active_port_inj (hk.2.1 w hw).1 hi (eq_of_beq hport) ▸ hw
  · exact fun hin => ⟨i, hin, beq_self_eq_true _⟩

/-! ### The work of a command -/

/-- Only a held resource has waiters (R58). -/
theorem Claim.waiters_of_unheld {s : State} {k : Claim} (hk : ClaimOk s k) (hfree : k.holder = none) :
    k.waiters = [] := by
  by_contra hne
  simpa [hfree] using hk.2.2.2.2 hne

theorem State.takeResource_claimsOk {s : State} (h : ClaimsOk s) {r : Resource} {caller : Sid}
    (hcaller : s.isActive caller = true) (hfree : (s.claims.get r).holder = none) :
    ClaimsOk (s.takeResource r caller) := by
  have hnone := Claim.waiters_of_unheld (h.get r) hfree
  refine claimsOk_of_set (r := r) (k := { holder := some caller, waiters := [] }) h
    (by simp [State.takeResource, Table.modify, hnone]) (by simp [State.takeResource]) ?_ fun p => ?_
  · exact ⟨fun i hi => by cases hi; exact hcaller, by simp, List.nodup_nil, by simp, by simp⟩
  · simpa [State.takeResource, Claim.awaits, hnone] using (h.2 p).2

theorem State.joinWaiters_claimsOk {s : State} (h : ClaimsOk s) {r : Resource} {holder caller : Sid}
    (hcaller : s.isActive caller = true) (hheld : (s.claims.get r).holder = some holder) (hne : holder ≠ caller)
    (hout : caller ∉ (s.claims.get r).waiters) (hlimit : s.waits.get caller.port < 8) :
    ClaimsOk (s.joinWaiters r caller) := by
  have hk := h.get r
  have hown := Claim.awaits_iff_mem hk hcaller
  obtain ⟨hholder, hwaiters, hnodup, -, -⟩ := hk
  have hnew : ((s.claims.get r).waiters ++ [caller]).Nodup := by
    rw [← List.concat_eq_append]
    exact hnodup.concat hout
  have hall : ∀ i ∈ holder :: ((s.claims.get r).waiters ++ [caller]), s.isActive i = true := by
    intro i hi
    rw [List.mem_cons, List.mem_append, List.mem_singleton] at hi
    rcases hi with rfl | hi | rfl
    · exact hholder i hheld
    · exact (hwaiters i hi).1
    · exact hcaller
  have hnotIn : holder ∉ (s.claims.get r).waiters ++ [caller] := by
    rw [List.mem_append, List.mem_singleton]
    rintro (hin | heq)
    · exact (hwaiters holder hin).2 hheld
    · exact hne heq
  have hlength := State.active_length_le (List.nodup_cons.mpr ⟨hnotIn, hnew⟩) hall
  refine claimsOk_of_set (r := r) (k := { holder := some holder, waiters := (s.claims.get r).waiters ++ [caller] }) h
    (by simp [State.joinWaiters, Table.modify, ← hheld]) (by simp [State.joinWaiters]) ⟨?_, ?_, hnew, ?_, by simp⟩
    fun p => ?_
  · exact fun i hi => hholder i (hheld.trans hi)
  · intro w hw
    refine ⟨hall w (List.mem_cons_of_mem _ hw), fun heq => ?_⟩
    cases heq
    exact hnotIn hw
  · rw [List.length_cons] at hlength
    dsimp only
    omega
  · have hold := (h.2 p).2
    have hjoined : Claim.awaits p { holder := some holder, waiters := (s.claims.get r).waiters ++ [caller] } =
        ((s.claims.get r).awaits p || caller.port == p) := by simp [Claim.awaits]
    rw [hjoined]
    unfold State.joinWaiters
    rw [State.modWait_waits, State.modClaim_waits, Four.get_modify]
    by_cases hp : caller.port = p
    · subst hp
      have hfalse : (s.claims.get r).awaits caller.port = false := Bool.eq_false_iff.mpr fun hin => hout (hown.mp hin)
      rw [hfalse, beq_self_eq_true, if_pos rfl]
      exact ⟨rfl, hlimit⟩
    · rw [beq_false_of_ne hp, Bool.or_false, if_neg hp]
      exact ⟨rfl, hold⟩

/-- A record without one of its waiters (R64, R71). -/
theorem ClaimOk.filter {s : State} {k : Claim} (hk : ClaimOk s k) (i : Sid) :
    ClaimOk s { k with waiters := k.waiters.filter fun w => w != i } := by
  obtain ⟨hholder, hwaiters, hnodup, hlength, hfirst⟩ := hk
  refine ⟨hholder, fun w hw => hwaiters w (List.mem_filter.mp hw).1, hnodup.filter _,
    (List.length_filter_le _ _).trans hlength, fun hne => hfirst fun hnil => hne ?_⟩
  dsimp only
  rw [hnil, List.filter_nil]

/-- A record whose holder has passed it on (R66, R67). -/
theorem ClaimOk.left {s : State} {k : Claim} (hk : ClaimOk s k) : ClaimOk s k.left := by
  obtain ⟨-, hwaiters, hnodup, hlength, -⟩ := hk
  unfold Claim.left
  cases hw : k.waiters with
  | nil => exact ⟨by simp, by simp, by simp, by simp, by simp⟩
  | cons w rest =>
    rw [hw] at hwaiters hnodup hlength
    obtain ⟨hnotIn, hrest⟩ := List.nodup_cons.mp hnodup
    refine ⟨fun i hi => ?_, fun x hx => ⟨(hwaiters x (List.mem_cons_of_mem _ hx)).1, ?_⟩, hrest, ?_, by simp⟩
    · cases hi
      exact (hwaiters w List.mem_cons_self).1
    · rintro heq
      cases heq
      exact hnotIn hx
    · rw [List.length_cons] at hlength
      simp only [List.tail_cons]
      omega

/-- The port of the oldest waiter waits for a resource once: the list after it has no other waiter of the port. -/
theorem Claim.awaits_left {s : State} {k : Claim} (hk : ClaimOk s k) (p : Port) :
    (k.awaits p).toNat = (k.left.awaits p).toNat + if k.waiters.head?.any fun w => w.port == p then 1 else 0 := by
  obtain ⟨-, hwaiters, hnodup, -, -⟩ := hk
  unfold Claim.awaits Claim.left
  cases hw : k.waiters with
  | nil => rfl
  | cons w rest =>
    rw [hw] at hwaiters hnodup
    by_cases hp : w.port = p
    · have hout : rest.any (fun x => x.port == p) = false := by
        rw [List.any_eq_false]
        intro x hx hport
        have hsame := State.active_port_inj (hwaiters x (List.mem_cons_of_mem _ hx)).1 (hwaiters w List.mem_cons_self).1
          ((eq_of_beq hport).trans hp.symm)
        exact (List.nodup_cons.mp hnodup).1 (hsame ▸ hx)
      simp [hp, hout]
    · simp [beq_false_of_ne hp]

theorem State.leaveResource_claimsOk {s : State} (h : ClaimsOk s) (r : Resource) (p : Port) (keep : Bool) :
    ClaimsOk (s.leaveResource r p keep) := by
  refine claimsOk_of_set (r := r) (k := (s.claims.get r).left) h (s.leaveResource_claims r p keep) (by simp)
    (h.get r).left fun q => ?_
  have hcount := Claim.awaits_left (h.get r) q
  have hin := State.waitsIn_set (t := { s with claims := s.claims.set r (s.claims.get r).left }) rfl q
  obtain ⟨heq, hle⟩ := h.2 q
  rw [State.leaveResource_waits]
  omega

theorem State.cancel_claimsOk {s : State} (h : ClaimsOk s) {r : Resource} {caller : Sid}
    (hin : caller ∈ (s.claims.get r).waiters) :
    ClaimsOk ((s.modClaim r fun k => { k with waiters := (s.claims.get r).waiters.erase caller }).modWait caller.port
      fun n => n - 1) := by
  have hk := h.get r
  have hactive := (hk.2.1 caller hin).1
  have herase : (s.claims.get r).waiters.erase caller = (s.claims.get r).waiters.filter fun w => w != caller :=
    hk.2.2.1.erase_eq_filter caller
  have hown := (Claim.awaits_iff_mem hk hactive).mpr hin
  have hout : Claim.awaits caller.port { (s.claims.get r) with
      waiters := (s.claims.get r).waiters.filter fun w => w != caller } = false := by
    refine Bool.eq_false_iff.mpr fun hawaits => ?_
    simpa using (Claim.awaits_iff_mem (hk.filter caller) hactive).mp hawaits
  rw [herase]
  refine claimsOk_of_set (r := r) h rfl rfl (hk.filter caller) fun p => ?_
  rw [State.modWait_waits, State.modClaim_waits, Four.get_modify]
  obtain ⟨heq, hle⟩ := h.2 p
  by_cases hp : caller.port = p
  · subst hp
    have hset := State.waitsIn_set (t := { s with claims := s.claims.set r { (s.claims.get r) with
      waiters := (s.claims.get r).waiters.filter fun w => w != caller } }) rfl caller.port
    rw [hown, hout] at hset ⊢
    rw [if_pos rfl]
    simp only [Bool.toNat_true, Bool.toNat_false] at hset ⊢
    omega
  · have hsame : Claim.awaits p { (s.claims.get r) with
        waiters := (s.claims.get r).waiters.filter fun w => w != caller } = (s.claims.get r).awaits p := by
      unfold Claim.awaits
      rw [List.any_filter, Bool.eq_iff_iff, List.any_eq_true, List.any_eq_true]
      refine exists_congr fun w => and_congr_right fun _ => ?_
      rw [Bool.and_eq_true, bne_iff_ne, and_iff_right_iff_imp]
      rintro hport rfl
      exact hp (eq_of_beq hport)
    rw [if_neg hp, hsame]
    exact ⟨rfl, hle⟩

/-! ### The end of a session (R71, R72) -/

/-- The two ways a record is changed by the end of a session: it loses a waiter, and then it may pass on. -/
theorem Claim.afterEnd_eq (i : Sid) (k : Claim) :
    k.afterEnd i =
      if k.holder = some i then Claim.left { k with waiters := k.waiters.filter fun w => w != i }
      else { k with waiters := k.waiters.filter fun w => w != i } := rfl

theorem ClaimOk.afterEnd {s : State} {k : Claim} (hk : ClaimOk s k) (i : Sid) : ClaimOk s (k.afterEnd i) := by
  rw [Claim.afterEnd_eq]
  split
  · exact (hk.filter i).left
  · exact hk.filter i

/-- A record does not name a session that has ended. -/
theorem Claim.afterEnd_names (i : Sid) (k : Claim) :
    (k.afterEnd i).holder ≠ some i ∧ i ∉ (k.afterEnd i).waiters := by
  have hout : i ∉ k.waiters.filter fun w => w != i := by simp
  rw [Claim.afterEnd_eq]
  split
  · refine ⟨fun heq => hout (List.mem_of_head? heq), fun hin => hout (List.mem_of_mem_tail hin)⟩
  · exact ⟨‹_›, hout⟩

/-- A port other than that of the session that ends leaves a list only as the heir of a resource (R59, R72). -/
theorem Claim.awaits_afterEnd {s : State} {k : Claim} (hk : ClaimOk s k) {i : Sid} {p : Port} (hp : p ≠ i.port) :
    (k.awaits p).toNat = ((k.afterEnd i).awaits p).toNat + ((k.heir i).any fun w => w.port == p).toNat := by
  have hfilter : Claim.awaits p { k with waiters := k.waiters.filter fun w => w != i } = k.awaits p := by
    unfold Claim.awaits
    rw [List.any_filter, Bool.eq_iff_iff, List.any_eq_true, List.any_eq_true]
    refine exists_congr fun w => and_congr_right fun _ => ?_
    rw [Bool.and_eq_true, bne_iff_ne, and_iff_right_iff_imp]
    rintro hport rfl
    exact hp (eq_of_beq hport).symm
  have hleft := Claim.awaits_left (hk.filter i) p
  unfold Claim.heir
  rw [Claim.afterEnd_eq, ← hfilter]
  split
  · rw [hleft]
    simp only [Claim.left, Bool.toNat]
    split <;> simp_all
  · simp

theorem countP_add {α : Type} {l : List α} {f g h : α → Bool} (heq : ∀ a ∈ l, (f a).toNat = (g a).toNat + (h a).toNat) :
    l.countP f = l.countP g + l.countP h := by
  induction l with
  | nil => rfl
  | cons a rest ih =>
    have ha := heq a List.mem_cons_self
    rw [List.countP_cons, List.countP_cons, List.countP_cons, ih fun b hb => heq b (List.mem_cons_of_mem _ hb)]
    cases hf : f a <;> cases hg : g a <;> cases hh : h a <;> simp [hf, hg, hh] at ha ⊢ <;> omega

theorem State.endSession_isActive (s : State) (p : Port) (cause : EndCause) (i : Sid) :
    (s.endSession p cause).isActive i = true ↔ s.isActive i = true ∧ i.port ≠ p := by
  unfold State.isActive
  rw [State.endSession_sessions, Four.get_modify]
  by_cases hp : p = i.port
  · simp [hp, Session.ended]
  · simp [hp, Ne.symm hp]

theorem State.endSession_claimsOk {s : State} (h : ClaimsOk s) (p : Port) (cause : EndCause) :
    ClaimsOk (s.endSession p cause) := by
  obtain ⟨hclaims, hwaits, -⟩ := s.endSession_noticed p cause
  have hactive : ∀ i, i ≠ s.sidOf p → s.isActive i = true → (s.endSession p cause).isActive i = true := by
    intro i hne hi
    refine (State.endSession_isActive s p cause i).mpr ⟨hi, fun hport => hne ?_⟩
    rw [((s.isActive_iff i).mp hi).1, hport]
  constructor
  · rw [hclaims, Table.forall_cells]
    intro r
    rw [Table.get_map]
    obtain ⟨hholder, hwaiters, hrest⟩ := (h.get r).afterEnd (s.sidOf p)
    obtain ⟨hnotHolder, hnotIn⟩ := Claim.afterEnd_names (s.sidOf p) (s.claims.get r)
    refine ⟨fun i hi => hactive i ?_ (hholder i hi), fun w hw => ⟨hactive w ?_ (hwaiters w hw).1, (hwaiters w hw).2⟩,
      hrest⟩
    · rintro rfl
      exact hnotHolder hi
    · rintro rfl
      exact hnotIn hw
  · intro q
    rw [hwaits, State.waitsIn_eq, hclaims]
    simp only [Table.get_map]
    by_cases hq : q = (s.sidOf p).port
    · rw [if_pos hq]
      refine ⟨(List.countP_eq_zero.mpr fun r _ => ?_).symm, Nat.zero_le 8⟩
      unfold Claim.awaits
      rw [List.any_eq_true]
      rintro ⟨w, hw, hport⟩
      refine (Claim.afterEnd_names (s.sidOf p) (s.claims.get r)).2 ?_
      have hwactive := (((h.get r).afterEnd (s.sidOf p)).2.1 w hw).1
      have hwp : w.port = p := (eq_of_beq hport).trans hq
      rw [((s.isActive_iff w).mp hwactive).1, hwp] at hw
      exact hw
    · rw [if_neg hq]
      obtain ⟨heq, hle⟩ := h.2 q
      rw [State.waitsIn_eq, countP_add fun r _ => Claim.awaits_afterEnd (h.get r) hq] at heq
      exact ⟨Nat.sub_eq_of_eq_add heq, (Nat.sub_le _ _).trans hle⟩

theorem State.vacated_claimsOk {s : State} (h : ClaimsOk s) (p : Port) : ClaimsOk (s.vacated p) := by
  unfold State.vacated
  split
  · exact State.endSession_claimsOk h p .reattach
  · exact h

theorem State.vacated_inactive (s : State) (p : Port) : ((s.vacated p).sessions.get p).active = false := by
  unfold State.vacated
  split
  · simp [Session.ended]
  · exact (Bool.not_eq_true _).mp ‹_›

/-- Opening a session leaves the ACTIVE sessions of before ACTIVE: the port had none. -/
theorem State.openSession_isActive (s : State) (p : Port) (term : Byte) (mask : BitVec 6) {i : Sid}
    (hi : (s.vacated p).isActive i = true) : (s.openSession p term mask).1.isActive i = true := by
  have hne : p ≠ i.port := by
    rintro rfl
    simpa [State.vacated_inactive] using ((State.isActive_iff _ i).mp hi).2
  rw [State.openSession_eq]
  unfold State.isActive at hi ⊢
  rw [Four.get_modify_ne _ hne]
  exact hi

theorem State.openSession_claimsOk {s : State} (h : ClaimsOk s) (p : Port) (term : Byte) (mask : BitVec 6) :
    ClaimsOk (s.openSession p term mask).1 := by
  refine claimsOk_of_active (s := s.vacated p) (State.vacated_claimsOk h p) ?_ ?_
    fun i hi => s.openSession_isActive p term mask hi
  · rw [State.openSession_eq]
  · rw [State.openSession_eq]

/-! ### Every step -/

/-- A write to session records that ends and opens none leaves the ACTIVE sessions. -/
theorem State.isActive_modSession {s t : State} {p : Port} {f : Session → Session}
    (h : t.sessions = s.sessions.modify p f) (hf : ∀ r, (f r).active = r.active ∧ (f r).epoch = r.epoch) (i : Sid) :
    t.isActive i = s.isActive i := by
  unfold State.isActive
  rw [h, Four.get_modify]
  split
  · obtain ⟨hactive, hepoch⟩ := hf (s.sessions.get i.port)
    rw [hactive, hepoch]
  · rfl

theorem State.isActive_renewLease (s : State) (p : Port) (i : Sid) : (s.renewLease p).isActive i = s.isActive i :=
  State.isActive_modSession (f := fun r => { r with remaining := r.fullLease, fraction := 0, armed := true }) rfl
    (fun _ => ⟨rfl, rfl⟩) i

/-- Filing and time change no session's identity. -/
theorem Session.file_active (r : Session) (e : Event) : (r.file e).active = r.active ∧ (r.file e).epoch = r.epoch := by
  rw [Session.file_eq]
  split
  · exact ⟨rfl, rfl⟩
  · split <;> exact ⟨rfl, rfl⟩

theorem Session.tick_epoch (r : Session) : r.tick.epoch = r.epoch := by
  unfold Session.tick
  split
  · rfl
  · split <;> rfl

theorem State.isActive_fileOldest (s : State) (source : Source) (p : Port) (i : Sid) :
    (s.fileOldest source p).isActive i = s.isActive i := by
  rcases s.fileOldest_sessions source p with hsame | ⟨q, e, -, hfiled⟩
  · exact State.isActive_congr hsame i
  · exact State.isActive_modSession hfiled (fun r => r.file_active e) i

theorem State.isActive_tick (s : State) (i : Sid) : s.tick.isActive i = s.isActive i := by
  unfold State.isActive
  rw [State.tick_sessions, Four.get_map, Session.tick_active, Session.tick_epoch]

theorem State.install_claims (s : State) (caller : Sid) (u : Upload) :
    (s.install caller u).1.claims = s.claims ∧ (s.install caller u).1.waits = s.waits := by
  unfold State.install
  dsimp only
  split <;> constructor <;> simp

theorem Work.claimsOk {caller : Sid} {s t : State} (w : Work caller s t) (hcaller : s.isActive caller = true)
    (h : ClaimsOk s) : ClaimsOk t := by
  cases w with
  | nothing => exact h
  | detach => exact State.endSession_claimsOk h caller.port .detach
  | setMask mask =>
    exact claimsOk_of_active h rfl rfl fun i hi =>
      (State.isActive_modSession (f := fun r => { r with mask := mask }) rfl (fun r => ⟨rfl, rfl⟩) i).trans hi
  | drain n =>
    exact claimsOk_of_active h rfl rfl fun i hi =>
      (State.isActive_modSession (f := fun r => { r with queue := r.queue.drop n, lost := 0#8 }) rfl
        (fun r => ⟨rfl, rfl⟩) i).trans hi
  | take r hfree => exact State.takeResource_claimsOk h hcaller hfree
  | join r holder hheld hne hout hlimit => exact State.joinWaiters_claimsOk h hcaller hheld hne hout hlimit
  | leave r keep hheld => exact State.leaveResource_claimsOk h r caller.port keep
  | cancel r hin => exact State.cancel_claimsOk h hin
  | edit l f hheld hlegal => exact h
  | commit l hheld hsettled => exact claimsOk_of_kept h (by simp) (by simp) (by simp)
  | writeCommon r k e hcommon hsettled hlegal => exact claimsOk_of_kept h (by simp) (by simp) (by simp)
  | openUpload n code advance isVolatile hnone hfree => exact h
  | nextFragment u f b hu => exact h
  | install u b hu =>
    obtain ⟨hclaims, hwaits⟩ :=
      State.install_claims (s.modCell u.cell fun k => { k with bitmap := b k.bitmap }) caller u
    exact claimsOk_of_kept h hclaims hwaits (State.install_sessions _ caller u)
  | dropUpload u b hu => exact claimsOk_of_kept h (by simp) (by simp) (by simp)
  | delete code x e hfind => exact claimsOk_of_kept h (by simp) (by simp) (by simp)
  | stage c k => exact h
  | apply c =>
    have hdraws := State.applyChannel_drawsOnly s caller c
    exact claimsOk_of_kept h hdraws.claims hdraws.waits hdraws.sessions

/-- After POWER_ON and CRST no resource is held or waited for (R60). -/
theorem claimsOk_of_reset {t : State} (hclaims : t.claims = Table.fill 48 { holder := none, waiters := [] })
    (hwaits : t.waits = Four.fill 0) : ClaimsOk t := by
  constructor
  · rw [hclaims, Table.forall_cells]
    intro r
    rw [Table.get_fill]
    exact ⟨by simp, by simp, List.nodup_nil, by simp, by simp⟩
  · intro p
    rw [hwaits, Four.get_fill, State.waitsIn_eq, hclaims]
    simp [Claim.awaits]

theorem Effect.claimsOk {s t : State} (heffect : Effect s t) (h : ClaimsOk s) : ClaimsOk t := by
  cases heffect with
  | nothing => exact h
  | ignored p hreset => exact h
  | window p q hreset hclosed hprst => exact h
  | command p q t r hreset hclosed hprst hactive hwork =>
    have hkept := State.isActive_renewLease (s.modPort p fun _ => q) p
    have hbefore : ClaimsOk ((s.modPort p fun _ => q).renewLease p) :=
      claimsOk_of_active h (by simp) (by simp) fun i hi => (hkept i).trans hi
    have hcaller : s.isActive (s.sidOf p) = true := (s.isActive_iff _).mpr ⟨rfl, hactive⟩
    exact claimsOk_of_kept (hwork.claimsOk ((hkept _).trans hcaller) hbefore) (by simp) (by simp) (by simp)
  | attach p q term mask r hreset hclosed hprst hterm =>
    have hq : ClaimsOk (s.modPort p fun _ => q) := claimsOk_of_kept h rfl rfl rfl
    exact claimsOk_of_kept (State.openSession_claimsOk hq p term mask) (State.place_claims ..) (State.place_waits ..)
      (State.place_sessions ..)
  | frameIgnored p => exact claimsOk_of_kept h (by simp) (by simp) (by simp)
  | powerOn csn => exact claimsOk_of_reset rfl rfl
  | crstAsserted ports hports => exact claimsOk_of_reset rfl rfl
  | crstDeasserted csn =>
    exact claimsOk_of_kept h (foldl_keeps (g := State.claims) (fun t p => by simp [State.seeCsn]) _ _)
      (foldl_keeps (g := State.waits) (fun t p => by simp [State.seeCsn]) _ _)
      (foldl_keeps (g := State.sessions) (fun t p => by simp [State.seeCsn]) _ _)
  | prstAsserted p w t ht =>
    have hnoted : t.sessions = s.sessions.modify p fun r =>
        { r with causes := r.causes ||| EndCause.portReset.bit } := by
      rw [ht]; rfl
    have hbefore : ClaimsOk t := claimsOk_of_active h (by rw [ht]; rfl) (by rw [ht]; rfl) fun i hi =>
      (State.isActive_modSession hnoted (fun r => ⟨rfl, rfl⟩) i).trans hi
    split
    · exact State.endSession_claimsOk hbefore p .portReset
    · exact hbefore
  | prstDeasserted p csn =>
    exact claimsOk_of_kept h (by simp [State.seeCsn]) (by simp [State.seeCsn]) (by simp [State.seeCsn])
  | inputArrives c =>
    have hdraws := State.inputArrives_drawsOnly s c
    exact claimsOk_of_kept h hdraws.claims hdraws.waits hdraws.sessions
  | lossExpires c =>
    have hdraws := State.lossExpires_drawsOnly s c
    exact claimsOk_of_kept h hdraws.claims hdraws.waits hdraws.sessions
  | freeRunExpires c =>
    have hdraws := State.freeRunExpires_drawsOnly s c
    exact claimsOk_of_kept h hdraws.claims hdraws.waits hdraws.sessions
  | leaseLow p e hdue =>
    exact claimsOk_of_active h rfl rfl fun i hi =>
      (State.isActive_modSession (f := fun r => { r with armed := false }) rfl (fun r => ⟨rfl, rfl⟩) i).trans hi
  | leaseExpiry p hdue => exact State.endSession_claimsOk h p .lease
  | filing source p =>
    exact claimsOk_of_active h (by simp) (by simp) fun i hi => (s.isActive_fileOldest source p i).trans hi

/-- Settles O58: a case split over the effects of a step; a record names ACTIVE sessions only, and a port has one. -/
theorem stepsKeepClaimsLegal : Obligations.StepsKeepClaimsLegal := by
  unfold Obligations.StepsKeepClaimsLegal
  intro s t
  refine step_keeps (P := ClaimsOk) (fun _ _ h => claimsOk_of_kept h rfl rfl rfl)
    (fun _ _ h => claimsOk_of_kept h rfl rfl rfl)
    (fun s h => claimsOk_of_active h rfl rfl fun i hi => (s.isActive_tick i).trans hi)
    fun s t heffect h => heffect.claimsOk h

end Sys2Proof.Machine

/-! SUPPORT. Every step keeps the row table legal (R2, R3, R16, R26). -/
namespace Sys2Proof.Machine

/-- The channel is LOCKED or FREERUN. -/
def State.runs (s : State) (c : Chan) : Bool := (s.channels.get c).state.running

/-- `RowOk` as a property of a row and of which channels run. -/
structure Row.Legal (runs : Chan → Bool) (x : Row) : Prop where
  live : ContentOk x.live.text.length x.live.placements
  held : ∀ h ∈ x.held, ContentOk h.version.text.length h.version.placements ∧ ChanSet.isEmpty h.holding = false ∧
    ∀ c : Chan, h.holding.get c = true → runs c = true ∧ (placementOn c h.version).isSome = true

/-- The leased part of a row, in terms of the row and of its holder (R3, R26). -/
structure Leased.Legal (x : Row) (holder : Option Sid) (y : Leased) : Prop where
  edit : ContentOk y.edit.text.length y.edit.placements
  mark : y.blankPending = true → x.swapping = true ∧ holder = none

/-- The holder of leased row l. -/
def State.leaseHolder (s : State) (l : LeasedNo) : Option Sid := (s.claims.get (rowResource l)).holder

theorem rowsOk_iff (s : State) :
    RowsOk s ↔ (∀ r, (s.rows.get r).Legal s.runs) ∧
      ∀ l, (s.leased.get l).Legal (s.rows.get (LeasedNo.row l)) (s.leaseHolder l) := by
  unfold RowsOk
  rw [Table.forall_cells]
  exact and_congr (forall_congr' fun r => ⟨fun ⟨hlive, hheld⟩ => ⟨hlive, hheld⟩, fun ⟨hlive, hheld⟩ => ⟨hlive, hheld⟩⟩)
    (forall_congr' fun l => ⟨fun ⟨hedit, hmark⟩ => ⟨hedit, hmark⟩, fun ⟨hedit, hmark⟩ => ⟨hedit, hmark⟩⟩)

/-! ### Rows -/

theorem Row.Legal.mono {runs runs' : Chan → Bool} {x : Row} (h : x.Legal runs)
    (hruns : ∀ c, runs c = true → runs' c = true) : x.Legal runs' :=
  ⟨h.live, fun k hk => ⟨(h.held k hk).1, (h.held k hk).2.1, fun c hc =>
    ⟨hruns c ((h.held k hk).2.2 c hc).1, ((h.held k hk).2.2 c hc).2⟩⟩⟩

theorem Row.Legal.settled {runs : Chan → Bool} {x : Row} (h : x.Legal runs) : Row.Legal runs { x with held := none } :=
  ⟨h.live, by simp⟩

/-- A row after a commit over a live version of the right sizes: what it holds back is held by running channels that the
version names (R15, R16). -/
theorem Row.committed_legal {channels : Four Channel} {runs : Chan → Bool} {new old : Version}
    (hnew : ContentOk new.text.length new.placements) (hold : ContentOk old.text.length old.placements)
    (hruns : ∀ c, (channels.get c).state.running = true → runs c = true) :
    Row.Legal runs { live := new, held := heldBack old (runningNamed channels old) } := by
  refine ⟨hnew, fun k hk => ?_⟩
  unfold heldBack at hk
  split at hk
  · simp at hk
  · rename_i hne
    cases hk
    refine ⟨hold, (Bool.not_eq_true _).mp hne, fun c hc => ?_⟩
    rw [runningNamed_get, Bool.and_eq_true] at hc
    exact ⟨hruns c hc.1, hc.2⟩

theorem Version.empty_contentOk (g : Half) :
    ContentOk ({ Version.empty with generation := g } : Version).text.length
      ({ Version.empty with generation := g } : Version).placements :=
  ⟨Nat.zero_le 40, Nat.zero_le 4, rfl⟩

theorem Row.blanked_legal {channels : Four Channel} {runs : Chan → Bool} {x : Row}
    (hlive : ContentOk x.live.text.length x.live.placements)
    (hruns : ∀ c, (channels.get c).state.running = true → runs c = true) : (Row.blanked channels x).Legal runs :=
  Row.committed_legal (Version.empty_contentOk _) hlive hruns

/-- A row that loses channel c from its holding set needs the other channels to run only (R18, R19, R25, R28). -/
theorem Row.without_legal {channels : Four Channel} {runs runs' : Chan → Bool} {x : Row} {c : Chan} (mark : Bool)
    (h : x.Legal runs) (hothers : ∀ d, d ≠ c → runs d = true → runs' d = true)
    (hruns : ∀ d, (channels.get d).state.running = true → runs' d = true) :
    (Row.without channels c mark x).Legal runs' := by
  unfold Row.without Row.landsWithout
  cases hk : x.held with
  | none => exact ⟨h.live, by simp [hk]⟩
  | some k =>
    obtain ⟨hcontent, hne, hholding⟩ := h.held k hk
    dsimp only
    by_cases hc : k.holding.get c = true
    · by_cases hempty : ChanSet.isEmpty (k.holding.set c false) = true
      · cases mark with
        | true =>
          simp only [hc, hempty, Bool.and_self, Bool.not_true, Bool.false_eq_true, ↓reduceIte]
          exact Row.blanked_legal h.live hruns
        | false =>
          simp only [hc, hempty, Bool.and_self, Bool.not_true, Bool.false_eq_true, ↓reduceIte]
          exact ⟨h.live, by simp⟩
      · simp only [hc, hempty, Bool.and_false, Bool.not_true, Bool.not_false, Bool.false_eq_true, ↓reduceIte]
        refine ⟨h.live, fun y hy => ?_⟩
        cases hy
        refine ⟨hcontent, (Bool.not_eq_true _).mp hempty, fun d hd => ?_⟩
        dsimp only at hd
        rw [Four.get_set] at hd
        split at hd
        · cases hd
        · exact ⟨hothers d (Ne.symm ‹_›) (hholding d hd).1, (hholding d hd).2⟩
    · rw [if_pos (by simp [hc])]
      refine ⟨h.live, fun y hy => ?_⟩
      rw [hk] at hy
      cases hy
      refine ⟨hcontent, hne, fun d hd => ⟨hothers d ?_ (hholding d hd).1, (hholding d hd).2⟩⟩
      rintro rfl
      exact hc hd

theorem Row.endOrigin_legal {runs : Chan → Bool} {x : Row} (h : x.Legal runs) (i : Sid) :
    (Row.endOrigin i x).Legal runs := by
  unfold Row.endOrigin
  split
  · exact ⟨h.live, h.held⟩
  · exact h

/-- A row stays SWAPPING unless the channel it loses makes it land. -/
theorem Row.without_swapping {channels : Four Channel} {x : Row} {c : Chan} (mark : Bool)
    (hswapping : x.swapping = true)
    (hlands : x.landsWithout c = false) : (Row.without channels c mark x).swapping = true := by
  unfold Row.without
  split
  · rw [hlands]
    split
    · exact hswapping
    · rfl
  · exact hswapping

/-! ### Changes of the row table -/

/-- The rows and edit buffers are as before, the channels that ran do, and no resource without a holder has one. -/
theorem rowsOk_of_kept {s t : State} (h : RowsOk s) (hrows : t.rows = s.rows) (hleased : t.leased = s.leased)
    (hruns : ∀ c, s.runs c = true → t.runs c = true) (hholder : ∀ l, s.leaseHolder l = none → t.leaseHolder l = none) :
    RowsOk t := by
  obtain ⟨hr, hl⟩ := (rowsOk_iff s).mp h
  rw [rowsOk_iff, hrows, hleased]
  exact ⟨fun r => (hr r).mono hruns, fun l => ⟨(hl l).edit, fun hmark =>
    ⟨((hl l).mark hmark).1, hholder l ((hl l).mark hmark).2⟩⟩⟩

theorem State.runs_congr {s t : State} (h : t.channels = s.channels) (c : Chan) (hc : s.runs c = true) :
    t.runs c = true := by
  unfold State.runs
  rw [h]
  exact hc

theorem State.leaseHolder_congr {s t : State} (h : t.claims = s.claims) (l : LeasedNo) (hl : s.leaseHolder l = none) :
    t.leaseHolder l = none := by
  unfold State.leaseHolder
  rw [h]
  exact hl

theorem rowsOk_of_same {s t : State} (h : RowsOk s) (hrows : t.rows = s.rows) (hleased : t.leased = s.leased)
    (hclaims : t.claims = s.claims) (hchannels : t.channels = s.channels) : RowsOk t :=
  rowsOk_of_kept h hrows hleased (State.runs_congr hchannels) (State.leaseHolder_congr hclaims)

/-- A change of one SETTLED row. -/
theorem rowsOk_of_row {s t : State} {r : RowNo} {x : Row} (h : RowsOk s) (hrows : t.rows = s.rows.set r x)
    (hleased : t.leased = s.leased) (hclaims : t.claims = s.claims) (hchannels : t.channels = s.channels)
    (hsettled : (s.rows.get r).held = none) (hx : x.Legal s.runs) : RowsOk t := by
  obtain ⟨hr, hl⟩ := (rowsOk_iff s).mp h
  rw [rowsOk_iff, hrows, hleased]
  constructor
  · intro q
    rw [Table.get_set]
    split
    · exact hx.mono (State.runs_congr hchannels)
    · exact (hr q).mono (State.runs_congr hchannels)
  · intro l
    refine ⟨(hl l).edit, fun hmark => ?_⟩
    obtain ⟨hswapping, hnone⟩ := (hl l).mark hmark
    refine ⟨?_, State.leaseHolder_congr hclaims l hnone⟩
    rw [Table.get_set, if_neg]
    · exact hswapping
    · rintro rfl
      simp [Row.swapping, hsettled] at hswapping

/-- A change of the leased part of one row, and perhaps of its holder. -/
theorem rowsOk_of_leased {s t : State} {l : LeasedNo} {y : Leased} (h : RowsOk s) (hrows : t.rows = s.rows)
    (hleased : t.leased = s.leased.set l y) (hchannels : t.channels = s.channels)
    (hholder : ∀ k, k ≠ l → s.leaseHolder k = none → t.leaseHolder k = none)
    (hy : y.Legal (s.rows.get (LeasedNo.row l)) (t.leaseHolder l)) : RowsOk t := by
  obtain ⟨hr, hl⟩ := (rowsOk_iff s).mp h
  rw [rowsOk_iff, hrows, hleased]
  refine ⟨fun r => (hr r).mono (State.runs_congr hchannels), fun k => ?_⟩
  rw [Table.get_set]
  split
  · rename_i heq
    exact heq ▸ hy
  · rename_i hne
    exact ⟨(hl k).edit, fun hmark => ⟨((hl k).mark hmark).1, hholder k (Ne.symm hne) ((hl k).mark hmark).2⟩⟩

/-- Every row loses channel c from its holding set, between u and t; the other channels that ran do. -/
theorem rowsOk_of_without {s u t : State} {c : Chan} (h : RowsOk s) (hrows : u.rows = s.rows)
    (hleased : u.leased = s.leased) (hw : RowsWithout c u t) (hclaims : t.claims = s.claims)
    (hothers : ∀ d, d ≠ c → t.runs d = s.runs d) : RowsOk t := by
  obtain ⟨hr, hl⟩ := (rowsOk_iff s).mp h
  obtain ⟨hrow, hpart⟩ := hw
  rw [hrows] at hrow hpart
  rw [hleased] at hpart
  rw [rowsOk_iff]
  constructor
  · intro r
    rw [hrow]
    exact Row.without_legal _ (hr r) (fun d hd hrun => (hothers d hd).trans hrun) fun _ hrun => hrun
  · intro l
    rw [hpart, hrow]
    refine ⟨(hl l).edit, fun hmark => ?_⟩
    obtain ⟨hpending, hlands⟩ := Bool.and_eq_true_iff.mp hmark
    obtain ⟨hswapping, hnone⟩ := (hl l).mark hpending
    exact ⟨Row.without_swapping _ hswapping ((Bool.not_eq_true' _).mp hlands), State.leaseHolder_congr hclaims l hnone⟩

theorem State.runs_modify {s t : State} {c : Chan} {f : Channel → Channel}
    (h : t.channels = s.channels.modify c f) (d : Chan) (hd : d ≠ c) : t.runs d = s.runs d := by
  unfold State.runs
  rw [h, Four.get_modify_ne _ (Ne.symm hd)]

/-! ### Frames (R27, R28, R95) -/

/-- A frame start, with changes of its own channel before and after it. -/
theorem rowsOk_framed {s u t : State} {c : Chan} {before after : Channel → Channel} (h : RowsOk s)
    (hrows : u.rows = s.rows) (hleased : u.leased = s.leased) (hclaims : u.claims = s.claims)
    (hchannels : u.channels = s.channels.modify c before) (ht : t = (u.frameStart c).modChannel c after)
    (hafter : ∀ k, (after k).state = k.state) : RowsOk t := by
  obtain ⟨⟨-, -, -, -, -, -, -, -, -, hw⟩, -, mark, n, hframed⟩ := u.frameStart_spec c
  have hown : ∀ d, (t.channels.get d).state = ((u.frameStart c).channels.get d).state := by
    intro d
    rw [ht, State.modChannel_channels, Four.get_modify]
    split
    · rename_i heq
      rw [hafter]
    · rfl
  have hwhole : RowsWithout c u t := by
    refine RowsWithout.of_eq hw rfl rfl ?_ ?_ hown
    · rw [ht, State.modChannel_rows]
    · rw [ht, State.modChannel_leased]
  refine rowsOk_of_without h hrows hleased hwhole (by simp [ht, hclaims]) ?_
  have hall : t.channels = s.channels.modify c fun k => after { before k with
      active := (before k).nextConfig, pending := none, overbooked := mark, dropped := n } := by
    rw [ht, State.modChannel_channels, hframed, hchannels, Four.modify_modify, Four.modify_modify]
  exact State.runs_modify hall

theorem State.enterFreeRun_rowsOk {s : State} (h : RowsOk s) (c : Chan) : RowsOk (s.enterFreeRun c) :=
  rowsOk_framed (before := fun k => { k with state := .freeRun, loss := .stopped }) (after := Channel.startFreeRun) h
    (by simp) (by simp) (by simp)
    (by rw [State.modChannel_channels, State.signal_channels, Four.modify_modify]) rfl fun _ => rfl

theorem State.inputArrives_rowsOk {s : State} (h : RowsOk s) (c : Chan) : RowsOk (s.inputArrives c) := by
  unfold State.inputArrives State.inputFrame
  split
  · exact h
  · exact rowsOk_framed h (by simp) (by simp) (by simp) (s.signal_channels c .locked) rfl fun _ => rfl
  · exact rowsOk_framed h rfl rfl rfl (Four.modify_id s.channels c).symm rfl fun _ => rfl
  · refine rowsOk_framed (before := fun k => { k with state := .locked, freeRun := .stopped }) h (by simp) (by simp)
      (by simp) ?_ rfl fun _ => rfl
    rw [State.modChannel_channels, State.signal_channels, Four.modify_modify]

theorem State.freeRunExpires_rowsOk {s : State} (h : RowsOk s) (c : Chan) : RowsOk (s.freeRunExpires c) := by
  unfold State.freeRunExpires State.freeRunTaken
  split
  · split
    · exact h
    · exact h
    · exact h
    · exact rowsOk_framed h rfl rfl rfl (Four.modify_id s.channels c).symm rfl fun _ => rfl
  · exact h

/-- A channel that stops drawing, with changes of its own before. -/
theorem rowsOk_stopped {s u : State} {c : Chan} (h : RowsOk s) (hrows : u.rows = s.rows)
    (hleased : u.leased = s.leased) (hclaims : u.claims = s.claims)
    (hothers : ∀ d, d ≠ c → u.channels.get d = s.channels.get d) : RowsOk (u.stopDrawing c) := by
  obtain ⟨hw, -, -, hstopped, -⟩ := u.stopDrawing_spec c
  refine rowsOk_of_without h hrows hleased hw (by simp [hclaims]) fun d hd => ?_
  rw [State.runs_modify hstopped d hd]
  unfold State.runs
  rw [hothers d hd]

theorem State.enterSeeking_rowsOk {s : State} (h : RowsOk s) (c : Chan) : RowsOk (s.enterSeeking c) := by
  unfold State.enterSeeking
  refine rowsOk_stopped h (by simp) (by simp) (by simp) fun d hd => ?_
  simp [State.activatePending_channels, State.signal_channels, Four.get_modify_ne _ (Ne.symm hd)]

/-- A change of a channel that does not stop it. -/
theorem rowsOk_of_channel {s t : State} {c : Chan} (h : RowsOk s) (hrows : t.rows = s.rows)
    (hleased : t.leased = s.leased) (hclaims : t.claims = s.claims)
    (hothers : ∀ d, d ≠ c → t.channels.get d = s.channels.get d) (hown : s.runs c = true → t.runs c = true) :
    RowsOk t := by
  refine rowsOk_of_kept h hrows hleased (fun d hd => ?_) (State.leaseHolder_congr hclaims)
  by_cases heq : d = c
  · exact heq ▸ hown (heq ▸ hd)
  · unfold State.runs
    rw [hothers d heq]
    exact hd

theorem State.lossExpires_rowsOk {s : State} (h : RowsOk s) (c : Chan) : RowsOk (s.lossExpires c) := by
  unfold State.lossExpires State.lossTaken
  dsimp only
  split
  · split
    · exact h
    · split
      · exact State.enterFreeRun_rowsOk h c
      · refine rowsOk_of_channel (c := c) h rfl rfl rfl (fun d hd => Four.get_modify_ne _ (Ne.symm hd) _) fun hrun => ?_
        simpa [State.runs, Channel.startLoss] using hrun
    · split
      · exact State.enterFreeRun_rowsOk h c
      · exact State.enterSeeking_rowsOk h c
    · exact h
  · exact h

/-! ### CHANNEL_APPLY (R101, R102) -/

theorem State.applyInOff_rowsOk {s : State} (h : RowsOk s) {c : Chan} (hstate : (s.channels.get c).state = .off) :
    RowsOk (s.applyInOff c).1 := by
  have hstill : s.runs c = true → False := by simp [State.runs, hstate, SignalState.running]
  unfold State.applyInOff
  dsimp only
  split
  · exact rowsOk_of_channel (c := c) h rfl rfl rfl (fun d hd => by simp [Four.get_modify_ne _ (Ne.symm hd)])
      fun hrun => (hstill hrun).elim
  · exact rowsOk_of_channel (c := c) h rfl rfl rfl (fun d hd => by simp [Four.get_modify_ne _ (Ne.symm hd)])
      fun hrun => (hstill hrun).elim

theorem State.applyInSeeking_rowsOk {s : State} (h : RowsOk s) {c : Chan}
    (hstate : (s.channels.get c).state = .seeking) : RowsOk (s.applyInSeeking c).1 := by
  have hstill : s.runs c = true → False := by simp [State.runs, hstate, SignalState.running]
  unfold State.applyInSeeking
  dsimp only
  split
  · exact rowsOk_of_channel (c := c) h rfl rfl rfl (fun d hd => by simp [Four.get_modify_ne _ (Ne.symm hd)])
      fun hrun => (hstill hrun).elim
  · exact rowsOk_of_channel (c := c) h rfl rfl rfl (fun d hd => by simp [Four.get_modify_ne _ (Ne.symm hd)])
      fun hrun => (hstill hrun).elim

theorem State.applyInRunning_rowsOk {s : State} (h : RowsOk s) (caller : Sid) (c : Chan) :
    RowsOk (s.applyInRunning caller c).1 := by
  unfold State.applyInRunning
  dsimp only
  split
  · refine rowsOk_of_channel (c := c) h rfl rfl rfl (fun d hd => Four.get_modify_ne _ (Ne.symm hd) _) fun hrun => ?_
    simpa [State.runs] using hrun
  · dsimp only
    exact rowsOk_stopped h (by simp) (by simp) (by simp) fun d hd => by simp [Four.get_modify_ne _ (Ne.symm hd)]

theorem State.applyChannel_rowsOk {s : State} (h : RowsOk s) (caller : Sid) (c : Chan) :
    RowsOk (s.applyChannel caller c).1 := by
  unfold State.applyChannel
  split
  · exact State.applyInOff_rowsOk h ‹_›
  · exact State.applyInSeeking_rowsOk h ‹_›
  · exact State.applyInRunning_rowsOk h caller c
  · exact State.applyInRunning_rowsOk h caller c

/-! ### Commits (R14–R16) -/

/-- A blank-pending mark is set on SWAPPING rows only, so that a commit of a SETTLED row meets none (R13, R26). -/
theorem State.rowMark_of_settled {s : State} (h : RowsOk s) {r : RowNo} (hsettled : (s.rows.get r).held = none) :
    s.rowMark r = false := by
  obtain ⟨-, hl⟩ := (rowsOk_iff s).mp h
  unfold State.rowMark
  split
  · rename_i l hl'
    refine Bool.eq_false_iff.mpr fun hmark => ?_
    have hswapping := ((hl l).mark hmark).1
    rw [rowLeased_some hl'] at hswapping
    simp [Row.swapping, hsettled] at hswapping
  · rfl

/-- The commit path on a SETTLED row: u is the state of the exchange, with events posted. -/
theorem rowsOk_of_commit {s u : State} {r : RowNo} {k : Content} {o : Origin} (h : RowsOk s)
    (hsettled : (s.rows.get r).held = none) (hlegal : ContentOk k.codes.length k.placements)
    (hrows : u.rows = (s.exchange r k o).rows) (hleased : u.leased = s.leased) (hclaims : u.claims = s.claims)
    (hchannels : u.channels = s.channels) : RowsOk (u.landIfFree r) := by
  have hmark : u.rowMark r = false :=
    (State.rowMark_congr s u hleased r).trans (State.rowMark_of_settled h hsettled)
  rw [State.exchange_rows] at hrows
  have hlanded := u.landIfFree_rows r hmark
  rw [hrows, Table.set_set, Table.get_set_self] at hlanded
  have hlive := (((rowsOk_iff s).mp h).1 r).live
  have hnew : ContentOk (s.newVersion r k o).text.length (s.newVersion r k o).placements := by
    simpa [State.newVersion, State.resolveText] using hlegal
  refine rowsOk_of_row h hlanded ((u.landIfFree_leased r hmark).trans hleased) (by simp [hclaims]) (by simp [hchannels])
    hsettled ?_
  have hcommitted := Row.committed_legal (channels := s.channels) (runs := s.runs) hnew hlive fun _ hrun => hrun
  unfold heldBack at hcommitted
  unfold Row.holding
  dsimp only
  split
  · exact ⟨hnew, by simp⟩
  · rename_i hne
    rw [if_neg hne] at hcommitted
    exact hcommitted

/-! ### Grants and leaves (R23, R24, R66, R67) -/

theorem editCopy_contentOk {v : Version} (h : ContentOk v.text.length v.placements) :
    ContentOk (editCopy v).text.length (editCopy v).placements := by
  simpa [editCopy] using h

theorem Leased.granted_legal {runs : Chan → Bool} {x : Row} (h : x.Legal runs) (holder : Option Sid) :
    Leased.Legal x holder { edit := editCopy x.live, blankPending := false } :=
  ⟨editCopy_contentOk h.live, fun hmark => by cases hmark⟩

theorem EditBuffer.empty_contentOk : ContentOk EditBuffer.empty.text.length EditBuffer.empty.placements :=
  ⟨Nat.zero_le 40, Nat.zero_le 4, rfl⟩

/-- A grant after a change of the claim record of its resource alone. -/
theorem rowsOk_of_grant {s u : State} {r : Resource} {k : Claim} (h : RowsOk s) (hrows : u.rows = s.rows)
    (hleased : u.leased = s.leased) (hchannels : u.channels = s.channels) (hclaims : u.claims = s.claims.set r k) :
    RowsOk (u.grant r) := by
  have hothers : ∀ l, rowResource l ≠ r → s.leaseHolder l = none → u.leaseHolder l = none := by
    intro l hne hnone
    unfold State.leaseHolder
    rw [hclaims, Table.get_set_ne _ (Ne.symm hne)]
    exact hnone
  unfold State.grant
  split
  · rename_i l hl
    have hr := resourceRow_some.mp hl
    refine rowsOk_of_leased (l := l)
      (y := { edit := editCopy (u.rows.get (LeasedNo.row l)).live, blankPending := false }) h hrows
      (by rw [← hleased]; rfl) hchannels (fun m hm hnone => ?_) ?_
    · exact hothers m (fun heq => hm (rowResource_injective (heq.trans hr.symm))) hnone
    · rw [hrows]
      exact Leased.granted_legal (((rowsOk_iff s).mp h).1 (LeasedNo.row l)) _
  · rename_i hl
    refine rowsOk_of_kept h hrows hleased (State.runs_congr hchannels) fun l hnone => hothers l ?_ hnone
    rintro rfl
    simp at hl

/-- A leave blank of a row that has no holder any more. -/
theorem rowsOk_of_leaveBlank {s u : State} {l : LeasedNo} (h : RowsOk s) (hrows : u.rows = s.rows)
    (hleased : u.leased = s.leased) (hchannels : u.channels = s.channels)
    (hholder : ∀ k, k ≠ l → s.leaseHolder k = none → u.leaseHolder k = none) (hnone : u.leaseHolder l = none) :
    RowsOk (u.leaveBlank l) := by
  obtain ⟨hr, hl⟩ := (rowsOk_iff s).mp h
  have hclaims : (u.leaveBlank l).claims = u.claims := by simp
  have hmark : (s.leased.get l).blankPending = true → (s.rows.get (LeasedNo.row l)).swapping = true :=
    fun hpending => ((hl l).mark hpending).1
  rw [rowsOk_iff, State.leaveBlank_rows, State.leaveBlank_leased, hrows, hleased]
  have hsame : ∀ c, s.runs c = true → (u.leaveBlank l).runs c = true := State.runs_congr (by simp [hchannels])
  constructor
  · intro r
    split
    · exact (hr r).mono hsame
    · rw [Table.get_set]
      split
      · rw [hchannels]
        exact (Row.blanked_legal (hr _).live fun _ hrun => hrun).mono hsame
      · exact (hr r).mono hsame
  · intro k
    rw [Table.get_set]
    by_cases hk : l = k
    · subst hk
      rw [if_pos rfl]
      refine ⟨EditBuffer.empty_contentOk, fun hpending => ?_⟩
      have hswapping : (s.rows.get (LeasedNo.row l)).swapping = true := by
        rcases Bool.or_eq_true_iff.mp hpending with hold | hnow
        · exact hmark hold
        · exact hnow
      rw [if_pos hswapping]
      exact ⟨hswapping, State.leaseHolder_congr hclaims l hnone⟩
    · rw [if_neg hk]
      refine ⟨(hl k).edit, fun hpending => ?_⟩
      obtain ⟨hswapping, hunheld⟩ := (hl k).mark hpending
      refine ⟨?_, State.leaseHolder_congr hclaims k (hholder k (Ne.symm hk) hunheld)⟩
      split
      · exact hswapping
      · rw [Table.get_set_ne _ fun heq => hk (LeasedNo.row_injective heq)]
        exact hswapping

theorem State.leaveResource_rowsOk {s : State} (h : RowsOk s) (r : Resource) (p : Port) (keep : Bool) :
    RowsOk (s.leaveResource r p keep) := by
  have hunheld : ∀ l, s.leaseHolder l = none →
      (s.modClaim r fun x => { x with holder := none }).leaseHolder l = none := by
    intro l hnone
    unfold State.leaseHolder
    rw [State.modClaim_claims, Table.get_modify]
    split
    · rfl
    · exact hnone
  unfold State.leaveResource
  split
  · rename_i w rest _
    have hgranted : RowsOk (((s.modClaim r fun _ => { holder := some w, waiters := rest }).modWait w.port
        fun n => n - 1).grant r) := rowsOk_of_grant h rfl rfl rfl rfl
    exact rowsOk_of_same hgranted (State.post_rows ..) (State.post_leased ..)
      (State.post_claims ..) (State.post_channels ..)
  · dsimp only
    split
    · rename_i l hl
      split
      · exact rowsOk_of_kept h rfl rfl (fun _ hrun => hrun) hunheld
      · refine rowsOk_of_leaveBlank h rfl rfl rfl (fun k _ => hunheld k) ?_
        unfold State.leaseHolder
        rw [resourceRow_some.mp hl, State.modClaim_claims, Table.get_modify_self]
    · exact rowsOk_of_kept h rfl rfl (fun _ hrun => hrun) hunheld

/-! ### The end of a session (R22, R24, R67) -/

theorem Claim.afterEnd_unheld {k : Claim} (h : k.holder = none) (i : Sid) : (k.afterEnd i).holder = none := by
  unfold Claim.afterEnd
  rw [if_neg (by simp [h])]
  exact h

theorem State.rowAfterEnd_legal {s : State} {r : RowNo} (h : (s.rows.get r).Legal s.runs) (i : Sid) :
    (s.rowAfterEnd i r).Legal s.runs := by
  have hended := Row.endOrigin_legal h i
  unfold State.rowAfterEnd
  dsimp only
  split
  · exact Row.blanked_legal hended.live fun _ hrun => hrun
  · exact hended

theorem State.rowAfterEnd_swapping {s : State} {r : RowNo} (i : Sid) (h : (s.rows.get r).swapping = true) :
    (s.rowAfterEnd i r).swapping = true := by
  unfold State.rowAfterEnd
  simp [Row.endOrigin_swapping, h]

/-- A row left blank has no holder after the end of the session that held it. -/
theorem State.leftBlank_unheld {s : State} {i : Sid} {l : LeasedNo} (h : s.leftBlank i (LeasedNo.row l) = true) :
    ((s.claims.get (rowResource l)).afterEnd i).holder = none := by
  unfold State.leftBlank at h
  rw [rowLeased_row] at h
  dsimp only at h
  rw [Bool.and_eq_true, beq_iff_eq, Option.isNone_iff_eq_none] at h
  obtain ⟨hheld, hheir⟩ := h
  unfold Claim.heir at hheir
  rwa [if_pos hheld] at hheir

theorem State.endSession_rowsOk {s : State} (h : RowsOk s) (p : Port) (cause : EndCause) :
    RowsOk (s.endSession p cause) := by
  obtain ⟨hr, hl⟩ := (rowsOk_iff s).mp h
  obtain ⟨hclaims, -, hrows, hleased, -, -, -, hchannels, -⟩ := s.endSession_noticed p cause
  have hruns : ∀ c, s.runs c = true → (s.endSession p cause).runs c = true := by
    intro c hc
    unfold State.runs
    rw [hchannels, Four.get_map, Channel.endApplier_state]
    exact hc
  rw [rowsOk_iff]
  constructor
  · intro r
    rw [hrows]
    exact (State.rowAfterEnd_legal (hr r) _).mono hruns
  · intro l
    rw [hleased, hrows]
    unfold State.leaseHolder State.leasedAfterEnd
    rw [hclaims, Table.get_map]
    split
    · exact ⟨editCopy_contentOk (hr (LeasedNo.row l)).live, fun hmark => by cases hmark⟩
    · split
      · rename_i hblank
        refine ⟨EditBuffer.empty_contentOk, fun hpending => ⟨State.rowAfterEnd_swapping _ ?_,
          State.leftBlank_unheld hblank⟩⟩
        rcases Bool.or_eq_true_iff.mp hpending with hold | hnow
        · exact ((hl l).mark hold).1
        · exact hnow
      · refine ⟨(hl l).edit, fun hpending => ?_⟩
        obtain ⟨hswapping, hnone⟩ := (hl l).mark hpending
        exact ⟨State.rowAfterEnd_swapping _ hswapping, Claim.afterEnd_unheld hnone _⟩

theorem State.openSession_rowsOk {s : State} (h : RowsOk s) (p : Port) (term : Byte) (mask : BitVec 6) :
    RowsOk (s.openSession p term mask).1 := by
  have hvacated : RowsOk (s.vacated p) := by
    unfold State.vacated
    split
    · exact State.endSession_rowsOk h p .reattach
    · exact h
  rw [State.openSession_eq]
  exact rowsOk_of_same (s := s.vacated p) hvacated (by dsimp only) (by dsimp only) (by dsimp only) (by dsimp only)

/-! ### Every step -/

theorem State.install_rows (s : State) (caller : Sid) (u : Upload) :
    (s.install caller u).1.rows = s.rows ∧ (s.install caller u).1.leased = s.leased := by
  unfold State.install
  dsimp only
  split <;> constructor <;> simp

theorem Work.rowsOk {caller : Sid} {s t : State} (w : Work caller s t) (h : RowsOk s) : RowsOk t := by
  obtain ⟨hr, hl⟩ := (rowsOk_iff s).mp h
  cases w with
  | nothing => exact h
  | detach => exact State.endSession_rowsOk h caller.port .detach
  | setMask mask => exact h
  | drain n => exact h
  | take r hfree => exact rowsOk_of_grant h rfl rfl rfl rfl
  | join r holder hheld hne hout hlimit =>
    refine rowsOk_of_kept h rfl rfl (fun _ hrun => hrun) fun l hnone => ?_
    unfold State.leaseHolder State.joinWaiters
    rw [State.modWait_claims, State.modClaim_claims, Table.get_modify]
    split <;> exact hnone
  | leave r keep hheld => exact State.leaveResource_rowsOk h r caller.port keep
  | cancel r hin =>
    refine rowsOk_of_kept h rfl rfl (fun _ hrun => hrun) fun l hnone => ?_
    unfold State.leaseHolder
    rw [State.modWait_claims, State.modClaim_claims, Table.get_modify]
    split <;> exact hnone
  | edit l f hheld hlegal =>
    exact rowsOk_of_leased (l := l) h rfl rfl rfl (fun _ _ hnone => hnone) ⟨hlegal (hl l).edit, (hl l).mark⟩
  | commit l hheld hsettled =>
    exact rowsOk_of_commit h hsettled (hl l).edit rfl (by simp) (by simp) (by simp)
  | writeCommon r k e hcommon hsettled hlegal =>
    exact rowsOk_of_commit h hsettled hlegal (State.broadcast_rows ..) (by simp) (by simp) (by simp)
  | openUpload n code advance isVolatile hnone hfree => exact h
  | nextFragment u f b hu => exact h
  | install u b hu =>
    obtain ⟨hrows, hleased⟩ := State.install_rows (s.modCell u.cell fun k => { k with bitmap := b k.bitmap }) caller u
    obtain ⟨hclaims, -⟩ := State.install_claims (s.modCell u.cell fun k => { k with bitmap := b k.bitmap }) caller u
    obtain ⟨hchannels, -⟩ := State.install_channels (s.modCell u.cell fun k => { k with bitmap := b k.bitmap }) caller u
    exact rowsOk_of_same h hrows hleased hclaims hchannels
  | dropUpload u b hu => exact rowsOk_of_same h (by simp) (by simp) (by simp) (by simp)
  | delete code x e hfind => exact rowsOk_of_same h (by simp) (by simp) (by simp) (by simp)
  | stage c k =>
    refine rowsOk_of_channel (c := c) h rfl rfl rfl (fun d hd => Four.get_modify_ne _ (Ne.symm hd) _) fun hrun => ?_
    simpa [State.runs] using hrun
  | apply c => exact State.applyChannel_rowsOk h caller c

/-- After POWER_ON and CRST every row is SETTLED and blank (R7). -/
theorem rowsOk_of_reset {t : State} (hrows : t.rows = Table.fill 48 { live := Version.empty, held := none })
    (hleased : t.leased = Table.fill 44 { edit := EditBuffer.empty, blankPending := false }) : RowsOk t := by
  rw [rowsOk_iff, hrows, hleased]
  constructor
  · intro r
    rw [Table.get_fill]
    exact ⟨Version.empty_contentOk 0#16, by simp⟩
  · intro l
    rw [Table.get_fill, Table.get_fill]
    exact ⟨EditBuffer.empty_contentOk, fun hmark => by cases hmark⟩

theorem Effect.rowsOk {s t : State} (heffect : Effect s t) (h : RowsOk s) : RowsOk t := by
  cases heffect with
  | nothing => exact h
  | ignored p hreset => exact h
  | window p q hreset hclosed hprst => exact h
  | command p q t r hreset hclosed hprst hactive hwork =>
    have hbefore : RowsOk ((s.modPort p fun _ => q).renewLease p) :=
      rowsOk_of_same h (by simp) (by simp) (by simp) (by simp)
    exact rowsOk_of_same (hwork.rowsOk hbefore) (by simp) (by simp) (by simp) (by simp)
  | attach p q term mask r hreset hclosed hprst hterm =>
    have hq : RowsOk (s.modPort p fun _ => q) := rowsOk_of_same h rfl rfl rfl rfl
    exact rowsOk_of_same (State.openSession_rowsOk hq p term mask) (State.place_rows ..) (State.place_leased ..)
      (State.place_claims ..) (State.place_channels ..)
  | frameIgnored p => exact rowsOk_of_same h (by simp) (by simp) (by simp) (by simp)
  | powerOn csn => exact rowsOk_of_reset rfl rfl
  | crstAsserted ports hports => exact rowsOk_of_reset rfl rfl
  | crstDeasserted csn =>
    exact rowsOk_of_same h (foldl_keeps (g := State.rows) (fun t p => by simp [State.seeCsn]) _ _)
      (foldl_keeps (g := State.leased) (fun t p => by simp [State.seeCsn]) _ _)
      (foldl_keeps (g := State.claims) (fun t p => by simp [State.seeCsn]) _ _)
      (foldl_keeps (g := State.channels) (fun t p => by simp [State.seeCsn]) _ _)
  | prstAsserted p w t ht =>
    have hbefore : RowsOk t :=
      rowsOk_of_same h (by rw [ht]; rfl) (by rw [ht]; rfl) (by rw [ht]; rfl) (by rw [ht]; rfl)
    split
    · exact State.endSession_rowsOk hbefore p .portReset
    · exact hbefore
  | prstDeasserted p csn =>
    exact rowsOk_of_same h (by simp [State.seeCsn]) (by simp [State.seeCsn]) (by simp [State.seeCsn])
      (by simp [State.seeCsn])
  | inputArrives c => exact State.inputArrives_rowsOk h c
  | lossExpires c => exact State.lossExpires_rowsOk h c
  | freeRunExpires c => exact State.freeRunExpires_rowsOk h c
  | leaseLow p e hdue => exact rowsOk_of_same h rfl rfl rfl rfl
  | leaseExpiry p hdue => exact State.endSession_rowsOk h p .lease
  | filing source p => exact rowsOk_of_same h (by simp) (by simp) (by simp) (by simp)

/-- Settles O59: a case split over the effects of a step; a channel leaves every holding set when it stops, and a
blank-pending mark needs a row that nobody holds. -/
theorem stepsKeepRowsLegal : Obligations.StepsKeepRowsLegal := by
  unfold Obligations.StepsKeepRowsLegal
  intro s t
  refine step_keeps (P := RowsOk) (fun _ _ h => h) (fun _ _ h => h) (fun s h => ?_) fun s t heffect h =>
      heffect.rowsOk h
  refine rowsOk_of_kept h rfl rfl (fun c hc => ?_) (State.leaseHolder_congr rfl)
  have htick : s.tick.channels = s.channels.map Channel.tick := rfl
  unfold State.runs
  rw [htick, Four.get_map]
  exact hc

end Sys2Proof.Machine

/-! SUPPORT. Every step keeps the glyph store legal (R31, R33, R35, R36, R37, R40, R41). -/
namespace Sys2Proof.Machine

/-- `CellOk` as a property of a cell and of the numbers of positions, entries and uploads that name it. -/
structure Cell.Legal (n : CellNo) (k : Cell) (positions entries uploads : Nat) : Prop where
  counted : k.refs = positions
  unused : k.state = .free ∨ k.state = .loading → k.refs = 0
  retiring : k.state = .retiring → 1 ≤ k.refs
  mapped : entries = if k.state = .ready ∧ n ≠ 0 then 1 else 0
  loading : uploads = if k.state = .loading then 1 else 0
  replacement : n = 0 → k.state = .ready

/-- Cell n is legal among the rows, the map and the uploads of s. -/
def State.CellLegal (s : State) (n : CellNo) : Prop :=
  (s.cells.get n).Legal n (s.refsTo n) (s.entriesOf n) (s.uploadsInto n)

theorem storeOk_iff (s : State) :
    StoreOk s ↔ (∀ n, s.CellLegal n) ∧ mapSorted s.map = true ∧ ∀ p, ∀ u ∈ s.uploads.get p, u.session.port = p := by
  refine and_congr (forall_congr' fun n => ?_) Iff.rfl
  exact ⟨fun ⟨h1, h2, h3, h4, h5, h6⟩ => ⟨h1, h2, h3, h4, h5, h6⟩, fun ⟨h1, h2, h3, h4, h5, h6⟩ =>
    ⟨h1, h2, h3, h4, h5, h6⟩⟩

/-! ### One cell -/

/-- Only the state and the count of a cell matter. -/
theorem Cell.Legal.congr {n : CellNo} {k k' : Cell} {positions entries uploads : Nat}
    (h : k.Legal n positions entries uploads) (hstate : k'.state = k.state) (hrefs : k'.refs = k.refs) :
    k'.Legal n positions entries uploads := by
  obtain ⟨hcounted, hunused, hretiring, hmapped, hloading, hreplacement⟩ := h
  rw [← hrefs] at hcounted hunused hretiring
  rw [← hstate] at hunused hretiring hmapped hloading hreplacement
  exact ⟨hcounted, hunused, hretiring, hmapped, hloading, hreplacement⟩

/-- A discard of m positions (R39). -/
theorem Cell.Legal.dropRefs {n : CellNo} {k : Cell} {before after m entries uploads : Nat}
    (h : k.Legal n before entries uploads) (hm : after + m = before) :
    (k.dropRefs m).Legal n after entries uploads := by
  obtain ⟨hcounted, hunused, hretiring, hmapped, hloading, hreplacement⟩ := h
  by_cases hfreed : k.state = .retiring ∧ 0 < m ∧ k.refs - m = 0
  · have hdropped : k.dropRefs m = { k with refs := 0, state := .free } := by
      unfold Cell.dropRefs
      rw [if_pos hfreed, hfreed.2.2]
    rw [hdropped]
    obtain ⟨hstate, hpos, hzero⟩ := hfreed
    refine ⟨by dsimp only; omega, fun _ => rfl, by simp, by simpa [hstate] using hmapped,
        by simpa [hstate] using hloading,
      fun hn => ?_⟩
    rw [hreplacement hn] at hstate
    cases hstate
  · have hdropped : k.dropRefs m = { k with refs := k.refs - m } := by
      unfold Cell.dropRefs
      rw [if_neg hfreed]
    rw [hdropped]
    refine ⟨by dsimp only; omega, fun hst => ?_, fun hst => ?_, hmapped, hloading, hreplacement⟩
    · have := hunused hst
      dsimp only
      omega
    · have hone := hretiring hst
      have hst' : k.state = .retiring := hst
      dsimp only
      by_contra hzero
      exact hfreed ⟨hst', by omega, by omega⟩

/-- A resolve of m positions to a READY cell (R14, R38). -/
theorem Cell.Legal.addRefs {n : CellNo} {k : Cell} {before after m entries uploads : Nat}
    (h : k.Legal n before entries uploads) (hm : after = before + m) (hready : m = 0 ∨ k.state = .ready) :
    Cell.Legal n { k with refs := k.refs + m } after entries uploads := by
  obtain ⟨hcounted, hunused, hretiring, hmapped, hloading, hreplacement⟩ := h
  refine ⟨by dsimp only; omega, fun hst => ?_, fun hst => ?_, hmapped, hloading, hreplacement⟩
  · have hzero := hunused hst
    rcases hready with hm0 | hr
    · dsimp only
      omega
    · rcases hst with hf | hl
      · exact absurd (hr.symm.trans hf) (by decide)
      · exact absurd (hr.symm.trans hl) (by decide)
  · have := hretiring hst
    dsimp only
    omega

/-- A FREE cell is taken for an upload (R42). -/
theorem Cell.Legal.load {n : CellNo} {k : Cell} {positions entries before after : Nat} (advance : Nat)
    (h : k.Legal n positions entries before) (hfree : k.state = .free) (hafter : after = before + 1) :
    (Cell.loading advance).Legal n positions entries after := by
  obtain ⟨hcounted, hunused, -, hmapped, hloading, hreplacement⟩ := h
  have hzero := hunused (.inl hfree)
  rw [hfree] at hmapped hloading
  have hn : n ≠ 0 := fun hn => absurd ((hreplacement hn).symm.trans hfree) (by decide)
  refine ⟨by rw [← hcounted, hzero]; rfl, fun _ => rfl, by simp [Cell.loading], by simpa [Cell.loading] using hmapped,
    ?_, fun h0 => absurd h0 hn⟩
  simp only [Cell.loading, if_true]
  simp only [reduceCtorEq, if_false] at hloading
  omega

/-- A cell with an upload is LOADING, without positions or an entry (R41). -/
theorem Cell.Legal.of_upload {n : CellNo} {k : Cell} {positions entries uploads : Nat}
    (h : k.Legal n positions entries (uploads + 1)) :
    k.state = .loading ∧ k.refs = 0 ∧ positions = 0 ∧ entries = 0 ∧ uploads = 0 ∧ n ≠ 0 := by
  obtain ⟨hcounted, hunused, -, hmapped, hloading, hreplacement⟩ := h
  have hstate : k.state = .loading := by
    by_contra hne
    rw [if_neg hne] at hloading
    omega
  have hzero := hunused (.inr hstate)
  rw [hstate] at hmapped hloading
  simp only [reduceCtorEq, false_and, if_false] at hmapped
  simp only [if_true] at hloading
  exact ⟨hstate, hzero, by omega, hmapped, by omega, fun hn => absurd ((hreplacement hn).symm.trans hstate) (by decide)⟩

/-- A LOADING cell whose upload ends becomes FREE (R43, R48, R53). -/
theorem Cell.Legal.unload {n : CellNo} {k : Cell} {positions entries before after : Nat}
    (h : k.Legal n positions entries before) (hbefore : before = after + 1) :
    Cell.Legal n { k with state := .free } positions entries after := by
  obtain ⟨-, hrefs, hpositions, hentries, hafter, hn⟩ := (hbefore ▸ h).of_upload
  exact ⟨hrefs.trans hpositions.symm, fun _ => hrefs, by simp, by simpa using hentries, by simpa using hafter,
    fun h0 => absurd h0 hn⟩

/-- A LOADING cell whose upload completes becomes READY and is mapped (R46). -/
theorem Cell.Legal.install {n : CellNo} {k : Cell} {positions entries uploads before after : Nat}
    (h : k.Legal n positions before uploads) (huploads : uploads = after + 1) (hentries : entries = before + 1) :
    Cell.Legal n { k with state := .ready, refs := 0 } positions entries after := by
  obtain ⟨-, -, hpositions, hbefore, hafter, hn⟩ := (huploads ▸ h).of_upload
  refine ⟨hpositions.symm, fun _ => rfl, by simp, ?_, by simpa using hafter, fun _ => rfl⟩
  rw [if_pos ⟨rfl, hn⟩]
  omega

/-- A cell with an entry is READY, and is not cell 0 (R35). -/
theorem Cell.Legal.of_entry {n : CellNo} {k : Cell} {positions entries uploads : Nat}
    (h : k.Legal n positions (entries + 1) uploads) : k.state = .ready ∧ n ≠ 0 ∧ entries = 0 := by
  have hmapped := h.mapped
  split at hmapped
  · rename_i hready
    exact ⟨hready.1, hready.2, by omega⟩
  · omega

/-- The map lets go of a cell (R46, R51, R53). -/
theorem Cell.Legal.release {n : CellNo} {k : Cell} {positions before entries uploads : Nat}
    (h : k.Legal n positions before uploads) (hbefore : before = entries + 1) :
    Cell.Legal n { k with state := releasedState k } positions entries uploads := by
  obtain ⟨hstate, hn, hentries⟩ := (hbefore ▸ h).of_entry
  have hloading := h.loading
  rw [hstate] at hloading
  simp only [reduceCtorEq, if_false] at hloading
  refine ⟨h.counted, fun hst => ?_, fun hst => ?_, ?_, ?_, fun h0 => absurd h0 hn⟩
  · dsimp only [releasedState] at hst ⊢
    split at hst
    · assumption
    · simp at hst
  · dsimp only [releasedState] at hst ⊢
    split at hst
    · simp at hst
    · omega
  · dsimp only [releasedState]
    split <;> simpa using hentries
  · dsimp only [releasedState]
    split <;> simpa using hloading

/-! ### The map, counted -/

theorem entriesOf_congr {s t : State} (h : t.map = s.map) (n : CellNo) : t.entriesOf n = s.entriesOf n := by
  unfold State.entriesOf
  rw [h]

/-- An entry of a code is the only one of it in a map in canonical form (R35). -/
theorem mapFind_of_mem {m : List MapEntry} (h : mapSorted m = true) {x : MapEntry} (hx : x ∈ m) :
    mapFind m x.code = some x := by
  rw [mapSorted_iff] at h
  induction m with
  | nil => cases hx
  | cons y rest ih =>
    obtain ⟨hfirst, hrest⟩ := List.pairwise_cons.mp h
    unfold mapFind
    rw [List.find?_cons]
    rcases List.mem_cons.mp hx with rfl | hin
    · simp
    · have hne : (y.code == x.code) = false := by
        refine beq_false_of_ne fun heq => ?_
        have := hfirst x hin
        rw [heq] at this
        omega
      rw [hne]
      exact ih hrest hin

theorem mapFind_mem {m : List MapEntry} {code : Half} {x : MapEntry} (h : mapFind m code = some x) :
    x ∈ m ∧ x.code = code :=
  ⟨List.mem_of_find?_eq_some h, eq_of_beq (List.find?_some (p := fun e : MapEntry => e.code == code) h)⟩

/-- No entry of a map in canonical form has a code below all of its own. -/
theorem mapFind_none_of_lt {m : List MapEntry} {code : Half} (h : ∀ x ∈ m, code.toNat < x.code.toNat) :
    mapFind m code = none := by
  refine List.find?_eq_none.mpr fun x hx heq => ?_
  have := h x hx
  rw [eq_of_beq heq] at this
  omega

/-- The number of entries with a property, after an entry has been put in the map (R46). -/
theorem countP_mapInsert {m : List MapEntry} (h : mapSorted m = true) (e : MapEntry) (P : MapEntry → Bool) :
    (mapInsert e m).countP P + ((mapFind m e.code).any P).toNat = m.countP P + (P e).toNat := by
  rw [mapSorted_iff] at h
  induction m with
  | nil => cases hP : P e <;> simp [mapInsert, mapFind, hP]
  | cons y rest ih =>
    obtain ⟨hfirst, hrest⟩ := List.pairwise_cons.mp h
    unfold mapInsert
    split
    · rename_i heq
      have hfind : mapFind (y :: rest) e.code = some y := by simp [mapFind, heq]
      rw [hfind, List.countP_cons, List.countP_cons]
      cases hy : P y <;> cases he : P e <;> simp [hy]
    · rename_i hne
      split
      · rename_i hlt
        have hfind : mapFind (y :: rest) e.code = none := mapFind_none_of_lt fun x hx => by
          rcases List.mem_cons.mp hx with rfl | hin
          · exact hlt
          · exact Nat.lt_trans hlt (hfirst x hin)
        rw [hfind, List.countP_cons]
        cases P e <;> simp
      · have hfind : mapFind (y :: rest) e.code = mapFind rest e.code := by
          unfold mapFind
          rw [List.find?_cons, beq_false_of_ne (Ne.symm hne)]
        rw [hfind, List.countP_cons, List.countP_cons]
        have := ih hrest
        omega

/-- The number of entries with a property, after the entry of a code has been removed (R51). -/
theorem countP_mapErase {m : List MapEntry} (h : mapSorted m = true) (code : Half) (P : MapEntry → Bool) :
    (mapErase m code).countP P + ((mapFind m code).any P).toNat = m.countP P := by
  rw [mapSorted_iff] at h
  induction m with
  | nil => rfl
  | cons y rest ih =>
    obtain ⟨hfirst, hrest⟩ := List.pairwise_cons.mp h
    have hih := ih hrest
    by_cases heq : y.code = code
    · have hfind : mapFind (y :: rest) code = some y := by simp [mapFind, heq]
      have hnone : mapFind rest code = none := mapFind_none_of_lt fun x hx => heq ▸ hfirst x hx
      have herase : mapErase (y :: rest) code = mapErase rest code := by simp [mapErase, heq]
      rw [hnone] at hih
      rw [hfind, herase, List.countP_cons]
      cases hy : P y <;> simp [hy] at hih ⊢ <;> omega
    · have hfind : mapFind (y :: rest) code = mapFind rest code := by
        unfold mapFind
        rw [List.find?_cons, beq_false_of_ne heq]
      have herase : mapErase (y :: rest) code = y :: mapErase rest code := by
        simp [mapErase, heq]
      rw [hfind, herase, List.countP_cons, List.countP_cons]
      omega

/-- The entries that the end of a session leaves, by the cells they name (R53). -/
theorem countP_mapEndSession (m : List MapEntry) (i : Sid) (n : CellNo) :
    (mapEndSession m i).countP (fun e => e.cell == n) +
      m.countP (fun e => e.cell == n && e.holder == some i && e.isVolatile) = m.countP fun e => e.cell == n := by
  have hcell : ((fun e : MapEntry => e.cell == n) ∘ fun e =>
      if e.holder = some i then { e with holder := none } else e) = fun e => e.cell == n := by
    funext e
    rw [Function.comp_apply]
    split <;> rfl
  unfold mapEndSession
  rw [List.countP_map, hcell, List.countP_filter]
  refine (countP_add fun e _ => ?_).symm
  rw [Bool.and_assoc]
  cases e.cell == n <;> cases e.holder == some i && e.isVolatile <;> rfl

/-! ### The uploads, counted -/

theorem uploadsInto_congr {s t : State} (h : t.uploads = s.uploads) (n : CellNo) :
    t.uploadsInto n = s.uploadsInto n := by
  unfold State.uploadsInto
  rw [h]

theorem uploadsInto_set {s t : State} {p : Port} {x : Option Upload} (h : t.uploads = s.uploads.set p x) (n : CellNo) :
    t.uploadsInto n + ((s.uploads.get p).any fun u => u.cell == n).toNat =
      s.uploadsInto n + (x.any fun u => u.cell == n).toNat := by
  have hports : ascending 4 = [0, 1, 2, 3] := by decide
  unfold State.uploadsInto
  rw [h, hports]
  simp only [List.countP_cons, List.countP_nil, Four.get_set, Bool.toNat, Bool.cond_eq_ite]
  fin_cases p <;> simp <;> omega

end Sys2Proof.Machine

/-! SUPPORT. Every step keeps the glyph store legal: the steps (R33, R35, R36, R41–R53). -/
namespace Sys2Proof.Machine

/-- The glyph store is legal, and its holders and uploaders are ACTIVE. -/
structure State.StoreLegal (s : State) : Prop where
  cell : ∀ n, s.CellLegal n
  sorted : mapSorted s.map = true
  holder : ∀ e ∈ s.map, ∀ i ∈ e.holder, s.isActive i = true
  volatile : ∀ e ∈ s.map, e.isVolatile = true → e.holder.isSome = true
  upload : ∀ p, ∀ u ∈ s.uploads.get p, u.session.port = p ∧ s.isActive u.session = true

theorem storeLegal_iff (s : State) : StoreOk s ∧ HoldersOk s ↔ s.StoreLegal := by
  rw [storeOk_iff]
  constructor
  · rintro ⟨⟨hcell, hsorted, -⟩, hentries, hupload⟩
    exact ⟨hcell, hsorted, fun e he => (hentries e he).1, fun e he => (hentries e he).2, hupload⟩
  · rintro ⟨hcell, hsorted, hholder, hvolatile, hupload⟩
    exact ⟨⟨hcell, hsorted, fun p u hu => (hupload p u hu).1⟩, fun e he => ⟨hholder e he, hvolatile e he⟩, hupload⟩

/-- Discards alone, and ACTIVE sessions that stay ACTIVE. -/
theorem State.StoreLegal.discarded {s t : State} (h : s.StoreLegal) (hd : Discarded s t) (hmap : t.map = s.map)
    (huploads : t.uploads = s.uploads) (hactive : ∀ i, s.isActive i = true → t.isActive i = true) : t.StoreLegal := by
  refine ⟨fun n => ?_, hmap ▸ h.sorted, fun e he i hi => hactive i (h.holder e (hmap ▸ he) i hi),
    fun e he => h.volatile e (hmap ▸ he), fun p u hu => ?_⟩
  · obtain ⟨m, hget, hrefs⟩ := hd n
    unfold State.CellLegal
    rw [hget, entriesOf_congr hmap, uploadsInto_congr huploads]
    exact (h.cell n).dropRefs hrefs
  · obtain ⟨hport, hsession⟩ := h.upload p u (huploads ▸ hu)
    exact ⟨hport, hactive _ hsession⟩

theorem State.StoreLegal.kept {s t : State} (h : s.StoreLegal) (hcells : t.cells = s.cells) (hrows : t.rows = s.rows)
    (hmap : t.map = s.map) (huploads : t.uploads = s.uploads)
    (hactive : ∀ i, s.isActive i = true → t.isActive i = true) : t.StoreLegal :=
  h.discarded (Discarded.refl hcells hrows) hmap huploads hactive

theorem State.StoreLegal.same {s t : State} (h : s.StoreLegal) (hcells : t.cells = s.cells) (hrows : t.rows = s.rows)
    (hmap : t.map = s.map) (huploads : t.uploads = s.uploads) (hsessions : t.sessions = s.sessions) : t.StoreLegal :=
  h.kept hcells hrows hmap huploads fun i hi => (State.isActive_congr hsessions i).trans hi

/-- Discards alone, in a step that leaves all but the rows, the cells and the channels. -/
theorem State.StoreLegal.drawn {s t : State} (h : s.StoreLegal) (hd : Discarded s t) (hdraws : DrawsOnly s t) :
    t.StoreLegal :=
  h.discarded hd hdraws.map hdraws.uploads fun i hi => (State.isActive_congr hdraws.sessions i).trans hi

/-! ### Frames (R27, R95, R101, R102) -/

theorem State.framed_discarded {s u : State} (c : Chan) (hcells : u.cells = s.cells) (hrows : u.rows = s.rows)
    (after : Channel → Channel) : Discarded s ((u.frameStart c).modChannel c after) := by
  obtain ⟨-, hd, -⟩ := u.frameStart_spec c
  exact hd.of_eq hcells.symm hrows.symm rfl rfl

theorem State.stopped_discarded {s u : State} (c : Chan) (hcells : u.cells = s.cells) (hrows : u.rows = s.rows) :
    Discarded s (u.stopDrawing c) := by
  obtain ⟨-, -, hd, -⟩ := u.stopDrawing_spec c
  exact hd.of_eq hcells.symm hrows.symm rfl rfl

theorem State.enterFreeRun_discarded (s : State) (c : Chan) : Discarded s (s.enterFreeRun c) :=
  State.framed_discarded c (by simp) (by simp) Channel.startFreeRun

theorem State.enterSeeking_discarded (s : State) (c : Chan) : Discarded s (s.enterSeeking c) :=
  State.stopped_discarded c (by simp) (by simp)

theorem State.inputArrives_discarded (s : State) (c : Chan) : Discarded s (s.inputArrives c) := by
  unfold State.inputArrives State.inputFrame
  split
  · exact .refl rfl rfl
  · exact State.framed_discarded c (by simp) (by simp) Channel.startLoss
  · exact State.framed_discarded c rfl rfl Channel.startLoss
  · exact State.framed_discarded c (by simp) (by simp) Channel.startLoss

theorem State.lossExpires_discarded (s : State) (c : Chan) : Discarded s (s.lossExpires c) := by
  unfold State.lossExpires State.lossTaken
  dsimp only
  split
  · split
    · exact .refl rfl rfl
    · split
      · exact s.enterFreeRun_discarded c
      · exact .refl rfl rfl
    · split
      · exact s.enterFreeRun_discarded c
      · exact s.enterSeeking_discarded c
    · exact .refl rfl rfl
  · exact .refl rfl rfl

theorem State.freeRunExpires_discarded (s : State) (c : Chan) : Discarded s (s.freeRunExpires c) := by
  unfold State.freeRunExpires State.freeRunTaken
  split
  · split
    · exact .refl rfl rfl
    · exact .refl rfl rfl
    · exact .refl rfl rfl
    · exact State.framed_discarded c rfl rfl Channel.startFreeRun
  · exact .refl rfl rfl

theorem State.applyInRunning_discarded (s : State) (caller : Sid) (c : Chan) :
    Discarded s (s.applyInRunning caller c).1 := by
  unfold State.applyInRunning
  dsimp only
  split
  · exact .refl rfl rfl
  · dsimp only
    exact State.stopped_discarded c (by simp) (by simp)

theorem State.applyChannel_discarded (s : State) (caller : Sid) (c : Chan) : Discarded s
    (s.applyChannel caller c).1 := by
  unfold State.applyChannel
  split
  · unfold State.applyInOff
    dsimp only
    split <;> exact .refl rfl rfl
  · unfold State.applyInSeeking
    dsimp only
    split <;> exact .refl rfl rfl
  · exact s.applyInRunning_discarded caller c
  · exact s.applyInRunning_discarded caller c

/-! ### Commits (R14–R16, R37, R38) -/

/-- A code resolves to a READY cell: that of its entry, or cell 0 (R35, R38). -/
theorem State.StoreLegal.cellFor_ready {s : State} (h : s.StoreLegal) (code : Half) :
    (s.cells.get (s.cellFor code)).state = .ready := by
  unfold State.cellFor
  split
  · rename_i e hfind
    have hpos : 0 < s.entriesOf e.cell :=
      List.countP_pos_iff.mpr ⟨e, (mapFind_mem hfind).1, beq_self_eq_true e.cell⟩
    have hlegal := h.cell e.cell
    unfold State.CellLegal at hlegal
    rw [← Nat.succ_pred_eq_of_pos hpos] at hlegal
    exact hlegal.of_entry.1
  · exact (h.cell 0).replacement rfl

/-- Positions resolve to READY cells only. -/
theorem State.StoreLegal.resolved_ready {s : State} (h : s.StoreLegal) (codes : List Half) (n : CellNo) :
    positionsIn (s.resolveText codes) n = 0 ∨ (s.cells.get n).state = .ready := by
  by_cases hzero : positionsIn (s.resolveText codes) n = 0
  · exact .inl hzero
  · obtain ⟨q, hq, hcell⟩ := List.countP_pos_iff.mp (Nat.pos_of_ne_zero hzero)
    obtain ⟨code, -, rfl⟩ := List.mem_map.mp hq
    right
    rw [← eq_of_beq hcell]
    exact h.cellFor_ready code

theorem State.StoreLegal.exchange {s : State} (h : s.StoreLegal) {r : RowNo} (hsettled : (s.rows.get r).held = none)
    (k : Content) (o : Origin) : (s.exchange r k o).StoreLegal := by
  have hactive : ∀ i, (s.exchange r k o).isActive i = s.isActive i := fun i => by simp
  refine ⟨fun n => ?_, by simpa using h.sorted, fun e he i hi => (hactive i).trans
      (h.holder e (by simpa using he) i hi),
    fun e he => h.volatile e (by simpa using he), fun p u hu => ?_⟩
  · have hrefs := State.refsTo_of_set s (s.exchange r k o) r _ (State.exchange_rows s r k o) n
    have hold : (s.rows.get r).refsTo n = positionsIn (s.rows.get r).live.text n := by
      simp [Row.refsTo_eq, Row.heldText, hsettled]
    rw [hold] at hrefs
    simp only [Row.refsTo_eq, Row.heldText] at hrefs
    unfold State.CellLegal
    rw [State.exchange_cells, State.addRefs_get, entriesOf_congr (s := s) (by simp),
      uploadsInto_congr (s := s) (by simp)]
    refine (h.cell n).addRefs ?_ (h.resolved_ready k.codes n)
    have hnew : (s.newVersion r k o).text = s.resolveText k.codes := rfl
    rw [hnew] at hrefs
    omega
  · obtain ⟨hport, hsession⟩ := h.upload p u (by simpa using hu)
    exact ⟨hport, (hactive _).trans hsession⟩

theorem State.landIfFree_discarded (s : State) (r : RowNo) : Discarded s (s.landIfFree r) := by
  unfold State.landIfFree
  split
  · exact s.land_discarded r
  · exact .refl rfl rfl

theorem State.StoreLegal.landIfFree {s : State} (h : s.StoreLegal) (r : RowNo) : (s.landIfFree r).StoreLegal :=
  h.discarded (s.landIfFree_discarded r) (by simp) (by simp) fun i hi => by simpa using hi

/-! ### Uploads (R41–R48) -/

/-- An upload that a session has open is the one kept under its port. -/
theorem State.uploadOf_eq_some {s : State} {i : Sid} {u : Upload} (h : s.uploadOf i = some u) :
    s.uploads.get i.port = some u ∧ u.session = i := by
  unfold State.uploadOf at h
  split at h
  · rename_i x hx
    split at h
    · cases h
      exact ⟨hx, ‹_›⟩
    · cases h
  · cases h

/-- An ACTIVE session without an upload leaves none open on its port (R41). -/
theorem State.StoreLegal.uploads_none {s : State} (h : s.StoreLegal) {i : Sid} (hi : s.isActive i = true)
    (hnone : s.uploadOf i = none) : s.uploads.get i.port = none := by
  cases hu : s.uploads.get i.port with
  | none => rfl
  | some u =>
    obtain ⟨hport, hsession⟩ := h.upload i.port u hu
    have hsame := State.active_port_inj hsession hi hport
    unfold State.uploadOf at hnone
    rw [hu] at hnone
    simp [hsame] at hnone

/-- A write under one port, the map and the sessions being as they were. -/
theorem State.StoreLegal.setUpload {s t : State} {p : Port} {x : Option Upload} (h : s.StoreLegal)
    (hcell : ∀ n, t.CellLegal n) (hmap : t.map = s.map) (huploads : t.uploads = s.uploads.set p x)
    (hsessions : t.sessions = s.sessions) (hx : ∀ u ∈ x, u.session.port = p ∧ s.isActive u.session = true) :
    t.StoreLegal := by
  have hactive := State.isActive_congr hsessions
  refine ⟨hcell, hmap ▸ h.sorted, fun e he i hi => (hactive i).trans (h.holder e (hmap ▸ he) i hi),
    fun e he => h.volatile e (hmap ▸ he), fun q u hu => ?_⟩
  rw [huploads, Four.get_set] at hu
  split at hu
  · rename_i hq
    obtain ⟨hport, hsession⟩ := hx u hu
    exact ⟨hport.trans hq, (hactive _).trans hsession⟩
  · obtain ⟨hport, hsession⟩ := h.upload q u hu
    exact ⟨hport, (hactive _).trans hsession⟩

theorem State.StoreLegal.openUpload {s : State} (h : s.StoreLegal) {caller : Sid} (hcaller : s.isActive caller = true)
    {n : CellNo} (code : Half) (advance : Nat) (isVolatile : Bool) (hnone : s.uploadOf caller = none)
    (hfree : (s.cells.get n).state = .free) : (s.openUpload caller n code advance isVolatile).StoreLegal := by
  have hbefore := h.uploads_none hcaller hnone
  refine h.setUpload (p := caller.port) (x := some ⟨caller, code, n, 0, isVolatile⟩) (fun m => ?_) rfl rfl rfl
    fun u hu => by cases hu; exact ⟨rfl, hcaller⟩
  have hcount := uploadsInto_set (s := s) (t := s.openUpload caller n code advance isVolatile) rfl m
  have hget : (s.openUpload caller n code advance isVolatile).cells.get m =
      if n = m then Cell.loading advance else s.cells.get m := by
    unfold State.openUpload
    rw [State.setUpload_cells, State.modCell_cells, Table.get_modify]
  rw [hbefore] at hcount
  unfold State.CellLegal
  rw [hget]
  by_cases hm : n = m
  · subst hm
    rw [if_pos rfl]
    refine (h.cell n).load advance hfree ?_
    simpa using hcount
  · have hsame : (s.openUpload caller n code advance isVolatile).uploadsInto m = s.uploadsInto m := by
      simpa [beq_false_of_ne hm] using hcount
    rw [if_neg hm, hsame]
    exact h.cell m

/-- Writing lines to a cell's bitmap changes no state and no count (R40, R44). -/
theorem State.StoreLegal.bitmap {s : State} (h : s.StoreLegal) (n : CellNo) (b : Table Line 24 → Table Line 24) :
    (s.modCell n fun k => { k with bitmap := b k.bitmap }).StoreLegal := by
  refine ⟨fun m => ?_, h.sorted, h.holder, h.volatile, h.upload⟩
  have hlegal := h.cell m
  unfold State.CellLegal at hlegal ⊢
  rw [State.modCell_cells, Table.get_modify]
  split
  · rename_i heq
    exact hlegal.congr rfl rfl
  · exact hlegal

theorem State.StoreLegal.nextFragment {s : State} (h : s.StoreLegal) {caller : Sid} {u : Upload} (f : Fin 6)
    (hu : s.uploadOf caller = some u) : (s.setUpload caller.port (some { u with next := f })).StoreLegal := by
  obtain ⟨hkept, hsession⟩ := State.uploadOf_eq_some hu
  refine h.setUpload (fun n => ?_) rfl rfl rfl fun x hx => by cases hx; exact h.upload caller.port u hkept
  have hcount := uploadsInto_set (s := s) (t := s.setUpload caller.port (some { u with next := f })) rfl n
  rw [hkept] at hcount
  have hsame : (s.setUpload caller.port (some { u with next := f })).uploadsInto n = s.uploadsInto n :=
    Nat.add_right_cancel hcount
  unfold State.CellLegal
  rw [hsame]
  exact h.cell n

/-- A cell that loses the upload of a session (R43, R48, R53). -/
theorem State.StoreLegal.dropUpload_cell {s : State} (h : s.StoreLegal) (i : Sid) (n : CellNo) :
    ((s.dropUpload i).cells.get n).Legal n (s.refsTo n) (s.entriesOf n) ((s.dropUpload i).uploadsInto n) := by
  rw [State.dropUpload_get]
  cases hu : s.uploadOf i with
  | none =>
    have huploads : (s.dropUpload i).uploads = s.uploads := by rw [State.dropUpload_uploads, hu]; rfl
    rw [uploadsInto_congr huploads]
    exact h.cell n
  | some u =>
    have huploads : (s.dropUpload i).uploads = s.uploads.set i.port none := by rw [State.dropUpload_uploads, hu]; rfl
    have hcount := uploadsInto_set huploads n
    rw [(State.uploadOf_eq_some hu).1] at hcount
    rw [Option.any_some]
    by_cases hn : u.cell = n
    · rw [if_pos (beq_iff_eq.mpr hn)]
      refine (h.cell n).unload ?_
      simpa [hn] using hcount.symm
    · rw [if_neg fun heq => hn (eq_of_beq heq)]
      have hsame : (s.dropUpload i).uploadsInto n = s.uploadsInto n := by simpa [beq_false_of_ne hn] using hcount
      rw [hsame]
      exact h.cell n

theorem State.StoreLegal.dropUpload {s : State} (h : s.StoreLegal) (i : Sid) : (s.dropUpload i).StoreLegal := by
  have hcell : ∀ n, (s.dropUpload i).CellLegal n := by
    intro n
    unfold State.CellLegal
    rw [entriesOf_congr (s := s) (by simp), State.refsTo_of_rows s _ (by simp)]
    exact h.dropUpload_cell i n
  cases hu : s.uploadOf i with
  | none =>
    have hsame : s.dropUpload i = s := by unfold State.dropUpload; rw [hu]
    rw [hsame]
    exact h
  | some u =>
    exact h.setUpload (p := i.port) (x := none) hcell (by simp) (by rw [State.dropUpload_uploads, hu]; rfl) (by simp)
      fun x hx => by cases hx

/-! ### The map (R46, R51) -/

/-- The cell of an entry is not the one of an upload (R41). -/
theorem State.StoreLegal.entry_ne_upload {s : State} (h : s.StoreLegal) {p : Port} {u : Upload}
    (hu : s.uploads.get p = some u) {e : MapEntry} (he : e ∈ s.map) : e.cell ≠ u.cell := by
  intro heq
  have hentries : 0 < s.entriesOf u.cell := List.countP_pos_iff.mpr ⟨e, he, beq_iff_eq.mpr heq⟩
  have huploads : 0 < s.uploadsInto u.cell := List.countP_pos_iff.mpr ⟨p, mem_ascending p, by rw [hu]; simp⟩
  have hlegal := h.cell u.cell
  unfold State.CellLegal at hlegal
  rw [← Nat.succ_pred_eq_of_pos huploads] at hlegal
  obtain ⟨-, -, -, hzero, -⟩ := hlegal.of_upload
  omega

/-- The state of an install before its event: the code's old cell is let go, its new one is READY and mapped (R46). -/
def State.installed (s : State) (caller : Sid) (u : Upload) : State :=
  let released :=
    match mapFind s.map u.code with
    | some e => s.releaseCell e.cell
    | none => s
  let mapped :=
    released.setMap (mapInsert { code := u.code, cell := u.cell, holder := some caller, isVolatile := u.isVolatile }
      released.map)
  (mapped.modCell u.cell fun k => { k with state := .ready, refs := 0 }).setUpload caller.port none

theorem State.install_eq (s : State) (caller : Sid) (u : Upload) :
    (s.install caller u).1 =
      match mapFind s.map u.code with
      | some _ => (s.installed caller u).broadcast .glyphStore (some caller.port)
          (glyphEvent u.code glyphReplaced caller.port)
      | none => s.installed caller u := by
  unfold State.install State.installed
  dsimp only
  cases mapFind s.map u.code <;> rfl

theorem State.installed_map (s : State) (caller : Sid) (u : Upload) :
    (s.installed caller u).map =
      mapInsert { code := u.code, cell := u.cell, holder := some caller, isVolatile := u.isVolatile } s.map := by
  unfold State.installed
  dsimp only
  split <;> simp

theorem State.installed_uploads (s : State) (caller : Sid) (u : Upload) :
    (s.installed caller u).uploads = s.uploads.set caller.port none := by
  unfold State.installed
  dsimp only
  split <;> simp

theorem State.installed_rows (s : State) (caller : Sid) (u : Upload) : (s.installed caller u).rows = s.rows := by
  unfold State.installed
  dsimp only
  split <;> simp

theorem State.installed_sessions (s : State) (caller : Sid) (u : Upload) :
    (s.installed caller u).sessions = s.sessions := by
  unfold State.installed
  dsimp only
  split <;> simp

theorem State.installed_get (s : State) (caller : Sid) (u : Upload) (n : CellNo)
    (hne : ∀ e, mapFind s.map u.code = some e → e.cell ≠ u.cell) :
    (s.installed caller u).cells.get n =
      if u.cell = n then { s.cells.get n with state := .ready, refs := 0 }
      else if (mapFind s.map u.code).any fun e => e.cell == n then
        { s.cells.get n with state := releasedState (s.cells.get n) }
      else s.cells.get n := by
  unfold State.installed
  dsimp only
  rw [State.setUpload_cells, State.modCell_cells, Table.get_modify]
  cases hold : mapFind s.map u.code with
  | none => simp
  | some e =>
    have hn : u.cell = n → e.cell ≠ n := fun hun hen => hne e hold (hen.trans hun.symm)
    simp only [State.setMap_cells, State.releaseCell, State.modCell_cells, Table.get_modify, Option.any_some,
        beq_iff_eq]
    split
    · rename_i hun
      rw [if_neg (hn hun)]
    · rfl

theorem State.StoreLegal.installed {s : State} (h : s.StoreLegal) {caller : Sid} (hcaller : s.isActive caller = true)
    {u : Upload} (hu : s.uploadOf caller = some u) : (s.installed caller u).StoreLegal := by
  obtain ⟨hkept, hsession⟩ := State.uploadOf_eq_some hu
  have hactive := State.isActive_congr (s.installed_sessions caller u)
  have hne : ∀ e, mapFind s.map u.code = some e → e.cell ≠ u.cell :=
    fun e he => h.entry_ne_upload hkept (mapFind_mem he).1
  refine ⟨fun n => ?_, ?_, fun e he i hi => ?_, fun e he hvolatile => ?_, fun p x hx => ?_⟩
  · have huploads := uploadsInto_set (s.installed_uploads caller u) n
    have hentries := countP_mapInsert h.sorted
      { code := u.code, cell := u.cell, holder := some caller, isVolatile := u.isVolatile } fun e => e.cell == n
    rw [← State.installed_map] at hentries
    change (s.installed caller u).entriesOf n + _ = s.entriesOf n + _ at hentries
    rw [hkept] at huploads
    simp only [Option.any_some, Option.any_none, Bool.toNat_false, Nat.add_zero] at huploads
    unfold State.CellLegal
    rw [State.installed_get s caller u n hne, State.refsTo_of_rows s _ (s.installed_rows caller u)]
    dsimp only at hentries
    by_cases hn : u.cell = n
    · have hold : ((mapFind s.map u.code).any fun e => e.cell == n) = false := by
        rw [Option.any_eq_false]
        exact fun e he => beq_false_of_ne fun heq => hne e he (heq.trans hn.symm)
      rw [hold, beq_iff_eq.mpr hn] at hentries
      rw [beq_iff_eq.mpr hn] at huploads
      rw [if_pos hn]
      exact (h.cell n).install huploads.symm hentries
    · rw [beq_false_of_ne hn] at hentries huploads
      rw [if_neg hn, show (s.installed caller u).uploadsInto n = s.uploadsInto n from huploads]
      split
      · rename_i hold
        rw [hold] at hentries
        exact (h.cell n).release hentries.symm
      · rename_i hold
        rw [(Bool.not_eq_true _).mp hold] at hentries
        rw [show (s.installed caller u).entriesOf n = s.entriesOf n from hentries]
        exact h.cell n
  · rw [State.installed_map]
    exact mapInsert_sorted h.sorted _
  · rw [State.installed_map] at he
    rw [hactive]
    rcases mem_mapInsert he with rfl | hin
    · cases hi
      exact hcaller
    · exact h.holder e hin i hi
  · rw [State.installed_map] at he
    rcases mem_mapInsert he with rfl | hin
    · rfl
    · exact h.volatile e hin hvolatile
  · rw [State.installed_uploads, Four.get_set] at hx
    split at hx
    · cases hx
    · rw [hactive]
      exact h.upload p x hx

theorem State.StoreLegal.install {s : State} (h : s.StoreLegal) {caller : Sid} (hcaller : s.isActive caller = true)
    {u : Upload} (hu : s.uploadOf caller = some u) : (s.install caller u).1.StoreLegal := by
  have hinstalled := h.installed hcaller hu
  rw [State.install_eq]
  split
  · exact hinstalled.same (by simp) (by simp) (by simp) (by simp) (by simp)
  · exact hinstalled

theorem State.StoreLegal.delete {s : State} (h : s.StoreLegal) {code : Half} {x : MapEntry}
    (hfind : mapFind s.map code = some x) : ((s.setMap (mapErase s.map code)).releaseCell x.cell).StoreLegal := by
  have hmem : ∀ e ∈ mapErase s.map code, e ∈ s.map := fun e he => (List.mem_filter.mp he).1
  refine ⟨fun n => ?_, mapErase_sorted h.sorted code, fun e he => h.holder e (hmem e he),
    fun e he => h.volatile e (hmem e he), h.upload⟩
  have hentries := countP_mapErase h.sorted code fun e => e.cell == n
  change ((s.setMap (mapErase s.map code)).releaseCell x.cell).entriesOf n + _ = s.entriesOf n at hentries
  rw [hfind, Option.any_some] at hentries
  have hget : ((s.setMap (mapErase s.map code)).releaseCell x.cell).cells.get n =
      if x.cell = n then { s.cells.get n with state := releasedState (s.cells.get n) } else s.cells.get n := by
    unfold State.releaseCell
    rw [State.modCell_cells, Table.get_modify, State.setMap_cells]
  unfold State.CellLegal
  rw [hget]
  by_cases hn : x.cell = n
  · rw [beq_iff_eq.mpr hn] at hentries
    rw [if_pos hn]
    exact (h.cell n).release hentries.symm
  · rw [beq_false_of_ne hn] at hentries
    rw [if_neg hn, show State.entriesOf _ n = s.entriesOf n from hentries]
    exact h.cell n

/-! ### The end of a session (R53) -/

/-- The cells, before the claim table leaves the holdings of session i. -/
theorem State.StoreLegal.beforeLeaving_cell {s : State} (h : s.StoreLegal) (i : Sid) (n : CellNo) :
    (s.beforeLeaving i).CellLegal n := by
  have hrefs : (s.beforeLeaving i).refsTo n = s.refsTo n := by
    have hrows : (s.beforeLeaving i).rows = s.rows.map (Row.endOrigin i) := by unfold State.beforeLeaving; simp
    unfold State.refsTo
    rw [hrows]
    simp only [Table.map, List.map_map, Function.comp_def, Row.endOrigin_refsTo]
  have huploads : (s.beforeLeaving i).uploadsInto n = (s.dropUpload i).uploadsInto n := by
    refine uploadsInto_congr ?_ n
    rw [State.dropUpload_uploads]
    unfold State.beforeLeaving State.endGlyphs
    simp only [State.removeWaits_uploads, State.setMap_uploads, State.releaseVolatile_uploads]
    rw [State.dropUpload_uploads]
    rfl
  have hmap : (s.beforeLeaving i).map = mapEndSession s.map i := by
    unfold State.beforeLeaving State.endGlyphs
    simp
  have hentries := countP_mapEndSession s.map i n
  rw [← hmap] at hentries
  change (s.beforeLeaving i).entriesOf n + _ = s.entriesOf n at hentries
  have hdropped := h.dropUpload_cell i n
  rw [State.dropUpload_get] at hdropped
  unfold State.CellLegal
  rw [State.beforeLeaving_get, hrefs, huploads]
  dsimp only
  by_cases hvolatile : s.map.any (fun e => e.cell == n && e.holder == some i && e.isVolatile) = true
  · have hpos : 0 < s.map.countP fun e => e.cell == n && e.holder == some i && e.isVolatile :=
      List.countP_pos_iff.mpr (List.any_eq_true.mp hvolatile)
    have hone : s.entriesOf n ≤ 1 := by
      have hmapped := (h.cell n).mapped
      split at hmapped <;> omega
    rw [if_pos hvolatile]
    exact hdropped.release (by omega)
  · have hzero : (s.map.countP fun e => e.cell == n && e.holder == some i && e.isVolatile) = 0 :=
      List.countP_eq_zero.mpr fun e he heq => hvolatile (List.any_eq_true.mpr ⟨e, he, heq⟩)
    rw [if_neg hvolatile, show (s.beforeLeaving i).entriesOf n = s.entriesOf n by omega]
    exact hdropped

/-- An entry that is left at the end of a session was there before, and was held by another session or lost its holder
(R53). -/
theorem mem_mapEndSession {m : List MapEntry} {i : Sid} {e : MapEntry} (he : e ∈ mapEndSession m i) :
    ∃ x ∈ m, e.isVolatile = x.isVolatile ∧
      (x.holder = some i ∧ e.holder = none ∧ x.isVolatile = false ∨ x.holder ≠ some i ∧ e.holder = x.holder) := by
  unfold mapEndSession at he
  obtain ⟨x, hx, rfl⟩ := List.mem_map.mp he
  obtain ⟨hin, hkept⟩ := List.mem_filter.mp hx
  refine ⟨x, hin, ?_⟩
  by_cases hheld : x.holder = some i
  · have hvolatile : x.isVolatile = false := by simpa [hheld] using hkept
    simp [hheld, hvolatile]
  · simp [hheld]

theorem State.StoreLegal.endSession {s : State} (h : s.StoreLegal) {p : Port}
    (hp : (s.sessions.get p).active = true) (cause : EndCause) : (s.endSession p cause).StoreLegal := by
  obtain ⟨-, -, -, -, -, hmap, huploads, -⟩ := s.endSession_noticed p cause
  obtain ⟨-, hdiscarded⟩ := State.endNotice_spec (s.modSession p fun r => r.ended cause) (s.sidOf p)
  have hdown : Discarded (s.beforeLeaving (s.sidOf p)) (s.endSession p cause) := by
    refine hdiscarded.of_eq ?_ (by unfold State.beforeLeaving; simp) rfl rfl
    refine Table.ext_get fun n => ?_
    rw [State.beforeLeaving_get, State.beforeLeaving_get]
    rfl
  have hown : s.isActive (s.sidOf p) = true := (s.isActive_iff _).mpr ⟨rfl, hp⟩
  have hactive : ∀ i, i ≠ s.sidOf p → s.isActive i = true → (s.endSession p cause).isActive i = true := fun i hne hi =>
    (State.endSession_isActive s p cause i).mpr ⟨hi, fun hport => hne (State.active_port_inj hi hown hport)⟩
  refine ⟨fun n => ?_, hmap ▸ mapEndSession_sorted h.sorted _, fun e he i hi => ?_, fun e he hvolatile => ?_,
    fun q u hu => ?_⟩
  · obtain ⟨m, hget, hrefs⟩ := hdown n
    have hbefore := h.beforeLeaving_cell (s.sidOf p) n
    have hbeforeMap : (s.beforeLeaving (s.sidOf p)).map = mapEndSession s.map (s.sidOf p) := by
      unfold State.beforeLeaving State.endGlyphs
      simp
    have hbeforeUploads : (s.beforeLeaving (s.sidOf p)).uploads =
        if (s.uploadOf (s.sidOf p)).isSome then s.uploads.set (s.sidOf p).port none else s.uploads := by
      unfold State.beforeLeaving State.endGlyphs
      simp only [State.removeWaits_uploads, State.setMap_uploads, State.releaseVolatile_uploads]
      rw [State.dropUpload_uploads]
      rfl
    unfold State.CellLegal
    rw [hget, entriesOf_congr (hmap.trans hbeforeMap.symm), uploadsInto_congr (huploads.trans hbeforeUploads.symm)]
    exact hbefore.dropRefs hrefs
  · rw [hmap] at he
    obtain ⟨x, hx, -, ⟨-, hnone, -⟩ | ⟨hne, hsame⟩⟩ := mem_mapEndSession he
    · rw [hnone] at hi
      cases hi
    · rw [hsame] at hi
      exact hactive i (fun heq => hne (heq ▸ hi)) (h.holder x hx i hi)
  · rw [hmap] at he
    obtain ⟨x, hx, hkept, ⟨-, -, hstays⟩ | ⟨hne, hsame⟩⟩ := mem_mapEndSession he
    · rw [hkept, hstays] at hvolatile
      cases hvolatile
    · rw [hsame]
      exact h.volatile x hx (hkept ▸ hvolatile)
  · rw [huploads] at hu
    have hq : q ≠ p ∧ s.uploads.get q = some u := by
      cases hupload : s.uploadOf (s.sidOf p) with
      | some x =>
        rw [hupload, Option.isSome_some, if_pos rfl, Four.get_set] at hu
        split at hu
        · cases hu
        · exact ⟨Ne.symm ‹_›, hu⟩
      | none =>
        rw [hupload] at hu
        refine ⟨?_, hu⟩
        rintro rfl
        exact absurd (hu.symm.trans (h.uploads_none hown hupload)) (by simp)
    obtain ⟨hport, hsession⟩ := h.upload q u hq.2
    exact ⟨hport, hactive _ (fun heq => hq.1 (hport.symm.trans (congrArg Sid.port heq))) hsession⟩

theorem State.StoreLegal.openSession {s : State} (h : s.StoreLegal) (p : Port) (term : Byte) (mask : BitVec 6) :
    (s.openSession p term mask).1.StoreLegal := by
  have hvacated : (s.vacated p).StoreLegal := by
    unfold State.vacated
    split
    · exact h.endSession ‹_› .reattach
    · exact h
  refine State.StoreLegal.kept (s := s.vacated p) hvacated ?_ ?_ ?_ ?_ fun i hi => s.openSession_isActive p term mask hi
  · rw [State.openSession_eq]
  · rw [State.openSession_eq]
  · rw [State.openSession_eq]
  · rw [State.openSession_eq]

/-! ### Every step -/

theorem Work.storeLegal {caller : Sid} {s t : State} (w : Work caller s t) (hcaller : s.isActive caller = true)
    (h : s.StoreLegal) : t.StoreLegal := by
  cases w with
  | nothing => exact h
  | detach => exact h.endSession ((s.isActive_iff caller).mp hcaller).2 .detach
  | setMask mask =>
    exact h.kept rfl rfl rfl rfl fun i hi =>
      (State.isActive_modSession (f := fun r => { r with mask := mask }) rfl (fun r => ⟨rfl, rfl⟩) i).trans hi
  | drain n =>
    exact h.kept rfl rfl rfl rfl fun i hi =>
      (State.isActive_modSession (f := fun r => { r with queue := r.queue.drop n, lost := 0#8 }) rfl
        (fun r => ⟨rfl, rfl⟩) i).trans hi
  | take r hfree =>
    exact h.same (by simp [State.takeResource]) (by simp [State.takeResource]) (by simp [State.takeResource])
      (by simp [State.takeResource]) (by simp [State.takeResource])
  | join r holder hheld hne hout hlimit => exact h.same rfl rfl rfl rfl rfl
  | leave r keep hheld =>
    exact h.discarded (s.leaveResource_discarded r caller.port keep) (by simp) (by simp) fun i hi => by simpa using hi
  | cancel r hin => exact h.same rfl rfl rfl rfl rfl
  | edit l f hheld hlegal => exact h.same rfl rfl rfl rfl rfl
  | commit l hheld hsettled => exact (h.exchange hsettled _ _).landIfFree _
  | writeCommon r k e hcommon hsettled hlegal =>
    have hposted := State.StoreLegal.same (t := ((s.exchange r k (.session caller)).broadcast .rowTable
      (some caller.port) e)) (h.exchange hsettled k (.session caller)) (by simp) (by simp) (by simp) (by simp) (by simp)
    exact hposted.landIfFree r
  | openUpload n code advance isVolatile hnone hfree => exact h.openUpload hcaller code advance isVolatile hnone hfree
  | nextFragment u f b hu => exact (h.bitmap u.cell b).nextFragment f hu
  | install u b hu => exact (h.bitmap u.cell b).install hcaller hu
  | dropUpload u b hu => exact (h.bitmap u.cell b).dropUpload caller
  | delete code x e hfind => exact (h.delete hfind).same (by simp) (by simp) (by simp) (by simp) (by simp)
  | stage c k => exact h.same rfl rfl rfl rfl rfl
  | apply c => exact h.drawn (s.applyChannel_discarded caller c) (s.applyChannel_drawsOnly caller c)

/-- After POWER_ON and CRST only cell 0 is in use (R7, R34). -/
theorem storeLegal_of_reset {t : State} (hrows : t.rows = Table.fill 48 { live := Version.empty, held := none })
    (hcells : t.cells = (Table.fill 256 Cell.unused).set 0 Cell.replacement) (hmap : t.map = [])
    (huploads : t.uploads = Four.fill none) : t.StoreLegal := by
  refine ⟨fun n => ?_, by rw [hmap]; rfl, by simp [hmap], by simp [hmap], by simp [huploads]⟩
  have hrefs : t.refsTo n = 0 := by
    unfold State.refsTo
    rw [hrows]
    refine List.sum_eq_zero fun x hx => ?_
    obtain ⟨r, hr, rfl⟩ := List.mem_map.mp hx
    rw [List.eq_of_mem_replicate hr]
    rfl
  have hentries : t.entriesOf n = 0 := by
    unfold State.entriesOf
    rw [hmap]
    rfl
  have hinto : t.uploadsInto n = 0 := by
    unfold State.uploadsInto
    rw [huploads]
    simp
  unfold State.CellLegal
  rw [hrefs, hentries, hinto, hcells, Table.get_set, Table.get_fill]
  split
  · rename_i hn
    subst hn
    constructor <;> simp [Cell.replacement]
  · rename_i hn
    constructor <;> simp [Cell.unused, Ne.symm hn]

theorem Effect.storeLegal {s t : State} (heffect : Effect s t) (h : s.StoreLegal) : t.StoreLegal := by
  cases heffect with
  | nothing => exact h
  | ignored p hreset => exact h.same rfl rfl rfl rfl rfl
  | window p q hreset hclosed hprst => exact h.same rfl rfl rfl rfl rfl
  | command p q t r hreset hclosed hprst hactive hwork =>
    have hkept := State.isActive_renewLease (s.modPort p fun _ => q) p
    have hbefore : ((s.modPort p fun _ => q).renewLease p).StoreLegal :=
      h.kept (by simp) (by simp) (by simp) (by simp) fun i hi => (hkept i).trans hi
    have hcaller : s.isActive (s.sidOf p) = true := (s.isActive_iff _).mpr ⟨rfl, hactive⟩
    exact (hwork.storeLegal ((hkept _).trans hcaller) hbefore).same (by simp) (by simp) (by simp) (by simp) (by simp)
  | attach p q term mask r hreset hclosed hprst hterm =>
    have hq : (s.modPort p fun _ => q).StoreLegal := h.same rfl rfl rfl rfl rfl
    exact (hq.openSession p term mask).same (State.place_cells ..) (State.place_rows ..) (State.place_map ..)
      (State.place_uploads ..) (State.place_sessions ..)
  | frameIgnored p => exact h.same (by simp) (by simp) (by simp) (by simp) (by simp)
  | powerOn csn => exact storeLegal_of_reset rfl rfl rfl rfl
  | crstAsserted ports hports => exact storeLegal_of_reset rfl rfl rfl rfl
  | crstDeasserted csn =>
    exact h.same (foldl_keeps (g := State.cells) (fun t p => by simp [State.seeCsn]) _ _)
      (foldl_keeps (g := State.rows) (fun t p => by simp [State.seeCsn]) _ _)
      (foldl_keeps (g := State.map) (fun t p => by simp [State.seeCsn]) _ _)
      (foldl_keeps (g := State.uploads) (fun t p => by simp [State.seeCsn]) _ _)
      (foldl_keeps (g := State.sessions) (fun t p => by simp [State.seeCsn]) _ _)
  | prstAsserted p w t ht =>
    have hnoted : t.sessions = s.sessions.modify p fun r =>
        { r with causes := r.causes ||| EndCause.portReset.bit } := by
      rw [ht]; rfl
    have hbefore : t.StoreLegal := h.kept (by rw [ht]; rfl) (by rw [ht]; rfl) (by rw [ht]; rfl) (by rw [ht]; rfl)
      fun i hi => (State.isActive_modSession hnoted (fun r => ⟨rfl, rfl⟩) i).trans hi
    split
    · rename_i hactive
      refine hbefore.endSession ?_ .portReset
      rw [hnoted, Four.get_modify_self]
      exact hactive
    · exact hbefore
  | prstDeasserted p csn =>
    exact h.same (by simp [State.seeCsn]) (by simp [State.seeCsn]) (by simp [State.seeCsn]) (by simp [State.seeCsn])
      (by simp [State.seeCsn])
  | inputArrives c => exact h.drawn (s.inputArrives_discarded c) (s.inputArrives_drawsOnly c)
  | lossExpires c => exact h.drawn (s.lossExpires_discarded c) (s.lossExpires_drawsOnly c)
  | freeRunExpires c => exact h.drawn (s.freeRunExpires_discarded c) (s.freeRunExpires_drawsOnly c)
  | leaseLow p e hdue =>
    exact h.kept rfl rfl rfl rfl fun i hi =>
      (State.isActive_modSession (f := fun r => { r with armed := false }) rfl (fun r => ⟨rfl, rfl⟩) i).trans hi
  | leaseExpiry p hdue =>
    refine h.endSession ?_ .lease
    unfold Session.expiryDue at hdue
    exact (Bool.and_eq_true_iff.mp hdue).1
  | filing source p =>
    exact h.kept (by simp) (by simp) (by simp) (by simp) fun i hi => (s.isActive_fileOldest source p i).trans hi

/-- Settles O60: a case split over the effects of a step; cells lose the references that rows lose, and the map and the
uploads change together with the states of the cells they name. -/
theorem stepsKeepTheStoreLegal : Obligations.StepsKeepTheStoreLegal := by
  unfold Obligations.StepsKeepTheStoreLegal
  intro s t hstore hholders hstep
  refine (storeLegal_iff t).mpr (step_keeps (P := State.StoreLegal) (fun _ _ h => h.same rfl rfl rfl rfl rfl)
    (fun _ _ h => h.same rfl rfl rfl rfl rfl)
    (fun s h => h.kept rfl rfl rfl rfl fun i hi => (s.isActive_tick i).trans hi)
    (fun s t heffect h => heffect.storeLegal h) ((storeLegal_iff s).mp ⟨hstore, hholders⟩) hstep)

end Sys2Proof.Machine

/-! SUPPORT. The part after power-on, and the part left to itself (R152, R171, R178). -/
namespace Sys2Proof.Machine

/-- Settles O54: what POWER_ON and CRST leave in the blocks is what the blocks hold in `State.reset`. -/
theorem resetIsLegal : Obligations.ResetIsLegal := by
  unfold Obligations.ResetIsLegal
  obtain ⟨hstore, hholders⟩ := (storeLegal_iff State.reset).mpr (storeLegal_of_reset rfl rfl rfl rfl)
  refine ⟨fun p => ⟨?_, ?_⟩, channelsOk_of_reset rfl rfl, claimsOk_of_reset rfl rfl, rowsOk_of_reset rfl rfl, hstore,
    hholders⟩
  · have hport : State.reset.ports.get p = PortIf.reset := Four.get_fill _ p
    have hreset : State.reset.inReset p = false := by
      unfold State.inReset
      rw [hport]
      rfl
    rw [portOk_iff, hport, hreset]
    exact PortIf.Closed.legal ⟨rfl, rfl, rfl, rfl, rfl⟩ _
  · have hsession : State.reset.sessions.get p = Session.reset := Four.get_fill _ p
    rw [hsession]
    exact ⟨Nat.zero_le 24, fun _ => ⟨rfl, rfl, rfl, rfl, rfl⟩, fun hactive => by cases hactive⟩

/-- Settles O1: by the definition of a step. -/
theorem stepRunsFront : Obligations.StepRunsFront := fun _ _ => rfl

/-! ### Orders the manual leaves open (R178) -/

theorem insertAt_perm {α : Type} (x : α) (i : Nat) (l : List α) : (insertAt x i l).Perm (x :: l) := by
  unfold insertAt
  refine List.perm_middle.trans ?_
  rw [List.take_append_drop]

theorem freeOrder_perm {α : Type} (n : Nat) (l : List α) : (freeOrder n l).Perm l := by
  induction l generalizing n with
  | nil => exact .refl _
  | cons x rest ih =>
    cases rest with
    | nil => exact .refl _
    | cons y rest => exact (insertAt_perm x _ _).trans ((ih (n + 1)).cons x)

/-- The event that is filed is one of those in flight. -/
theorem State.fileSome_mem (s : State) (x : Posted) (rest : List Posted) :
    ∃ y ∈ x :: rest,
      s.fileSome x rest = { s.fileOldest y.source y.addressee.port with freeIndex := s.freeIndex + 1 } := by
  refine ⟨_, ?_, rfl⟩
  split
  · exact List.mem_cons_self
  · have hlt : Config.freeChoice s.freeIndex % (rest.length + 1) < (x :: rest).length := Nat.mod_lt _ (Nat.succ_pos _)
    rw [List.getD_eq_getElem?_getD, List.getElem?_eq_getElem hlt, Option.getD_some]
    exact List.getElem_mem hlt

/-- Settles O2: the free choices pick one of the events in flight, and one order of the steps that are due. -/
theorem emptyQueueFilesOrLetsTimePass : Obligations.EmptyQueueFilesOrLetsTimePass := by
  unfold Obligations.EmptyQueueFilesOrLetsTimePass
  intro s hpending
  have hidle : step s = .next s.idle := by
    unfold step
    rw [hpending]
  rw [hidle]
  constructor
  · intro hposted
    obtain ⟨x, rest, hsplit⟩ := List.exists_cons_of_ne_nil hposted
    obtain ⟨y, hy, hfiled⟩ := s.fileSome_mem x rest
    have hsome : s.idle = s.fileSome x rest := by
      unfold State.idle
      rw [hsplit]
    exact ⟨y, hsplit ▸ hy, congrArg Host.Outcome.next (hsome.trans hfiled)⟩
  · intro hposted
    have htick : s.idle = s.tick := by
      unfold State.idle
      rw [hposted]
    refine ⟨s.tick, congrArg Host.Outcome.next htick, rfl, fun i => ?_⟩
    have hwaiting : s.tick.pending = freeOrder s.freeIndex s.tick.dueSteps := by
      change s.pending ++ _ = _
      rw [hpending, List.nil_append]
      rfl
    rw [hwaiting]
    exact (freeOrder_perm _ _).count_eq i

end Sys2Proof.Machine

/-! SUPPORT. Whole windows: the common checks, bad frames, unknown codes and fetches (R166–R177), and the wire forms
of the commands (R168, R172, R185). -/
namespace Sys2Proof.Machine

/-! ### The checks common to all commands but ATTACH (R133, R134, R173) -/

/-- A command that carries a session id is taken with the payload lengths of its code. -/
theorem execCode_eq_commandFrame {code : Byte} {least greatest : Nat}
    (h : payloadLengths code = some (least, greatest)) (p : Port) (sid : Byte) (payload : List Byte) (s : State) :
    ∃ own, execCode p code sid payload s = .next (s.commandFrame p code sid payload least greatest own) := by
  have hliteral : BitVec.ofNat 8 code.toNat = code := by simp
  unfold payloadLengths at h
  split at h
  case h_24 => cases h
  all_goals
    rename_i hcode
    cases h
    rw [hcode] at hliteral
    subst hliteral
    exact ⟨_, rfl⟩

/-- Settles O9: every command of the table is a command frame with the lengths of its code. -/
theorem commonChecks : Obligations.CommonChecks := by
  unfold Obligations.CommonChecks
  intro s i p code sid payload least greatest hparts hlengths hmax hreset
  obtain ⟨own, hframe⟩ := execCode_eq_commandFrame hlengths p sid payload s
  rw [exec_command hparts, hframe]
  refine ⟨fun hstale => congrArg _ ?_, fun hcheck hlength => congrArg _ ?_⟩
  · exact commandFrame_stale s p code sid payload least greatest own hreset hstale hmax
  · exact commandFrame_length s p code sid payload least greatest own ⟨hreset, hcheck⟩ hmax hlength

/-! ### Bad frames (R169) -/

theorem wrongMarker_iff (bytes : List Byte) :
    wrongMarker bytes = true ↔ ¬(bytes = [] ∨ bytes.head? = some 0x5C#8) := by
  cases bytes with
  | nil => simp [wrongMarker]
  | cons b rest => simp [wrongMarker, commandMarker]

/-- The bytes that the check byte covers, and the check byte, in a frame of the length its length byte says (R168). -/
theorem checked_bytes {bytes : List Byte} {l : Nat} (h : bytes.length = l + 5) :
    (bytes.drop 1).dropLast = (bytes.drop 1).take (l + 3) ∧ bytes.getLastD 0#8 = bytes.getD (l + 4) 0#8 := by
  constructor
  · rw [List.dropLast_eq_take, List.length_drop, h]
    rfl
  · rw [List.getLastD_eq_getLast?, List.getLast?_eq_getElem?, List.getD_eq_getElem?_getD, h]
    rfl

/-- The judgement as the first test that fails (R169). -/
theorem judge_iff (bytes : List Byte) (bits : Nat) (reason : BadReason) :
    judge bytes bits = some reason ↔
      let l := (bytes.getD 3 0#8).toNat
      let marked := bytes = [] ∨ bytes.head? = some 0x5C#8
      (reason = .marker ∧ ¬ marked) ∨
      (reason = .bits ∧ marked ∧ bits ≠ 0) ∨
      (reason = .short ∧ marked ∧ bits = 0 ∧ bytes.length < 4) ∨
      (reason = .length ∧ marked ∧ bits = 0 ∧ 4 ≤ bytes.length ∧ 200 < l) ∨
      (reason = .short ∧ marked ∧ bits = 0 ∧ 4 ≤ bytes.length ∧ l ≤ 200 ∧ bytes.length < l + 5) ∨
      (reason = .long ∧ marked ∧ bits = 0 ∧ 4 ≤ bytes.length ∧ l ≤ 200 ∧ l + 5 < bytes.length) ∨
      (reason = .check ∧ marked ∧ bits = 0 ∧ l ≤ 200 ∧ bytes.length = l + 5 ∧
        crc8 ((bytes.drop 1).take (l + 3)) ≠ bytes.getD (l + 4) 0#8) := by
  dsimp only
  generalize hl : (bytes.getD 3 0#8).toNat = l
  have hmarker := wrongMarker_iff bytes
  generalize (bytes = [] ∨ bytes.head? = some 0x5C#8) = marked at hmarker ⊢
  unfold judge Config.payloadBytes
  rw [hl]
  by_cases hm : marked
  · rw [if_neg fun hw => hmarker.mp hw hm]
    by_cases hb : bits = 0
    · rw [if_neg (not_not.mpr hb)]
      by_cases h4 : bytes.length < 4
      · rw [if_pos h4]
        grind
      · rw [if_neg h4]
        by_cases h200 : l > 200
        · rw [if_pos h200]
          grind
        · rw [if_neg h200]
          by_cases hshort : bytes.length < l + 5
          · rw [if_pos hshort]
            grind
          · rw [if_neg hshort]
            by_cases hlong : bytes.length > l + 5
            · rw [if_pos hlong]
              grind
            · obtain ⟨hcovered, hcheck⟩ := checked_bytes (bytes := bytes) (l := l) (by omega)
              rw [if_neg hlong, hcovered, hcheck]
              grind
    · rw [if_pos hb]
      grind
  · rw [if_pos (hmarker.mpr hm)]
    grind

/-- A window with something in it that is not a fetch is a bad frame when it is judged so. -/
theorem execBadFrame_of_judge {f : RawFrame} {reason : BadReason} (hsome : f.bytes ≠ [] ∨ f.bits ≠ 0)
    (hfetch : f.bytes.head? ≠ some fetchMarker) (hjudge : judge (f.bytes.take Config.bufferBytes) f.bits = some reason)
    (p : Port) (s : State) : execBadFrame p f s = .next (s.badFrame p f) := by
  unfold execBadFrame
  split
  · rename_i hbytes
    rw [if_neg (hsome.resolve_left (not_not.mpr hbytes))]
  · rename_i first rest hbytes
    rw [hbytes] at hfetch
    rw [if_neg fun heq => hfetch (congrArg some heq), hjudge]

/-- Settles O10: the judgement is a chain of tests, and a frame that fails one is closed as a bad frame. -/
theorem badFrameIsAnswered : Obligations.BadFrameIsAnswered := by
  unfold Obligations.BadFrameIsAnswered
  refine ⟨judge_iff, fun s p f reason hreset hsome hfetch hjudge => ?_⟩
  refine (execBadFrame_of_judge hsome hfetch hjudge p s).trans (congrArg _ ?_)
  unfold State.badFrame
  rw [closeFrame_bad s p f _ reason hreset hfetch hjudge]
  unfold State.place
  rw [State.modPort_modPort]
  rfl

/-! ### Codes that name no command (R172) -/

theorem execCode_unknown {code : Byte} (h : codeUnknown code = true) (p : Port) (sid : Byte) (payload : List Byte)
    (s : State) : execCode p code sid payload s = .next (s.unknownFrame p code sid payload) := by
  unfold codeUnknown Instr.ofCode at h
  unfold execCode
  split
  case h_25 => rfl
  all_goals
    rename_i hcode
    rw [hcode] at h
    cases h

/-- Settles O11: an unknown code is answered by the port itself. -/
theorem unknownCommandIsAnswered : Obligations.UnknownCommandIsAnswered := by
  unfold Obligations.UnknownCommandIsAnswered
  intro s p code sid payload hreset hwf
  simp only [Instr.wf, Bool.and_eq_true, decide_eq_true_eq] at hwf
  obtain ⟨hcode, hmax⟩ := hwf
  refine (execCode_unknown hcode p sid payload s).trans (congrArg _ ?_)
  unfold State.unknownFrame
  rw [closeFrame_good s p code sid payload _ hreset hmax]
  unfold State.place State.windowed
  dsimp only
  rw [State.modPort_modPort]
  rfl

/-! ### Fetches (R176, R177) -/

theorem Response.getD_bytes (slot : Option Response) :
    (slot.getD Response.empty).bytes =
      match slot with
      | some r => r.bytes
      | none => [0x1F#8, 0x00#8, 0x00#8, 0xE5#8] := by
  cases slot with
  | some r => rfl
  | none => decide +kernel

/-- Settles O12: the response of an EMPTY slot is four fixed bytes. -/
theorem fetchShiftsTheResponse : Obligations.FetchShiftsTheResponse := by
  unfold Obligations.FetchShiftsTheResponse
  intro s p n hreset
  refine congrArg Host.Outcome.next ((fetchFrame_spec s p n hreset).trans ?_)
  unfold State.modPort
  refine congrArg (fun f => { s with ports := s.ports.modify p f }) (funext fun q => ?_)
  dsimp only
  rw [Response.getD_bytes]
  cases q.slot <;> rfl

/-! ### The wire forms of the commands (R168, R169, R172) -/

/-- The code of a step's row is read back as that step. -/
theorem Instr.ofCode_of_commandParts {i : Instr} {p : Port} {code sid : Byte} {payload : List Byte}
    (hwf : i.wf = true) (h : i.commandParts = some (p, code, sid, payload)) : Instr.ofCode p code sid payload = i := by
  cases i <;> cases h
  case unknownCommand.refl => exact Laws.CodeNames.unknownCommand p code sid payload hwf p code sid payload rfl
  all_goals rfl

/-- A command that a row describes has a payload of at most 200 bytes. -/
theorem Instr.payload_length_le {i : Instr} {p : Port} {code sid : Byte} {payload : List Byte} (hwf : i.wf = true)
    (h : i.commandParts = some (p, code, sid, payload)) : payload.length ≤ Config.payloadBytes := by
  cases i <;> cases h
  case unknownCommand.refl => exact of_decide_eq_true (Bool.and_eq_true_iff.mp hwf).2
  all_goals exact of_decide_eq_true hwf

/-- A good frame is read as the command of its code, its session id and its payload. -/
theorem Instr.ofFrame_wireFrame (p : Port) (code sid : Byte) {payload : List Byte}
    (hmax : payload.length ≤ Config.payloadBytes) :
    Instr.ofFrame p (wireFrame code sid payload) = some (Instr.ofCode p code sid payload) := by
  have hbytes : (wireFrame code sid payload).bytes = commandMarker :: code :: sid :: BitVec.ofNat 8 payload.length ::
      (payload ++ [crc8 (code :: sid :: BitVec.ofNat 8 payload.length :: payload)]) := rfl
  have hmarker : commandMarker ≠ fetchMarker := by decide
  have hjudge : judge ((wireFrame code sid payload).bytes.take Config.bufferBytes) (wireFrame code sid payload).bits =
      none := by
    rw [wireFrame_take code sid payload hmax]
    exact judge_wireFrame code sid payload hmax
  unfold Instr.ofFrame
  rw [hjudge, hbytes]
  dsimp only
  rw [if_neg hmarker, List.dropLast_concat]

/-- Settles O13: a command's frame is good, and holds its code, its session id and its payload. -/
theorem wireRoundTrip : Obligations.WireRoundTrip := by
  unfold Obligations.WireRoundTrip
  intro i p code sid payload hwf hparts
  constructor
  · unfold Instr.frame
    rw [hparts]
  · rw [Instr.ofFrame_wireFrame p code sid (Instr.payload_length_le hwf hparts),
      Instr.ofCode_of_commandParts hwf hparts]

/-- An empty window alone is no step (R167). -/
theorem Instr.ofFrame_eq_none {p : Port} {f : RawFrame} (h : Instr.ofFrame p f = none) :
    f.bytes = [] ∧ f.bits = 0 := by
  unfold Instr.ofFrame at h
  split at h
  · rename_i hbytes
    by_cases hbits : f.bits = 0
    · exact ⟨hbytes, hbits⟩
    · rw [if_neg hbits] at h
      cases h
  · split at h
    · cases h
    · split at h
      · cases h
      · split at h <;> cases h

theorem execBadFrame_of_empty (s : State) (p : Port) {f : RawFrame} (hbytes : f.bytes = []) (hbits : f.bits = 0) :
    execBadFrame p f s = .next s := by
  unfold execBadFrame
  rw [hbytes]
  exact congrArg Host.Outcome.next (if_pos hbits)

/-- Settles O14: the raw form of a window is sorted by the same tests that name its step. -/
theorem windowIsItsStep : Obligations.WindowIsItsStep := by
  unfold Obligations.WindowIsItsStep
  intro s p f
  constructor
  · intro i hi
    unfold Instr.ofFrame at hi
    split at hi
    · split at hi
      · cases hi
      · cases hi
        rfl
    · rename_i first rest hbytes
      split at hi
      · rename_i hfetch
        cases hi
        change execBadFrame p f s = _
        unfold execBadFrame
        rw [hbytes]
        exact if_pos hfetch
      · rename_i hfetch
        split at hi
        · cases hi
          rfl
        · rename_i hjudge
          split at hi
          · cases hi
            rw [exec_ofCode]
            change execBadFrame p f s = _
            unfold execBadFrame
            rw [hjudge, hbytes]
            exact if_neg hfetch
          · cases hi
            rfl
  · intro hnone
    obtain ⟨hbytes, hbits⟩ := Instr.ofFrame_eq_none hnone
    exact execBadFrame_of_empty s p hbytes hbits

end Sys2Proof.Machine

/-! SUPPORT. ATTACH and DETACH, the timers of a lease, and the ends of a session they make (R129–R147, R53). -/
namespace Sys2Proof.Machine

/-! ### ATTACH (R131, R132) -/

/-- A taken ATTACH with its two checks passed opens a session. -/
theorem exec_attach_taken {s : State} {p : Port} {term mask : Byte} (hreset : s.inReset p = false)
    (hterm : term ≠ 0#8) (hmask : mask.toNat < 64) :
    exec (.attach p 0x00#8 [term, mask]) s =
      .next (((s.windowed p 7).openSession p term (mask.setWidth 6)).1.place p
        ((s.windowed p 7).openSession p term (mask.setWidth 6)).2) := by
  have htaken : (s.windowed p 7).takeAttach p 0x00#8 [term, mask] =
      (s.windowed p 7).openSession p term (mask.setWidth 6) := by
    have hlength : ¬[term, mask].length ≠ 2 := not_not.mpr rfl
    have hchecks : ¬((decide (0x00#8 ≠ 0#8) || decide (byteAt [term, mask] 0 = 0#8)) = true) := by
      simpa [byteAt] using hterm
    unfold State.takeAttach
    rw [if_neg hlength, if_neg hchecks, show byteAt [term, mask] 1 = mask from rfl, classes?_of_lt mask hmask]
    rfl
  have hlength : 2 ≤ Config.payloadBytes := by decide
  refine congrArg Host.Outcome.next ((closeFrame_good s p 0x01#8 0x00#8 [term, mask] _ hreset hlength).trans ?_)
  rw [show s.windowed p ([term, mask].length + 5) = s.windowed p 7 from rfl, htaken]

/-- The answer to a taken ATTACH reports the new session, and the end causes with REATTACH where a session ended
(R132, R146). -/
theorem State.openSession_reply (s : State) (p : Port) (term : Byte) (mask : BitVec 6) :
    (s.openSession p term mask).2 =
      okReply [Sid.byte { port := p, epoch := nextEpoch (s.sessions.get p).epoch },
        setByte ((s.vacated p).sessions.get p).causes, Config.revision] := by
  have hepoch : ((s.vacated p).sessions.get p).epoch = (s.sessions.get p).epoch := by
    unfold State.vacated
    split
    · rw [State.endSession_sessions, Four.get_modify_self]
      rfl
    · rfl
  unfold State.openSession
  dsimp only
  change okReply [Sid.byte (State.sidOf ((s.vacated p).modSession p fun r => r.opened term mask) p),
    setByte (((s.vacated p).modSession p fun r => r.opened term mask).sessions.get p).causes, Config.revision] = _
  unfold State.sidOf
  rw [State.modSession_sessions, Four.get_modify_self, ← hepoch]
  rfl

theorem State.vacated_of_none {s : State} {p : Port} (h : (s.sessions.get p).active = false) : s.vacated p = s := by
  unfold State.vacated
  rw [if_neg (by simp [h])]

theorem State.vacated_of_active {s : State} {p : Port} (h : (s.sessions.get p).active = true) :
    s.vacated p = s.endSession p .reattach := if_pos h

/-- Settles O15: nothing ends before the session opens. -/
theorem attachOpensASession : Obligations.AttachOpensASession := by
  unfold Obligations.AttachOpensASession
  intro s p term mask hreset hnone hterm hmask
  have hvacated : (s.windowed p 7).vacated p = s.windowed p 7 := State.vacated_of_none hnone
  rw [exec_attach_taken hreset hterm hmask, State.openSession_eq, State.openSession_reply, hvacated]
  rfl

/-- A response is placed in the port interface alone. -/
theorem State.place_ports_congr {s t : State} (h : t.ports = s.ports) (p : Port) (r : Reply) :
    (t.place p r).ports = (s.place p r).ports := by
  unfold State.place
  rw [State.modPort_ports, State.modPort_ports, h]

/-- The end of a session behind its port's window, with changes of the ports and of the session records around it. -/
theorem EndNoticed.around {s u v t : State} {p : Port} (cause : EndCause) (hv : v = u.endSession p cause)
    (hsid : u.sidOf p = s.sidOf p)
    (hs : s.claims = u.claims ∧ s.waits = u.waits ∧ s.rows = u.rows ∧ s.leased = u.leased ∧ s.posted = u.posted ∧
      s.map = u.map ∧ s.uploads = u.uploads ∧ s.channels = u.channels ∧ s.compositors = u.compositors ∧
      s.crst = u.crst ∧ s.pending = u.pending ∧ s.freeIndex = u.freeIndex ∧ s.cells = u.cells)
    (ht : t.claims = v.claims ∧ t.waits = v.waits ∧ t.rows = v.rows ∧ t.leased = v.leased ∧ t.posted = v.posted ∧
      t.map = v.map ∧ t.uploads = v.uploads ∧ t.channels = v.channels ∧ t.compositors = v.compositors ∧
      t.crst = v.crst ∧ t.pending = v.pending ∧ t.freeIndex = v.freeIndex ∧ t.cells = v.cells) :
    EndNoticed (s.sidOf p) s t := by
  have hnoticed := u.endSession_noticed p cause
  rw [← hv] at hnoticed
  exact hnoticed.congr hsid.symm hs ht

/-- Settles O16: the session that is there ends with REATTACH before the new one opens. -/
theorem attachReplacesASession : Obligations.AttachReplacesASession := by
  unfold Obligations.AttachReplacesASession
  intro s p term mask hreset hactive hterm hmask
  have hvacated : (s.windowed p 7).vacated p = (s.windowed p 7).endSession p .reattach :=
      State.vacated_of_active hactive
  refine ⟨_, exec_attach_taken hreset hterm hmask, ?_, ?_, ?_⟩
  · rw [State.place_sessions, State.openSession_sessions]
    rfl
  · rw [State.place_ports_congr (State.openSession_pinsKept (s.windowed p 7) p term (mask.setWidth 6)).ports,
      State.openSession_reply, hvacated, State.endSession_sessions, Four.get_modify_self]
    rfl
  · generalize ((s.windowed p 7).openSession p term (mask.setWidth 6)).2 = r
    rw [State.openSession_eq, hvacated]
    generalize hv : (s.windowed p 7).endSession p .reattach = v
    exact EndNoticed.around .reattach hv.symm rfl ⟨rfl, rfl, rfl, rfl, rfl, rfl, rfl, rfl, rfl, rfl, rfl, rfl, rfl⟩
      ⟨rfl, rfl, rfl, rfl, rfl, rfl, rfl, rfl, rfl, rfl, rfl, rfl, rfl⟩

/-- Settles O17: each of the three checks refuses without a change. -/
theorem refusedAttachChangesNothing : Obligations.RefusedAttachChangesNothing := by
  unfold Obligations.RefusedAttachChangesNothing
  intro s p sid payload hreset hmax
  have hrefused : ∀ r, (s.windowed p (payload.length + 5)).takeAttach p sid payload =
      (s.windowed p (payload.length + 5), r) → exec (.attach p sid payload) s = .next
          (s.answer p payload.length r) := by
    intro r hr
    refine congrArg Host.Outcome.next ((closeFrame_good s p 0x01#8 sid payload _ hreset hmax).trans ?_)
    rw [hr]
    rfl
  constructor
  · intro hlength
    refine hrefused _ ?_
    unfold State.takeAttach
    rw [if_pos hlength]
    rfl
  · intro hlength hbad
    refine hrefused _ ?_
    unfold State.takeAttach
    rw [if_neg (not_not.mpr hlength)]
    by_cases hchecks : (decide (sid ≠ 0#8) || decide (byteAt payload 0 = 0#8)) = true
    · rw [if_pos hchecks]
      rfl
    · rw [if_neg hchecks]
      have hclass : 64 ≤ (byteAt payload 1).toNat := by
        simp only [Bool.or_eq_true, decide_eq_true_eq, not_or, not_not] at hchecks
        rcases hbad with hsid | hterm | hmask
        · exact absurd hchecks.1 hsid
        · exact absurd hterm hchecks.2
        · exact hmask
      rw [classes?_of_ge _ hclass]
      rfl

/-! ### DETACH and LEASE_EXPIRY (R139–R143) -/

/-- A session that ends is as if its lease had not been renewed. -/
theorem Session.renewed_ended (r : Session) (cause : EndCause) :
    ({ r with remaining := r.fullLease, fraction := 0, armed := true } : Session).ended cause = r.ended cause := rfl

theorem State.renewed_endSession_sessions (s : State) (p : Port) (cause : EndCause) :
    ((s.renewLease p).endSession p cause).sessions = s.sessions.modify p fun r => r.ended cause := by
  rw [State.endSession_sessions]
  exact Four.modify_modify s.sessions p (fun r => { r with remaining := r.fullLease, fraction := 0, armed := true })
    fun r => r.ended cause

/-- A taken DETACH ends the session behind the renewed lease (R141). -/
theorem exec_detach_taken {s : State} {p : Port} {sid : Byte} (hc : Callable s p sid) :
    exec (.detach p sid []) s =
      .next ((((s.windowed p 5).renewLease p).endSession p .detach).place p (okReply [])) := by
  have htaken := commandFrame_taken s p 0x02#8 sid [] 0 0 State.takeDetach hc (Nat.zero_le _) le_rfl le_rfl
  have hown : ∀ t : State, t.takeDetach (s.sidOf p) = (t.endSession p .detach, okReply []) := fun _ => rfl
  rw [hown, show ([] : List Byte).length + 5 = 5 from rfl] at htaken
  dsimp only at htaken
  exact congrArg Host.Outcome.next htaken

/-- Settles O18: the end of the session leaves the port interface alone. -/
theorem detachEndsTheSession : Obligations.DetachEndsTheSession := by
  unfold Obligations.DetachEndsTheSession
  intro s p sid hc
  have hsessions : ((((s.windowed p 5).renewLease p).endSession p .detach).place p (okReply [])).sessions =
      s.sessions.modify p fun r => r.ended .detach := by
    rw [State.place_sessions, State.renewed_endSession_sessions]
    rfl
  refine ⟨_, exec_detach_taken hc, hsessions, ?_, State.attn_eq_false
      (by rw [hsessions, Four.get_modify_self]; rfl), ?_⟩
  · rw [State.place_ports_congr (State.endSession_ports ..)]
    rfl
  · have hsid : ((s.windowed p 5).renewLease p).sidOf p = s.sidOf p := by
      unfold State.sidOf
      rw [State.renewLease_eq, Four.get_modify_self]
      rfl
    generalize hv : ((s.windowed p 5).renewLease p).endSession p .detach = v
    exact EndNoticed.around .detach hv.symm hsid ⟨rfl, rfl, rfl, rfl, rfl, rfl, rfl, rfl, rfl, rfl, rfl, rfl, rfl⟩
      ⟨rfl, rfl, rfl, rfl, rfl, rfl, rfl, rfl, rfl, rfl, rfl, rfl, rfl⟩

theorem Session.expiryDue_iff (r : Session) : r.expiryDue = true ↔ r.active = true ∧ r.remaining = 0 := by
  unfold Session.expiryDue
  rw [Bool.and_eq_true, beq_iff_eq]

theorem exec_leaseExpiry_due {s : State} {p : Port} (hactive : (s.sessions.get p).active = true)
    (hzero : (s.sessions.get p).remaining = 0) : exec (.leaseExpiry p) s = .next (s.endSession p .lease) :=
  congrArg Host.Outcome.next (if_pos ((Session.expiryDue_iff _).mpr ⟨hactive, hzero⟩))

/-- Settles O19: the step ends the session exactly when its lease has run out. -/
theorem leaseExpiryEndsTheSession : Obligations.LeaseExpiryEndsTheSession := by
  unfold Obligations.LeaseExpiryEndsTheSession
  intro s p
  constructor
  · intro hactive hzero
    have hsessions := State.endSession_sessions s p .lease
    exact ⟨_, exec_leaseExpiry_due hactive hzero, hsessions, State.endSession_ports .., State.attn_eq_false
      (by rw [hsessions, Four.get_modify_self]; rfl), s.endSession_noticed p .lease⟩
  · intro hno
    refine congrArg Host.Outcome.next (if_neg fun hdue => ?_)
    obtain ⟨hactive, hzero⟩ := (Session.expiryDue_iff _).mp hdue
    rcases hno with hnone | hleft
    · exact absurd (hactive.symm.trans hnone) (by decide)
    · exact hleft hzero

/-! ### The cells at the end of a session (R39, R53) -/

/-- The state of a cell that is RETIRING exactly while it is counted (R39). -/
def countedState (refs : Nat) : CellState := if refs = 0 then .free else .retiring

/-- A discard leaves a cell that is not RETIRING in its state. -/
theorem Cell.dropRefs_state_of_ne {k : Cell} (h : k.state ≠ .retiring) (m : Nat) : (k.dropRefs m).state = k.state := by
  unfold Cell.dropRefs
  exact if_neg fun hfreed => h hfreed.1

/-- A discard keeps a cell that is RETIRING exactly while it is counted so. -/
theorem Cell.dropRefs_counted {k : Cell} (h : k.state = countedState k.refs) (m : Nat) :
    (k.dropRefs m).state = countedState (k.dropRefs m).refs := by
  unfold Cell.dropRefs countedState at *
  by_cases hzero : k.refs = 0
  · rw [if_pos hzero] at h
    simp [h, hzero]
  · rw [if_neg hzero] at h
    dsimp only
    by_cases hleft : k.refs - m = 0
    · rw [if_pos hleft, if_pos ⟨h, by omega, hleft⟩]
    · rw [if_neg hleft, if_neg fun hfreed => hleft hfreed.2.2, h]

/-- A cell when the claim table begins to leave the holdings of session i, and what discards make of it (R39, R53). -/
theorem State.beforeLeaving_state {s : State} (h : StoreOk s) (i : Sid) (n : CellNo) (m : Nat) :
    (((s.beforeLeaving i).cells.get n).dropRefs m).state =
      if (s.uploadOf i).any (fun u => u.cell == n) then .free
      else if s.map.any (fun e => e.cell == n && e.holder == some i && e.isVolatile) ∨
          (s.cells.get n).state = .retiring then
        countedState (((s.beforeLeaving i).cells.get n).dropRefs m).refs
      else (s.cells.get n).state := by
  have hlegal : s.CellLegal n := ((storeOk_iff s).mp h).1 n
  rw [State.beforeLeaving_get]
  dsimp only
  by_cases hupload : (s.uploadOf i).any (fun u => u.cell == n) = true
  · have hvolatile : ¬(s.map.any (fun e => e.cell == n && e.holder == some i && e.isVolatile)) = true := by
      intro hany
      obtain ⟨e, he, hcell⟩ := List.any_eq_true.mp hany
      rw [Bool.and_assoc, Bool.and_eq_true] at hcell
      obtain ⟨u, hu, hun⟩ := (Option.any_eq_true _ _).mp hupload
      have hentries : 0 < s.entriesOf n := List.countP_pos_iff.mpr ⟨e, he, hcell.1⟩
      have huploads : 0 < s.uploadsInto n :=
        List.countP_pos_iff.mpr ⟨i.port, mem_ascending i.port, by rw [(State.uploadOf_eq_some hu).1]; exact hun⟩
      unfold State.CellLegal at hlegal
      rw [← Nat.succ_pred_eq_of_pos huploads] at hlegal
      obtain ⟨-, -, -, hzero, -⟩ := hlegal.of_upload
      omega
    simp only [if_pos hupload, if_neg hvolatile]
    exact Cell.dropRefs_state_of_ne (by simp) m
  · simp only [if_neg hupload]
    by_cases hvolatile : s.map.any (fun e => e.cell == n && e.holder == some i && e.isVolatile) = true
    · rw [if_pos hvolatile, if_pos (.inl hvolatile)]
      exact Cell.dropRefs_counted rfl m
    · rw [if_neg hvolatile]
      by_cases hretiring : (s.cells.get n).state = .retiring
      · rw [if_pos (.inr hretiring)]
        refine Cell.dropRefs_counted ?_ m
        have hone := hlegal.retiring hretiring
        unfold countedState
        rw [hretiring, if_neg (by omega)]
      · rw [if_neg fun hor => hor.elim hvolatile hretiring]
        exact Cell.dropRefs_state_of_ne hretiring m

/-- Only the rows, the cells, the map and the uploads matter to the glyph store's part of a session's end. -/
theorem State.endSession_cells {s u : State} {p : Port} (h : StoreOk s) (cause : EndCause) (hcells : u.cells = s.cells)
    (hmap : u.map = s.map) (huploads : u.uploads = s.uploads) (hsid : u.sidOf p = s.sidOf p) (n : CellNo) :
    ((u.endSession p cause).cells.get n).state =
      if (s.uploadOf (s.sidOf p)).any (fun u => u.cell == n) then .free
      else if s.map.any (fun e => e.cell == n && e.holder == some (s.sidOf p) && e.isVolatile) ∨
          (s.cells.get n).state = .retiring then
        (if ((u.endSession p cause).cells.get n).refs = 0 then .free else .retiring)
      else (s.cells.get n).state := by
  obtain ⟨-, hdown⟩ := State.endNotice_spec (u.modSession p fun r => r.ended cause) (u.sidOf p)
  obtain ⟨m, hget, -⟩ := hdown n
  have hsame : ((u.modSession p fun r => r.ended cause).beforeLeaving (u.sidOf p)).cells.get n =
      (s.beforeLeaving (s.sidOf p)).cells.get n := by
    rw [State.beforeLeaving_get, State.beforeLeaving_get, hsid,
      State.uploadOf_congr s (u.modSession p fun r => r.ended cause) _ huploads]
    rw [State.modSession_cells, State.modSession_map, hcells, hmap]
  have hend : (u.endSession p cause).cells.get n = ((s.beforeLeaving (s.sidOf p)).cells.get n).dropRefs m := by
    rw [← hsame]
    exact hget
  rw [hend]
  exact State.beforeLeaving_state h _ n m

/-- Settles O20: in each of the four steps the session ends behind changes of the ports and the session records alone.
-/
theorem sessionEndSettlesTheCells : Obligations.SessionEndSettlesTheCells := by
  unfold Obligations.SessionEndSettlesTheCells
  intro s p i hactive hstore hend
  rcases hend with ⟨rfl, hzero⟩ | ⟨sid, rfl, hc⟩ | ⟨term, mask, rfl, hreset, hterm, hmask⟩ | ⟨window, rfl⟩
  · exact ⟨_, exec_leaseExpiry_due hactive hzero, State.endSession_cells (u := s) hstore .lease rfl rfl rfl rfl⟩
  · have hsid : ((s.windowed p 5).renewLease p).sidOf p = s.sidOf p := by
      unfold State.sidOf
      rw [State.renewLease_eq, Four.get_modify_self]
      rfl
    refine ⟨_, exec_detach_taken hc, fun n => ?_⟩
    rw [State.place_cells]
    exact State.endSession_cells (u := (s.windowed p 5).renewLease p) hstore .detach rfl rfl rfl hsid n
  · have hvacated : (s.windowed p 7).vacated p = (s.windowed p 7).endSession p .reattach :=
      State.vacated_of_active hactive
    have hcells : ((s.windowed p 7).openSession p term (mask.setWidth 6)).1.cells =
        ((s.windowed p 7).endSession p .reattach).cells := by
      rw [State.openSession_eq, hvacated]
    refine ⟨_, exec_attach_taken hreset hterm hmask, fun n => ?_⟩
    rw [State.place_cells, hcells]
    exact State.endSession_cells (u := s.windowed p 7) hstore .reattach rfl rfl rfl rfl n
  · have hexec : exec (.prstAsserted p window) s = .next ((s.portReset p window).endSession p .portReset) := by
      rw [exec_prstAsserted, if_pos hactive]
    refine ⟨_, hexec, ?_⟩
    refine State.endSession_cells (u := s.portReset p window) hstore .portReset rfl rfl rfl ?_
    unfold State.sidOf
    rw [State.portReset_sessions, Four.get_modify_self]

/-! ### SET_EVENT_MASK and LEASE_LOW (R136, R138) -/

theorem State.takeSetEventMask_of_lt {s : State} {caller : Sid} {classes : Byte} (h : classes.toNat < 64) :
    s.takeSetEventMask [classes] caller =
      (s.modSession caller.port fun r => { r with mask := classes.setWidth 6 }, okReply [classes]) := by
  unfold State.takeSetEventMask
  rw [show byteAt [classes] 0 = classes from rfl, classes?_of_lt classes h]
  dsimp only
  rw [setByte_setWidth classes h]

theorem State.takeSetEventMask_of_ge {s : State} {caller : Sid} {classes : Byte} (h : 64 ≤ classes.toNat) :
    s.takeSetEventMask [classes] caller = (s, badValue) := by
  unfold State.takeSetEventMask
  rw [show byteAt [classes] 0 = classes from rfl, classes?_of_ge classes h]

/-- A taken SET_EVENT_MASK answers what the session block answers (R171). -/
theorem exec_setEventMask_answer {s t : State} {p : Port} {sid classes : Byte} {r : Reply} (hc : Callable s p sid)
    (h : ((s.renewLease p).windowed p 6).takeSetEventMask [classes] (s.sidOf p) = (t.windowed p 6, r)) :
    exec (.setEventMask p sid [classes]) s = .next (t.answer p 1 r) :=
  have hmax : 1 ≤ Config.payloadBytes := by decide
  congrArg Host.Outcome.next
    (commandFrame_answer s p 0x04#8 sid [classes] 1 1 (State.takeSetEventMask [classes]) hc hmax le_rfl le_rfl t r h)

/-- Settles O22: the case split is on whether the byte is a set of classes. -/
theorem setEventMaskReplacesTheMask : Obligations.SetEventMaskReplacesTheMask := by
  unfold Obligations.SetEventMaskReplacesTheMask
  intro s p sid classes hc
  constructor
  · intro hlt
    refine exec_setEventMask_answer hc ?_
    rw [State.takeSetEventMask_of_lt hlt]
    rfl
  · intro hge
    exact exec_setEventMask_answer hc (State.takeSetEventMask_of_ge hge)

theorem Session.lowDue_iff (r : Session) :
    r.lowDue = true ↔ r.active = true ∧ r.armed = true ∧ r.remaining = 25 * r.term.toNat := by
  unfold Session.lowDue Session.lowMark
  rw [Bool.and_eq_true, Bool.and_eq_true, beq_iff_eq, and_assoc]

/-- Settles O24: the step posts and disarms exactly when LEASE_LOW is due. -/
theorem leaseLowWarnsOnce : Obligations.LeaseLowWarnsOnce := by
  unfold Obligations.LeaseLowWarnsOnce
  intro s p
  constructor
  · intro hactive harmed hremaining
    exact congrArg Host.Outcome.next (if_pos ((Session.lowDue_iff _).mpr ⟨hactive, harmed, hremaining⟩))
  · intro hno
    refine congrArg Host.Outcome.next (if_neg fun hdue => ?_)
    obtain ⟨hactive, harmed, hremaining⟩ := (Session.lowDue_iff _).mp hdue
    rcases hno with hnone | hdisarmed | hother
    · exact absurd (hactive.symm.trans hnone) (by decide)
    · exact absurd (harmed.symm.trans hdisarmed) (by decide)
    · exact hother hremaining

end Sys2Proof.Machine

/-! SUPPORT. The commands on claims: CLAIM and RELEASE (R61–R68). -/
namespace Sys2Proof.Machine

/-! ### CLAIM (R61–R63) -/

theorem resourceRow_of_chan {r : Resource} {c : Chan} (h : resourceChan r = some c) : resourceRow r = none := by
  unfold resourceChan at h
  split at h
  · unfold resourceRow
    exact dif_neg (by omega)
  · cases h

theorem State.claimValue_row {s : State} {r : Resource} {l : LeasedNo} (h : resourceRow r = some l) :
    s.claimValue r = halfBytes (s.rows.get (LeasedNo.row l)).live.generation := by
  unfold State.claimValue
  rw [h]
  rfl

theorem State.claimValue_chan {s : State} {r : Resource} {c : Chan} (h : resourceChan r = some c) :
    s.claimValue r = [0x00#8, (s.channels.get c).state.byte] := by
  unfold State.claimValue
  rw [resourceRow_of_chan h, h]

/-- A resource that is a leased row is granted with a copy of its live version (R23, R62). -/
theorem State.takeResource_row {s : State} {r : Resource} {l : LeasedNo} (h : resourceRow r = some l) (caller : Sid) :
    s.takeResource r caller =
      { s with
        claims := s.claims.modify r fun k => { k with holder := some caller }
        leased := s.leased.set l { edit := editCopy (s.rows.get (LeasedNo.row l)).live, blankPending := false } } := by
  unfold State.takeResource State.grant
  rw [h]
  rfl

theorem State.takeResource_chan {s : State} {r : Resource} {c : Chan} (h : resourceChan r = some c) (caller : Sid) :
    s.takeResource r caller =
      { s with claims := s.claims.modify r fun k => { k with holder := some caller } } := by
  unfold State.takeResource State.grant
  rw [resourceRow_of_chan h]
  rfl

theorem State.takeClaim_of_unheld {s : State} {payload : List Byte} {caller : Sid} {r : Resource}
    (hres : resource? (byteAt payload 0) = some r) (hflag : (byteAt payload 1).toNat < 2)
    (hfree : (s.claims.get r).holder = none) :
    s.takeClaim payload caller = (s.takeResource r caller, okReply (flagByte true :: s.claimValue r)) := by
  unfold State.takeClaim
  rw [hres, flag?_of_lt _ hflag]
  dsimp only
  rw [hfree]

theorem State.takeClaim_of_held {s : State} {payload : List Byte} {caller holder : Sid} {r : Resource} {wait : Bool}
    (hres : resource? (byteAt payload 0) = some r) (hflag : flag? (byteAt payload 1) = some wait)
    (hheld : (s.claims.get r).holder = some holder) :
    s.takeClaim payload caller = s.claimHeld r wait holder caller := by
  unfold State.takeClaim
  rw [hres, hflag]
  dsimp only
  rw [hheld]

theorem State.takeClaim_of_bad {s : State} {payload : List Byte} {caller : Sid}
    (h : resource? (byteAt payload 0) = none ∨ 2 ≤ (byteAt payload 1).toNat) :
    s.takeClaim payload caller = (s, badValue) := by
  unfold State.takeClaim
  rcases h with hres | hflag
  · rw [hres]
  · rw [flag?_of_ge _ hflag]
    cases resource? (byteAt payload 0) <;> rfl

/-- A taken CLAIM answers what the claim table answers (R171). -/
theorem exec_claim_answer {s t : State} {p : Port} {sid id wait : Byte} {r : Reply} (hc : Callable s p sid)
    (h : ((s.renewLease p).windowed p 7).takeClaim [id, wait] (s.sidOf p) = (t.windowed p 7, r)) :
    exec (.claim p sid [id, wait]) s = .next (t.answer p 2 r) :=
  have hmax : 2 ≤ Config.payloadBytes := by decide
  congrArg Host.Outcome.next
    (commandFrame_answer s p 0x10#8 sid [id, wait] 2 2 (State.takeClaim [id, wait]) hc hmax le_rfl le_rfl t r h)

/-- Settles O26: the case split is on what the resource is. -/
theorem claimTakesAnUnheldResource : Obligations.ClaimTakesAnUnheldResource := by
  unfold Obligations.ClaimTakesAnUnheldResource
  intro s p sid id wait r hc hres hwait hfree
  have htaken := State.takeClaim_of_unheld (s := (s.renewLease p).windowed p 7) (payload := [id, wait])
    (caller := s.sidOf p) hres hwait hfree
  constructor
  · intro l hl
    refine exec_claim_answer hc (htaken.trans ?_)
    rw [State.takeResource_row hl, State.claimValue_row hl]
    rfl
  · intro c hchan
    refine exec_claim_answer hc (htaken.trans ?_)
    rw [State.takeResource_chan hchan, State.claimValue_chan hchan]
    rfl

/-- A caller that is not in the list yet takes the last place in it (R58, R63). -/
theorem waitPlace_append {waiters : List Sid} {i : Sid} (h : i ∉ waiters) :
    waitPlace (waiters ++ [i]) i = BitVec.ofNat 8 (waiters.length + 1) := by
  unfold waitPlace
  rw [List.idxOf_append_of_notMem h, List.idxOf_cons_self, Nat.add_zero]

/-- Settles O27: all checks of R61 but the last two answer before the caller joins. -/
theorem claimJoinsTheWaiters : Obligations.ClaimJoinsTheWaiters := by
  unfold Obligations.ClaimJoinsTheWaiters
  intro s p sid id r holder hc hres hheld hother hout hlimit
  refine exec_claim_answer hc ((State.takeClaim_of_held (s := (s.renewLease p).windowed p 7)
    (payload := [id, 0x01#8]) hres rfl hheld).trans ?_)
  have hlist : (((s.renewLease p).windowed p 7).claims.get r).waiters = (s.claims.get r).waiters := rfl
  have hcount : ((s.renewLease p).windowed p 7).waits.get (s.sidOf p).port = s.waits.get p := rfl
  have hbelow : ¬s.waits.get p ≥ Config.waitLimit := Nat.not_le.mpr hlimit
  unfold State.claimHeld
  dsimp only
  rw [if_neg hother, if_neg (by decide), hlist, if_neg hout, hcount, if_neg hbelow, waitPlace_append hout]
  rfl

/-- Settles O28: the case split follows the checks of R61 in their order. -/
theorem claimThatChangesNothing : Obligations.ClaimThatChangesNothing := by
  unfold Obligations.ClaimThatChangesNothing
  intro s p sid id wait hc
  refine ⟨fun hbad => exec_claim_answer hc (State.takeClaim_of_bad hbad), fun r holder hres hwait hheld => ?_⟩
  have hlist : (((s.renewLease p).windowed p 7).claims.get r).waiters = (s.claims.get r).waiters := rfl
  have hcount : ((s.renewLease p).windowed p 7).waits.get (s.sidOf p).port = s.waits.get p := rfl
  have htaken : ∀ flag, flag? wait = some flag → _ := fun flag hflag =>
    State.takeClaim_of_held (s := (s.renewLease p).windowed p 7) (payload := [id, wait]) (caller := s.sidOf p)
        hres hflag
      hheld
  unfold State.claimHeld at htaken
  dsimp only at htaken
  rw [hlist, hcount] at htaken
  refine ⟨fun hown => ?_, fun hother hflag => ?_, fun hother hflag hin => ?_, fun hother hflag hout hlimit => ?_⟩
  · have hanswer := htaken _ (flag?_of_lt wait hwait)
    rw [if_pos hown] at hanswer
    exact exec_claim_answer hc hanswer
  · have hanswer := htaken false (hflag ▸ rfl)
    rw [if_neg hother] at hanswer
    exact exec_claim_answer hc hanswer
  · have hanswer := htaken true (hflag ▸ rfl)
    rw [if_neg hother, if_neg (by decide), if_pos hin] at hanswer
    exact exec_claim_answer hc hanswer
  · have hanswer := htaken true (hflag ▸ rfl)
    have habove : s.waits.get p ≥ Config.waitLimit := hlimit
    rw [if_neg hother, if_neg (by decide), if_neg hout, if_pos habove] at hanswer
    exact exec_claim_answer hc hanswer

/-! ### RELEASE (R65–R67) -/

/-- A taken RELEASE answers what the claim table answers (R171). -/
theorem exec_release_answer {s t : State} {p : Port} {sid id keep : Byte} {r : Reply} (hc : Callable s p sid)
    (h : ((s.renewLease p).windowed p 7).takeRelease [id, keep] (s.sidOf p) = (t.windowed p 7, r)) :
    exec (.release p sid [id, keep]) s = .next (t.answer p 2 r) :=
  have hmax : 2 ≤ Config.payloadBytes := by decide
  congrArg Host.Outcome.next
    (commandFrame_answer s p 0x11#8 sid [id, keep] 2 2 (State.takeRelease [id, keep]) hc hmax le_rfl le_rfl t r h)

theorem State.takeRelease_of_bad {s : State} {payload : List Byte} {caller : Sid}
    (h : resource? (byteAt payload 0) = none ∨ 2 ≤ (byteAt payload 1).toNat) :
    s.takeRelease payload caller = (s, badValue) := by
  unfold State.takeRelease
  rcases h with hres | hflag
  · rw [hres]
  · rw [flag?_of_ge _ hflag]
    cases resource? (byteAt payload 0) <;> rfl

theorem State.takeRelease_of_other {s : State} {payload : List Byte} {caller : Sid} {r : Resource}
    (hres : resource? (byteAt payload 0) = some r) (hflag : (byteAt payload 1).toNat < 2)
    (hother : (s.claims.get r).holder ≠ some caller) : s.takeRelease payload caller = (s, s.notHolder r) := by
  unfold State.takeRelease
  rw [hres, flag?_of_lt _ hflag]
  exact if_neg hother

theorem State.takeRelease_of_holder {s : State} {payload : List Byte} {caller : Sid} {r : Resource} {keep : Bool}
    (hres : resource? (byteAt payload 0) = some r) (hflag : flag? (byteAt payload 1) = some keep)
    (hholder : (s.claims.get r).holder = some caller) :
    s.takeRelease payload caller =
      (s.leaveResource r caller.port keep,
       okReply [portByte ((s.claims.get r).waiters.head?.map Sid.port)]) := by
  unfold State.takeRelease
  rw [hres, hflag]
  dsimp only
  rw [if_pos hholder, State.leaveResource_claims, Table.get_set_self]
  rfl

/-- A resource with waiters goes to the oldest (R66). -/
theorem State.leaveResource_cons {s : State} {r : Resource} {w : Sid} {rest : List Sid}
    (hwaiters : (s.claims.get r).waiters = w :: rest) (p : Port) (keep : Bool) :
    s.leaveResource r p keep =
      { s with
        claims := s.claims.set r { holder := some w, waiters := rest }
        waits := s.waits.modify w.port fun n => n - 1
        leased := match resourceRow r with
          | some l => s.leased.set l
              { edit := editCopy (s.rows.get (LeasedNo.row l)).live, blankPending := false }
          | none => s.leased
        posted := s.posted ++
          [{ source := .claimTable, addressee := .session w, event := grantedEvent r p }] } := by
  unfold State.leaveResource State.grant
  rw [hwaiters]
  cases resourceRow r <;> rfl

/-- A resource without waiters is held by no one (R67). -/
theorem State.modClaim_unheld {s : State} {r : Resource} (h : (s.claims.get r).waiters = []) :
    (s.modClaim r fun x => { x with holder := none }) =
      { s with claims := s.claims.set r { holder := none, waiters := [] } } := by
  have hrecord : ({ s.claims.get r with holder := none } : Claim) = { holder := none, waiters := [] } := by
    dsimp only
    rw [h]
  exact congrArg (fun k => { s with claims := s.claims.set r k }) hrecord

theorem State.leaveResource_kept {s : State} {r : Resource} (hwaiters : (s.claims.get r).waiters = []) (p : Port)
    {keep : Bool} (hkept : resourceRow r = none ∨ keep = true) :
    s.leaveResource r p keep = { s with claims := s.claims.set r { holder := none, waiters := [] } } := by
  unfold State.leaveResource
  rw [hwaiters]
  dsimp only
  rw [State.modClaim_unheld hwaiters]
  rcases hkept with hnone | hkeep
  · rw [hnone]
  · cases resourceRow r with
    | none => rfl
    | some l => exact if_pos hkeep

theorem State.leaveResource_blank {s : State} {r : Resource} {l : LeasedNo} (hwaiters : (s.claims.get r).waiters = [])
    (p : Port) (hrow : resourceRow r = some l) :
    s.leaveResource r p false =
      ({ s with claims := s.claims.set r { holder := none, waiters := [] } } : State).leaveBlank l := by
  unfold State.leaveResource
  rw [hwaiters]
  dsimp only
  rw [State.modClaim_unheld hwaiters, hrow]
  rfl

/-- A SWAPPING row that is left blank waits for its landing (R24). -/
theorem State.leaveBlank_of_swapping {s : State} {l : LeasedNo}
    (h : (s.rows.get (LeasedNo.row l)).held.isSome = true) :
    s.leaveBlank l = { s with leased := s.leased.set l { edit := EditBuffer.empty, blankPending := true } } := by
  unfold State.leaveBlank
  have hswapping : (s.rows.get (LeasedNo.row l)).swapping = true := h
  dsimp only
  rw [if_pos hswapping]
  unfold State.modLeased
  rw [Table.modify_modify]
  rfl

/-- A SETTLED row that is left blank is blanked at once (R24, R25). -/
theorem State.leaveBlank_of_settled {s : State} {l : LeasedNo} (h : (s.rows.get (LeasedNo.row l)).held = none) :
    s.leaveBlank l =
      (s.modLeased l fun x => { x with edit := EditBuffer.empty }).blankCommit (LeasedNo.row l) := by
  unfold State.leaveBlank
  exact if_neg (by simp [Row.swapping, h])

/-- The whole state after a blank commit, but for the cells (R25). -/
theorem State.blankCommit_eq (s : State) (r : RowNo) :
    s.blankCommit r =
      { s with
        rows := s.rows.set r (Row.blanked s.channels (s.rows.get r))
        cells := (s.blankCommit r).cells } :=
  State.eq_of_fields (by simp) (by simp) (by simp) (s.blankCommit_posted r) (by simp) (by simp) (s.blankCommit_rows r)
    (by simp) rfl (by simp) (by simp) (by simp) (by simp) (by simp) (by simp)

theorem State.blankCommit_windowed (s : State) (p : Port) (n : Nat) (r : RowNo) :
    (s.windowed p n).blankCommit r = (s.blankCommit r).windowed p n := State.blankCommit_modPort s p _ r

/-- Settles O29: the case split is on the two checks of R65, on the waiters, and then on the row that is left. -/
theorem releasePassesOnOrLeaves : Obligations.ReleasePassesOnOrLeaves := by
  unfold Obligations.ReleasePassesOnOrLeaves
  intro s p sid id keep hc
  refine ⟨fun hbad => exec_release_answer hc (State.takeRelease_of_bad hbad), fun r hres hkeep => ?_⟩
  refine ⟨fun hother => exec_release_answer hc (State.takeRelease_of_other (payload := [id, keep]) hres hkeep hother),
    fun hholder => ?_⟩
  have hlist : (((s.renewLease p).windowed p 7).claims.get r).waiters = (s.claims.get r).waiters := rfl
  have htaken : ∀ flag, flag? keep = some flag → _ := fun flag hflag =>
    State.takeRelease_of_holder (s := (s.renewLease p).windowed p 7) (payload := [id, keep]) hres hflag hholder
  rw [hlist] at htaken
  refine ⟨fun w rest hwaiters => ?_, fun hwaiters => ⟨fun hkept => ?_, fun l hl hblank hswapping => ?_,
    fun l hl hblank hsettled => ?_⟩⟩
  · have hanswer := htaken _ (flag?_of_lt keep hkeep)
    rw [hwaiters, State.leaveResource_cons (hlist.trans hwaiters)] at hanswer
    exact exec_release_answer hc hanswer
  · have hflag : resourceRow r = none ∨ decide (keep = 0x01#8) = true := hkept.imp_right fun h => decide_eq_true h
    have hanswer := htaken _ (flag?_of_lt keep hkeep)
    rw [hwaiters, State.leaveResource_kept (hlist.trans hwaiters) _ hflag] at hanswer
    exact exec_release_answer hc hanswer
  · have hanswer := htaken false (hblank ▸ rfl)
    have hleft := (State.leaveResource_blank (hlist.trans hwaiters) (s.sidOf p).port hl).trans
      (State.leaveBlank_of_swapping hswapping)
    rw [hwaiters, hleft] at hanswer
    exact exec_release_answer hc hanswer
  · have hanswer := htaken false (hblank ▸ rfl)
    have hleft := (State.leaveResource_blank (hlist.trans hwaiters) (s.sidOf p).port hl).trans
      (State.leaveBlank_of_settled hsettled)
    generalize hbefore : ({ s.renewLease p with
      claims := s.claims.set r { holder := none, waiters := [] }
      leased := s.leased.modify l fun x => { x with edit := EditBuffer.empty } } : State) = before
    have hstate : (({ (s.renewLease p).windowed p 7 with
        claims := s.claims.set r { holder := none, waiters := [] } } : State).modLeased l fun x =>
          { x with edit := EditBuffer.empty }) = before.windowed p 7 := by
      rw [← hbefore]
      rfl
    have hblanked := hleft.trans
      ((congrArg (fun t => t.blankCommit (LeasedNo.row l)) hstate).trans (before.blankCommit_windowed p 7 _))
    rw [hwaiters, hblanked] at hanswer
    have hget := State.blankCommit_get before (LeasedNo.row l)
    have hfields := State.blankCommit_eq before (LeasedNo.row l)
    subst hbefore
    refine ⟨_, exec_release_answer hc hanswer, ?_, GlyphsKept.of_get (s := s) fun n => hget n,
      CountsCommitted.of_get (s := s) fun n => hget n⟩
    rw [hfields]
    rfl

end Sys2Proof.Machine

/-! SUPPORT. The five read commands: what they answer, and that they change nothing (R30, R55, R56, R75, R108, R191). -/
namespace Sys2Proof.Machine

/-! ### A command that only answers -/

/-- A command that a block answers without a change leaves the renewed lease and the answer (R134, R171). -/
theorem commandFrame_read {s : State} {p : Port} {sid : Byte} {pl : List Byte} {r : Reply} (code : Byte) (n : Nat)
    (own : Sid → State → State × Reply) (hc : Callable s p sid) (hl : pl.length ≤ Config.payloadBytes)
    (hlength : pl.length = n)
    (h : own (s.sidOf p) ((s.renewLease p).windowed p (n + 5)) = ((s.renewLease p).windowed p (n + 5), r)) :
    (.next (s.commandFrame p code sid pl n n own) : Host.Outcome State Fault Refusal) =
      .next ((s.renewLease p).answer p n r) := by
  subst hlength
  exact congrArg Host.Outcome.next (commandFrame_answer s p code sid pl _ _ own hc hl le_rfl le_rfl _ r h)

theorem one_le_payloadBytes : 1 ≤ Config.payloadBytes := by decide

theorem exec_readRow_answer {s : State} {p : Port} {sid b : Byte} {r : Reply} (hc : Callable s p sid)
    (h : ((s.renewLease p).windowed p 6).takeReadRow [b] (s.sidOf p) = ((s.renewLease p).windowed p 6, r)) :
    exec (.readRow p sid [b]) s = .next ((s.renewLease p).answer p 1 r) :=
  commandFrame_read 0x24#8 1 (State.takeReadRow [b]) hc one_le_payloadBytes rfl h

theorem exec_readClaim_answer {s : State} {p : Port} {sid b : Byte} {r : Reply} (hc : Callable s p sid)
    (h : ((s.renewLease p).windowed p 6).takeReadClaim [b] (s.sidOf p) = ((s.renewLease p).windowed p 6, r)) :
    exec (.readClaim p sid [b]) s = .next ((s.renewLease p).answer p 1 r) :=
  commandFrame_read 0x13#8 1 (State.takeReadClaim [b]) hc one_le_payloadBytes rfl h

theorem exec_readChannel_answer {s : State} {p : Port} {sid b : Byte} {r : Reply} (hc : Callable s p sid)
    (h : ((s.renewLease p).windowed p 6).takeReadChannel [b] (s.sidOf p) = ((s.renewLease p).windowed p 6, r)) :
    exec (.readChannel p sid [b]) s = .next ((s.renewLease p).answer p 1 r) :=
  commandFrame_read 0x42#8 1 (State.takeReadChannel [b]) hc one_le_payloadBytes rfl h

theorem exec_readGlyph_answer {s : State} {p : Port} {sid : Byte} {code : Half} {r : Reply} (hc : Callable s p sid)
    (h : ((s.renewLease p).windowed p 7).takeReadGlyph (halfBytes code) (s.sidOf p) =
      ((s.renewLease p).windowed p 7, r)) :
    exec (.readGlyph p sid (halfBytes code)) s = .next ((s.renewLease p).answer p 2 r) :=
  have hmax : 2 ≤ Config.payloadBytes := by decide
  commandFrame_read 0x34#8 2 (State.takeReadGlyph (halfBytes code)) hc hmax rfl h

/-! ### READ_ROW (R30) -/

theorem State.takeReadRow_of_none {s : State} {payload : List Byte} {caller : Sid}
    (h : row? (byteAt payload 0) = none) : s.takeReadRow payload caller = (s, badValue) := by
  unfold State.takeReadRow
  rw [h]

/-- What READ_ROW answers for row r (R30, R191). -/
def State.rowReport (s : State) (r : RowNo) : List Byte :=
  let x := s.rows.get r
  [flagByte x.held.isSome,
   match rowLeased r with
   | some l => portByte ((s.claims.get (rowResource l)).holder.map Sid.port)
   | none => 0xFF#8] ++
  halfBytes x.live.generation ++
  [match x.held with
   | some h => ChanSet.byte h.holding
   | none => 0x00#8,
   match rowLeased r with
   | some l => flagByte (s.leased.get l).blankPending
   | none => 0x00#8] ++
  (match x.held with
   | some h => halfBytes h.version.generation
   | none => [0x00#8, 0x00#8]) ++
  BitVec.ofNat 8 x.live.text.length :: x.live.text.flatMap fun q => halfBytes q.code

theorem halfBytes_zero : halfBytes 0x0000#16 = [0x00#8, 0x00#8] := by decide

theorem byte_holding_of_none (v : Version) : ChanSet.byte (Row.holding { live := v, held := none }) = 0x00#8 := by
  have hempty : ChanSet.byte (Four.fill false) = 0x00#8 := by decide
  exact hempty

theorem State.takeReadRow_of_some {s : State} {payload : List Byte} {caller : Sid} {r : RowNo}
    (h : row? (byteAt payload 0) = some r) : s.takeReadRow payload caller = (s, okReply (s.rowReport r)) := by
  unfold State.takeReadRow
  rw [h]
  refine congrArg (fun bytes => (s, okReply bytes)) ?_
  unfold State.rowReport State.rowHolder State.rowMark
  dsimp only
  obtain ⟨live, held⟩ := s.rows.get r
  cases held with
  | none =>
    rw [byte_holding_of_none]
    cases rowLeased r <;> simp only [List.append_assoc, halfBytes_zero] <;> rfl
  | some _ => cases rowLeased r <;> simp only [List.append_assoc] <;> rfl

/-! ### READ_CLAIM (R75) -/

theorem State.takeReadClaim_of_none {s : State} {payload : List Byte} {caller : Sid}
    (h : resource? (byteAt payload 0) = none) : s.takeReadClaim payload caller = (s, badValue) := by
  unfold State.takeReadClaim
  rw [h]

theorem State.takeReadClaim_of_some {s : State} {payload : List Byte} {caller : Sid} {r : Resource}
    (h : resource? (byteAt payload 0) = some r) :
    s.takeReadClaim payload caller =
      (s, okReply [portByte (s.claims.get r).holderPort, BitVec.ofNat 8 (s.claims.get r).waiters.length,
        waiterByte (s.claims.get r).waiters 0, waiterByte (s.claims.get r).waiters 1,
        waiterByte (s.claims.get r).waiters 2, BitVec.ofNat 8 (s.waits.get caller.port)]) := by
  unfold State.takeReadClaim
  rw [h]

/-! ### READ_CHANNEL (R108) -/

theorem State.takeReadChannel_of_none {s : State} {payload : List Byte} {caller : Sid}
    (h : chan? (byteAt payload 0) = none) : s.takeReadChannel payload caller = (s, badValue) := by
  unfold State.takeReadChannel
  rw [h]

theorem State.takeReadChannel_of_some {s : State} {payload : List Byte} {caller : Sid} {c : Chan}
    (h : chan? (byteAt payload 0) = some c) :
    s.takeReadChannel payload caller = (s, okReply (s.channels.get c).report) := by
  unfold State.takeReadChannel
  rw [h]

theorem Channel.report_eq (k : Channel) :
    k.report =
      [k.state.byte, flagByte k.overbooked, BitVec.ofNat 8 k.dropped, flagByte k.pending.isSome,
       match k.pending with
       | some x => portByte (x.applier.map Sid.port)
       | none => 0xFF#8] ++ k.active.bytes ++ k.staged.bytes ++
      (match k.pending with
       | some x => x.config.bytes
       | none => List.replicate 15 0x00#8) := by
  unfold Channel.report
  cases k.pending <;> rfl

/-! ### READ_GLYPH and READ_STORE (R55, R56) -/

theorem halfAt_code (code : Half) : halfAt (halfBytes code) 0 = code := halfAt_halfBytes code []

theorem State.takeReadGlyph_of_invalid {s : State} {code : Half} {caller : Sid}
    (h : code = 0x0000#16 ∨ code = 0xFFFF#16) : s.takeReadGlyph (halfBytes code) caller = (s, badValue) := by
  have hinvalid : codeValid code = false := by
    unfold codeValid
    rcases h with rfl | rfl <;> decide
  unfold State.takeReadGlyph
  rw [halfAt_code]
  dsimp only
  rw [hinvalid]
  rfl

theorem State.takeReadGlyph_of_valid {s : State} {code : Half} {caller : Sid} (h0 : code ≠ 0x0000#16)
    (hf : code ≠ 0xFFFF#16) :
    s.takeReadGlyph (halfBytes code) caller =
      (s, okReply (match mapFind s.map code with
        | some e => s.glyphReport code true e.cell (e.holder.map Sid.port) e.isVolatile
        | none => s.glyphReport code false 0 none false)) := by
  have hvalid : codeValid code = true := by
    unfold codeValid
    rw [Bool.and_eq_true, bne_iff_ne, bne_iff_ne]
    exact ⟨h0, hf⟩
  unfold State.takeReadGlyph
  rw [halfAt_code]
  dsimp only
  rw [hvalid]
  cases mapFind s.map code <;> rfl

theorem State.cellCount_eq (s : State) (x : CellState) :
    s.cellCount x = (ascending 256).countP fun n => (s.cells.get n).state == x := by
  unfold State.cellCount
  rw [Table.cells_eq, List.countP_map]
  rfl

/-- Settles O31: each read answers from the blocks that the window and the renewed lease leave as they were. -/
theorem readsReportAndChangeNothing : Obligations.ReadsReportAndChangeNothing := by
  unfold Obligations.ReadsReportAndChangeNothing
  intro s p sid hc
  refine ⟨fun b => ⟨fun hrow => ?_, fun hres => ?_, fun hchan => ?_⟩, fun code hinvalid => ?_, fun b r hrow => ?_,
    fun code h0 hf => ?_, ?_, fun id r hres => ?_, fun b c hchan => ?_⟩
  · exact exec_readRow_answer hc (State.takeReadRow_of_none hrow)
  · exact exec_readClaim_answer hc (State.takeReadClaim_of_none hres)
  · exact exec_readChannel_answer hc (State.takeReadChannel_of_none hchan)
  · exact exec_readGlyph_answer hc (State.takeReadGlyph_of_invalid hinvalid)
  · exact exec_readRow_answer hc (State.takeReadRow_of_some hrow)
  · refine exec_readGlyph_answer hc ((State.takeReadGlyph_of_valid h0 hf).trans ?_)
    refine congrArg (fun bytes => ((s.renewLease p).windowed p 7, okReply bytes)) ?_
    change (match mapFind s.map code with
      | some e => s.glyphReport code true e.cell (e.holder.map Sid.port) e.isVolatile
      | none => s.glyphReport code false 0 none false) = _
    unfold mapFind
    cases s.map.find? fun e => e.code == code <;> rfl
  · refine commandFrame_read 0x35#8 0 _ hc (Nat.zero_le _) rfl ?_
    refine congrArg (fun counts : List Nat => ((s.renewLease p).windowed p 5,
      okReply (counts.flatMap fun n => halfBytes (BitVec.ofNat 16 n)))) ?_
    unfold State.storeCounts
    simp only [State.cellCount_eq]
    rfl
  · exact exec_readClaim_answer hc (State.takeReadClaim_of_some hres)
  · refine exec_readChannel_answer hc ((State.takeReadChannel_of_some (payload := [b]) hchan).trans ?_)
    rw [Channel.report_eq]
    rfl

end Sys2Proof.Machine

/-! SUPPORT. The edit buffer: EDIT_TEXT and SET_PLACEMENTS on a row that their caller holds (R8, R9, R11, R12, R189). -/
namespace Sys2Proof.Machine

/-! ### Texts and runs (R9, R186) -/

theorem all_codeValid_iff (codes : List Half) :
    codes.all codeValid = true ↔ ∀ c ∈ codes, c ≠ 0x0000#16 ∧ c ≠ 0xFFFF#16 := by
  simp [List.all_eq_true, codeValid]

theorem all_codeValid_of_bad {codes : List Half} (h : ∃ c ∈ codes, c = 0x0000#16 ∨ c = 0xFFFF#16) :
    codes.all codeValid = false := by
  obtain ⟨c, hc, hbad⟩ := h
  refine Bool.eq_false_iff.mpr fun hall => ?_
  obtain ⟨hzero, hlast⟩ := (all_codeValid_iff codes).mp hall c hc
  exact hbad.elim hzero hlast

theorem writeRun_length {text : List Half} {start : Nat} (codes : List Half) (truncate : Bool)
    (h : start ≤ text.length) :
    (writeRun text start codes truncate).length =
      if truncate then start + codes.length else max text.length (start + codes.length) := by
  unfold writeRun
  cases truncate
  · simp; omega
  · simp; omega

/-- A written run stands from its start on; before it, and after it where it is not cut off, the text is as it was. -/
theorem writeRun_get {text : List Half} {start i : Nat} {codes : List Half} {truncate : Bool}
    (h : start ≤ text.length) (hi : i < (writeRun text start codes truncate).length) :
    (writeRun text start codes truncate)[i]? =
      if i < start ∨ start + codes.length ≤ i then text[i]? else codes[i - start]? := by
  have htake : (text.take start).length = start := List.length_take_of_le h
  rw [writeRun_length codes truncate h] at hi
  unfold writeRun
  by_cases hbefore : i < start
  · refine Eq.trans ?_ (if_pos (.inl hbefore)).symm
    rw [List.append_assoc, List.getElem?_append_left (by omega), List.getElem?_take_of_lt hbefore]
  by_cases hafter : start + codes.length ≤ i
  · refine Eq.trans ?_ (if_pos (.inr hafter)).symm
    rw [List.getElem?_append_right (by simp [htake]; omega)]
    cases truncate with
    | true => simp only [↓reduceIte] at hi; omega
    | false =>
      simp only [Bool.false_eq_true, ↓reduceIte, List.getElem?_drop, List.length_append, htake]
      exact congrArg (text[·]?) (by omega)
  · refine Eq.trans ?_ (if_neg (by omega)).symm
    rw [List.getElem?_append_left (by simp [htake]; omega), List.getElem?_append_right (by omega), htake]

/-! ### EDIT_TEXT -/

/-- The payload of an EDIT_TEXT (R189). -/
def editTextPayload (row start truncate m : Byte) (codes : List Half) : List Byte :=
  [row, start, truncate, m] ++ codes.flatMap halfBytes

theorem editTextPayload_length (row start truncate m : Byte) (codes : List Half) :
    (editTextPayload row start truncate m codes).length = 4 + 2 * codes.length := by
  unfold editTextPayload
  rw [List.length_append, flatMap_halfBytes_length]
  rfl

theorem editTextPayload_codes (row start truncate m : Byte) (codes : List Half) :
    codesOf ((editTextPayload row start truncate m codes).drop 4) = codes := codesOf_flatMap codes

/-- The checks of an EDIT_TEXT whose flag is read, on a payload that holds `codes` (R9). -/
def editTextRefuses (text : List Half) (start m : Nat) (codes : List Half) : Bool :=
  decide (start > text.length) || decide (m > 40) || decide (4 + 2 * codes.length ≠ 4 + 2 * m) ||
    !(codes.all codeValid) || decide (start + m > 40)

section
variable {s : State} {row start truncate m : Byte} {codes : List Half} {l : LeasedNo}

theorem State.editText_of_run (hstart : start.toNat ≤ (s.leased.get l).edit.text.length)
    (hm : m.toNat = codes.length) (hfits : start.toNat + codes.length ≤ 40) (hflag : truncate.toNat < 2)
    (hcodes : ∀ c ∈ codes, c ≠ 0x0000#16 ∧ c ≠ 0xFFFF#16) :
    let new := writeRun (s.leased.get l).edit.text start.toNat codes (decide (truncate = 0x01#8))
    s.editText (editTextPayload row start truncate m codes) l =
      (s.modEdit l fun b => { b with text := new }, okReply [BitVec.ofNat 8 new.length]) := by
  have hread : flag? (byteAt (editTextPayload row start truncate m codes) 2) = some (decide (truncate = 0x01#8)) :=
    flag?_of_lt truncate hflag
  have hbyte1 : byteAt (editTextPayload row start truncate m codes) 1 = start := rfl
  have hbyte3 : byteAt (editTextPayload row start truncate m codes) 3 = m := rfl
  have hchecks : editTextRefuses (s.leased.get l).edit.text start.toNat m.toNat codes = false := by
    unfold editTextRefuses
    simp only [Bool.or_eq_false_iff, decide_eq_false_iff_not, Bool.not_eq_false', (all_codeValid_iff codes).mpr hcodes,
      and_true]
    omega
  unfold State.editText
  rw [hread]
  dsimp only
  rw [editTextPayload_codes, editTextPayload_length, hbyte1, hbyte3]
  unfold editTextRefuses at hchecks
  rw [hchecks]
  rfl

theorem State.editText_of_bad
    (h : (s.leased.get l).edit.text.length < start.toNat ∨ m.toNat ≠ codes.length ∨ 40 < start.toNat + codes.length ∨
      2 ≤ truncate.toNat ∨ ∃ c ∈ codes, c = 0x0000#16 ∨ c = 0xFFFF#16) :
    s.editText (editTextPayload row start truncate m codes) l = (s, badValue) := by
  have hbyte1 : byteAt (editTextPayload row start truncate m codes) 1 = start := rfl
  have hbyte2 : byteAt (editTextPayload row start truncate m codes) 2 = truncate := rfl
  have hbyte3 : byteAt (editTextPayload row start truncate m codes) 3 = m := rfl
  unfold State.editText
  rw [hbyte2]
  by_cases hflag : 2 ≤ truncate.toNat
  · rw [flag?_of_ge truncate hflag]
  have hchecks : editTextRefuses (s.leased.get l).edit.text start.toNat m.toNat codes = true := by
    unfold editTextRefuses
    simp only [Bool.or_eq_true, decide_eq_true_eq, Bool.not_eq_true']
    rcases h with h | h | h | h | h
    · omega
    · omega
    · omega
    · exact absurd h hflag
    · exact .inl (.inr (all_codeValid_of_bad h))
  rw [flag?_of_lt truncate (by omega)]
  dsimp only
  rw [editTextPayload_codes, editTextPayload_length, hbyte1, hbyte3]
  unfold editTextRefuses at hchecks
  rw [hchecks]
  rfl

theorem exec_editText_heldRow {t : State} {p : Port} {sid : Byte} {r : Reply} (hc : Callable s p sid)
    (hlen : codes.length ≤ 40) (hrow : leasedRow? row = some l)
    (hholder : (s.claims.get (rowResource l)).holder = some (s.sidOf p))
    (h : ((s.renewLease p).windowed p ((editTextPayload row start truncate m codes).length + 5)).editText
        (editTextPayload row start truncate m codes) l =
      (t.windowed p ((editTextPayload row start truncate m codes).length + 5), r)) :
    exec (.editText p sid (editTextPayload row start truncate m codes)) s =
      .next (t.answer p (editTextPayload row start truncate m codes).length r) := by
  have hlength := editTextPayload_length row start truncate m codes
  have hmax : (editTextPayload row start truncate m codes).length ≤ Config.payloadBytes :=
    (by omega : _ ≤ 200).trans (by decide)
  exact congrArg Host.Outcome.next
    (commandFrame_heldRow 0x20#8 4 84 (fun _ u => u.editText (editTextPayload row start truncate m codes)) hc hmax
      (by omega) (by omega) hrow hholder h)

end

/-- Settles O32: the new text is the run written into the old one, and every check that fails is one of the five. -/
theorem editTextWritesARun : Obligations.EditTextWritesARun := by
  unfold Obligations.EditTextWritesARun
  intro s p sid row start m truncate codes l hc hrow hholder hlen
  constructor
  · rintro ⟨hstart, hm, hfits, hflag, hcodes⟩
    refine ⟨writeRun (s.leased.get l).edit.text start.toNat codes (decide (truncate = 0x01#8)), ?_, ?_, ?_⟩
    · exact exec_editText_heldRow hc hlen hrow hholder
        (State.editText_of_run (s := (s.renewLease p).windowed p _) hstart hm hfits hflag hcodes)
    · simpa only [decide_eq_true_eq] using writeRun_length codes (decide (truncate = 0x01#8)) hstart
    · exact fun i hi => writeRun_get hstart hi
  · exact fun hbad => exec_editText_heldRow hc hlen hrow hholder
      (State.editText_of_bad (s := (s.renewLease p).windowed p _) hbad)

/-! ### SET_PLACEMENTS -/

section
variable {s : State} {payload : List Byte} {l : LeasedNo}

theorem State.setPlacements_of_some {list : List Placement}
    (h : placements? (byteAt payload 1).toNat (payload.drop 2) = some list)
    (hlen : payload.length = 2 + 7 * (byteAt payload 1).toNat) :
    s.setPlacements payload l =
      (s.modEdit l fun b => { b with placements := list }, okReply [BitVec.ofNat 8 list.length]) := by
  unfold State.setPlacements
  dsimp only
  rw [h]
  exact if_neg (not_not_intro hlen)

theorem State.setPlacements_of_bad
    (h : placements? (byteAt payload 1).toNat (payload.drop 2) = none ∨
      payload.length ≠ 2 + 7 * (byteAt payload 1).toNat) : s.setPlacements payload l = (s, badValue) := by
  unfold State.setPlacements
  dsimp only
  split
  · next heq => exact if_pos (h.resolve_left (by rw [heq]; simp))
  · rfl

theorem placements?_of_gt {n : Nat} (bs : List Byte) (h : 4 < n) : placements? n bs = none := by
  unfold placements?
  exact if_neg (by omega)

theorem exec_setPlacements_heldRow {t : State} {p : Port} {sid : Byte} {n : Nat} {r : Reply} (hc : Callable s p sid)
    (hn : payload.length = n) (hlo : 2 ≤ n) (hhi : n ≤ 30) (hrow : leasedRow? (byteAt payload 0) = some l)
    (hholder : (s.claims.get (rowResource l)).holder = some (s.sidOf p))
    (h : ((s.renewLease p).windowed p (n + 5)).setPlacements payload l = (t.windowed p (n + 5), r)) :
    exec (.setPlacements p sid payload) s = .next (t.answer p n r) := by
  subst hn
  have hmax : payload.length ≤ Config.payloadBytes := hhi.trans (by decide)
  exact congrArg Host.Outcome.next
    (commandFrame_heldRow 0x22#8 2 30 (fun _ u => u.setPlacements payload) hc hmax hlo hhi hrow hholder h)

end

/-- Settles O34: a list of placements reads back from its records unless two name one channel, and the other payloads
fail on the count, on the length or on a record. -/
theorem setPlacementsReplacesTheList : Obligations.SetPlacementsReplacesTheList := by
  unfold Obligations.SetPlacementsReplacesTheList
  intro s p sid row l hc hrow hholder
  refine ⟨fun list hfour hoffsets => ?_, fun n records hlen hbad => ?_⟩
  · have hcount : (BitVec.ofNat 8 list.length).toNat = list.length := byte_toNat (by omega)
    have hlength : ([row, BitVec.ofNat 8 list.length] ++ list.flatMap placementBytes).length = 2 + 7 * list.length := by
      rw [List.length_append, flatMap_placementBytes_length]
      rfl
    have hread := placements?_bytes list [] hfour hoffsets
    rw [List.append_nil] at hread
    have hlist : placements? (BitVec.ofNat 8 list.length).toNat (list.flatMap placementBytes) =
        if (list.map Placement.chan).Nodup then some list else none := by rw [hcount, hread]
    refine ⟨fun hdistinct => ?_, fun htwice => ?_⟩
    · exact exec_setPlacements_heldRow hc rfl (by omega) (by omega) hrow hholder
        (State.setPlacements_of_some (hlist.trans (if_pos hdistinct))
            (hlength.trans (congrArg (2 + 7 * ·) hcount.symm)))
    · exact exec_setPlacements_heldRow hc rfl (by omega) (by omega) hrow hholder
        (State.setPlacements_of_bad (.inl (hlist.trans (if_neg htwice))))
  · refine exec_setPlacements_heldRow hc rfl (by omega) (by omega) hrow hholder (State.setPlacements_of_bad ?_)
    rcases hbad with hfour | hlength | ⟨i, hi, hspells⟩
    · exact .inl (placements?_of_gt records hfour)
    · refine .inr fun heq => hlength ?_
      have hsum : records.length + 2 = 2 + 7 * n.toNat := heq
      omega
    · exact .inl (placements?_none hi hspells)

end Sys2Proof.Machine

/-! SUPPORT. Who may change a row or a channel (R8, R57, R100, R101, R190). -/
namespace Sys2Proof.Machine

/-! ### The checks that the commands on a row and on a channel share -/

section
variable {s : State} {payload : List Byte} {caller : Sid}

theorem State.withHeldRow_of_none (act : LeasedNo → State × Reply) (h : leasedRow? (byteAt payload 0) = none) :
    s.withHeldRow payload caller act = (s, badValue) := by
  unfold State.withHeldRow
  rw [h]

theorem State.withHeldRow_of_other {l : LeasedNo} (act : LeasedNo → State × Reply)
    (h : leasedRow? (byteAt payload 0) = some l) (hother : (s.claims.get (rowResource l)).holder ≠ some caller) :
    s.withHeldRow payload caller act = (s, { status := .notHolder, payload := [] }) := by
  unfold State.withHeldRow
  rw [h]
  exact if_neg hother

theorem State.withHeldChannel_of_none (act : Chan → State × Reply) (h : chan? (byteAt payload 0) = none) :
    s.withHeldChannel payload caller act = (s, badValue) := by
  unfold State.withHeldChannel
  rw [h]

theorem State.withHeldChannel_of_other {c : Chan} (act : Chan → State × Reply) (h : chan? (byteAt payload 0) = some c)
    (hother : (s.claims.get (chanResource c)).holder ≠ some caller) :
    s.withHeldChannel payload caller act = (s, s.notHolder (chanResource c)) := by
  unfold State.withHeldChannel
  rw [h]
  exact if_neg hother

theorem State.withHeldChannel_holder {c : Chan} (act : Chan → State × Reply) (h : chan? (byteAt payload 0) = some c)
    (hholder : (s.claims.get (chanResource c)).holder = some caller) :
    s.withHeldChannel payload caller act = act c := by
  unfold State.withHeldChannel
  rw [h]
  exact if_pos hholder

end

/-! ### Refusals that change nothing -/

/-- A command with an accepted payload length that its owning block refuses leaves the renewed lease and the answer. -/
theorem commandFrame_refused {s : State} {p : Port} {sid : Byte} {pl : List Byte} {r : Reply} (code : Byte)
    {lo hi : Nat} (own : Sid → State → State × Reply) (hc : Callable s p sid) (hl : pl.length ≤ Config.payloadBytes)
    (hlo : lo ≤ pl.length) (hhi : pl.length ≤ hi) (h : ∀ u : State, u.claims = s.claims → own (s.sidOf p) u = (u, r)) :
    (.next (s.commandFrame p code sid pl lo hi own) : Host.Outcome State Fault Refusal) =
      .next ((s.renewLease p).answer p pl.length r) :=
  congrArg Host.Outcome.next (commandFrame_answer s p code sid pl lo hi own hc hl hlo hhi _ r (h _ rfl))

theorem le_payloadBytes_of_le {n m : Nat} (h : n ≤ m) (hm : m ≤ 200) : n ≤ Config.payloadBytes :=
  (h.trans hm).trans (by decide)

/-- What the shared check on the row refuses, each of the four commands on a leased row refuses (R8). -/
theorem rowCommands_refused {s : State} {p : Port} {sid b : Byte} {rest : List Byte} {r : Reply}
    (hc : Callable s p sid)
    (h : ∀ (u : State) (act : LeasedNo → State × Reply), u.claims = s.claims →
      u.withHeldRow (b :: rest) (s.sidOf p) act = (u, r)) :
    let n := rest.length + 1
    (4 ≤ n → n ≤ 84 → exec (.editText p sid (b :: rest)) s = .next ((s.renewLease p).answer p n r)) ∧
      (n = 13 → exec (.setStyle p sid (b :: rest)) s = .next ((s.renewLease p).answer p n r)) ∧
      (2 ≤ n → n ≤ 30 → exec (.setPlacements p sid (b :: rest)) s = .next ((s.renewLease p).answer p n r)) ∧
      (n = 1 → exec (.commit p sid (b :: rest)) s = .next ((s.renewLease p).answer p n r)) := by
  refine ⟨fun hlo hhi => ?_, fun hn => ?_, fun hlo hhi => ?_, fun hn => ?_⟩
  · exact commandFrame_refused 0x20#8 (fun caller u => u.withHeldRow (b :: rest) caller (u.editText (b :: rest))) hc
      (le_payloadBytes_of_le hhi (by omega)) hlo hhi fun u hu => h u _ hu
  · exact commandFrame_refused 0x21#8 (fun caller u => u.withHeldRow (b :: rest) caller (u.setStyle (b :: rest))) hc
      (le_payloadBytes_of_le hn.le (by omega)) hn.ge hn.le fun u hu => h u _ hu
  · exact commandFrame_refused 0x22#8 (fun caller u => u.withHeldRow (b :: rest) caller (u.setPlacements (b :: rest)))
      hc (le_payloadBytes_of_le hhi (by omega)) hlo hhi fun u hu => h u _ hu
  · exact commandFrame_refused 0x23#8 (fun caller u => u.withHeldRow (b :: rest) caller (u.commitRow caller)) hc
      (le_payloadBytes_of_le hn.le (by omega)) hn.ge hn.le fun u hu => h u _ hu

/-- What the shared check on the channel refuses, CHANNEL_SET and CHANNEL_APPLY refuse (R100, R101). -/
theorem channelCommands_refused {s : State} {p : Port} {sid b : Byte} {rest : List Byte} {r : Reply}
    (hc : Callable s p sid)
    (h : ∀ (u : State) (act : Chan → State × Reply), u.claims = s.claims →
      u.withHeldChannel (b :: rest) (s.sidOf p) act = (u, r)) :
    let n := rest.length + 1
    (3 ≤ n → n ≤ 18 → exec (.channelSet p sid (b :: rest)) s = .next ((s.renewLease p).answer p n r)) ∧
      (n = 1 → exec (.channelApply p sid (b :: rest)) s = .next ((s.renewLease p).answer p n r)) := by
  refine ⟨fun hlo hhi => ?_, fun hn => ?_⟩
  · exact commandFrame_refused 0x40#8 (fun caller u => u.withHeldChannel (b :: rest) caller (u.stageFields (b :: rest)))
      hc (le_payloadBytes_of_le hhi (by omega)) hlo hhi fun u hu => h u _ hu
  · exact commandFrame_refused 0x41#8 (fun caller u => u.withHeldChannel (b :: rest) caller (u.applyChannel caller)) hc
      (le_payloadBytes_of_le hn.le (by omega)) hn.ge hn.le fun u hu => h u _ hu

/-- Settles O35: the number is checked first, then the holder, by one check for the rows and one for the channels. -/
theorem onlyTheHolderChanges : Obligations.OnlyTheHolderChanges := by
  unfold Obligations.OnlyTheHolderChanges
  intro s p sid b rest hc
  refine ⟨fun hrow => rowCommands_refused hc ?_, fun l hrow hother => rowCommands_refused hc ?_,
    fun hchan => channelCommands_refused hc ?_, fun c hchan hother => channelCommands_refused hc ?_⟩
  · exact fun u act _ => State.withHeldRow_of_none act hrow
  · exact fun u act hu => State.withHeldRow_of_other act hrow (hu ▸ hother)
  · exact fun u act _ => State.withHeldChannel_of_none act hchan
  · intro u act hu
    rw [State.withHeldChannel_of_other (payload := b :: rest) act hchan (hu ▸ hother)]
    unfold State.notHolder Claim.holderPort
    rw [hu]

end Sys2Proof.Machine

/-! SUPPORT. Commits: the exchange of versions, what lands at once, and the answer (R13–R17, R21). -/
namespace Sys2Proof.Machine

/-! ### The state after a commit -/

theorem Callable.isActive {s : State} {p : Port} {sid : Byte} (h : Callable s p sid) :
    s.isActive (s.sidOf p) = true := by
  have hcheck := h.2
  unfold State.sessionCheck at hcheck
  exact (s.isActive_iff _).mpr ⟨rfl, (Bool.and_eq_true_iff.mp hcheck).1⟩

/-- The references of each cell once a commit of `new` over `old` is taken (R14, R16, R20). -/
def Cell.committed (k : Cell) (new old : Nat) (atOnce : Bool) : Cell :=
  ({ k with refs := k.refs + new } : Cell).dropRefs (if atOnce then old else 0)

/-- COMMIT_LANDED for the new live version of a commit by session i, when it lands at once (R16, R21). -/
def landedAtOnce (r : RowNo) (g : Half) (i : Sid) (holds : ChanSet) : List Posted :=
  if ChanSet.isEmpty holds then
    [{ source := .rowTable, addressee := .session i, event := landedEvent r g }]
  else []

/-- The exchange of versions, after which `told` is posted (R14, R15, R84). -/
def State.exchanged (s : State) (r : RowNo) (k : Content) (i : Sid) (told : List Posted) : State :=
  { s.exchange r k (.session i) with posted := s.posted ++ told }

/-- A commit of `k` by session i: the exchange of versions, and the landing of a row that no channel holds back
(R14–R17). -/
def State.committed (s : State) (r : RowNo) (k : Content) (i : Sid) (told : List Posted) : State :=
  (s.exchanged r k i told).landIfFree r

/-- The row as the exchange of versions leaves it. -/
theorem State.exchange_row (s : State) (r : RowNo) (k : Content) (o : Origin) :
    (s.exchange r k o).rows.get r =
      { live := s.newVersion r k o
        held := some { version := (s.rows.get r).live, holding := runningNamed s.channels (s.rows.get r).live } } := by
  rw [State.exchange_rows, Table.get_set, if_pos rfl]

section
variable {s : State} {r : RowNo} {k : Content} {i : Sid} (told : List Posted)

theorem State.exchanged_row :
    (s.exchanged r k i told).rows.get r =
      { live := s.newVersion r k (.session i)
        held := some { version := (s.rows.get r).live, holding := runningNamed s.channels (s.rows.get r).live } } :=
  s.exchange_row r k (.session i)

theorem State.exchanged_rowMark (hmark : s.rowMark r = false) : (s.exchanged r k i told).rowMark r = false :=
  (State.rowMark_congr s _ (by simp [State.exchanged]) r).trans hmark

theorem State.exchanged_landedPost (hactive : s.isActive i = true) :
    (s.exchanged r k i told).landedPost r =
      some { source := .rowTable, addressee := .session i,
             event := landedEvent r (s.newVersion r k (.session i)).generation } := by
  have hkept : (s.exchanged r k i told).isActive i = true :=
    (State.isActive_congr (by simp [State.exchanged]) i).trans hactive
  unfold State.landedPost Row.generation
  rw [State.exchanged_row]
  exact if_pos hkept

theorem State.committed_rows (hmark : s.rowMark r = false) :
    (s.committed r k i told).rows = s.rows.set r
      { live := s.newVersion r k (.session i)
        held := heldBack (s.rows.get r).live (runningNamed s.channels (s.rows.get r).live) } := by
  have hrows : (s.exchanged r k i told).rows = (s.exchange r k (.session i)).rows := rfl
  unfold State.committed
  rw [State.landIfFree_rows _ _ (State.exchanged_rowMark told hmark), State.exchanged_row, hrows, State.exchange_rows,
    Table.set_set]
  unfold heldBack Row.holding
  dsimp only
  split <;> rfl

theorem State.committed_posted (hactive : s.isActive i = true) :
    (s.committed r k i told).posted = s.posted ++ told ++
      landedAtOnce r (s.newVersion r k (.session i)).generation i (runningNamed s.channels (s.rows.get r).live) := by
  unfold State.committed landedAtOnce
  rw [State.landIfFree_posted, State.exchanged_landedPost told hactive, State.exchanged_row]
  rfl

theorem State.committed_cell (hmark : s.rowMark r = false) (n : CellNo) :
    (s.committed r k i told).cells.get n =
      (s.cells.get n).committed (positionsIn (s.newVersion r k (.session i)).text n)
        (positionsIn (s.rows.get r).live.text n)
        (ChanSet.isEmpty (runningNamed s.channels (s.rows.get r).live)) := by
  have hcells : (s.exchanged r k i told).cells = (s.addRefs (s.newVersion r k (.session i)).text).cells := rfl
  unfold State.committed
  rw [State.landIfFree_get _ _ (State.exchanged_rowMark told hmark), State.exchanged_row, hcells, State.addRefs_get]
  rfl

/-- A commit changes the row, the cells' counts and what is posted. -/
theorem State.committed_eq (hmark : s.rowMark r = false) (hactive : s.isActive i = true) :
    s.committed r k i told =
      { s with
        rows := s.rows.set r
          { live := s.newVersion r k (.session i)
            held := heldBack (s.rows.get r).live (runningNamed s.channels (s.rows.get r).live) }
        posted := s.posted ++ told ++
          landedAtOnce r (s.newVersion r k (.session i)).generation i (runningNamed s.channels (s.rows.get r).live)
        cells := (s.committed r k i told).cells } :=
  have hleased : (s.committed r k i told).leased = s.leased := by
    unfold State.committed
    rw [State.landIfFree_leased _ _ (State.exchanged_rowMark told hmark)]
    simp [State.exchanged]
  State.eq_of_fields (by simp [State.committed, State.exchanged]) (by simp [State.committed, State.exchanged])
    (by simp [State.committed, State.exchanged]) (State.committed_posted told hactive)
    (by simp [State.committed, State.exchanged]) (by simp [State.committed, State.exchanged])
    (State.committed_rows told hmark) hleased rfl (by simp [State.committed, State.exchanged])
    (by simp [State.committed, State.exchanged]) (by simp [State.committed, State.exchanged])
    (by simp [State.committed, State.exchanged]) (by simp [State.committed, State.exchanged])
    (by simp [State.committed, State.exchanged])

theorem State.committed_glyphsKept (hmark : s.rowMark r = false) : GlyphsKept s (s.committed r k i told) :=
  GlyphsKept.of_get fun n => State.committed_cell told hmark n

theorem State.committed_counts (hmark : s.rowMark r = false) :
    CountsCommitted s (s.committed r k i told) (s.newVersion r k (.session i)).text (s.rows.get r).live.text
      (ChanSet.isEmpty (runningNamed s.channels (s.rows.get r).live)) :=
  CountsCommitted.of_get fun n => State.committed_cell told hmark n

end

/-! ### The answer to a commit (R17) -/

/-- The clipped-channel mask of a commit. -/
def State.commitMask (s : State) (r : RowNo) (k : Content) (o : Origin) : ChanSet :=
  clippedMask s.channels (s.exchange r k o).cells (s.newVersion r k o)

theorem State.commitReply_exchange (s : State) (r : RowNo) (k : Content) (o : Origin) :
    (s.exchange r k o).commitReply r = okReply
      (halfBytes (s.newVersion r k o).generation ++
        [BitVec.ofNat 8 (positionsIn (s.newVersion r k o).text 0), ChanSet.byte (s.commitMask r k o),
          ChanSet.byte (runningNamed s.channels (s.rows.get r).live)]) := by
  have hchannels : (s.exchange r k o).channels = s.channels := by simp
  unfold State.commitReply
  dsimp only
  rw [State.exchange_row, hchannels]
  rfl

theorem State.commitMask_get (s : State) (r : RowNo) (k : Content) (o : Origin) (c : Chan) :
    (s.commitMask r k o).get c = true ↔
      ∃ q ∈ (s.newVersion r k o).placements, q.chan = c ∧
        placementClipped (s.channels.get c).active s.cells (s.newVersion r k o) q = true := by
  have hadvance : ∀ n, ((s.exchange r k o).cells.get n).advance = (s.cells.get n).advance := fun n => by
    rw [State.exchange_cells, State.addRefs_get]
  unfold State.commitMask
  rw [clippedMask_get]
  simp only [placementClipped_congr hadvance]

theorem State.newVersion_renewLease (s : State) (p : Port) (r : RowNo) (k : Content) (o : Origin) :
    (s.renewLease p).newVersion r k o = s.newVersion r k o := rfl

/-- The answer to a commit that is taken in state s (R17). -/
def State.commitAnswer (s : State) (r : RowNo) (k : Content) (o : Origin) : Reply :=
  { status := .ok
    payload := halfBytes (s.newVersion r k o).generation ++
      [BitVec.ofNat 8 (positionsIn (s.newVersion r k o).text 0), ChanSet.byte (s.commitMask r k o),
        ChanSet.byte (runningNamed s.channels (s.rows.get r).live)] }

theorem State.commitMask_renewed (s : State) (p : Port) (n : Nat) (r : RowNo) (k : Content) (o : Origin) :
    ((s.renewLease p).windowed p n).commitMask r k o = s.commitMask r k o := by
  unfold State.commitMask
  rw [State.exchange_cells, State.exchange_cells]
  refine congrArg (clippedMask s.channels · _) (Table.ext_get fun m => ?_)
  rw [State.addRefs_get, State.addRefs_get]
  rfl

theorem State.commitReply_renewed (s : State) (p : Port) (n : Nat) (r : RowNo) (k : Content) (o : Origin) :
    (((s.renewLease p).windowed p n).exchange r k o).commitReply r = s.commitAnswer r k o := by
  rw [State.commitReply_exchange, State.commitMask_renewed]
  rfl

/-! ### The state after a commit that is answered -/

theorem State.committed_windowed (s : State) (p : Port) (n : Nat) (r : RowNo) (k : Content) (i : Sid)
    (told : List Posted) : (s.windowed p n).committed r k i told = (s.committed r k i told).windowed p n := by
  unfold State.committed State.exchanged State.windowed
  rw [State.exchange_modPort, ← State.landIfFree_modPort]
  rfl

/-- An answer depends on the port that it is left in alone. -/
theorem State.answer_eq {s t : State} (p : Port) (n : Nat) (r : Reply) (h : t.ports = s.ports) :
    t.answer p n r = { t with ports := (s.answer p n r).ports } := by
  unfold State.answer State.windowed State.place State.modPort
  dsimp only
  rw [h]

/-- The state after a command of n payload bytes on port p that commits `k` to row r (R14–R17). -/
def State.afterCommit (s : State) (p : Port) (n : Nat) (r : RowNo) (k : Content) (told : List Posted) : State :=
  ((s.renewLease p).committed r k (s.sidOf p) told).answer p n (s.commitAnswer r k (.session (s.sidOf p)))

section
variable {s : State} {p : Port} {r : RowNo} {k : Content} (n : Nat) (told : List Posted)

theorem State.afterCommit_eq (hmark : s.rowMark r = false) (hactive : s.isActive (s.sidOf p) = true) :
    s.afterCommit p n r k told =
      { s.renewLease p with
        ports := (s.answer p n (s.commitAnswer r k (.session (s.sidOf p)))).ports
        rows := s.rows.set r
          { live := s.newVersion r k (.session (s.sidOf p))
            held := heldBack (s.rows.get r).live (runningNamed s.channels (s.rows.get r).live) }
        posted := s.posted ++ told ++
          landedAtOnce r (s.newVersion r k (.session (s.sidOf p))).generation (s.sidOf p)
            (runningNamed s.channels (s.rows.get r).live)
        cells := (s.afterCommit p n r k told).cells } := by
  have hcommitted := State.committed_eq (s := s.renewLease p) (k := k) told hmark
    ((s.isActive_renewLease p _).trans hactive)
  rw [State.newVersion_renewLease, State.renewLease_rows, State.renewLease_channels] at hcommitted
  have hports : ((s.renewLease p).committed r k (s.sidOf p) told).ports = s.ports := by rw [hcommitted]; rfl
  exact (State.answer_eq p n _ hports).trans
    (congrArg (fun t => { t with ports := (s.answer p n (s.commitAnswer r k (.session (s.sidOf p)))).ports })
        hcommitted)

theorem State.afterCommit_glyphsKept (hmark : s.rowMark r = false) : GlyphsKept s (s.afterCommit p n r k told) :=
  State.committed_glyphsKept (s := s.renewLease p) told hmark

theorem State.afterCommit_counts (hmark : s.rowMark r = false) :
    CountsCommitted s (s.afterCommit p n r k told) (s.newVersion r k (.session (s.sidOf p))).text
      (s.rows.get r).live.text (ChanSet.isEmpty (runningNamed s.channels (s.rows.get r).live)) := by
  have hcounts := State.committed_counts (s := s.renewLease p) (k := k) (i := s.sidOf p) told hmark
  rw [State.newVersion_renewLease, State.renewLease_rows, State.renewLease_channels] at hcounts
  exact hcounts

end

/-! ### COMMIT -/

theorem exec_commit_heldRow {s t : State} {p : Port} {sid row : Byte} {l : LeasedNo} {r : Reply} (hc : Callable s p sid)
    (hrow : leasedRow? row = some l) (hholder : (s.claims.get (rowResource l)).holder = some (s.sidOf p))
    (h : ((s.renewLease p).windowed p 6).commitRow (s.sidOf p) l = (t.windowed p 6, r)) :
    exec (.commit p sid [row]) s = .next (t.answer p 1 r) :=
  congrArg Host.Outcome.next
    (commandFrame_heldRow (pl := [row]) 0x23#8 1 1 (fun caller u => u.commitRow caller) hc one_le_payloadBytes le_rfl
      le_rfl hrow hholder h)

theorem State.commitRow_of_swapping {s : State} {caller : Sid} {l : LeasedNo}
    (h : (s.rows.get (LeasedNo.row l)).held.isSome = true) :
    s.commitRow caller l =
      (s, { status := .held, payload := halfBytes (s.rows.get (LeasedNo.row l)).live.generation }) := by
  unfold State.commitRow
  exact if_pos h

theorem State.commitRow_of_settled {s : State} {caller : Sid} {l : LeasedNo}
    (h : (s.rows.get (LeasedNo.row l)).held = none) :
    s.commitRow caller l =
      (s.committed (LeasedNo.row l) (s.leased.get l).edit.content caller [],
       (s.exchange (LeasedNo.row l) (s.leased.get l).edit.content (.session caller)).commitReply (LeasedNo.row l)) := by
  have hposted : ∀ k, (s.exchange (LeasedNo.row l) k (.session caller)).posted = s.posted ++ [] := by simp
  unfold State.commitRow State.committed State.exchanged
  rw [← hposted]
  exact if_neg (by simp [Row.swapping, h])

theorem exec_commit_settled {s : State} {p : Port} {sid row : Byte} {l : LeasedNo} (hc : Callable s p sid)
    (hrow : leasedRow? row = some l) (hholder : (s.claims.get (rowResource l)).holder = some (s.sidOf p))
    (hsettled : (s.rows.get (LeasedNo.row l)).held = none) :
    exec (.commit p sid [row]) s =
      .next (s.afterCommit p 1 (LeasedNo.row l) (s.leased.get l).edit.content []) := by
  have hanswer := State.commitRow_of_settled (s := (s.renewLease p).windowed p 6) (caller := s.sidOf p) hsettled
  rw [State.committed_windowed, State.commitReply_renewed] at hanswer
  exact exec_commit_heldRow hc hrow hholder hanswer

/-- Settles O37. -/
theorem commitOfASwappingRowIsHeld : Obligations.CommitOfASwappingRowIsHeld := by
  unfold Obligations.CommitOfASwappingRowIsHeld
  intro s p sid row l hc hrow hholder hswapping
  exact exec_commit_heldRow hc hrow hholder
    (State.commitRow_of_swapping (s := (s.renewLease p).windowed p 6) hswapping)

/-- Settles O36: the renewed lease and the closed window leave the row and the cells, so the commit is that of the state
before the command. -/
theorem commitExchangesTheVersions : Obligations.CommitExchangesTheVersions := by
  unfold Obligations.CommitExchangesTheVersions
  intro s p sid row l hc hrow hholder hsettled hblank
  have hmark : s.rowMark (LeasedNo.row l) = false := by
    unfold State.rowMark
    rw [rowLeased_row]
    exact hblank
  have hstate := State.afterCommit_eq (k := (s.leased.get l).edit.content) 1 [] hmark hc.isActive
  rw [List.append_nil] at hstate
  unfold heldBack landedAtOnce State.commitAnswer at hstate
  exact ⟨_, s.newVersion (LeasedNo.row l) (s.leased.get l).edit.content (.session (s.sidOf p)),
    s.commitMask (LeasedNo.row l) (s.leased.get l).edit.content (.session (s.sidOf p)),
    exec_commit_settled hc hrow hholder hsettled, rfl, s.commitMask_get _ _ _, hstate,
    State.afterCommit_glyphsKept 1 [] hmark, State.afterCommit_counts 1 [] hmark⟩

end Sys2Proof.Machine

/-! SUPPORT. WRITE_COMMON (R14–R16, R79–R84, R189). -/
namespace Sys2Proof.Machine

/-! ### The payload of a WRITE_COMMON (R80, R189) -/

theorem byteAt_drop (bs : List Byte) (n i : Nat) : byteAt (bs.drop n) i = bs.getD (n + i) 0#8 := by
  unfold byteAt
  rw [List.getD_eq_getElem?_getD, List.getElem?_drop, ← List.getD_eq_getElem?_getD]

/-- The three checks that a payload must pass to carry a content. -/
theorem commonContent?_eq_none {payload : List Byte}
    (h : style? (payload.drop 3) = none ∨ placements? (byteAt payload 15).toNat (payload.drop 17) = none ∨
      40 < (byteAt payload 16).toNat ∨
      payload.length ≠ 17 + 7 * (byteAt payload 15).toNat + 2 * (byteAt payload 16).toNat ∨
      (codesOf (payload.drop (17 + 7 * (byteAt payload 15).toNat))).all codeValid = false) :
    commonContent? payload = none := by
  unfold commonContent?
  dsimp only
  split
  · next x list hstyle hlist =>
    refine if_pos ?_
    simp only [Bool.or_eq_true, decide_eq_true_eq, Bool.not_eq_true']
    rcases h with h | h | h | h | h
    · rw [hstyle] at h
      cases h
    · rw [hlist] at h
      cases h
    · exact .inl (.inl h)
    · exact .inl (.inr h)
    · exact .inr h
  · rfl

theorem commonContent?_of_bad_field {payload : List Byte}
    (h : let field := fun i : Nat => (payload.getD i 0#8).toNat
      2 ≤ field 12 ∨ 2 ≤ field 13 ∨ 8 ≤ field 14 ∨ 4 < field 15 ∨ 40 < field 16 ∨
      payload.length ≠ 17 + 7 * field 15 + 2 * field 16 ∨
      (∃ i, i < field 15 ∧ SpellsNoPlacement (payload.drop (17 + 7 * i)))) : commonContent? payload = none := by
  refine commonContent?_eq_none ?_
  have hstyle : ∀ i, byteAt (payload.drop 3) i = payload.getD (3 + i) 0#8 := byteAt_drop payload 3
  rcases h with h | h | h | h | h | h | ⟨i, hi, h⟩
  · exact .inl (style?_none (.inl (by rw [hstyle]; exact h)))
  · exact .inl (style?_none (.inr (.inl (by rw [hstyle]; exact h))))
  · exact .inl (style?_none (.inr (.inr (by rw [hstyle]; exact h))))
  · exact .inr (.inl (placements?_of_gt _ h))
  · exact .inr (.inr (.inl h))
  · exact .inr (.inr (.inr (.inl h)))
  · exact .inr (.inl (placements?_none hi (by rw [List.drop_drop]; exact h)))

/-- The payload that spells a row, an expected generation and a content. -/
def commonPayload (row : Byte) (expected : Half) (style : Style) (list : List Placement) (codes : List Half) :
    List Byte :=
  [row] ++ halfBytes expected ++ styleBytes style ++ [BitVec.ofNat 8 list.length, BitVec.ofNat 8 codes.length] ++
    list.flatMap placementBytes ++ codes.flatMap halfBytes

section
variable (row : Byte) (expected : Half) (style : Style) (list : List Placement) (codes : List Half)

theorem commonPayload_length :
    (commonPayload row expected style list codes).length = 17 + 7 * list.length + 2 * codes.length := by
  unfold commonPayload
  rw [List.length_append, List.length_append, flatMap_placementBytes_length, flatMap_halfBytes_length]
  rfl

theorem commonPayload_style : style? ((commonPayload row expected style list codes).drop 3) = some style := by
  have hdrop : (commonPayload row expected style list codes).drop 3 =
      styleBytes style ++ ([BitVec.ofNat 8 list.length, BitVec.ofNat 8 codes.length] ++
        (list.flatMap placementBytes ++ codes.flatMap halfBytes)) := by
    simp only [commonPayload, halfBytes, List.append_assoc]
    rfl
  rw [hdrop]
  exact style?_bytes style _

theorem commonPayload_drop : (commonPayload row expected style list codes).drop 17 =
    list.flatMap placementBytes ++ codes.flatMap halfBytes := rfl

theorem commonPayload_codes :
    codesOf ((commonPayload row expected style list codes).drop (17 + 7 * list.length)) = codes := by
  rw [← List.drop_drop, commonPayload_drop, ← flatMap_placementBytes_length, List.drop_left]
  exact codesOf_flatMap codes

theorem commonPayload_expected : halfAt (commonPayload row expected style list codes) 1 = expected :=
  half_of_bytes expected

theorem commonPayload_counts (hlist : list.length ≤ 4) (hcodes : codes.length ≤ 40) :
    (byteAt (commonPayload row expected style list codes) 15).toNat = list.length ∧
      (byteAt (commonPayload row expected style list codes) 16).toNat = codes.length :=
  ⟨byte_toNat (by omega), byte_toNat (by omega)⟩

end

section
variable {row : Byte} {expected : Half} {style : Style} {list : List Placement} {codes : List Half}

theorem commonContent?_payload (hlist : list.length ≤ 4) (hoffsets : ∀ q ∈ list, OffsetsOk q)
    (hlen : codes.length ≤ 40) (hdistinct : (list.map Placement.chan).Nodup)
    (hcodes : ∀ c ∈ codes, c ≠ 0x0000#16 ∧ c ≠ 0xFFFF#16) :
    commonContent? (commonPayload row expected style list codes) =
      some { codes := codes, style := style, placements := list } := by
  obtain ⟨hp, hm⟩ := commonPayload_counts row expected style list codes hlist hlen
  have hplacements := placements?_bytes list (codes.flatMap halfBytes) hlist hoffsets
  unfold commonContent?
  dsimp only
  rw [hp, hm, commonPayload_style, commonPayload_drop, hplacements, if_pos hdistinct, commonPayload_codes,
    commonPayload_length]
  dsimp only
  rw [(all_codeValid_iff codes).mpr hcodes]
  exact if_neg (by simp; omega)

theorem commonContent?_of_bad (hlist : list.length ≤ 4) (hoffsets : ∀ q ∈ list, OffsetsOk q)
    (hlen : codes.length ≤ 40)
    (hbad : ¬ ((list.map Placement.chan).Nodup ∧ ∀ c ∈ codes, c ≠ 0x0000#16 ∧ c ≠ 0xFFFF#16)) :
    commonContent? (commonPayload row expected style list codes) = none := by
  obtain ⟨hp, hm⟩ := commonPayload_counts row expected style list codes hlist hlen
  refine commonContent?_eq_none ?_
  rw [hp, commonPayload_drop, commonPayload_codes, placements?_bytes list _ hlist hoffsets]
  by_cases hdistinct : (list.map Placement.chan).Nodup
  · have hcodes : ¬ codes.all codeValid = true := fun h => hbad ⟨hdistinct, (all_codeValid_iff codes).mp h⟩
    exact .inr (.inr (.inr (.inr (Bool.eq_false_iff.mpr hcodes))))
  · exact .inr (.inl (if_neg hdistinct))

end

/-! ### The block's own checks (R79–R82) -/

section
variable {s : State} {payload : List Byte} {caller : Sid} {r : RowNo} {expected : Half} {k : Content}

theorem State.takeWriteCommon_of_bad (h : commonRow? (byteAt payload 0) = none ∨ commonContent? payload = none) :
    s.takeWriteCommon payload caller = (s, badValue) := by
  unfold State.takeWriteCommon
  split
  · next hrow hcontent =>
    rw [hrow, hcontent] at h
    rcases h with h | h <;> cases h
  · rfl

theorem State.takeWriteCommon_of_some (hrow : commonRow? (byteAt payload 0) = some r)
    (hcontent : commonContent? payload = some k) :
    s.takeWriteCommon payload caller = s.writeCommon caller r (halfAt payload 1) k := by
  unfold State.takeWriteCommon
  rw [hrow, hcontent]

theorem State.writeCommon_of_swapping {h : Held} (hheld : (s.rows.get r).held = some h) :
    s.writeCommon caller r expected k =
      (s, { status := .held, payload := halfBytes (s.rows.get r).live.generation ++ [ChanSet.byte h.holding] }) := by
  have hholding : (s.rows.get r).holding = h.holding := by
    unfold Row.holding
    rw [hheld]
  unfold State.writeCommon
  rw [← hholding]
  exact if_pos (by simp [Row.swapping, hheld])

theorem State.writeCommon_of_stale (hsettled : (s.rows.get r).held = none)
    (hstale : expected ≠ (s.rows.get r).live.generation) :
    s.writeCommon caller r expected k =
      (s, { status := .conflict, payload := halfBytes (s.rows.get r).live.generation }) := by
  unfold State.writeCommon
  exact (if_neg (by simp [Row.swapping, hsettled])).trans (if_pos hstale)

end

/-! ### The commit (R83, R84) -/

/-- COMMON_CHANGED to the other sessions (R84). -/
def State.changedPosts (s : State) (r : RowNo) (g : Half) (writer : Port) : List Posted :=
  s.postsTo .rowTable (some writer)
    { kind := .commonChanged, subject := BitVec.ofNat 16 r.val, value := g, port := some writer }

theorem State.broadcast_eq (s : State) (x : Source) (except : Option Port) (e : Event) :
    s.broadcast x except e = { s with posted := s.posted ++ s.postsTo x except e } :=
  State.eq_of_fields (by simp) (by simp) (by simp) (s.broadcast_posted x except e) (by simp) (by simp) (by simp)
    (by simp) (by simp) (by simp) (by simp) (by simp) (by simp) (by simp) (by simp)

theorem State.writeCommon_of_fresh {s : State} {caller : Sid} {r : RowNo} {k : Content}
    (hsettled : (s.rows.get r).held = none) :
    s.writeCommon caller r (s.rows.get r).live.generation k =
      (s.committed r k caller (s.changedPosts r (s.newVersion r k (.session caller)).generation caller.port),
       (s.exchange r k (.session caller)).commitReply r) := by
  have hgeneration : ((s.exchange r k (.session caller)).rows.get r).generation =
      (s.newVersion r k (.session caller)).generation := by
    rw [State.exchange_row]
    rfl
  have htold : (s.exchange r k (.session caller)).broadcast .rowTable (some caller.port)
      (changedEvent r ((s.exchange r k (.session caller)).rows.get r).generation caller.port) =
      s.exchanged r k caller (s.changedPosts r (s.newVersion r k (.session caller)).generation caller.port) := by
    have hposted : (s.exchange r k (.session caller)).posted = s.posted := by simp
    rw [State.broadcast_eq, hgeneration, State.postsTo_congr s _ _ _ _ (by simp), hposted]
    rfl
  unfold State.writeCommon State.committed
  rw [← htold]
  exact (if_neg (by simp [Row.swapping, hsettled])).trans (if_neg (not_not_intro rfl))

theorem exec_writeCommon_answer {s t : State} {p : Port} {sid : Byte} {payload : List Byte} {r : Reply}
    (hc : Callable s p sid) (hlo : 17 ≤ payload.length) (hhi : payload.length ≤ 125)
    (h : ((s.renewLease p).windowed p (payload.length + 5)).takeWriteCommon payload (s.sidOf p) =
      (t.windowed p (payload.length + 5), r)) :
    exec (.writeCommon p sid payload) s = .next (t.answer p payload.length r) :=
  congrArg Host.Outcome.next
    (commandFrame_answer s p 0x28#8 sid payload 17 125 (State.takeWriteCommon payload) hc
      (le_payloadBytes_of_le hhi (by omega)) hlo hhi t r h)

theorem State.changedPosts_renewed (s : State) (p : Port) (n : Nat) (r : RowNo) (g : Half) :
    ((s.renewLease p).windowed p n).changedPosts r g p = s.changedPosts r g p :=
  State.postsTo_others s _ _ p _ fun _ hq => Four.get_modify_ne _ hq _

theorem exec_writeCommon_fresh {s : State} {p : Port} {sid : Byte} {payload : List Byte} {r : RowNo} {k : Content}
    (hc : Callable s p sid) (hlo : 17 ≤ payload.length) (hhi : payload.length ≤ 125)
    (hrow : commonRow? (byteAt payload 0) = some r) (hcontent : commonContent? payload = some k)
    (hsettled : (s.rows.get r).held = none) (hfresh : halfAt payload 1 = (s.rows.get r).live.generation) :
    exec (.writeCommon p sid payload) s = .next (s.afterCommit p payload.length r k
      (s.changedPosts r (s.newVersion r k (.session (s.sidOf p))).generation p)) := by
  have hanswer := State.takeWriteCommon_of_some (s := (s.renewLease p).windowed p (payload.length + 5))
    (caller := s.sidOf p) hrow hcontent
  have hcommit := State.writeCommon_of_fresh (s := (s.renewLease p).windowed p (payload.length + 5))
    (caller := s.sidOf p) (k := k) hsettled
  rw [State.committed_windowed, State.commitReply_renewed] at hcommit
  rw [hfresh] at hanswer
  refine exec_writeCommon_answer hc hlo hhi ((hanswer.trans hcommit).trans ?_)
  rw [← State.changedPosts_renewed s p (payload.length + 5)]
  rfl

theorem commonRow?_of_val {row : Byte} {r : RowNo} (h : row.toNat = r.val) (hr : 44 ≤ r.val) :
    commonRow? row = some r := by
  unfold commonRow?
  rw [dif_pos (by omega)]
  exact congrArg some (Fin.ext h)

theorem commonRow?_of_bad {row : Byte} (h : row.toNat < 44 ∨ 48 ≤ row.toNat) : commonRow? row = none := by
  unfold commonRow?
  exact dif_neg (by omega)

/-- Settles O38: a payload that spells a content reads back as it, the row is checked after the content, and a taken
write is the commit of that content. -/
theorem writeCommonCommitsThePayload : Obligations.WriteCommonCommitsThePayload := by
  unfold Obligations.WriteCommonCommitsThePayload
  refine ⟨fun s p sid payload hc hlo hhi hbad => ?_,
    fun s p sid row expected style list codes hc hlist hoffsets hlen => ?_⟩
  · exact exec_writeCommon_answer hc hlo hhi (State.takeWriteCommon_of_bad (.inr (commonContent?_of_bad_field hbad)))
  have hlength := commonPayload_length row expected style list codes
  have hlo : 17 ≤ (commonPayload row expected style list codes).length := by omega
  have hhi : (commonPayload row expected style list codes).length ≤ 125 := by omega
  refine ⟨fun hbad => ?_, fun r hr hcommon hgood => ?_⟩
  · refine exec_writeCommon_answer hc hlo hhi (State.takeWriteCommon_of_bad ?_)
    rcases hbad with hrow | hrow | hbad
    · exact .inl (commonRow?_of_bad (.inl hrow))
    · exact .inl (commonRow?_of_bad (.inr hrow))
    · exact .inr (commonContent?_of_bad hlist hoffsets hlen hbad)
  obtain ⟨hdistinct, hcodes⟩ := hgood
  have hrow : commonRow? (byteAt (commonPayload row expected style list codes) 0) = some r :=
    commonRow?_of_val hr hcommon
  have hcontent := commonContent?_payload (row := row) (expected := expected) (style := style) hlist hoffsets hlen
    hdistinct hcodes
  have htaken := State.takeWriteCommon_of_some
    (s := (s.renewLease p).windowed p ((commonPayload row expected style list codes).length + 5))
    (caller := s.sidOf p) hrow hcontent
  rw [commonPayload_expected] at htaken
  refine ⟨fun h hheld => ?_, fun hsettled hstale => ?_, fun hsettled hfresh => ?_⟩
  · exact exec_writeCommon_answer hc hlo hhi (htaken.trans (State.writeCommon_of_swapping hheld))
  · exact exec_writeCommon_answer hc hlo hhi (htaken.trans (State.writeCommon_of_stale hsettled hstale))
  · have hmark : s.rowMark r = false := by
      unfold State.rowMark
      rw [rowLeased_common hrow]
    have hexec := exec_writeCommon_fresh hc hlo hhi hrow hcontent hsettled
      ((commonPayload_expected row expected style list codes).trans hfresh)
    have hstate := State.afterCommit_eq (s := s) (p := p) (k := { codes := codes, style := style, placements := list })
      (commonPayload row expected style list codes).length
      (s.changedPosts r (s.newVersion r { codes := codes, style := style, placements := list }
        (.session (s.sidOf p))).generation p) hmark hc.isActive
    unfold heldBack landedAtOnce State.commitAnswer State.changedPosts at hstate
    exact ⟨_, s.newVersion r { codes := codes, style := style, placements := list } (.session (s.sidOf p)),
      s.commitMask r { codes := codes, style := style, placements := list } (.session (s.sidOf p)),
      hexec, rfl, s.commitMask_get _ _ _, hstate,
      State.afterCommit_glyphsKept _ _ hmark, State.afterCommit_counts _ _ hmark⟩

end Sys2Proof.Machine

/-! SUPPORT. Uploads: GLYPH_BEGIN and GLYPH_LINES (R36, R42–R47, R171, R188). -/
namespace Sys2Proof.Machine

/-! ### Codes and their holders (R36) -/

theorem codeValid_iff (code : Half) : codeValid code = true ↔ code ≠ 0x0000#16 ∧ code ≠ 0xFFFF#16 := by
  simp [codeValid]

section
variable {s : State} {code : Half} {caller : Sid}

theorem heldByAnother_eq_some {e : MapEntry} {h : Sid} (hholder : e.holder = some h) (hother : h ≠ caller) :
    heldByAnother e caller = some h := by
  unfold heldByAnother
  rw [hholder]
  exact if_neg hother

theorem heldByAnother_eq_none {e : MapEntry} (h : ∀ i, e.holder = some i → i = caller) :
    heldByAnother e caller = none := by
  unfold heldByAnother
  split
  · next i hholder => exact if_pos (h i hholder)
  · rfl

theorem State.codeHeldByAnother_eq_some {e : MapEntry} {h : Sid} (hentry : mapFind s.map code = some e)
    (hholder : e.holder = some h) (hother : h ≠ caller) : s.codeHeldByAnother code caller = some h := by
  unfold State.codeHeldByAnother
  rw [hentry]
  exact heldByAnother_eq_some hholder hother

theorem State.codeHeldByAnother_eq_none
    (h : ∀ e i, mapFind s.map code = some e → e.holder = some i → i = caller) :
    s.codeHeldByAnother code caller = none := by
  unfold State.codeHeldByAnother
  split
  · next e hentry => exact heldByAnother_eq_none fun i => h e i hentry
  · rfl

end

/-! ### GLYPH_BEGIN (R42) -/

theorem State.lowestFree_eq_some {s : State} {n : CellNo} (h : (s.cells.get n).state = .free)
    (hlow : ∀ m : CellNo, m < n → (s.cells.get m).state ≠ .free) : s.lowestFree = some n :=
  find?_ascending _ n (by simpa using h) fun m hm => by simpa using hlow m hm

theorem State.lowestFree_eq_none {s : State} (h : ∀ n : CellNo, (s.cells.get n).state ≠ .free) :
    s.lowestFree = none :=
  List.find?_eq_none.mpr fun n _ => by simpa using h n

/-- The payload of a GLYPH_BEGIN (R189). -/
def glyphBeginPayload (code : Half) (advance mark : Byte) : List Byte := halfBytes code ++ [advance, mark]

section
variable {s : State} {caller : Sid} {code : Half} {advance mark : Byte}

theorem State.takeGlyphBegin_of_upload (h : (s.uploadOf caller).isSome = true) :
    s.takeGlyphBegin (glyphBeginPayload code advance mark) caller = (s, { status := .uploadOpen, payload := [] }) := by
  obtain ⟨u, hu⟩ := Option.isSome_iff_exists.mp h
  unfold State.takeGlyphBegin
  dsimp only
  rw [hu]

theorem State.takeGlyphBegin_of_bad (hupload : s.uploadOf caller = none)
    (hbad : ¬ (code ≠ 0x0000#16 ∧ code ≠ 0xFFFF#16 ∧ 1 ≤ advance.toNat ∧ advance.toNat ≤ 16 ∧ mark.toNat < 2)) :
    s.takeGlyphBegin (glyphBeginPayload code advance mark) caller = (s, badValue) := by
  have hcode : halfAt (glyphBeginPayload code advance mark) 0 = code := halfAt_halfBytes code _
  have hadvance : byteAt (glyphBeginPayload code advance mark) 2 = advance := rfl
  have hmark : byteAt (glyphBeginPayload code advance mark) 3 = mark := rfl
  unfold State.takeGlyphBegin
  dsimp only
  rw [hupload, hcode, hadvance, hmark]
  by_cases hflag : mark.toNat < 2
  · rw [flag?_of_lt mark hflag]
    refine if_pos ?_
    simp only [Bool.or_eq_true, Bool.not_eq_true', decide_eq_true_eq, gt_iff_lt]
    by_cases hvalid : codeValid code = true
    · obtain ⟨hzero, hlast⟩ := (codeValid_iff code).mp hvalid
      by_cases hleast : 1 ≤ advance.toNat
      · exact .inr (by by_contra hmost; exact hbad ⟨hzero, hlast, hleast, by omega, hflag⟩)
      · exact .inl (.inr (by omega))
    · exact .inl (.inl (Bool.eq_false_iff.mpr hvalid))
  · rw [flag?_of_ge mark (by omega)]

/-- With its arguments checked, GLYPH_BEGIN looks at the code's holder and then for a FREE cell. -/
theorem State.takeGlyphBegin_of_good (hupload : s.uploadOf caller = none)
    (hgood : code ≠ 0x0000#16 ∧ code ≠ 0xFFFF#16 ∧ 1 ≤ advance.toNat ∧ advance.toNat ≤ 16 ∧ mark.toNat < 2) :
    s.takeGlyphBegin (glyphBeginPayload code advance mark) caller =
      match s.codeHeldByAnother code caller with
      | some holder => (s, heldReply holder)
      | none =>
        match s.lowestFree with
        | none => (s, { status := .noCell, payload := [] })
        | some n => (s.openUpload caller n code advance.toNat (decide (mark = 0x01#8)), okReply
            [BitVec.ofNat 8 n.val]) := by
  obtain ⟨hzero, hlast, hleast, hmost, hflag⟩ := hgood
  have hcode : halfAt (glyphBeginPayload code advance mark) 0 = code := halfAt_halfBytes code _
  have hadvance : byteAt (glyphBeginPayload code advance mark) 2 = advance := rfl
  have hmark : byteAt (glyphBeginPayload code advance mark) 3 = mark := rfl
  have hchecks : (!(codeValid code) || decide (advance.toNat < 1) || decide (advance.toNat > 16)) = false := by
    rw [(codeValid_iff code).mpr ⟨hzero, hlast⟩]
    simp only [Bool.or_eq_false_iff, decide_eq_false_iff_not, Bool.not_true, true_and]
    omega
  unfold State.takeGlyphBegin
  dsimp only
  rw [hupload, hcode, hadvance, hmark, flag?_of_lt mark hflag]
  dsimp only
  rw [hchecks]
  rfl

theorem exec_glyphBegin_answer {t : State} {p : Port} {sid : Byte} {r : Reply} (hc : Callable s p sid)
    (h : ((s.renewLease p).windowed p 9).takeGlyphBegin (glyphBeginPayload code advance mark) (s.sidOf p) =
      (t.windowed p 9, r)) :
    exec (.glyphBegin p sid (glyphBeginPayload code advance mark)) s = .next (t.answer p 4 r) :=
  have hmax : 4 ≤ Config.payloadBytes := by decide
  congrArg Host.Outcome.next
    (commandFrame_answer s p 0x30#8 sid (glyphBeginPayload code advance mark) 4 4
      (State.takeGlyphBegin (glyphBeginPayload code advance mark)) hc hmax le_rfl le_rfl t r h)

end

/-- Settles O39: the checks are made in the order of the statement, and the search for a FREE cell finds the lowest. -/
theorem glyphBeginTakesTheLowestFreeCell : Obligations.GlyphBeginTakesTheLowestFreeCell := by
  unfold Obligations.GlyphBeginTakesTheLowestFreeCell
  intro s p sid advance mark code hc
  have hrenewed : ((s.renewLease p).windowed p 9).uploadOf (s.sidOf p) = s.uploadOf (s.sidOf p) := by simp
  refine ⟨fun hopen => ?_, fun hnone hbad => ?_, fun hnone hgood => ?_⟩
  · exact exec_glyphBegin_answer hc (State.takeGlyphBegin_of_upload (by rw [hrenewed]; exact hopen))
  · exact exec_glyphBegin_answer hc (State.takeGlyphBegin_of_bad (hrenewed.trans hnone) hbad)
  have htaken := State.takeGlyphBegin_of_good (s := (s.renewLease p).windowed p 9) (hrenewed.trans hnone) hgood
  have hheld : ((s.renewLease p).windowed p 9).codeHeldByAnother code (s.sidOf p) =
    s.codeHeldByAnother code (s.sidOf p) := rfl
  have hlowest : ((s.renewLease p).windowed p 9).lowestFree = s.lowestFree := rfl
  rw [hheld, hlowest] at htaken
  refine ⟨fun e h hentry hholder hother => ?_, fun hown => ⟨fun n hfree hlow => ?_, fun hfull => ?_⟩⟩
  · rw [State.codeHeldByAnother_eq_some hentry hholder hother] at htaken
    exact exec_glyphBegin_answer hc htaken
  · rw [State.codeHeldByAnother_eq_none hown, State.lowestFree_eq_some hfree hlow] at htaken
    exact exec_glyphBegin_answer hc htaken
  · rw [State.codeHeldByAnother_eq_none hown, State.lowestFree_eq_none hfull] at htaken
    exact exec_glyphBegin_answer hc htaken

/-! ### GLYPH_LINES (R43–R45) -/

/-- The state once a fragment's lines are in the upload's cell (R44). -/
def State.withLines (s : State) (u : Upload) (payload : List Byte) : State :=
  s.modCell u.cell fun k => { k with bitmap := writeLines k.bitmap u.next (payload.drop 1) }

section
variable {s : State} {payload : List Byte} {caller : Sid} {u : Upload}

theorem State.takeGlyphLines_of_none (h : s.uploadOf caller = none) :
    s.takeGlyphLines payload caller = (s, { status := .noUpload, payload := [] }) := by
  unfold State.takeGlyphLines
  rw [h]

theorem State.takeGlyphLines_of_other (h : s.uploadOf caller = some u)
    (hother : (payload.getD 0 0#8).toNat ≠ u.next.val) :
    s.takeGlyphLines payload caller =
      (s.dropUpload caller, { status := .sequence, payload := [BitVec.ofNat 8 u.next.val] }) := by
  unfold State.takeGlyphLines
  rw [h]
  exact if_pos hother

theorem State.takeGlyphLines_of_next (h : s.uploadOf caller = some u)
    (hnext : (payload.getD 0 0#8).toNat = u.next.val) :
    s.takeGlyphLines payload caller = s.takeFragment caller u (payload.drop 1) := by
  unfold State.takeGlyphLines
  rw [h]
  exact if_neg (not_not_intro hnext)

theorem State.takeFragment_of_early (hnext : u.next ≠ 5) :
    s.takeFragment caller u (payload.drop 1) =
      ((s.withLines u payload).setUpload caller.port (some { u with next := nextFragment u.next }),
       okReply [BitVec.ofNat 8 (nextFragment u.next).val]) := by
  unfold State.takeFragment
  exact if_neg hnext

theorem State.takeFragment_of_held {h : Sid} (hnext : u.next = 5)
    (hheld : s.codeHeldByAnother u.code caller = some h) :
    s.takeFragment caller u (payload.drop 1) = ((s.withLines u payload).dropUpload caller, heldReply h) := by
  have hwritten : (s.withLines u payload).codeHeldByAnother u.code caller = some h := hheld
  unfold State.takeFragment
  refine (if_pos hnext).trans ?_
  unfold State.withLines at hwritten
  rw [hwritten]
  rfl

theorem State.takeFragment_of_last (hnext : u.next = 5) (hfree : s.codeHeldByAnother u.code caller = none) :
    s.takeFragment caller u (payload.drop 1) = (s.withLines u payload).install caller u := by
  have hwritten : (s.withLines u payload).codeHeldByAnother u.code caller = none := hfree
  unfold State.takeFragment
  refine (if_pos hnext).trans ?_
  unfold State.withLines at hwritten
  rw [hwritten]
  rfl

theorem exec_glyphLines_answer {t : State} {p : Port} {sid : Byte} {r : Reply} (hc : Callable s p sid)
    (hlen : payload.length = 17)
    (h : ((s.renewLease p).windowed p 22).takeGlyphLines payload (s.sidOf p) = (t.windowed p 22, r)) :
    exec (.glyphLines p sid payload) s = .next (t.answer p 17 r) := by
  have hmax : payload.length ≤ Config.payloadBytes := le_payloadBytes_of_le hlen.le (by omega)
  have hanswer := commandFrame_answer s p 0x31#8 sid payload 17 17 (State.takeGlyphLines payload) hc hmax hlen.ge
    hlen.le t r (by rw [hlen]; exact h)
  rw [hlen] at hanswer
  exact congrArg Host.Outcome.next hanswer

end

theorem nextFragment_val {f : Fin 6} (h : f.val < 5) : (nextFragment f).val = f.val + 1 := by
  unfold nextFragment
  rw [dif_pos h]

/-- Settles O40. -/
theorem glyphLinesWritesAFragment : Obligations.GlyphLinesWritesAFragment := by
  unfold Obligations.GlyphLinesWritesAFragment
  intro s p sid payload u hc hlen hu hexpected hearly
  have hrenewed : ((s.renewLease p).windowed p 22).uploadOf (s.sidOf p) = some u := by simpa using hu
  have hnext : u.next ≠ 5 := fun h => by
    rw [h] at hearly
    exact absurd hearly (by decide)
  refine ⟨writeLines (s.cells.get u.cell).bitmap u.next (payload.drop 1), nextFragment u.next, ?_,
    nextFragment_val hearly, ?_⟩
  · exact writeLines_written u.next payload _
  · exact exec_glyphLines_answer hc hlen
      ((State.takeGlyphLines_of_next hrenewed hexpected).trans (State.takeFragment_of_early hnext))

/-- Settles O42: the end of the upload is the one that GLYPH_ABORT makes too. -/
theorem wrongFragmentEndsTheUpload : Obligations.WrongFragmentEndsTheUpload := by
  unfold Obligations.WrongFragmentEndsTheUpload
  intro s p sid payload hc hlen
  have hrenewed : ((s.renewLease p).windowed p 22).uploadOf (s.sidOf p) = s.uploadOf (s.sidOf p) := by simp
  refine ⟨fun u hu hother => ?_, fun hnone => ?_⟩
  · refine exec_glyphLines_answer hc hlen ((State.takeGlyphLines_of_other (hrenewed.trans hu) hother).trans ?_)
    rw [State.dropUpload_of_some (hrenewed.trans hu)]
    rfl
  · exact exec_glyphLines_answer hc hlen (State.takeGlyphLines_of_none (hrenewed.trans hnone))

end Sys2Proof.Machine

/-! SUPPORT. The install of a glyph, and GLYPH_DELETE (R36, R45–R47, R51). -/
namespace Sys2Proof.Machine

theorem releasedState_byte (k : Cell) : (releasedState k).byte = if k.refs = 0 then 0x00#8 else 0x03#8 := by
  unfold releasedState
  split <;> rfl

/-! ### The state after an install (R46, R47) -/

/-- GLYPH_CHANGED to the other sessions, when an entry is replaced (R47). -/
def State.replacedPosts (s : State) (caller : Sid) (u : Upload) : List Posted :=
  match mapFind s.map u.code with
  | some _ => s.postsTo .glyphStore (some caller.port) (glyphEvent u.code glyphReplaced caller.port)
  | none => []

/-- What an install answers (R46). -/
def State.installReply (s : State) (u : Upload) : Reply :=
  { status := .ok
    payload := match mapFind s.map u.code with
      | some e => [BitVec.ofNat 8 u.cell.val, 0x01#8, BitVec.ofNat 8 e.cell.val,
          if (s.cells.get e.cell).refs = 0 then 0x00#8 else 0x03#8]
      | none => [BitVec.ofNat 8 u.cell.val, 0x00#8, 0x00#8, 0x00#8] }

section
variable (s : State) (caller : Sid) (u : Upload)

theorem State.install_reply : (s.install caller u).2 = s.installReply u := by
  unfold State.install State.installReply
  dsimp only
  cases mapFind s.map u.code with
  | none => rfl
  | some e =>
    dsimp only
    rw [releasedState_byte]
    rfl

theorem State.install_cells : (s.install caller u).1.cells = (s.installed caller u).cells := by
  rw [State.install_eq]
  split <;> simp

theorem State.install_map : (s.install caller u).1.map =
    mapInsert { code := u.code, cell := u.cell, holder := some caller, isVolatile := u.isVolatile } s.map := by
  rw [← s.installed_map, State.install_eq]
  split <;> simp

theorem State.install_state :
    (s.install caller u).1 =
      { s with
        cells := (s.install caller u).1.cells
        map := (s.install caller u).1.map
        uploads := s.uploads.set caller.port none
        posted := s.posted ++ s.replacedPosts caller u } := by
  unfold State.install State.replacedPosts
  dsimp only
  cases mapFind s.map u.code with
  | none =>
    dsimp only
    rw [List.append_nil]
    rfl
  | some e =>
    dsimp only
    rw [State.broadcast_eq, State.postsTo_congr s _ _ _ _ rfl]
    rfl

theorem State.install_windowed (p : Port) (n : Nat) :
    (s.windowed p n).install caller u = ((s.install caller u).1.windowed p n, (s.install caller u).2) := by
  unfold State.install State.windowed
  dsimp only
  have hmap : ∀ f, (s.modPort p f).map = s.map := fun _ => rfl
  rw [hmap]
  cases mapFind s.map u.code with
  | none => rfl
  | some e =>
    dsimp only
    rw [← State.broadcast_modPort]
    rfl

end

/-! ### The last fragment -/

section
variable {s : State} {p : Port} {u : Upload} {payload : List Byte}

theorem State.replacedPosts_renewed :
    ((s.renewLease p).withLines u payload).replacedPosts (s.sidOf p) u =
      match mapFind s.map u.code with
      | some _ => s.postsTo .glyphStore (some p) (glyphEvent u.code glyphReplaced p)
      | none => [] := by
  have hmap : ((s.renewLease p).withLines u payload).map = s.map := rfl
  unfold State.replacedPosts
  rw [hmap]
  cases mapFind s.map u.code with
  | none => rfl
  | some e => exact State.postsTo_others s _ _ p _ fun _ hq => Four.get_modify_ne _ hq _

theorem State.withLines_get (n : CellNo) :
    ((s.renewLease p).withLines u payload).cells.get n =
      if u.cell = n then
        { s.cells.get u.cell with bitmap := writeLines (s.cells.get u.cell).bitmap u.next (payload.drop 1) }
      else s.cells.get n := by
  unfold State.withLines
  rw [State.modCell_cells, Table.get_modify]
  split
  · next h =>
    subst h
    rfl
  · rfl

theorem State.installReply_renewed (hne : ∀ e, mapFind s.map u.code = some e → e.cell ≠ u.cell) :
    ((s.renewLease p).withLines u payload).installReply u = s.installReply u := by
  have hmap : ((s.renewLease p).withLines u payload).map = s.map := rfl
  unfold State.installReply
  rw [hmap]
  cases hentry : mapFind s.map u.code with
  | none => rfl
  | some e =>
    dsimp only
    rw [State.withLines_get, if_neg (hne e hentry).symm]

theorem State.install_get (hne : ∀ e, mapFind s.map u.code = some e → e.cell ≠ u.cell) (n : CellNo) :
    (((s.renewLease p).withLines u payload).install (s.sidOf p) u).1.cells.get n =
      if u.cell = n then
        { s.cells.get u.cell with
          bitmap := writeLines (s.cells.get u.cell).bitmap u.next (payload.drop 1), state := .ready, refs := 0 }
      else if (mapFind s.map u.code).any fun e => e.cell == n then
        { s.cells.get n with state := if (s.cells.get n).refs = 0 then .free else .retiring }
      else s.cells.get n := by
  have hmap : ((s.renewLease p).withLines u payload).map = s.map := rfl
  rw [State.install_cells, State.installed_get _ _ _ _ (hmap ▸ hne), State.withLines_get, hmap]
  split
  · rfl
  · rfl

end

/-- Settles O41: another holder's code ends the upload in the cell just written; otherwise the install's map, cells and
posts are read off one by one. -/
theorem lastFragmentInstallsTheGlyph : Obligations.LastFragmentInstallsTheGlyph := by
  unfold Obligations.LastFragmentInstallsTheGlyph
  intro s p sid payload u hc hlen hu hfive hlast entry hne
  have hrenewed : ((s.renewLease p).windowed p 22).uploadOf (s.sidOf p) = some u := by simpa using hu
  have hexpected : (payload.getD 0 0#8).toNat = u.next.val := by
    rw [hfive, hlast]
    rfl
  have hwritten : FragmentWritten 5 payload (s.cells.get u.cell).bitmap
      (writeLines (s.cells.get u.cell).bitmap u.next (payload.drop 1)) := by
    rw [hlast]
    exact writeLines_written 5 payload _
  have htaken := State.takeGlyphLines_of_next hrenewed hexpected
  refine ⟨fun e h hentry hholder hother => ⟨_, hwritten, ?_⟩, fun hown => ?_⟩
  · have hheld := State.codeHeldByAnother_eq_some (s := (s.renewLease p).windowed p 22) hentry hholder hother
    refine exec_glyphLines_answer hc hlen ((htaken.trans (State.takeFragment_of_held hlast hheld)).trans ?_)
    have hupload : (((s.renewLease p).windowed p 22).withLines u payload).uploadOf (s.sidOf p) = some u :=
      (State.uploadOf_congr _ _ _ rfl).trans hrenewed
    rw [State.dropUpload_of_some hupload]
    unfold State.withLines
    rw [State.modCell_cells, Table.modify_modify]
    rfl
  · have hfree := State.codeHeldByAnother_eq_none (s := (s.renewLease p).windowed p 22) hown
    have hanswer := htaken.trans (State.takeFragment_of_last hlast hfree)
    have hwindow : ((s.renewLease p).windowed p 22).withLines u payload =
      ((s.renewLease p).withLines u payload).windowed p 22 := rfl
    rw [hwindow, State.install_windowed, State.install_reply, State.installReply_renewed hne] at hanswer
    have hinstall := State.install_state ((s.renewLease p).withLines u payload) (s.sidOf p) u
    rw [State.replacedPosts_renewed] at hinstall
    have hports : (((s.renewLease p).withLines u payload).install (s.sidOf p) u).1.ports = s.ports := by
      rw [hinstall]
      rfl
    have hstate := (State.answer_eq p 17 (s.installReply u) hports).trans
      (congrArg (fun t => { t with ports := (s.answer p 17 (s.installReply u)).ports }) hinstall)
    have hget := fun n => State.install_get (p := p) (payload := payload) hne n
    refine ⟨_, _, hwritten, exec_glyphLines_answer hc hlen hanswer, hstate, fun code => ?_, ?_, fun n hn => ?_⟩
    · have hmap := State.install_map ((s.renewLease p).withLines u payload) (s.sidOf p) u
      refine (congrArg (mapFind · code) hmap).trans ((mapFind_mapInsert _ _ code).trans ?_)
      by_cases hcode : code = u.code
      · rw [if_pos hcode, if_pos hcode, hcode]
      · rw [if_neg hcode, if_neg hcode]
        rfl
    · exact (hget u.cell).trans (if_pos rfl)
    · exact (hget n).trans (if_neg hn.symm)

/-! ### GLYPH_DELETE (R51) -/

/-- The state after a code's entry is removed (R51). -/
def State.glyphDeleted (s : State) (code : Half) (e : MapEntry) (writer : Port) : State :=
  { s with
    map := s.map.filter fun x => x.code != code
    cells := s.cells.modify e.cell fun k => { k with state := if k.refs = 0 then .free else .retiring }
    posted := s.posted ++ s.postsTo .glyphStore (some writer) (glyphEvent code glyphRemoved writer) }

section
variable {s : State} {code : Half} {caller : Sid} {e : MapEntry}

theorem State.takeGlyphDelete_of_bad
    (h : ¬ (code ≠ 0x0000#16 ∧ code ≠ 0xFFFF#16) ∨ mapFind s.map code = none) :
    s.takeGlyphDelete (halfBytes code) caller = (s, badValue) := by
  unfold State.takeGlyphDelete
  rw [halfAt_code]
  dsimp only
  split
  · rfl
  · next e hentry =>
    have hinvalid : codeValid code = false :=
      Bool.eq_false_iff.mpr fun hvalid => h.elim (· ((codeValid_iff code).mp hvalid)) (by simp [hentry])
    rw [hinvalid]
    rfl

theorem State.takeGlyphDelete_of_entry (hvalid : code ≠ 0x0000#16 ∧ code ≠ 0xFFFF#16)
    (hentry : mapFind s.map code = some e) :
    s.takeGlyphDelete (halfBytes code) caller =
      match heldByAnother e caller with
      | some holder => (s, heldReply holder)
      | none =>
        (s.glyphDeleted code e caller.port,
         okReply [BitVec.ofNat 8 e.cell.val, if (s.cells.get e.cell).refs = 0 then 0x00#8 else 0x03#8]) := by
  unfold State.takeGlyphDelete
  rw [halfAt_code]
  dsimp only
  rw [hentry, (codeValid_iff code).mpr hvalid]
  dsimp only
  rw [releasedState_byte, State.broadcast_eq]
  rfl

theorem exec_glyphDelete_answer {t : State} {p : Port} {sid : Byte} {r : Reply} (hc : Callable s p sid)
    (h : ((s.renewLease p).windowed p 7).takeGlyphDelete (halfBytes code) (s.sidOf p) = (t.windowed p 7, r)) :
    exec (.glyphDelete p sid (halfBytes code)) s = .next (t.answer p 2 r) :=
  have hmax : 2 ≤ Config.payloadBytes := by decide
  congrArg Host.Outcome.next
    (commandFrame_answer s p 0x33#8 sid (halfBytes code) 2 2 (State.takeGlyphDelete (halfBytes code)) hc hmax le_rfl
      le_rfl t r h)

end

/-- Settles O44. -/
theorem glyphDeleteRemovesTheEntry : Obligations.GlyphDeleteRemovesTheEntry := by
  unfold Obligations.GlyphDeleteRemovesTheEntry
  intro s p sid code hc
  refine ⟨fun e hvalid hentry hown => ?_, fun e h hvalid hentry hholder hother => ?_, fun hbad => ?_⟩
  · have htaken := State.takeGlyphDelete_of_entry (s := (s.renewLease p).windowed p 7) (caller := s.sidOf p) hvalid
      hentry
    rw [heldByAnother_eq_none hown] at htaken
    refine exec_glyphDelete_answer hc (htaken.trans ?_)
    unfold State.glyphDeleted
    have hposts : ((s.renewLease p).windowed p 7).postsTo .glyphStore (some (s.sidOf p).port)
        (glyphEvent code glyphRemoved (s.sidOf p).port) =
      s.postsTo .glyphStore (some p) (glyphEvent code glyphRemoved p) :=
      State.postsTo_others s _ _ p _ fun _ hq => Four.get_modify_ne _ hq _
    rw [hposts]
    rfl
  · have htaken := State.takeGlyphDelete_of_entry (s := (s.renewLease p).windowed p 7) (caller := s.sidOf p) hvalid
      hentry
    rw [heldByAnother_eq_some hholder hother] at htaken
    exact exec_glyphDelete_answer hc htaken
  · exact exec_glyphDelete_answer hc (State.takeGlyphDelete_of_bad hbad)

end Sys2Proof.Machine

/-! SUPPORT. CHANNEL_SET, and CHANNEL_APPLY in OFF and SEEKING (R95, R99–R101, R187). -/
namespace Sys2Proof.Machine

/-! ### The fields of a CHANNEL_SET (R187) -/

theorem fieldsWidth_filter_le (P : Fin 10 → Bool) (bits : List (Fin 10)) :
    fieldsWidth (bits.filter P) ≤ fieldsWidth bits := by
  unfold fieldsWidth
  induction bits with
  | nil => exact le_rfl
  | cons bit rest ih =>
    rw [List.filter_cons]
    split
    · simp only [List.map_cons, List.sum_cons]
      omega
    · simp only [List.map_cons, List.sum_cons]
      omega

theorem selectedFields_width_le (selectors : Half) : fieldsWidth (selectedFields selectors) ≤ 15 :=
  have hall : fieldsWidth (ascending 10) = 15 := by decide
  (fieldsWidth_filter_le _ _).trans hall.le

theorem fieldsWidth_eq (bits : List (Fin 10)) (k : ChanConfig) :
    (bits.map fun bit => (fieldBytes bit k).length).sum = fieldsWidth bits := by
  simp only [fieldBytes_length]
  rfl

theorem flatMap_length_of_widths {value : Fin 10 → List Byte} (bits : List (Fin 10))
    (h : ∀ bit, (value bit).length = fieldWidth bit) : (bits.flatMap value).length = fieldsWidth bits := by
  simp only [List.length_flatMap, h]
  rfl

/-- The payload of a CHANNEL_SET (R187, R189). -/
def channelSetPayload (b : Byte) (selectors : Half) (values : List Byte) : List Byte :=
  [b] ++ halfBytes selectors ++ values

section
variable {b : Byte} {selectors : Half} {values : List Byte} {k : ChanConfig}

theorem channelSetPayload_length : (channelSetPayload b selectors values).length = 3 + values.length := by
  unfold channelSetPayload
  rw [List.length_append]
  rfl

theorem channelSetPayload_selectors : halfAt (channelSetPayload b selectors values) 1 = selectors :=
  half_of_bytes selectors

theorem fieldsWritten?_of_fits (hselectors : selectors.toNat < 1024)
    (hlen : values.length = fieldsWidth (selectedFields selectors)) :
    fieldsWritten? (channelSetPayload b selectors values) k = writeFields (selectedFields selectors) values k := by
  unfold fieldsWritten?
  dsimp only
  rw [channelSetPayload_selectors, channelSetPayload_length]
  exact (if_neg (by omega)).trans (if_neg (by omega))

theorem fieldsWritten?_of_bad
    (h : 1024 ≤ selectors.toNat ∨ values.length ≠ fieldsWidth (selectedFields selectors)) :
    fieldsWritten? (channelSetPayload b selectors values) k = none := by
  unfold fieldsWritten?
  dsimp only
  rw [channelSetPayload_selectors, channelSetPayload_length]
  by_cases hselectors : 1024 ≤ selectors.toNat
  · exact if_pos hselectors
  · exact (if_neg hselectors).trans (if_pos (by have := h.resolve_left hselectors; omega))

end

/-! ### A command on a channel that its caller holds (R100, R101) -/

theorem commandFrame_heldChannel {s t : State} {p : Port} {sid : Byte} {pl : List Byte} {c : Chan} {r : Reply} {n : Nat}
    (code : Byte) (lo hi : Nat) (act : Sid → State → Chan → State × Reply) (hc : Callable s p sid) (hn : pl.length = n)
    (hl : n ≤ Config.payloadBytes) (hlo : lo ≤ n) (hhi : n ≤ hi) (hchan : chan? (byteAt pl 0) = some c)
    (hholder : (s.claims.get (chanResource c)).holder = some (s.sidOf p))
    (h : act (s.sidOf p) ((s.renewLease p).windowed p (n + 5)) c = (t.windowed p (n + 5), r)) :
    s.commandFrame p code sid pl lo hi (fun caller u => u.withHeldChannel pl caller (act caller u)) =
      t.answer p n r := by
  subst hn
  exact commandFrame_answer s p code sid pl lo hi _ hc hl hlo hhi t r (by
    rw [State.renewLease_windowed, State.withHeldChannel_holder _ hchan (by simpa using hholder), h])

/-! ### CHANNEL_SET (R100) -/

theorem State.stageFields_of_some {s : State} {payload : List Byte} {c : Chan} {staged : ChanConfig}
    (h : fieldsWritten? payload (s.channels.get c).staged = some staged) :
    s.stageFields payload c = (s.modChannel c fun k => { k with staged := staged }, okReply []) := by
  unfold State.stageFields
  rw [h]

theorem State.stageFields_of_none {s : State} {payload : List Byte} {c : Chan}
    (h : fieldsWritten? payload (s.channels.get c).staged = none) : s.stageFields payload c = (s, badValue) := by
  unfold State.stageFields
  rw [h]

theorem exec_channelSet_heldChannel {s t : State} {p : Port} {sid b : Byte} {c : Chan} {selectors : Half}
    {values : List Byte} {r : Reply} (hc : Callable s p sid) (hchan : chan? b = some c)
    (hholder : (s.claims.get (chanResource c)).holder = some (s.sidOf p)) (hlen : values.length ≤ 15)
    (h : ((s.renewLease p).windowed p (3 + values.length + 5)).stageFields (channelSetPayload b selectors values) c =
      (t.windowed p (3 + values.length + 5), r)) :
    exec (.channelSet p sid (channelSetPayload b selectors values)) s = .next (t.answer p (3 + values.length) r) :=
  congrArg Host.Outcome.next
    (commandFrame_heldChannel 0x40#8 3 18 (fun _ u => u.stageFields (channelSetPayload b selectors values)) hc
      channelSetPayload_length (le_payloadBytes_of_le (m := 18) (by omega) (by omega)) (by omega) (by omega) hchan
      hholder h)

/-- Settles O45: the selected fields have at most 15 bytes, and they read back unless one of them spells no value. -/
theorem channelSetStagesFields : Obligations.ChannelSetStagesFields := by
  unfold Obligations.ChannelSetStagesFields
  intro s p sid b c selectors hc hchan hholder
  have hmost := selectedFields_width_le selectors
  refine ⟨fun k hselectors hleast hgreatest => ?_, fun values hlen hbad => ?_, fun value hselectors hwidths hbad => ?_⟩
  · have hwidth := flatMap_fieldBytes_length (selectedFields selectors) k
    exact exec_channelSet_heldChannel hc hchan hholder (hwidth.trans_le hmost)
      (State.stageFields_of_some ((fieldsWritten?_of_fits hselectors hwidth).trans
        (writeFields_bytes _ k _ ⟨hleast, hgreatest⟩)))
  · have hbad : 1024 ≤ selectors.toNat ∨ values.length ≠ fieldsWidth (selectedFields selectors) := by
      rw [← fieldsWidth_eq _ (s.channels.get c).staged]
      exact hbad
    exact exec_channelSet_heldChannel hc hchan hholder hlen (State.stageFields_of_none (fieldsWritten?_of_bad hbad))
  · have hwidths : ∀ bit, (value bit).length = fieldWidth bit := fun bit =>
      (hwidths bit).trans (fieldBytes_length bit _)
    have hwidth := flatMap_length_of_widths (selectedFields selectors) hwidths
    exact exec_channelSet_heldChannel hc hchan hholder (hwidth.trans_le hmost)
      (State.stageFields_of_none ((fieldsWritten?_of_fits hselectors hwidth).trans (writeFields_none _ hwidths hbad)))

/-! ### CHANNEL_APPLY at once (R101) -/

theorem exec_channelApply_heldChannel {s t : State} {p : Port} {sid b : Byte} {c : Chan} {r : Reply}
    (hc : Callable s p sid) (hchan : chan? b = some c)
    (hholder : (s.claims.get (chanResource c)).holder = some (s.sidOf p))
    (h : ((s.renewLease p).windowed p 6).applyChannel (s.sidOf p) c = (t.windowed p 6, r)) :
    exec (.channelApply p sid [b]) s = .next (t.answer p 1 r) :=
  congrArg Host.Outcome.next
    (commandFrame_heldChannel (pl := [b]) 0x41#8 1 1 (fun caller u => u.applyChannel caller) hc rfl one_le_payloadBytes
      le_rfl le_rfl hchan hholder h)

section
variable {s : State} {caller : Sid} {c : Chan}

theorem State.applyChannel_off (h : (s.channels.get c).state = .off) :
    s.applyChannel caller c =
      if (s.channels.get c).staged.on then
        (s.modChannel c fun k => { k.applyStaged.startLoss with state := .seeking }, applyReply false .seeking false)
      else (s.modChannel c Channel.applyStaged, applyReply false .off false) := by
  unfold State.applyChannel State.applyInOff State.modChannel
  rw [h]
  dsimp only
  rw [Four.modify_modify]

theorem State.applyChannel_seeking (h : (s.channels.get c).state = .seeking) :
    s.applyChannel caller c =
      if (s.channels.get c).staged.on then (s.modChannel c Channel.applyStaged, applyReply false .seeking false)
      else (s.modChannel c fun k => k.applyStaged.turnOff, applyReply false .off false) := by
  unfold State.applyChannel State.applyInSeeking State.modChannel
  rw [h]
  dsimp only
  rw [Four.modify_modify]

end

/-- Settles O46. -/
theorem channelApplyActsAtOnce : Obligations.ChannelApplyActsAtOnce := by
  unfold Obligations.ChannelApplyActsAtOnce
  intro s p sid b c hc hchan hholder
  have hoff := fun h => State.applyChannel_off (s := (s.renewLease p).windowed p 6) (caller := s.sidOf p) (c := c) h
  have hseeking := fun h =>
    State.applyChannel_seeking (s := (s.renewLease p).windowed p 6) (caller := s.sidOf p) (c := c) h
  refine ⟨fun hstate hon => ?_, fun hstate hon => ?_, fun hstate hon => ?_, fun hstate hon => ?_⟩
  · exact exec_channelApply_heldChannel hc hchan hholder ((hoff hstate).trans (if_neg (Bool.eq_false_iff.mp hon)))
  · exact exec_channelApply_heldChannel hc hchan hholder ((hoff hstate).trans (if_pos hon))
  · exact exec_channelApply_heldChannel hc hchan hholder ((hseeking hstate).trans (if_pos hon))
  · exact exec_channelApply_heldChannel hc hchan hholder ((hseeking hstate).trans (if_neg (Bool.eq_false_iff.mp hon)))

end Sys2Proof.Machine

/-! SUPPORT. Channels that run: CHANNEL_APPLY in LOCKED and FREERUN, and the steps that make or end frames (R18, R27,
R28, R92–R98, R102, R103, R113). -/
namespace Sys2Proof.Machine

/-! ### A channel that stops drawing (R28, R95, R113) -/

/-- The whole state after a channel stops drawing, but for the rows and the cells. -/
theorem State.stopDrawing_eq (s : State) (c : Chan) :
    s.stopDrawing c =
      { s with
        channels := s.channels.modify c fun k => { k with overbooked := false, dropped := 0 }
        compositors := s.compositors.set c none
        rows := (s.stopDrawing c).rows
        leased := (s.stopDrawing c).leased
        cells := (s.stopDrawing c).cells
        posted := s.posted ++ s.landedPosts c } := by
  obtain ⟨-, hposted, -, hchannels, hcompositors⟩ := s.stopDrawing_spec c
  exact State.eq_of_fields (by simp) (by simp) (by simp) hposted (by simp) (by simp) (by dsimp only)
    (by dsimp only) (by dsimp only) (by simp) (by simp)
    hchannels hcompositors (by simp) (by simp)

/-- What a channel that stops drawing does to the rows and the cells, from a state with the same rows and cells. -/
theorem State.stopDrawing_kept {s u : State} (c : Chan) (hrows : s.rows = u.rows) (hleased : s.leased = u.leased)
    (hcells : s.cells = u.cells) :
    RowsWithout c s (u.stopDrawing c) ∧ GlyphsKept s (u.stopDrawing c) ∧ DiscardsOnly s (u.stopDrawing c) := by
  obtain ⟨hwithout, -, hdiscarded, -, -⟩ := u.stopDrawing_spec c
  have hdiscarded : Discarded s (u.stopDrawing c) := Discarded.of_eq hdiscarded hcells hrows rfl rfl
  exact ⟨RowsWithout.of_eq hwithout hrows hleased rfl rfl fun _ => rfl, hdiscarded.glyphsKept, hdiscarded.discardsOnly⟩

/-! ### CHANNEL_APPLY in LOCKED and FREERUN (R102) -/

/-- Channel c with the staged configuration active and its state OFF, before it stops drawing (R95, R102). -/
def State.turnedOff (s : State) (c : Chan) : State :=
  s.modChannel c fun k => Channel.turnOff { k.applyStaged with pending := none }

section
variable {s : State} {caller : Sid} {c : Chan}

theorem State.applyChannel_running (h : (s.channels.get c).state = .locked ∨ (s.channels.get c).state = .freeRun) :
    s.applyChannel caller c =
      if (s.channels.get c).staged.on then
        (s.modChannel c fun k => { k with pending := some { config := k.staged, applier := some caller } },
         applyReply true (s.channels.get c).state (s.channels.get c).pending.isSome)
      else ((s.turnedOff c).stopDrawing c, applyReply false .off (s.channels.get c).pending.isSome) := by
  have hrunning : s.applyChannel caller c = s.applyInRunning caller c := by
    unfold State.applyChannel
    rcases h with h | h
    · rw [h]
    · rw [h]
  have hmodify : (s.modChannel c fun k => { k.applyStaged with pending := none }).modChannel c Channel.turnOff =
      s.turnedOff c := by
    unfold State.turnedOff State.modChannel
    dsimp only
    rw [Four.modify_modify]
  rw [hrunning, ← hmodify]
  rfl

theorem State.stopDrawing_windowed (s : State) (p : Port) (n : Nat) (c : Chan) :
    (s.windowed p n).stopDrawing c = (s.stopDrawing c).windowed p n := State.stopDrawing_modPort s p _ c

theorem State.landedPosts_turnedOff (s : State) (p : Port) (c : Chan) :
    ((s.renewLease p).turnedOff c).landedPosts c = s.landedPosts c :=
  State.landedPosts_congr s _ c rfl fun i => s.isActive_renewLease p i

end

/-- Settles O47: mode OFF turns the engine off and then stops the drawing, which alone touches the rows and the cells.
-/
theorem channelApplyWhileRunning : Obligations.ChannelApplyWhileRunning := by
  unfold Obligations.ChannelApplyWhileRunning
  intro s p sid b c hc hchan hholder k hrunning
  have htaken := State.applyChannel_running (s := (s.renewLease p).windowed p 6) (caller := s.sidOf p) (c := c) hrunning
  refine ⟨fun hon => ?_, fun hoff => ?_⟩
  · exact exec_channelApply_heldChannel hc hchan hholder (htaken.trans (if_pos hon))
  · have hanswer := htaken.trans (if_neg (Bool.eq_false_iff.mp hoff))
    have hwindow : ((s.renewLease p).windowed p 6).turnedOff c = ((s.renewLease p).turnedOff c).windowed p 6 := rfl
    rw [hwindow, State.stopDrawing_windowed] at hanswer
    have hstate := State.stopDrawing_eq ((s.renewLease p).turnedOff c) c
    rw [State.landedPosts_turnedOff] at hstate
    have hchannels : ((s.renewLease p).turnedOff c).channels.modify c
        (fun k => { k with overbooked := false, dropped := 0 }) =
      s.channels.set c { k with
        active := k.staged, pending := none, state := .off, loss := .stopped, freeRun := .stopped
        overbooked := false, dropped := 0 } := by
      unfold State.turnedOff
      rw [State.modChannel_channels, Four.modify_modify]
      rfl
    rw [hchannels] at hstate
    have hports : (((s.renewLease p).turnedOff c).stopDrawing c).ports = s.ports := by simp [State.turnedOff]
    obtain ⟨hrows, hglyphs, hdiscards⟩ :=
      State.stopDrawing_kept (s := s) (u := (s.renewLease p).turnedOff c) c rfl rfl rfl
    generalize ((s.renewLease p).turnedOff c).stopDrawing c = t at hanswer hstate hports hrows hglyphs hdiscards
    refine ⟨_, exec_channelApply_heldChannel hc hchan hholder hanswer, ?_, hrows, hglyphs, hdiscards⟩
    exact (State.answer_eq p 1 _ hports).trans
      (congrArg (fun t => { t with ports := (s.answer p 1 (applyReply false .off k.pending.isSome)).ports }) hstate)

end Sys2Proof.Machine

/-! SUPPORT. Frame starts and timer expiries (R18, R27, R28, R92–R98, R103, R106, R107, R113). -/
namespace Sys2Proof.Machine

/-! ### A channel made ready for a frame -/

/-- Channel c with another signal state and other timers, `signals` having been posted (R93, R94, R96). -/
def State.readied (s : State) (c : Chan) (state : SignalState) (loss freeRun : Timer) (signals : List Posted) : State :=
  { s with
    channels := s.channels.set c { s.channels.get c with state := state, loss := loss, freeRun := freeRun }
    posted := s.posted ++ signals }

theorem State.readied_self (s : State) (c : Chan) :
    s.readied c (s.channels.get c).state (s.channels.get c).loss (s.channels.get c).freeRun [] = s := by
  unfold State.readied
  rw [List.append_nil]
  exact congrArg (fun x => ({ s with channels := x } : State)) (Four.set_get s.channels c)

theorem State.signal_eq (s : State) (c : Chan) (v : SignalState) :
    s.signal c v =
      s.readied c v (s.channels.get c).loss (s.channels.get c).freeRun (s.signalPosts c v) := by
  unfold State.signal State.signalPosts State.readied
  rw [State.broadcast_eq]
  rfl

section
variable {s : State} {c : Chan} {state : SignalState} {loss freeRun : Timer} {signals : List Posted}

theorem State.readied_get :
    (s.readied c state loss freeRun signals).channels.get c =
      { s.channels.get c with state := state, loss := loss, freeRun := freeRun } := Four.get_set_self _ _ _

theorem State.readied_modChannel {f : Channel → Channel} {x y : Timer}
    (h : ∀ k : Channel, f { k with state := state, loss := loss, freeRun := freeRun } =
      { k with state := state, loss := x, freeRun := y }) :
    (s.readied c state loss freeRun signals).modChannel c f = s.readied c state x y signals := by
  unfold State.readied State.modChannel Four.modify
  dsimp only
  rw [Four.get_set_self, h, Four.set_set]

theorem State.readied_appliedPosts :
    (s.readied c state loss freeRun signals).appliedPosts c = s.appliedPosts c :=
  State.appliedPosts_congr s _ c (by rw [State.readied_get]) fun _ => rfl

theorem State.readied_overbookedPosts (n : Nat) :
    (s.readied c state loss freeRun signals).overbookedPosts c n = s.overbookedPosts c n := by
  unfold State.overbookedPosts
  rw [State.readied_get]
  rfl

/-- A frame start of a channel made ready for it, after which a timer is started, is a frame of the channel as it was
before (R27, R92–R94, R98). -/
theorem State.frameStart_readied (g : Channel → Channel)
    (hg : ∀ k, ∃ x y, g k = { k with loss := x, freeRun := y }) :
    let t := ((s.readied c state loss freeRun signals).frameStart c).modChannel c g
    FrameMade c signals s t ∧ FrameFrame c s t ∧ ∃ mark n, t.channels.get c =
      g { s.channels.get c with
          state := state, loss := loss, freeRun := freeRun, active := (s.channels.get c).nextConfig, pending := none
          overbooked := mark, dropped := n } := by
  obtain ⟨hmade, hdiscarded, mark, n, hchannels⟩ := (s.readied c state loss freeRun signals).frameStart_spec c
  have htimers : ∀ d, ∃ x y, ((((s.readied c state loss freeRun signals).frameStart c).modChannel c g).channels.get d) =
      { ((s.readied c state loss freeRun signals).frameStart c).channels.get d with loss := x, freeRun := y } := by
    intro d
    rw [State.modChannel_channels, Four.get_modify]
    split
    · exact hg _
    · exact ⟨_, _, rfl⟩
  have hothers : ∀ d : Chan, d ≠ c →
      (((s.readied c state loss freeRun signals).frameStart c).modChannel c g).channels.get d = s.channels.get d := by
    intro d hd
    rw [State.modChannel_channels, Four.get_modify_ne _ hd.symm, hchannels, Four.get_modify_ne _ hd.symm]
    exact Four.get_set_ne _ hd.symm _
  have hcompositors : ∀ d : Chan, d ≠ c →
      (((s.readied c state loss freeRun signals).frameStart c).modChannel c g).compositors.get d =
        s.compositors.get d := by
    intro d hd
    obtain ⟨f, hf, -⟩ := hmade
    rw [State.modChannel_compositors, hf]
    exact Four.get_set_ne _ hd.symm _
  refine ⟨?_, ?_, mark, n, ?_⟩
  · exact FrameMade.of hmade rfl (by rw [State.readied_get]; rfl) (by rw [State.readied_get]) rfl
      State.readied_appliedPosts (State.landedPosts_congr s _ c rfl fun _ => rfl) State.readied_overbookedPosts rfl rfl
      (by simp) (by simp) (by simp) (by simp) htimers
  · exact FrameFrame.of (Discarded.of_eq hdiscarded rfl rfl (by simp) (by simp)) (by simp [State.readied]) fun d hd =>
      ⟨hothers d hd, hcompositors d hd⟩
  · rw [State.modChannel_channels, Four.get_modify_self, hchannels, Four.get_modify_self, State.readied_get]
    rfl

end

theorem Channel.startLoss_timers (k : Channel) : ∃ x y, k.startLoss = { k with loss := x, freeRun := y } :=
  ⟨_, _, rfl⟩

theorem Channel.startFreeRun_timers (k : Channel) : ∃ x y, k.startFreeRun = { k with loss := x, freeRun := y } :=
  ⟨_, _, rfl⟩

/-! ### INPUT_FRAME_START (R92) -/

theorem State.inputArrives_off {s : State} {c : Chan} (h : (s.channels.get c).state = .off) : s.inputArrives c = s := by
  unfold State.inputArrives
  rw [h]

/-- Input timing makes a frame of a channel that is not OFF: its state is LOCKED, its free-run timer is stopped if it
was in FREERUN, and the loss timer starts after the frame. -/
theorem State.inputArrives_frame {s : State} {c : Chan} (h : (s.channels.get c).state ≠ .off) :
    s.inputArrives c =
      ((s.readied c .locked (s.channels.get c).loss
        (if (s.channels.get c).state = .freeRun then .stopped else (s.channels.get c).freeRun)
        (if (s.channels.get c).state = .locked then [] else s.signalPosts c .locked)).frameStart c).modChannel c
        Channel.startLoss := by
  unfold State.inputArrives State.inputFrame
  match hstate : (s.channels.get c).state with
  | .off => exact absurd hstate h
  | .seeking =>
    dsimp only
    rw [State.signal_eq]
    rfl
  | .locked =>
    have hself := s.readied_self c
    rw [hstate] at hself
    exact congrArg (fun t => (State.frameStart t c).modChannel c Channel.startLoss) hself.symm
  | .freeRun =>
    dsimp only
    rw [State.signal_eq, State.readied_modChannel (x := (s.channels.get c).loss) (y := .stopped) fun _ => rfl]
    rfl

/-- Settles O48. -/
theorem inputFrameStartMakesAFrame : Obligations.InputFrameStartMakesAFrame := by
  unfold Obligations.InputFrameStartMakesAFrame
  intro s c
  refine ⟨fun hoff => congrArg Host.Outcome.next (State.inputArrives_off hoff), fun hstate => ?_⟩
  obtain ⟨hmade, hframe, mark, n, hget⟩ := State.frameStart_readied (s := s) (c := c) (state := .locked)
    (loss := (s.channels.get c).loss)
    (freeRun := if (s.channels.get c).state = .freeRun then .stopped else (s.channels.get c).freeRun)
    (signals := if (s.channels.get c).state = .locked then [] else s.signalPosts c .locked) Channel.startLoss
    Channel.startLoss_timers
  refine ⟨_, congrArg Host.Outcome.next (State.inputArrives_frame hstate), hmade, hframe, ?_, ?_, ?_⟩
  · rw [hget]
    rfl
  · rw [hget]
    rfl
  · rw [hget]
    rfl

/-! ### LOSS_TIMER_EXPIRY (R93, R95, R97) -/

theorem Timer.due_iff (x : Timer) : x.due = true ↔ ∃ d, x = .running d 0 := by
  cases x with
  | stopped => simp [Timer.due]
  | running d n => simp [Timer.due]

theorem Timer.not_due {x : Timer} (h : ∀ d, x ≠ .running d 0) : ¬ x.due = true := fun hdue => by
  obtain ⟨d, hd⟩ := x.due_iff.mp hdue
  exact h d hd

theorem State.enterFreeRun_eq (s : State) (c : Chan) :
    s.enterFreeRun c =
      ((s.readied c .freeRun .stopped (s.channels.get c).freeRun (s.signalPosts c .freeRun)).frameStart c).modChannel c
        Channel.startFreeRun := by
  unfold State.enterFreeRun
  rw [State.signal_eq,
    State.readied_modChannel (x := .stopped) (y := (s.channels.get c).freeRun) fun _ => rfl]

/-- Channel c on its way into SEEKING, before it stops drawing (R93, R95, R103). -/
def State.seeking (s : State) (c : Chan) : State :=
  (((s.signal c .seeking).activatePending c).modChannel c fun k => { k with freeRun := .stopped }).modChannel c
    Channel.startLoss

section
variable {s : State} {c : Chan}

theorem State.seeking_posted :
    (s.seeking c).posted = s.posted ++ s.signalPosts c .seeking ++ s.appliedPosts c := by
  have happlied : (s.signal c .seeking).appliedPosts c = s.appliedPosts c := by
    rw [State.signal_eq]
    exact State.readied_appliedPosts
  unfold State.seeking
  rw [State.modChannel_posted, State.modChannel_posted, State.activatePending_posted, happlied, State.signal_posted]

theorem State.seeking_landedPosts : (s.seeking c).landedPosts c = s.landedPosts c :=
  State.landedPosts_congr s _ c (by simp [State.seeking]) fun i => State.isActive_congr (by simp [State.seeking]) i

/-- The whole state after the entry into SEEKING, but for the rows and the cells (R93, R95). -/
theorem State.enterSeeking_eq (s : State) (c : Chan) :
    s.enterSeeking c =
      { s with
        channels := s.channels.set c { s.channels.get c with
          state := .seeking, active := (s.channels.get c).nextConfig, pending := none, freeRun := .stopped
          loss := .running (2 * (s.channels.get c).nextConfig.period) (2 * (s.channels.get c).nextConfig.period)
          overbooked := false, dropped := 0 }
        compositors := s.compositors.set c none
        rows := (s.enterSeeking c).rows
        leased := (s.enterSeeking c).leased
        cells := (s.enterSeeking c).cells
        posted := s.posted ++ s.signalPosts c .seeking ++ s.appliedPosts c ++ s.landedPosts c } := by
  have hposted : (s.enterSeeking c).posted =
      s.posted ++ s.signalPosts c .seeking ++ s.appliedPosts c ++ s.landedPosts c := by
    obtain ⟨-, hposted, -⟩ := (s.seeking c).stopDrawing_spec c
    exact hposted.trans (by rw [State.seeking_posted, State.seeking_landedPosts])
  exact State.eq_of_fields (by simp) (by simp) (by simp) hposted (by simp) (by simp) (by dsimp only) (by dsimp only)
    (by dsimp only) (by simp) (by simp) (s.enterSeeking_channels c) (s.enterSeeking_compositors c) (by simp) (by simp)

theorem State.enterSeeking_kept (s : State) (c : Chan) :
    RowsWithout c s (s.enterSeeking c) ∧ GlyphsKept s (s.enterSeeking c) ∧ DiscardsOnly s (s.enterSeeking c) :=
  State.stopDrawing_kept (u := s.seeking c) c (by simp [State.seeking]) (by simp [State.seeking])
    (by simp [State.seeking])

theorem State.lossExpires_due {d : Nat} (h : (s.channels.get c).loss = .running d 0) :
    s.lossExpires c = s.lossTaken c := by
  unfold State.lossExpires
  exact if_pos ((Timer.due_iff _).mpr ⟨d, h⟩)

theorem State.lossTaken_seeking (h : (s.channels.get c).state = .seeking) :
    s.lossTaken c =
      if (s.channels.get c).active.freeRunPermitted then s.enterFreeRun c else s.modChannel c Channel.startLoss := by
  unfold State.lossTaken
  rw [h]

theorem State.lossTaken_locked (h : (s.channels.get c).state = .locked) :
    s.lossTaken c = if (s.channels.get c).active.freeRunPermitted then s.enterFreeRun c else s.enterSeeking c := by
  unfold State.lossTaken
  rw [h]

end

/-- Settles O49: the split is on whether the timer has run out, then on the state and on whether free-run is
permitted. -/
theorem lossTimerExpiryEntersFreeRunOrSeeking : Obligations.LossTimerExpiryEntersFreeRunOrSeeking := by
  unfold Obligations.LossTimerExpiryEntersFreeRunOrSeeking
  intro s c
  refine ⟨fun hleft => congrArg Host.Outcome.next (if_neg (Timer.not_due hleft)), fun d hdue => ?_⟩
  have htaken := State.lossExpires_due hdue
  refine ⟨fun hstate hpermitted => ?_, fun hstate hdenied => ?_, fun hstate hdenied => ?_⟩
  · have hfreeRun : s.lossTaken c = s.enterFreeRun c := by
      rcases hstate with hstate | hstate
      · exact (State.lossTaken_seeking hstate).trans (if_pos hpermitted)
      · exact (State.lossTaken_locked hstate).trans (if_pos hpermitted)
    obtain ⟨hmade, hframe, mark, n, hget⟩ := State.frameStart_readied (s := s) (c := c) (state := .freeRun)
      (loss := .stopped) (freeRun := (s.channels.get c).freeRun) (signals := s.signalPosts c .freeRun)
      Channel.startFreeRun Channel.startFreeRun_timers
    have hexec := (htaken.trans hfreeRun).trans (s.enterFreeRun_eq c)
    refine ⟨_, congrArg Host.Outcome.next hexec, hmade, hframe, ?_, ?_, ?_⟩
    · rw [hget]
      rfl
    · rw [hget]
      rfl
    · rw [hget]
      rfl
  · exact congrArg Host.Outcome.next
      (htaken.trans ((State.lossTaken_seeking hstate).trans (if_neg (Bool.eq_false_iff.mp hdenied))))
  · have hexec := htaken.trans ((State.lossTaken_locked hstate).trans (if_neg (Bool.eq_false_iff.mp hdenied)))
    exact ⟨_, congrArg Host.Outcome.next hexec, s.enterSeeking_eq c, s.enterSeeking_kept c⟩

/-! ### FREE_RUN_TIMER_EXPIRY (R94, R97) -/

theorem State.freeRunExpires_due {s : State} {c : Chan} {d : Nat} (h : (s.channels.get c).freeRun = .running d 0)
    (hstate : (s.channels.get c).state = .freeRun) :
    s.freeRunExpires c =
      ((s.readied c .freeRun (s.channels.get c).loss (s.channels.get c).freeRun []).frameStart c).modChannel c
        Channel.startFreeRun := by
  have hself := s.readied_self c
  rw [hstate] at hself
  unfold State.freeRunExpires State.freeRunTaken
  rw [if_pos ((Timer.due_iff _).mpr ⟨d, h⟩), hstate, hself]

/-- Settles O50. -/
theorem freeRunTimerExpiryMakesAFrame : Obligations.FreeRunTimerExpiryMakesAFrame := by
  unfold Obligations.FreeRunTimerExpiryMakesAFrame
  intro s c
  refine ⟨fun hleft => congrArg Host.Outcome.next (if_neg (Timer.not_due hleft)), fun d hdue hstate => ?_⟩
  obtain ⟨hmade, hframe, mark, n, hget⟩ := State.frameStart_readied (s := s) (c := c) (state := .freeRun)
    (loss := (s.channels.get c).loss) (freeRun := (s.channels.get c).freeRun) (signals := [])
    Channel.startFreeRun Channel.startFreeRun_timers
  refine ⟨_, congrArg Host.Outcome.next (State.freeRunExpires_due hdue hstate), hmade, hframe, ?_, ?_, ?_⟩
  · rw [hget]
    rfl
  · rw [hget]
    rfl
  · rw [hget]
    rfl

end Sys2Proof.Machine

/-! SUPPORT. The draw list: layer order, and the placements that the draw budget keeps (R106, R118). -/
namespace Sys2Proof.Machine

/-- One placement lies beneath another: a lower priority, or the same and a lower row number (R118). -/
def Beneath (latched : Table Version 48) (d e : DrawItem) : Prop :=
  (latched.get d.row).style.priority < (latched.get e.row).style.priority ∨
    (latched.get d.row).style.priority = (latched.get e.row).style.priority ∧ d.row < e.row

theorem Beneath.ne {latched : Table Version 48} {d e : DrawItem} (h : Beneath latched d e) : d ≠ e := by
  rintro rfl
  rcases h with h | ⟨-, h⟩
  · exact lt_irrefl _ h
  · exact lt_irrefl _ h

theorem ascending_pairwise (n : Nat) : (ascending n).Pairwise (· < ·) := by
  rw [ascending, List.pairwise_ofFn]
  exact fun _ _ h => h

section
variable (c : Chan) (k : ChanConfig) (latched : Table Version 48)

theorem mem_drawables (d : DrawItem) :
    d ∈ drawables c k latched ↔
      placementOn c (latched.get d.row) = some d.placement ∧ d.placement.tile.val < k.layout.tileCount := by
  unfold drawables
  rw [List.mem_filterMap]
  constructor
  · rintro ⟨r, -, h⟩
    split at h
    · next q hq =>
      split at h
      · cases h
      · next hshown =>
        cases h
        exact ⟨hq, by simpa [suspended] using hshown⟩
    · cases h
  · rintro ⟨hq, hshown⟩
    refine ⟨d.row, mem_ascending _, ?_⟩
    rw [hq]
    exact if_neg (by simpa [suspended] using hshown)

theorem drawables_pairwise : (drawables c k latched).Pairwise fun d e => d.row < e.row := by
  have hrow : ∀ {r : RowNo} {d : DrawItem}, (match placementOn c (latched.get r) with
      | some q => if suspended k q then none else some { row := r, placement := q }
      | none => none) = some d → d.row = r := by
    intro r d h
    split at h
    · split at h
      · cases h
      · cases h
        rfl
    · cases h
  unfold drawables
  rw [List.pairwise_filterMap]
  refine (ascending_pairwise 48).imp fun {a b} hab d hd e he => ?_
  rw [hrow hd, hrow he]
  exact hab

theorem mem_layerOrder {items : List DrawItem} (d : DrawItem) : d ∈ layerOrder latched items ↔ d ∈ items := by
  unfold layerOrder
  simp [List.mem_flatMap, List.mem_filter, mem_ascending]

theorem layerOrder_pairwise {items : List DrawItem} (h : items.Pairwise fun d e => d.row < e.row) :
    (layerOrder latched items).Pairwise (Beneath latched) := by
  have hprio : ∀ {pr : Fin 8} {d : DrawItem},
      d ∈ items.filter (fun d => (latched.get d.row).style.priority == pr) →
        (latched.get d.row).style.priority = pr := fun hd => by simpa using (List.mem_filter.mp hd).2
  unfold layerOrder
  rw [List.pairwise_flatMap]
  constructor
  · intro pr _
    refine (List.Pairwise.filter _ h).imp_of_mem fun hd he hrow => .inr ⟨?_, hrow⟩
    rw [hprio hd, hprio he]
  · refine (ascending_pairwise 8).imp fun {a b} hab d hd e he => .inl ?_
    rw [hprio hd, hprio he]
    exact hab

theorem layerOrder_perm {items : List DrawItem} (h : items.Pairwise fun d e => d.row < e.row) :
    (layerOrder latched items).Perm items :=
  have hitems : items.Nodup := h.imp fun hrow heq => by
    rw [heq] at hrow
    exact lt_irrefl _ hrow
  (List.perm_ext_iff_of_nodup ((layerOrder_pairwise latched h).imp Beneath.ne) hitems).mpr (mem_layerOrder latched)

end

/-- Settles O51: the draw list is the end of the layer order, and the order puts what is dropped beneath it. -/
theorem drawListKeepsTheHighest : Obligations.DrawListKeepsTheHighest := by
  unfold Obligations.DrawListKeepsTheHighest
  intro c k latched all list
  have horder := layerOrder_pairwise latched (drawables_pairwise c k latched)
  have hperm : (layerOrder latched all).Perm all := layerOrder_perm latched (drawables_pairwise c k latched)
  have hlist : list.Sublist (layerOrder latched all) := List.drop_sublist _ _
  have hpairwise : list.Pairwise (Beneath latched) := horder.sublist hlist
  refine ⟨mem_drawables c k latched, fun d hd => (mem_layerOrder latched d).mp (hlist.subset hd),
    hpairwise.imp Beneath.ne, ?_, fun d hd hout e he => ?_, hpairwise⟩
  · have hlength : list.length = (layerOrder latched all).length - ((layerOrder latched all).length - 32) :=
      List.length_drop
    rw [hlength, hperm.length_eq]
    omega
  · have hsplit := List.take_append_drop ((layerOrder latched all).length - 32) (layerOrder latched all)
    have hd : d ∈ layerOrder latched all := (mem_layerOrder latched d).mpr hd
    rw [← hsplit, List.mem_append] at hd
    rw [← hsplit, List.pairwise_append] at horder
    obtain ⟨-, -, hacross⟩ := horder
    exact hacross d (hd.resolve_right hout) e he

end Sys2Proof.Machine

/-! SUPPORT. Tiles, clip rectangles and row boxes (R109, R111, R112, R119, R121, R128). -/
namespace Sys2Proof.Machine

/-! ### Tiles (R111) -/

/-- n parts of a length w, cut at the whole numbers below i * w / n, cover the numbers below w. -/
theorem exists_part {n w x : Nat} (hn : 0 < n) (hx : x < w) :
    ∃ i, i < n ∧ i * w / n ≤ x ∧ x < (i + 1) * w / n := by
  have hlast : x < (n - 1 + 1) * w / n := by
    rw [Nat.sub_add_cancel hn, Nat.mul_div_cancel_left w hn]
    exact hx
  have hexists : ∃ i, x < (i + 1) * w / n := ⟨n - 1, hlast⟩
  refine ⟨Nat.find hexists, ?_, ?_, Nat.find_spec hexists⟩
  · have hmin := Nat.find_min' hexists hlast
    omega
  · cases hi : Nat.find hexists with
    | zero => simp
    | succ i => exact Nat.not_lt.mp (Nat.find_min hexists (by omega))

theorem Layout.columns_pos (l : Layout) : 0 < l.columns := by cases l <;> decide

theorem Layout.tileRows_pos (l : Layout) : 0 < l.tileRows := by cases l <;> decide

section
variable (k : ChanConfig)

/-- The tile in column i of tile row j (R111). -/
theorem tileRect_at {i j : Nat} (hi : i < k.layout.columns) :
    tileRect k (j * k.layout.columns + i) =
      { left := (i * k.raster.width / k.layout.columns : Nat)
        right := ((i + 1) * k.raster.width / k.layout.columns : Nat) - 1
        top := (j * k.raster.height / k.layout.tileRows : Nat)
        bottom := ((j + 1) * k.raster.height / k.layout.tileRows : Nat) - 1 } := by
  have hcolumn : (j * k.layout.columns + i) % k.layout.columns = i := by
    rw [Nat.mul_add_mod', Nat.mod_eq_of_lt hi]
  have hrow : (j * k.layout.columns + i) / k.layout.columns = j := by
    rw [Nat.mul_comm, Nat.mul_add_div k.layout.columns_pos, Nat.div_eq_of_lt hi, Nat.add_zero]
  unfold tileRect
  dsimp only
  rw [hcolumn, hrow]

theorem exists_tile {x y : Int} (h : inPlane k x y = true) :
    ∃ t, t < k.layout.tileCount ∧ (tileRect k t).has x y = true := by
  obtain ⟨hleft, hright, htop, hbottom⟩ := (inPlane_iff k x y).mp h
  lift x to Nat using hleft
  lift y to Nat using htop
  obtain ⟨i, hi, hil, hir⟩ := exists_part (x := x) k.layout.columns_pos (by exact_mod_cast hright)
  obtain ⟨j, hj, hjt, hjb⟩ := exists_part (x := y) k.layout.tileRows_pos (by exact_mod_cast hbottom)
  refine ⟨j * k.layout.columns + i, ?_, ?_⟩
  · have hcount : (j + 1) * k.layout.columns ≤ k.layout.tileRows * k.layout.columns := Nat.mul_le_mul_right _ hj
    unfold Layout.tileCount
    rw [Nat.mul_comm k.layout.columns]
    rw [Nat.add_mul] at hcount
    omega
  · rw [tileRect_at k hi, Rect.has_iff]
    dsimp only
    omega

/-! ### Row boxes (R119, R121, R128) -/

theorem advanceSum_cast (cells : Table Cell 256) (text : List Position) :
    ((advanceSum cells text : Nat) : Int) = (text.map fun u => ((cells.get u.cell).advance : Int)).sum := by
  unfold advanceSum
  induction text with
  | nil => rfl
  | cons q rest ih => simp [ih]

theorem boxWidth_cast (cells : Table Cell 256) (v : Version) :
    (boxWidth k cells v : Int) =
      (k.scale.factor : Int) * (v.text.map fun u => ((cells.get u.cell).advance : Int)).sum +
        (if v.style.box = true then 4 * (k.scale.factor : Int) else 0) := by
  unfold boxWidth
  rw [← advanceSum_cast]
  push_cast
  rfl

theorem boxHeight_cast : (boxHeight k : Int) = 24 * (k.scale.factor : Int) := by
  unfold boxHeight
  push_cast
  rfl

theorem placementClipped_iff (cells : Table Cell 256) (v : Version) (q : Placement) :
    placementClipped k cells v q = true ↔
      q.tile.val < k.layout.tileCount ∧ (0 : Int) < boxWidth k cells v ∧
        ((boxOrigin k cells v q).1 < (clipRect k q.tile.val).left ∨
          (clipRect k q.tile.val).right < (boxOrigin k cells v q).1 + boxWidth k cells v - 1 ∨
          (boxOrigin k cells v q).2 < (clipRect k q.tile.val).top ∨
          (clipRect k q.tile.val).bottom < (boxOrigin k cells v q).2 + boxHeight k - 1) := by
  unfold placementClipped suspended
  simp only [Bool.and_eq_true, Bool.or_eq_true, Bool.not_eq_true', decide_eq_true_eq, decide_eq_false_iff_not, not_le,
    and_assoc, or_assoc, gt_iff_lt]

end

/-- Settles O52. -/
theorem tilesCoverThePlaneOnce : Obligations.TilesCoverThePlaneOnce := by
  unfold Obligations.TilesCoverThePlaneOnce
  refine ⟨Rect.has_iff, fun k => ⟨?_, ?_, rfl, ?_, inPlane_iff k, fun i j hi _ => tileRect_at k hi, fun t => rfl,
    fun x y h => ?_, fun cells v q => ?_⟩⟩
  · cases k.raster <;> rfl
  · cases k.layout <;> rfl
  · cases k.scale <;> rfl
  · obtain ⟨t, ht, hhas⟩ := exists_tile k h
    exact ⟨t, ht, hhas, fun u hu hhas' => tile_unique k t u x y ht hu hhas hhas'⟩
  · intro scale r width height left top
    have hwidth : (boxWidth k cells v : Int) = width := boxWidth_cast k cells v
    have hheight : (boxHeight k : Int) = height := boxHeight_cast k
    have horigin : boxOrigin k cells v q = (left, top) := by
      unfold boxOrigin
      dsimp only
      rw [hwidth, hheight, Int.add_comm, Int.add_comm _ q.y]
      rfl
    refine ⟨hwidth, hheight, horigin, ?_⟩
    have hclipped := placementClipped_iff k cells v q
    rw [hwidth, hheight, horigin] at hclipped
    exact hclipped

end Sys2Proof.Machine

/-! SUPPORT. Pixels: what a row draws, the layers of a frame, and the outputs (R91, R110, R115–R118, R120, R122,
R124–R126, R184). -/
namespace Sys2Proof.Machine

/-! ### One row at one pixel (R120, R122, R124–R126) -/

/-- The width that a row box leaves before its text (R119, R120). -/
def textMargin (k : ChanConfig) (v : Version) : Nat := if v.style.box then 2 * k.scale.factor else 0

/-- What lies beneath a row's text: its box, if it has one, over what lies beneath the row (R122, R125). -/
def boxedOver (v : Version) (beneath : Colour) : Colour :=
  if v.style.box then blendOver v.style.blend v.style.shade beneath else beneath

/-- A pixel code of a text drawn over the box (R124, R126). -/
def Style.drawCode (st : Style) (code : BitVec 2) (boxed : Colour) : Colour :=
  match code.toNat with
  | 0 => boxed
  | 1 => blendOver st.blend st.ink boxed
  | 2 => blendOver st.blend st.edge boxed
  | _ => blendOver st.blend st.shade boxed

theorem codeColour_over (st : Style) (code : BitVec 2) (boxed : Colour) :
    (match codeColour st code with
      | some colour => blendOver st.blend colour boxed
      | none => boxed) = st.drawCode code boxed := by
  unfold codeColour Style.drawCode
  match code.toNat with
  | 0 => rfl
  | 1 => rfl
  | 2 => rfl
  | _ + 3 => rfl

theorem textMargin_cast (k : ChanConfig) (v : Version) :
    (textMargin k v : Int) = if v.style.box = true then 2 * (k.scale.factor : Int) else 0 := by
  unfold textMargin
  push_cast
  rfl

/-- The pixel at (dx, dy) of a row box is drawn: it lies in the box and in the clip rectangle of the placement's tile.
-/
def InsideBox (k : ChanConfig) (cells : Table Cell 256) (v : Version) (q : Placement) (x y dx dy : Int) : Prop :=
  (clipRect k q.tile.val).has x y = true ∧ 0 ≤ dx ∧ dx < boxWidth k cells v ∧ 0 ≤ dy ∧ dy < boxHeight k

section
variable {k : ChanConfig} {cells : Table Cell 256} {v : Version} {q : Placement} {x y dx dy : Int} {beneath : Colour}

theorem drawRow_outside (hx : dx = x - (boxOrigin k cells v q).1) (hy : dy = y - (boxOrigin k cells v q).2)
    (h : ¬ InsideBox k cells v q x y dx dy) : drawRow k cells v q x y beneath = beneath := by
  rw [drawRow_eq k cells v q x y beneath dx dy hx hy]
  exact if_neg h

theorem drawRow_inside (hx : dx = x - (boxOrigin k cells v q).1) (hy : dy = y - (boxOrigin k cells v q).2)
    (h : InsideBox k cells v q x y dx dy) :
    drawRow k cells v q x y beneath =
      if dx < textMargin k v then boxedOver v beneath
      else v.style.drawCode (textCode k.scale.factor cells v.text (dx.toNat - textMargin k v) dy.toNat)
        (boxedOver v beneath) := by
  rw [drawRow_eq k cells v q x y beneath dx dy hx hy, ← codeColour_over]
  exact if_pos h

/-- Left and right of its text a row draws its box alone. -/
theorem drawRow_beside (hx : dx = x - (boxOrigin k cells v q).1) (hy : dy = y - (boxOrigin k cells v q).2)
    (h : InsideBox k cells v q x y dx dy)
    (hbeside : dx - textMargin k v < 0 ∨ (k.scale.factor * advanceSum cells v.text : Nat) ≤ dx - textMargin k v) :
    drawRow k cells v q x y beneath = boxedOver v beneath := by
  rw [drawRow_inside hx hy h]
  by_cases hmargin : dx < textMargin k v
  · exact if_pos hmargin
  · have hbeyond : k.scale.factor * advanceSum cells v.text ≤ dx.toNat - textMargin k v := by omega
    rw [if_neg hmargin, textCode_beyond _ _ _ _ _ hbeyond]
    rfl

/-- In line i of column j of position n a row draws that pixel code of the position's cell. -/
theorem drawRow_at (hx : dx = x - (boxOrigin k cells v q).1) (hy : dy = y - (boxOrigin k cells v q).2)
    (h : InsideBox k cells v q x y dx dy) {n j : Nat} {u : Position} {i : Fin 24} (hu : v.text[n]? = some u)
    (hj : j < (cells.get u.cell).advance)
    (hleft : (k.scale.factor * advanceSum cells (v.text.take n) + k.scale.factor * j : Nat) ≤ dx - textMargin k v)
    (hright : dx - textMargin k v <
      (k.scale.factor * advanceSum cells (v.text.take n) + k.scale.factor * (j + 1) : Nat))
    (htop : (k.scale.factor * i.val : Nat) ≤ dy) (hbottom : dy < (k.scale.factor * (i.val + 1) : Nat)) :
    drawRow k cells v q x y beneath =
      v.style.drawCode (((cells.get u.cell).bitmap.get i).extractLsb' (30 - 2 * j) 2) (boxedOver v beneath) := by
  have hline : dy.toNat / k.scale.factor = i.val :=
    Nat.div_eq_of_lt_le (by rw [Nat.mul_comm]; omega) (by rw [Nat.mul_comm]; omega)
  have hcode : textCode k.scale.factor cells v.text (dx.toNat - textMargin k v) dy.toNat =
      cellCode (cells.get u.cell) (dy.toNat / k.scale.factor) j :=
    textCode_at _ cells v.text n j _ _ u hu hj (by omega) (by omega)
  have hcell : cellCode (cells.get u.cell) i.val j =
      ((cells.get u.cell).bitmap.get i).extractLsb' (30 - 2 * j) 2 := dif_pos i.isLt
  rw [drawRow_inside hx hy h, if_neg (by omega), hcode, hline, hcell]

end

/-! ### The layers of a frame (R115–R118) -/

theorem underlay_eq {k : ChanConfig} {t : Nat} {x y : Int} (state : SignalState) (input : Colour)
    (ht : t < k.layout.tileCount) (h : (tileRect k t).has x y = true) :
    underlay k state input x y =
      if (clipRect k t).has x y = false then k.borderColour
      else if state = .locked ∧ k.videoMask.getLsbD t = true then input
      else k.background := by
  unfold underlay
  dsimp only
  rw [tileAt_eq k t x y ht h]
  simp only [Bool.not_eq_true', Bool.and_eq_true, beq_iff_eq]

/-- A generated frame does not look at the input (R116). -/
theorem composedPixel_freeRun (f : FrameLatch) (cells : Table Cell 256) (a b : Colour) (x y : Int) :
    composedPixel f .freeRun cells a x y = composedPixel f .freeRun cells b x y := rfl

/-! ### The outputs (R91, R110, R184) -/

section
variable {s : State} {c : Chan}

theorem State.videoOut_through (x y : Int) (input : Option Colour)
    (h : (s.channels.get c).state = .off ∨ (s.channels.get c).state = .seeking) :
    s.videoOut c x y input = input := by
  unfold State.videoOut
  rcases h with h | h
  · rw [h]
  · rw [h]

theorem State.output_follows (h : (s.channels.get c).state ≠ .freeRun) :
    s.videoClock c = .input ∧ ∀ {α : Type} (data : Option α), s.ancillaryOut c data = data := by
  unfold State.videoClock State.ancillaryOut
  match hstate : (s.channels.get c).state with
  | .off => exact ⟨rfl, fun _ => rfl⟩
  | .seeking => exact ⟨rfl, fun _ => rfl⟩
  | .locked => exact ⟨rfl, fun _ => rfl⟩
  | .freeRun => exact absurd hstate h

theorem State.output_generated (h : (s.channels.get c).state = .freeRun) :
    s.videoClock c = .generated (s.channels.get c).active.raster (s.channels.get c).active.period ∧
      ∀ {α : Type} (data : Option α), s.ancillaryOut c data = none := by
  unfold State.videoClock State.ancillaryOut
  rw [h]
  exact ⟨rfl, fun _ => rfl⟩

theorem State.videoOut_locked {f : FrameLatch} (x y : Int) (input : Option Colour)
    (hstate : (s.channels.get c).state = .locked) (hf : s.compositors.get c = some f) :
    s.videoOut c x y input =
      input.map fun pixel => if inPlane f.config x y then composedPixel f .locked s.cells pixel x y else pixel := by
  unfold State.videoOut
  rw [hstate, hf]
  cases input <;> rfl

theorem State.videoOut_freeRun {f : FrameLatch} (x y : Int) (input : Option Colour)
    (hstate : (s.channels.get c).state = .freeRun) (hf : s.compositors.get c = some f) :
    s.videoOut c x y input =
      if inPlane f.config x y then some (composedPixel f .freeRun s.cells f.config.background x y) else none := by
  unfold State.videoOut
  rw [hstate, hf]

end

/-- Settles O53: the rows by the place of the pixel in their box, the layers by the tile of the pixel, and the outputs
by the state of the channel. -/
theorem rowsDrawInsideTheirClip : Obligations.RowsDrawInsideTheirClip := by
  unfold Obligations.RowsDrawInsideTheirClip
  refine ⟨fun k cells v q x y beneath => ?_, fun f state cells input x y t ht h => ?_, fun s c => ?_⟩
  · intro scale dx dy inside advances half blended boxed textX drawn
    have hadvances : ∀ text : List Position, advances text = (advanceSum cells text : Int) := fun text =>
      (advanceSum_cast cells text).symm
    have htextX : textX = dx - textMargin k v := by rw [textMargin_cast]
    refine ⟨drawRow_outside rfl rfl, fun hin hbeside => ?_, fun hin n u i j hu hj hleft hright htop hbottom => ?_⟩
    · rw [hadvances, htextX] at hbeside
      exact drawRow_beside rfl rfl hin (by exact_mod_cast hbeside)
    · rw [hadvances, htextX] at hleft hright
      exact drawRow_at rfl rfl hin hu hj (by exact_mod_cast hleft) (by exact_mod_cast hright) (by exact_mod_cast htop)
        (by exact_mod_cast hbottom)
  · unfold composedPixel
    rw [underlay_eq state input ht h]
  · refine ⟨fun hstate => ⟨State.output_follows ?_, fun x y input => State.videoOut_through x y input hstate⟩,
      fun hstate => State.output_follows (by rw [hstate]; decide), State.output_generated,
      fun f hf x y pixel => ⟨fun hstate => ⟨?_, ?_⟩, fun hstate input => ?_⟩⟩
    · rcases hstate with hstate | hstate
      · rw [hstate]; decide
      · rw [hstate]; decide
    · exact State.videoOut_locked x y none hstate hf
    · exact State.videoOut_locked x y (some pixel) hstate hf
    · exact (State.videoOut_freeRun x y input hstate hf).trans (by rw [composedPixel_freeRun f s.cells _ pixel])

end Sys2Proof.Machine
